-- ==== Sys2Proof/Word.lean ====
section
/-! DEFINITION. The block's data words: bytes, flash addresses, phrases and frames.

The spec counts bits of a byte from 7 down to 0 (R12), gives flash a 24-bit address (R61), programs
flash in phrases of eight bytes (R31) and carries commands in frames (R91). No operation treats a
value as signed (R12). -/

namespace Sys2Proof

/-- A byte: eight bits, unsigned (R12). -/
abbrev Byte := BitVec 8

/-- A flash address: 24 bits, the one address space of R61. -/
abbrev Addr := BitVec 24

/-- Eight data bytes of one phrase, lowest address first (R31, R34). -/
structure Phrase where
  d0 : Byte
  d1 : Byte
  d2 : Byte
  d3 : Byte
  d4 : Byte
  d5 : Byte
  d6 : Byte
  d7 : Byte
deriving DecidableEq, Repr, Inhabited

/-- A frame without its checksum: command byte and three parameters (R17, R26). -/
structure Frame where
  command : Byte
  p1 : Byte
  p2 : Byte
  p3 : Byte
deriving DecidableEq, Repr, Inhabited

/-- A flash command descriptor: opcode, 24-bit address, eight data bytes (R34). -/
structure Descriptor where
  opcode : Byte
  addr : Addr
  data : Phrase
deriving DecidableEq, Repr, Inhabited

end Sys2Proof
end

