-- ==== Sys2Proof/Config.lean ====
section
/-! DEFINITION. What an implementation fixes: the parameters of R10 with the constraints of R11, and
the values the spec leaves open, as constants without a body. -/

namespace Sys2Proof

/-- The two concurrency arrangements of R251; a build has one for its whole life. -/
inductive Regime
  | polled
  | threaded
deriving DecidableEq, Repr

/-- The parameters of R10 that may differ between instances of the block. They never change while it
runs (R42, R251). -/
structure Build where
  /-- `C`, capacity of every Byte Pipe. -/
  capacity : Nat
  /-- `REGION_LEN`, bytes in the flash data region. -/
  regionLen : Nat
  /-- `FLASH_DATA_START`. -/
  flashStart : Addr
  /-- `SECTOR_BYTES`. -/
  sectorBytes : Nat
  /-- `ERASED_BYTE`. -/
  erasedByte : Byte
  /-- `VER_HI`. -/
  verHi : Byte
  /-- `VER_LO`. -/
  verLo : Byte
  /-- `REGIME`. -/
  regime : Regime
  /-- `MULTI_ACCESS`. -/
  multiAccess : Bool
deriving DecidableEq, Repr

namespace Config

/-- `FRAME_LEN` (R10). -/
def frameLen : Nat := 5

/-- `PHRASE_BYTES` (R10). -/
def phraseBytes : Nat := 8

/-- `OPC_PROGRAM_PHRASE` (R10). PRESUMED (log 5): the spec takes the value from general knowledge. -/
def opcProgramPhrase : Byte := 0x07#8

/-- `OPC_ERASE_SECTOR` (R10). PRESUMED (log 5). -/
def opcEraseSector : Byte := 0x09#8

/-- What the open handler of command 0x04 does in one call (R205): the frames it puts into `TXF`
before it returns, and its result. DESIGN CHOICE (log 10): both are fixed before its first FR_PUT, so the
handler does not react to an FR_PUT that meets a full `TXF`. -/
structure StartupAnswer where
  frames : List Frame
  success : Bool
  r1 : Byte
  r2 : Byte
  r3 : Byte
deriving DecidableEq, Repr, Inhabited

/-- `H_STARTUP`, the open handler of R205: a FREE VALUE (log 10). The first argument is the model's
counter of free values, so that two calls may answer differently; the others are `p1 p2 p3`. -/
opaque hStartup : Nat → Byte → Byte → Byte → StartupAnswer

/-- The eight data bytes the write path leaves in the descriptor of an erase: a FREE VALUE (log 11).
R182: they are written but unused, and "their value is irrelevant". -/
opaque eraseData : Nat → Phrase

/-- What a byte holds after a reset that met a flash command which would have changed it: a FREE VALUE
(log 20; U27, "any value"). The first argument is the model's counter of free values, the second the
byte's address. -/
opaque tornByte : Nat → Nat → Byte

end Config

namespace Build

/-- `SECTOR_BASE = FLASH_DATA_START - (FLASH_DATA_START mod SECTOR_BYTES)` (R10). -/
def sectorBase (b : Build) : Nat := b.flashStart.toNat - b.flashStart.toNat % b.sectorBytes

/-- The constraints between parameters that every instance must meet (R10, R11). -/
def ok (b : Build) : Bool :=
  decide (1 ≤ b.capacity) && decide (0 < b.regionLen) && decide (b.regionLen % 8 = 0)
    && decide (b.flashStart.toNat % 8 = 0) && decide (b.sectorBytes % 8 = 0)
    && decide (8 < b.sectorBytes)
    && decide (b.flashStart.toNat + b.regionLen ≤ b.sectorBase + b.sectorBytes)
    && decide (b.sectorBase + b.sectorBytes ≤ 2 ^ 24)

/-- The parameters the model's reset state is built with: the reference values of R10; for the open
ones the example values of R62 and of the test vectors. DESIGN CHOICE (logs 3 and 4). -/
def reference : Build where
  capacity := 256
  regionLen := 8
  flashStart := 0x080000#24
  sectorBytes := 4096
  erasedByte := 0xFF#8
  verHi := 1#8
  verLo := 0#8
  regime := .polled
  multiAccess := false

end Build

end Sys2Proof
end

