-- ==== Sys2Proof/Syntax.lean ====
section
/-! DEFINITION. The instructions: one constructor per row of spec/opcode_table.json.

They are of three kinds (R2): the operations of the block's request interface (format `OP`, R104),
the command frames that arrive on the wire (format `FRAME`, R91, R98), and the command descriptors
given to the flash sequencer (format `FCCOB`, R100). -/

namespace Sys2Proof

/-- The pipes of the one transport (R20). -/
inductive PipeId
  | rxf
  | txf
deriving DecidableEq, Repr

/-- The semaphores of R24 and R25. -/
inductive Sem
  | space (p : PipeId)
  | items (p : PipeId)
  | lock (p : PipeId)
  | txlock
deriving DecidableEq, Repr

/-- The three encoded formats of R90. -/
inductive Format
  | op
  | frame
  | fccob
deriving DecidableEq, Repr

/-- One constructor per row of the opcode table. A frame keeps its ack bit and its checksum byte,
which the row's mask leaves free (R98); a descriptor keeps its address and its eight data bytes. -/
inductive Instr
  | pipeInit (p : PipeId)
  | pipePut (p : PipeId) (b : Byte)
  | pipeGet (p : PipeId)
  | pipePutB (p : PipeId) (b : Byte)
  | pipeGetB (p : PipeId)
  | semWait (x : Sem)
  | semSignal (x : Sem)
  | codecInit
  | frStep
  | frGet
  | frPut (c p1 p2 p3 : Byte)
  | frPutB (c p1 p2 p3 : Byte)
  | nvInit
  /-- NV_ALLOC (R161). R104 and R105 give `size` no width; one byte is a DESIGN CHOICE (log 7). -/
  | nvAlloc (size : Byte)
  | nvRead8 (a : Addr)
  | nvRead16 (a : Addr)
  | nvRead32 (a : Addr)
  | nvWrite8 (a : Addr) (v : Byte)
  | nvWrite16 (a : Addr) (v : BitVec 16)
  | nvWrite32 (a : Addr) (v : BitVec 32)
  | nvErase
  | seqLaunch (d : Descriptor)
  | seqWait
  | seqExec
  | dispatch (c p1 p2 p3 : Byte)
  | cmdStartup (ack : Bool) (p1 p2 p3 chk : Byte)
  | cmdPgmbyte (ack : Bool) (p1 p2 p3 chk : Byte)
  | cmdRdbyte (ack : Bool) (p1 p2 p3 chk : Byte)
  | cmdVersion (ack : Bool) (p1 p2 p3 chk : Byte)
  | cmdProtocol (ack : Bool) (p1 p2 p3 chk : Byte)
  | cmdNumber (ack : Bool) (p1 p2 p3 chk : Byte)
  | cmdTime (ack : Bool) (p1 p2 p3 chk : Byte)
  | cmdMode (ack : Bool) (p1 p2 p3 chk : Byte)
  | fcmdPgm8 (a : Addr) (d : Phrase)
  | fcmdErsscr (a : Addr) (d : Phrase)
deriving DecidableEq, Repr

end Sys2Proof
end

