-- ==== Sys2Proof/Machine/Operands.lean ====
section
/-! DEFINITION. Operand forms: fields of the command byte, the checksum, byte order of multi-byte
values on the wire, in flash and in a descriptor (R14, R64, R66, R92, R95 to R97, R100). -/

namespace Sys2Proof.Machine

/-- `ack(c) = c[7]` (R28, R95). -/
def ackOf (c : Byte) : Bool := c.getLsbD 7

/-- `code(c) = c & 0x7F` (R28, R95), as a byte whose bit 7 is clear. -/
def codeOf (c : Byte) : Byte := c &&& 0x7F#8

/-- A command byte from its flag and its code: `(flag ? 0x80 : 0x00) | code` (R95). -/
def commandByte (flag : Bool) (code : Byte) : Byte := (if flag then 0x80#8 else 0x00#8) ||| code

/-- `chk(c, p1, p2, p3) = c ^ p1 ^ p2 ^ p3` (R92). -/
def checksum (c p1 p2 p3 : Byte) : Byte := c ^^^ p1 ^^^ p2 ^^^ p3

/-- `le16` (R14). -/
def le16 (b0 b1 : Byte) : BitVec 16 := b0.setWidth 16 ||| (b1.setWidth 16 <<< 8)

/-- `le32` (R14). -/
def le32 (b0 b1 b2 b3 : Byte) : BitVec 32 :=
  b0.setWidth 32 ||| (b1.setWidth 32 <<< 8) ||| (b2.setWidth 32 <<< 16) ||| (b3.setWidth 32 <<< 24)

/-- Byte `i` of a value, `v[8i+7:8i]` (R14, R66). -/
def byteOf {w : Nat} (v : BitVec w) (i : Nat) : Byte := v.extractLsb' (8 * i) 8

/-- `bytes_le(v, 8)` of a 64-bit phrase value (R14). -/
def bytesLe64 (q : BitVec 64) : List Byte :=
  [byteOf q 0, byteOf q 1, byteOf q 2, byteOf q 3, byteOf q 4, byteOf q 5, byteOf q 6, byteOf q 7]

/-- A 24-bit address from its three descriptor bytes, most significant first (R97, R100). -/
def addrOf (hi mid lo : Byte) : Addr := hi ++ mid ++ lo

/-- The three descriptor bytes of an address, most significant first (R100). -/
def addrBytes (a : Addr) : List Byte := [byteOf a 2, byteOf a 1, byteOf a 0]

/-- The bytes of a phrase, lowest address first. -/
def phraseBytes (d : Phrase) : List Byte := [d.d0, d.d1, d.d2, d.d3, d.d4, d.d5, d.d6, d.d7]

/-- Eight bytes from position `i` of a list as a phrase. -/
def phraseAt (l : List Byte) (i : Nat) : Phrase where
  d0 := l.getD i 0#8
  d1 := l.getD (i + 1) 0#8
  d2 := l.getD (i + 2) 0#8
  d3 := l.getD (i + 3) 0#8
  d4 := l.getD (i + 4) 0#8
  d5 := l.getD (i + 5) 0#8
  d6 := l.getD (i + 6) 0#8
  d7 := l.getD (i + 7) 0#8

/-- The five bytes of a frame in wire order, its checksum last (R64, R91). -/
def frameBytes (f : Frame) : List Byte :=
  [f.command, f.p1, f.p2, f.p3, checksum f.command f.p1 f.p2 f.p3]

end Sys2Proof.Machine
end

