-- ==== Sys2Proof/WellFormed.lean ====
section
/-! DEFINITION. Which instruction terms are well formed: what the opcode table's rows ask of an
encoding beyond the width of its fields. -/

namespace Sys2Proof

open Sys2Proof.Machine

/-- A frame is valid iff its checksum is the exclusive-or of the other four bytes (R92). -/
def frameValid (code : Byte) (ack : Bool) (p1 p2 p3 chk : Byte) : Bool :=
  decide (chk = checksum (commandByte ack code) p1 p2 p3)

/-- The table's conditions: a frame's checksum (R92), and the address of a program descriptor, a
multiple of 8 (R100, R103). Every other operand may take every value of its type: an operand that a
rule turns down (R161, R166) is turned down by the meaning, as the rule says. -/
def WellFormed : Instr → Bool
  | .cmdStartup ack p1 p2 p3 chk => frameValid 0x04#8 ack p1 p2 p3 chk
  | .cmdPgmbyte ack p1 p2 p3 chk => frameValid 0x07#8 ack p1 p2 p3 chk
  | .cmdRdbyte ack p1 p2 p3 chk => frameValid 0x08#8 ack p1 p2 p3 chk
  | .cmdVersion ack p1 p2 p3 chk => frameValid 0x09#8 ack p1 p2 p3 chk
  | .cmdProtocol ack p1 p2 p3 chk => frameValid 0x0A#8 ack p1 p2 p3 chk
  | .cmdNumber ack p1 p2 p3 chk => frameValid 0x0B#8 ack p1 p2 p3 chk
  | .cmdTime ack p1 p2 p3 chk => frameValid 0x0C#8 ack p1 p2 p3 chk
  | .cmdMode ack p1 p2 p3 chk => frameValid 0x0D#8 ack p1 p2 p3 chk
  | .fcmdPgm8 a _ => decide (a.toNat % 8 = 0)
  | .pipeInit _ | .pipePut _ _ | .pipeGet _ | .pipePutB _ _ | .pipeGetB _ | .semWait _
  | .semSignal _ | .codecInit | .frStep | .frGet | .frPut _ _ _ _ | .frPutB _ _ _ _ | .nvInit
  | .nvAlloc _ | .nvRead8 _ | .nvRead16 _ | .nvRead32 _ | .nvWrite8 _ _ | .nvWrite16 _ _
  | .nvWrite32 _ _ | .nvErase | .seqLaunch _ | .seqWait | .seqExec | .dispatch _ _ _ _
  | .fcmdErsscr _ _ => true

end Sys2Proof
end

