-- ==== Sys2Proof/Decode.lean ====
section
/-! DEFINITION. The decoder of the three formats (R90), total on any bytes and rejecting by name, and
after it the encoder.

A `FRAME` is exactly five bytes and a `FCCOB` descriptor exactly twelve (R106). An `OP` request is the
byte `OPSEL` and then the operand ports in the order of R104's table; port bytes that an operation does
not use are ignored. DESIGN CHOICE (log 7): the spec gives the ports no byte layout. -/

namespace Sys2Proof

open Sys2Proof.Machine

/-- Why bytes are no instruction of the table. -/
inductive DecodeError
  /-- Fewer bytes than the operation's operands need, or not the fixed length of the format (R106). -/
  | badLength
  /-- An `OPSEL` value that is not in the table: "reserved and refused" (R104). -/
  | reservedOpsel (b : Byte)
  /-- An operand port that names none of the two pipes (R20). -/
  | reservedPipe (b : Byte)
  /-- An operand port that names none of the semaphores (R24, R25). -/
  | reservedSem (b : Byte)
  /-- A frame whose code has no row (R101). It is not an illegal encoding: the step hands it to the
  dispatcher, which reports `UnknownCommand` (R213). -/
  | unknownCode (f : Frame) (chk : Byte)
  /-- A descriptor opcode other than the two of R100 (R103). -/
  | reservedDescriptor (opcode : Byte)
deriving DecidableEq, Repr

/-- The pipe an operand port names. DESIGN CHOICE (log 7). -/
def decodePipe (b : Byte) : Except DecodeError PipeId :=
  match b.toNat with
  | 0 => .ok .rxf
  | 1 => .ok .txf
  | _ => .error (.reservedPipe b)

/-- The semaphore an operand port names. DESIGN CHOICE (log 7). -/
def decodeSem (b : Byte) : Except DecodeError Sem :=
  match b.toNat with
  | 0 => .ok (.space .rxf)
  | 1 => .ok (.items .rxf)
  | 2 => .ok (.lock .rxf)
  | 3 => .ok (.space .txf)
  | 4 => .ok (.items .txf)
  | 5 => .ok (.lock .txf)
  | 6 => .ok .txlock
  | _ => .error (.reservedSem b)

/-- A descriptor from its twelve bytes (R100). -/
def decodeDescriptor : List Byte → Option Descriptor
  | opc :: a2 :: a1 :: a0 :: d0 :: d1 :: d2 :: d3 :: d4 :: d5 :: d6 :: d7 :: _ =>
    some ⟨opc, addrOf a2 a1 a0, ⟨d0, d1, d2, d3, d4, d5, d6, d7⟩⟩
  | _ => none

/-- An operation with one pipe operand. -/
def decodeWithPipe (mk : PipeId → Instr) : List Byte → Except DecodeError Instr
  | p :: _ => (decodePipe p).map mk
  | _ => .error .badLength

/-- An operation with a pipe and a byte. -/
def decodeWithPipeByte (mk : PipeId → Byte → Instr) : List Byte → Except DecodeError Instr
  | p :: b :: _ => (decodePipe p).map (fun q => mk q b)
  | _ => .error .badLength

/-- An operation with a semaphore operand. -/
def decodeWithSem (mk : Sem → Instr) : List Byte → Except DecodeError Instr
  | x :: _ => (decodeSem x).map mk
  | _ => .error .badLength

/-- An operation with four byte operands. -/
def decodeWithFrame (mk : Byte → Byte → Byte → Byte → Instr) : List Byte → Except DecodeError Instr
  | c :: p1 :: p2 :: p3 :: _ => .ok (mk c p1 p2 p3)
  | _ => .error .badLength

/-- An operation with one byte operand. That NV_ALLOC's `size`, to which R104 and R105 give no width, is one
byte: DESIGN CHOICE (log 7). -/
def decodeWithByte (mk : Byte → Instr) : List Byte → Except DecodeError Instr
  | b :: _ => .ok (mk b)
  | _ => .error .badLength

/-- An operation with a flash address, most significant byte first. -/
def decodeWithAddr (mk : Addr → Instr) : List Byte → Except DecodeError Instr
  | a2 :: a1 :: a0 :: _ => .ok (mk (addrOf a2 a1 a0))
  | _ => .error .badLength

/-- An address and an 8-bit value. -/
def decodeWithAddr8 (mk : Addr → Byte → Instr) : List Byte → Except DecodeError Instr
  | a2 :: a1 :: a0 :: v :: _ => .ok (mk (addrOf a2 a1 a0) v)
  | _ => .error .badLength

/-- An address and a 16-bit value, least significant byte first (R66, R96). -/
def decodeWithAddr16 (mk : Addr → BitVec 16 → Instr) : List Byte → Except DecodeError Instr
  | a2 :: a1 :: a0 :: v0 :: v1 :: _ => .ok (mk (addrOf a2 a1 a0) (le16 v0 v1))
  | _ => .error .badLength

/-- An address and a 32-bit value, least significant byte first (R66). -/
def decodeWithAddr32 (mk : Addr → BitVec 32 → Instr) : List Byte → Except DecodeError Instr
  | a2 :: a1 :: a0 :: v0 :: v1 :: v2 :: v3 :: _ => .ok (mk (addrOf a2 a1 a0) (le32 v0 v1 v2 v3))
  | _ => .error .badLength

/-- An operation with a descriptor operand. -/
def decodeWithDescriptor (mk : Descriptor → Instr) (l : List Byte) : Except DecodeError Instr :=
  match decodeDescriptor l with
  | some d => .ok (mk d)
  | none => .error .badLength

/-- Format `OP` (R104). -/
def decodeOp : List Byte → Except DecodeError Instr
  | [] => .error .badLength
  | sel :: ports =>
    match sel.toNat with
    | 0x00 => decodeWithPipe .pipeInit ports
    | 0x01 => decodeWithPipeByte .pipePut ports
    | 0x02 => decodeWithPipe .pipeGet ports
    | 0x03 => decodeWithPipeByte .pipePutB ports
    | 0x04 => decodeWithPipe .pipeGetB ports
    | 0x05 => decodeWithSem .semWait ports
    | 0x06 => decodeWithSem .semSignal ports
    | 0x08 => .ok .codecInit
    | 0x09 => .ok .frStep
    | 0x0A => .ok .frGet
    | 0x0B => decodeWithFrame .frPut ports
    | 0x0C => decodeWithFrame .frPutB ports
    | 0x10 => .ok .nvInit
    | 0x11 => decodeWithByte .nvAlloc ports
    | 0x12 => decodeWithAddr .nvRead8 ports
    | 0x13 => decodeWithAddr .nvRead16 ports
    | 0x14 => decodeWithAddr .nvRead32 ports
    | 0x15 => decodeWithAddr8 .nvWrite8 ports
    | 0x16 => decodeWithAddr16 .nvWrite16 ports
    | 0x17 => decodeWithAddr32 .nvWrite32 ports
    | 0x18 => .ok .nvErase
    | 0x1A => decodeWithDescriptor .seqLaunch ports
    | 0x1B => .ok .seqWait
    | 0x1C => .ok .seqExec
    | 0x1E => decodeWithFrame .dispatch ports
    | _ => .error (.reservedOpsel sel)

/-- Format `FRAME` (R91, R98): the row is chosen by the 7-bit code alone; ack, parameters and checksum
are operands. -/
def decodeFrame : List Byte → Except DecodeError Instr
  | [c, p1, p2, p3, k] =>
    match (codeOf c).toNat with
    | 0x04 => .ok (.cmdStartup (ackOf c) p1 p2 p3 k)
    | 0x07 => .ok (.cmdPgmbyte (ackOf c) p1 p2 p3 k)
    | 0x08 => .ok (.cmdRdbyte (ackOf c) p1 p2 p3 k)
    | 0x09 => .ok (.cmdVersion (ackOf c) p1 p2 p3 k)
    | 0x0A => .ok (.cmdProtocol (ackOf c) p1 p2 p3 k)
    | 0x0B => .ok (.cmdNumber (ackOf c) p1 p2 p3 k)
    | 0x0C => .ok (.cmdTime (ackOf c) p1 p2 p3 k)
    | 0x0D => .ok (.cmdMode (ackOf c) p1 p2 p3 k)
    | _ => .error (.unknownCode ⟨c, p1, p2, p3⟩ k)
  | _ => .error .badLength

/-- Format `FCCOB` (R100). -/
def decodeFccob (l : List Byte) : Except DecodeError Instr :=
  if l.length = 12 then
    match decodeDescriptor l with
    | some d =>
      if d.opcode = Config.opcProgramPhrase then .ok (.fcmdPgm8 d.addr d.data)
      else if d.opcode = Config.opcEraseSector then .ok (.fcmdErsscr d.addr d.data)
      else .error (.reservedDescriptor d.opcode)
    | none => .error .badLength
  else .error .badLength

/-- The decoder: which instruction the bytes of a request in format `f` are (R90). -/
def decode (f : Format) (bytes : List Byte) : Except DecodeError Instr :=
  match f with
  | .op => decodeOp bytes
  | .frame => decodeFrame bytes
  | .fccob => decodeFccob bytes

/-- The port byte of a pipe. DESIGN CHOICE (log 7). -/
def encodePipe : PipeId → Byte
  | .rxf => 0#8
  | .txf => 1#8

/-- The port byte of a semaphore. DESIGN CHOICE (log 7). -/
def encodeSem : Sem → Byte
  | .space .rxf => 0#8
  | .items .rxf => 1#8
  | .lock .rxf => 2#8
  | .space .txf => 3#8
  | .items .txf => 4#8
  | .lock .txf => 5#8
  | .txlock => 6#8

/-- The twelve bytes of a descriptor (R100). -/
def encodeDescriptor (d : Descriptor) : List Byte :=
  d.opcode :: (addrBytes d.addr ++ phraseBytes d.data)

/-- The five bytes of a frame whose command byte has the given flag and code (R91, R95). -/
def encodeFrame (code : Byte) (ack : Bool) (p1 p2 p3 chk : Byte) : Format × List Byte :=
  (.frame, [commandByte ack code, p1, p2, p3, chk])

/-- The encoder: the format of an instruction and its bytes, first byte first, from the tables of R98,
R100 and R104. -/
def encode : Instr → Format × List Byte
  | .pipeInit p => (.op, [0x00#8, encodePipe p])
  | .pipePut p b => (.op, [0x01#8, encodePipe p, b])
  | .pipeGet p => (.op, [0x02#8, encodePipe p])
  | .pipePutB p b => (.op, [0x03#8, encodePipe p, b])
  | .pipeGetB p => (.op, [0x04#8, encodePipe p])
  | .semWait x => (.op, [0x05#8, encodeSem x])
  | .semSignal x => (.op, [0x06#8, encodeSem x])
  | .codecInit => (.op, [0x08#8])
  | .frStep => (.op, [0x09#8])
  | .frGet => (.op, [0x0A#8])
  | .frPut c p1 p2 p3 => (.op, [0x0B#8, c, p1, p2, p3])
  | .frPutB c p1 p2 p3 => (.op, [0x0C#8, c, p1, p2, p3])
  | .nvInit => (.op, [0x10#8])
  | .nvAlloc size => (.op, [0x11#8, size])
  | .nvRead8 a => (.op, 0x12#8 :: addrBytes a)
  | .nvRead16 a => (.op, 0x13#8 :: addrBytes a)
  | .nvRead32 a => (.op, 0x14#8 :: addrBytes a)
  | .nvWrite8 a v => (.op, 0x15#8 :: (addrBytes a ++ [v]))
  | .nvWrite16 a v => (.op, 0x16#8 :: (addrBytes a ++ [byteOf v 0, byteOf v 1]))
  | .nvWrite32 a v =>
    (.op, 0x17#8 :: (addrBytes a ++ [byteOf v 0, byteOf v 1, byteOf v 2, byteOf v 3]))
  | .nvErase => (.op, [0x18#8])
  | .seqLaunch d => (.op, 0x1A#8 :: encodeDescriptor d)
  | .seqWait => (.op, [0x1B#8])
  | .seqExec => (.op, [0x1C#8])
  | .dispatch c p1 p2 p3 => (.op, [0x1E#8, c, p1, p2, p3])
  | .cmdStartup ack p1 p2 p3 chk => encodeFrame 0x04#8 ack p1 p2 p3 chk
  | .cmdPgmbyte ack p1 p2 p3 chk => encodeFrame 0x07#8 ack p1 p2 p3 chk
  | .cmdRdbyte ack p1 p2 p3 chk => encodeFrame 0x08#8 ack p1 p2 p3 chk
  | .cmdVersion ack p1 p2 p3 chk => encodeFrame 0x09#8 ack p1 p2 p3 chk
  | .cmdProtocol ack p1 p2 p3 chk => encodeFrame 0x0A#8 ack p1 p2 p3 chk
  | .cmdNumber ack p1 p2 p3 chk => encodeFrame 0x0B#8 ack p1 p2 p3 chk
  | .cmdTime ack p1 p2 p3 chk => encodeFrame 0x0C#8 ack p1 p2 p3 chk
  | .cmdMode ack p1 p2 p3 chk => encodeFrame 0x0D#8 ack p1 p2 p3 chk
  | .fcmdPgm8 a d => (.fccob, encodeDescriptor ⟨Config.opcProgramPhrase, a, d⟩)
  | .fcmdErsscr a d => (.fccob, encodeDescriptor ⟨Config.opcEraseSector, a, d⟩)

/-- The format whose encodings the table gives `nbits` bits: 8 for `OP`, 40 for `FRAME`, 96 for
`FCCOB` (R91, R100, R104). -/
def formatOfBits (nbits : Nat) : Option Format :=
  match nbits with
  | 8 => some .op
  | 40 => some .frame
  | 96 => some .fccob
  | _ => none

/-- `n` bytes of a number whose FIRST byte is the most significant, as the table numbers its words
("byte 0 most significant", R91, R100; log 8). -/
def bytesOfWord : Nat → Nat → List Byte
  | 0, _ => []
  | n + 1, w => bytesOfWord n (w / 256) ++ [BitVec.ofNat 8 w]

/-- The bytes of a table word in its format. An operation's ports hold zeros: twelve of them, the
longest operand (R104, `SEQ_LAUNCH`). -/
def wordBytes (f : Format) (w : Nat) : List Byte :=
  match f with
  | .op => BitVec.ofNat 8 w :: List.replicate 12 0#8
  | .frame => bytesOfWord 5 w
  | .fccob => bytesOfWord 12 w

/-- The instruction the decoder reads from a word of the opcode table. -/
def decodeTableWord (nbits w : Nat) : Option Instr :=
  match formatOfBits nbits with
  | none => none
  | some f =>
    match decode f (wordBytes f w) with
    | .ok i => some i
    | .error _ => none

end Sys2Proof
end

