-- ==== Sys2Proof/Machine/State.lean ====
section
/-! DEFINITION. The state of the machine, as plain data: everything 10_state.md gives the block
(R20 to R46), the model's own bookkeeping of agents and of the environment's inputs, and the machine
right after reset (R44). -/

namespace Sys2Proof.Machine

/-- Why the machine stops with a fault. -/
inductive Fault
  /-- Raised by every operation in a state whose build parameters break a constraint of R11 ("that
  every instance must meet"): such a state is no instance of the block. Safe: no instance stops so. -/
  | buildBreaksR11
deriving DecidableEq, Repr

/-- Why a request has no meaning. The spec calls such a request refused: "the rule gives the request no
meaning; a model must not assign one" (R15). Each is safe: the model stops where the spec says nothing. -/
inductive Refusal
  /-- `exec`, for an instruction without a meaning. Safe. -/
  | notModelled (mnemonic : String)
  /-- `step`, for bytes that are no row of the table (R103, R104; U10). Safe. -/
  | undecodable (e : DecodeError)
  /-- Every operation, when its agent's previous operation has not returned: an agent issues its
  operations one after another (R75). Safe. -/
  | callerBusy
  /-- A pipe operation before that pipe's PIPE_INIT (R263; U4). Safe. -/
  | pipeNotInitialised
  /-- A put, get, emission or semaphore operation of the other regime (R24, R129). Safe. -/
  | wrongRegime
  /-- An operation on `P.lock` where `MULTI_ACCESS` is false: it does not exist (R128). Safe. -/
  | noSuchSemaphore
  /-- A put by another agent than the pipe's one producer: in the polled regime the agent R129 names, in
  the threaded one, without the lock, the one that puts on it already (R128, R129, R268; U15). Safe. -/
  | secondProducer
  /-- A get by another agent than the pipe's one consumer (R128, R129, R268; U15), or a step of the codec
  by another agent than its one user (R253). Safe. -/
  | secondConsumer
  /-- PIPE_INIT in the threaded regime while a caller is blocked on a semaphore of the pipe
  (R120, R279). Safe. -/
  | pipeHasWaiters
  /-- SEM_WAIT or SEM_SIGNAL outside the pairs of the pipe and codec rules (R127; U13). Safe. -/
  | outsideThePairs
  /-- A store operation while a command is in flight or a store write is under way (R79, R166, R173,
  R271; U6, U26), or a launch from outside during a store write (R271). Safe. -/
  | storeBusy
  /-- SEQ_LAUNCH while a command is in flight (R182, R189; U7). Safe. -/
  | sequencerBusy
  /-- The program command executed on a phrase that is not erased (R186; U8). Safe. -/
  | phraseNotErased
  /-- An operation that the rules do not give to its agent's role, or an agent the regime does not have:
  SEQ_EXEC by another than the sequencer (R187, R250), more than a pipe operation or SEM_SIGNAL by an
  interrupt handler (R274), a frame sent by the receive or transmit thread (R280), a request of a thread
  in the polled regime (R129, R253). Safe. -/
  | roleForbids
  /-- CMD_NUMBER or CMD_MODE before step 4 of start-up has allocated their variables (R263). Safe. -/
  | handleUnset
  /-- START_UP, or an allocation of its step 4, where the handle it would write is set already: the handles
  are obtained at start-up and "never changed" (R41, R204; log 23). Safe. -/
  | handleSet
deriving DecidableEq, Repr

/-- Whatever performs a step (R19, R253). -/
inductive Agent
  /-- The protocol task: FR_GET, DISPATCH, the store; also the start-up code. -/
  | task
  /-- A further thread of the threaded regime. -/
  | thread (n : Nat)
  /-- The receive interrupt handler (R130, R238). -/
  | rxHandler
  /-- The transmit interrupt handler (R130, R238). -/
  | txHandler
  /-- The receive thread of the threaded regime (R130). -/
  | rxThread
  /-- The transmit thread of the threaded regime (R130). -/
  | txThread
  /-- The flash sequencer. -/
  | sequencer
deriving DecidableEq, Repr

/-- Who has put on a pipe that has no lock, in the threaded regime (R128, R146, R273). Log 16. -/
inductive Producer
  /-- This agent alone, not always holding `TXLOCK`. -/
  | direct (a : Agent)
  /-- This agent alone, always holding `TXLOCK`. -/
  | sender (a : Agent)
  /-- Several agents, each of them always holding `TXLOCK`. -/
  | senders
deriving DecidableEq, Repr

/-- Who puts on and gets from a pipe in the threaded regime since its PIPE_INIT: the model's own note of
what R128 and R253 forbid a second agent to do (log 16). -/
structure Users where
  producer : Option Producer
  consumer : Option Agent
deriving DecidableEq, Repr

/-- A Byte Pipe with its semaphores (R21, R24). `endIx` is the spec's `end`. `inited` is the model's own:
whether PIPE_INIT has run (log 17). -/
structure Pipe where
  buf : List Byte
  startIx : Nat
  endIx : Nat
  count : Nat
  space : Nat
  items : Nat
  lock : Nat
  inited : Bool
deriving DecidableEq, Repr

/-- The codec's sequencing register (R27). `validate` is no resting value (R142). -/
inductive CodecState
  | awaitCommand
  | awaitP1
  | awaitP2
  | awaitP3
  | awaitChecksum
  | validate
deriving DecidableEq, Repr

/-- The codec's receive side, `FR.*` (R26, R27). -/
structure Codec where
  command : Byte
  p1 : Byte
  p2 : Byte
  p3 : Byte
  checksum : Byte
  state : CodecState
deriving DecidableEq, Repr

/-- `TXE`: the five bytes being emitted and how many are already put (R29). -/
structure Emission where
  frame : Frame
  idx : Nat
deriving DecidableEq, Repr

/-- The sequencer's status flags and the command it holds (R35, R36). -/
structure Sequencer where
  complete : Bool
  accerr : Bool
  fpviol : Bool
  inflight : Option Descriptor
deriving DecidableEq, Repr

/-- The environment's answer to one flash command (R184). -/
inductive SeqOutcome
  | ok
  | accerr
  | fpviol
  | both
deriving DecidableEq, Repr

/-- The write path's sequencing register (R40). -/
inductive WriteState
  | idle
  | merge
  | eraseLaunch
  | eraseWait
  | programLaunch
  | programWait
  | done
  | failed
deriving DecidableEq, Repr

/-- The store operation under way: its operands while `WS.state` is not `Idle` (R168 to R170, R173). -/
inductive StoreJob
  | write8 (a : Addr) (v : Byte)
  | write16 (a : Addr) (v : BitVec 16)
  | write32 (a : Addr) (v : BitVec 32)
  | erase
deriving DecidableEq, Repr

/-- Which step of the write path a `FlashSequencerError` reports (R230). -/
inductive FlashStep
  | erase
  | program (k : Nat)
deriving DecidableEq, Repr

/-- The write path's working registers (R39, R40), with the operation under way and the step that
failed, which its result reports. -/
structure WritePath where
  state : WriteState
  snap : List Byte
  k : Nat
  result : Bool
  job : StoreJob
  failedAt : FlashStep
deriving DecidableEq, Repr

/-- Which parameter a `ParameterInvalid` reports (R161, R166, R206 to R212). -/
inductive Param
  | size (n : Byte)
  | address
  | alignment
  | offset
  | value
  | selector
  | time
deriving DecidableEq, Repr

/-- The six error kinds and the information they carry (R230). `frameError` never leaves the codec
(R231), so no result of the machine holds it. -/
inductive ErrorKind
  | frameError
  | capacityFull
  | capacityEmpty
  | unknownCommand (code : Byte)
  | parameterInvalid (p : Param)
  | flashSequencer (at_ : FlashStep) (accerr fpviol : Bool)
  | allocationExhausted (size : Byte)
deriving DecidableEq, Repr

/-- What an operation returned to its caller: the response of the channels of R105. An error is a
result reported to the caller (R15, R240). -/
inductive Response
  /-- The operation has not returned yet, or none was asked for. -/
  | pending
  /-- It returned; it has no result value. -/
  | done
  /-- A result `true` or `false` without an error kind. -/
  | flag (b : Bool)
  /-- `(true, b)` of a get. -/
  | byte (b : Byte)
  /-- `(true, v)` of a store read; `rdata` is 32 bits wide (R105). -/
  | value (v : BitVec 32)
  /-- `(true, a)` of an allocation. -/
  | addr (a : Addr)
  /-- `NoFrame` (R141, R143). -/
  | noFrame
  /-- `Frame(...)` (R141, R143). -/
  | frame (f : Frame)
  /-- Failure with its kind: the operation's `raise`. -/
  | fail (e : ErrorKind)
  /-- DISPATCH: its `success`, the kind of the handler's failure, and whether the reply could not be
  queued, a `TransportCapacityError` on top (R201, R241). -/
  | dispatched (success : Bool) (e : Option ErrorKind) (replyLost : Bool)
deriving DecidableEq, Repr

/-- A handler's result `(success, replyP1, replyP2, replyP3)` with the kind of its failure (R200). -/
structure Answer where
  success : Bool
  r1 : Byte
  r2 : Byte
  r3 : Byte
  err : Option ErrorKind
deriving DecidableEq, Repr

/-- The atomic parts of the operations that are not atomic as a whole (R16, R71): what an agent still
has to do. Other agents may step between two of them. -/
inductive Micro
  /-- SEM_WAIT (R126). -/
  | semWait (x : Sem)
  /-- SEM_SIGNAL (R127). -/
  | semSignal (x : Sem)
  /-- Notes that this agent holds `TXLOCK` from a SEM_WAIT of its own and owes the SEM_SIGNAL (log 15). -/
  | hold
  /-- PIPE_PUT_B line 3 (R124). -/
  | pipeStore (p : PipeId) (b : Byte)
  /-- PIPE_GET_B line 3 (R125). -/
  | pipeTake (p : PipeId)
  /-- The operation returns this. -/
  | ret (r : Response)
  /-- FR_STEP in the threaded regime, from the moment its byte is obtained: line 3 of its PIPE_GET_B and
  the update of the codec's registers, one transition (R71, R141). -/
  | codecTake
  /-- One pass of FR_GET's loop, polled (R143). -/
  | frGetPass
  /-- The loop test of FR_GET, threaded (R143). -/
  | frGetAgain
  /-- An emission begins: `TXE` comes into being (R29). -/
  | emitBegin (f : Frame)
  /-- The next put of FR_PUT, or its return (R145). -/
  | emit
  /-- The next PIPE_PUT_B of FR_PUT_B, or the release of `TXLOCK` (R146). -/
  | emitB
  /-- One byte of FR_PUT_B has been put: `TXE.idx` rises (R29; log 31). -/
  | emitCount
  /-- FR_PUT_B has released `TXLOCK`: `TXE` ends (R29; log 31). -/
  | emitEnd
  /-- One row of the write path's table (R171). -/
  | store
  /-- SEQ_WAIT (R183). -/
  | seqWait
  /-- SEQ_EXEC, the sequencer's own step (R187). -/
  | seqExec
  /-- DISPATCH: table lookup and the handler up to its first wait (R201). -/
  | handle (f : Frame)
  /-- The handler goes on after its store operation has returned (R206, R210, R212). -/
  | afterStore (f : Frame)
  /-- DISPATCH: the reply, if one is due (R201). -/
  | reply (c : Byte) (a : Answer)
  /-- DISPATCH: the reply's emission has ended. -/
  | replied (a : Answer)
  /-- START_UP, step 1 (R263). -/
  | startPipe (p : PipeId)
  /-- START_UP, step 2. -/
  | startCodec
  /-- START_UP, step 3. -/
  | startMap
  /-- START_UP, step 4, the device number's variable (R204). -/
  | startNumber
  /-- START_UP, step 4, the device mode's variable (R204). -/
  | startMode
  /-- START_UP, step 5: the protocol loop asks for the next frame. -/
  | loop
  /-- The protocol loop dispatches the frame it got, if it got one. -/
  | loopDispatch
  /-- "refuse to proceed past startup" (R236): there is no further step. -/
  | halted
deriving DecidableEq, Repr

/-- What one agent carries: the parts of its operation still to do, the response of its operation, its
emission `TXE` (R29, "one per caller"), and whether it holds `TXLOCK` from a SEM_WAIT of its own
(log 15). -/
structure Local where
  todo : List Micro
  resp : Response
  txe : Option Emission
  held : Bool
deriving DecidableEq, Repr

/-- An agent with nothing under way. -/
def Local.idle : Local := ⟨[], .pending, none, false⟩

/-- The real-time clock as CMD_TIME last set it: the excluded clock's three registers, which the block
only writes (R41, R211). -/
structure Rtc where
  hours : Byte
  minutes : Byte
  seconds : Byte
deriving DecidableEq, Repr

/-- The environment's choices, in the one total order of R75: who asks for what, who goes on. `turn` is
how many atomic parts the agent then takes before others may (log 1). -/
inductive Event
  /-- An agent requests an operation, a frame or a descriptor: the bytes of one instruction. -/
  | request (who : Agent) (f : Format) (bytes : List Byte) (turn : Nat)
  /-- An agent goes on with the operation it has under way. -/
  | resume (who : Agent) (turn : Nat)
  /-- The start-up code begins START_UP (R263). -/
  | startUp (turn : Nat)
  /-- The start-up code performs the next of the two allocations of START_UP's step 4, alone (R204): a
  start-up made of single requests (log 23). -/
  | startHandle (turn : Nat)
  /-- Power-on or restart (R260). -/
  | restart
deriving DecidableEq, Repr

/-- The machine. -/
structure State where
  /-- The build parameters; constant (R10, R42). -/
  build : Build
  /-- The receive pipe `RXF` (R20). -/
  rxf : Pipe
  /-- The transmit pipe `TXF` (R20). -/
  txf : Pipe
  /-- `TXLOCK` (R25). -/
  txlock : Nat
  /-- `FR.*` (R26, R27). -/
  fr : Codec
  /-- `ALLOC` (R30): true where the byte is allocated. -/
  alloc : List Bool
  /-- `FLASH`, the modelled sector (R31): the bytes that differ from `ERASED_BYTE`, addresses rising. -/
  flash : List Host.Cell
  /-- `CMD.opcode`, `CMD.addr`, `CMD.data` (R34). -/
  cmd : Descriptor
  /-- `SEQ.*` (R35, R36). -/
  seq : Sequencer
  /-- `WS.*` (R39, R40). -/
  ws : WritePath
  /-- `NvNumber`, unset until start-up allocates it (R41, R44). -/
  nvNumber : Option Addr
  /-- `NvMode`, unset until start-up allocates it (R41, R44). -/
  nvMode : Option Addr
  /-- `PROTO_MODE` (R41). -/
  protoMode : BitVec 1
  /-- The real-time clock as last set (R41, R211). -/
  rtc : Rtc
  /-- The model's own: who uses `RXF` (log 16). -/
  rxUsers : Users
  /-- The model's own: who uses `TXF` (log 16). -/
  txUsers : Users
  /-- The model's own: the agent whose step it is. -/
  who : Agent
  /-- The model's own: what that agent carries. -/
  me : Local
  /-- The model's own: what the other agents carry. -/
  parked : List (Agent × Local)
  /-- The model's own: the environment's choices still to come (R42). -/
  queue : List Event
  /-- The model's own: how many atomic parts the running agent takes in this step. -/
  turn : Nat
  /-- The environment's coming answers to flash commands, in order (R184); while it is empty the
  sequencer does not act (log 9). -/
  draws : List SeqOutcome
  /-- The model's own: the counter of free values (logs 10 and 11). -/
  freeIx : Nat
deriving DecidableEq, Repr

namespace Pipe

/-- A pipe before its PIPE_INIT. The spec gives its buffer and its indices no value here (R44); zero is
a DESIGN CHOICE (log 2), and no operation reads them (`inited`). The semaphores are R44's. -/
def reset (capacity : Nat) : Pipe where
  buf := List.replicate capacity 0#8
  startIx := 0
  endIx := 0
  count := 0
  space := capacity
  items := 0
  lock := 1
  inited := false

end Pipe

namespace State

/-- The machine after a reset of a block with parameters `b` whose flash holds `flash` (R44, R261):
every volatile register at R44's value, or, where R44 says "unspecified", at zero, a DESIGN CHOICE
(log 2). -/
def afterReset (b : Build) (flash : List Host.Cell) : State where
  build := b
  rxf := Pipe.reset b.capacity
  txf := Pipe.reset b.capacity
  txlock := 1
  fr := ⟨0#8, 0#8, 0#8, 0#8, 0#8, .awaitCommand⟩
  alloc := List.replicate b.regionLen false
  flash := flash
  cmd := ⟨0#8, 0#24, ⟨0#8, 0#8, 0#8, 0#8, 0#8, 0#8, 0#8, 0#8⟩⟩
  seq := ⟨true, false, false, none⟩
  ws := ⟨.idle, List.replicate b.regionLen 0#8, 0, false, .erase, .erase⟩
  nvNumber := none
  nvMode := none
  protoMode := 0#1
  rtc := ⟨0#8, 0#8, 0#8⟩
  rxUsers := ⟨none, none⟩
  txUsers := ⟨none, none⟩
  who := .task
  me := Local.idle
  parked := []
  queue := []
  turn := 4096
  draws := []
  freeIx := 0

/-- The machine right after the first reset: reference parameters (logs 3, 4) and a sector that reads
erased (log 6). -/
def reset : State := afterReset Build.reference []

/-- The pipe a name stands for. -/
def pipe (s : State) : PipeId → Pipe
  | .rxf => s.rxf
  | .txf => s.txf

/-- `s` with another pipe under that name. -/
def setPipe (p : PipeId) (q : Pipe) (s : State) : State :=
  match p with
  | .rxf => { s with rxf := q }
  | .txf => { s with txf := q }

/-- Who uses the pipe a name stands for. -/
def users (s : State) : PipeId → Users
  | .rxf => s.rxUsers
  | .txf => s.txUsers

/-- `s` with another note of who uses a pipe. -/
def setUsers (p : PipeId) (u : Users) (s : State) : State :=
  match p with
  | .rxf => { s with rxUsers := u }
  | .txf => { s with txUsers := u }

/-- `s` with another value of `TXLOCK`. -/
def setTxlock (n : Nat) (s : State) : State := { s with txlock := n }

/-- `s` with another codec. -/
def setFr (c : Codec) (s : State) : State := { s with fr := c }

/-- `s` with another allocation map. -/
def setAlloc (m : List Bool) (s : State) : State := { s with alloc := m }

/-- `s` with another flash content. -/
def setFlash (m : List Host.Cell) (s : State) : State := { s with flash := m }

/-- `s` with other descriptor registers and sequencer state. -/
def setSeq (d : Descriptor) (q : Sequencer) (s : State) : State := { s with cmd := d, seq := q }

/-- `s` with other working registers of the write path. -/
def setWs (w : WritePath) (s : State) : State := { s with ws := w }

/-- `s` with other coming answers to flash commands. -/
def setDraws (l : List SeqOutcome) (s : State) : State := { s with draws := l }

/-- `s` after one free value has been used. -/
def useFree (s : State) : State := { s with freeIx := s.freeIx + 1 }

/-- `s` with another protocol mode. -/
def setProto (m : BitVec 1) (s : State) : State := { s with protoMode := m }

/-- `s` with the clock set. -/
def setRtc (r : Rtc) (s : State) : State := { s with rtc := r }

/-- `s` with the device number's variable at `a`. -/
def setNumber (a : Addr) (s : State) : State := { s with nvNumber := some a }

/-- `s` with the device mode's variable at `a`. -/
def setMode (a : Addr) (s : State) : State := { s with nvMode := some a }

/-- The running operation's response becomes `r`. -/
def respond (r : Response) (s : State) : State := { s with me := { s.me with resp := r } }

/-- The running agent has `l` left to do. -/
def setTodo (l : List Micro) (s : State) : State := { s with me := { s.me with todo := l } }

/-- The running agent does `l` before what it had left to do. -/
def push (l : List Micro) (s : State) : State := s.setTodo (l ++ s.me.todo)

/-- The running agent's emission becomes `e`. -/
def setTxe (e : Option Emission) (s : State) : State := { s with me := { s.me with txe := e } }

/-- The running agent holds `TXLOCK` from a SEM_WAIT of its own, or no longer does. -/
def setHeld (b : Bool) (s : State) : State := { s with me := { s.me with held := b } }

/-- The environment's next choice is taken: the rest of its choices, and the length of the turn. -/
def take (q : List Event) (turn : Nat) (s : State) : State := { s with queue := q, turn := turn }

/-- Another agent runs: what the present one carries is put aside. -/
def switchTo (a : Agent) (s : State) : State :=
  if a = s.who then s
  else
    { s with
      who := a
      me := (s.parked.lookup a).getD Local.idle
      parked := (s.who, s.me) :: s.parked.filter (fun x => decide (x.1 ≠ a ∧ x.1 ≠ s.who)) }

end State

end Sys2Proof.Machine
end

