-- ==== Sys2Proof/Machine/Flags.lean ====
section
/-! DEFINITION. The block's flags: the conditions derived from a pipe's count (R23), the flag and code
of a command byte (R28, with Operands), the sequencer's status flags (R35, R183, R187), and the
conditions that decide whether a request has a meaning. -/

namespace Sys2Proof.Machine

/-- `P.full` is `P.count == C` (R23). -/
def Pipe.full (capacity : Nat) (p : Pipe) : Bool := decide (p.count = capacity)

/-- `P.empty` is `P.count == 0` (R23). -/
def Pipe.empty (p : Pipe) : Bool := decide (p.count = 0)

/-- `SEQ.accerr` after a command with this outcome (R187). -/
def SeqOutcome.setsAccerr : SeqOutcome → Bool
  | .accerr | .both => true
  | .ok | .fpviol => false

/-- `SEQ.fpviol` after a command with this outcome (R187). -/
def SeqOutcome.setsFpviol : SeqOutcome → Bool
  | .fpviol | .both => true
  | .ok | .accerr => false

/-- Either violation flag is set (R183): "Either flag alone is enough". -/
def Sequencer.violation (q : Sequencer) : Bool := q.accerr || q.fpviol

/-- The polled regime (R251). -/
def State.polled (s : State) : Bool := decide (s.build.regime = .polled)

/-- The threaded regime (R251). -/
def State.threaded (s : State) : Bool := decide (s.build.regime = .threaded)

/-- The lock exists: threaded regime with `MULTI_ACCESS` (R24, R128). -/
def State.locked (s : State) : Bool := s.threaded && s.build.multiAccess

/-- The running agent may ask for the operations the rules give to the tasks and threads: the protocol
task, and in the threaded regime any thread (R129, R253). An interrupt handler may not (R274), nor may the
sequencer (R187). -/
def State.mayAct (s : State) : Bool :=
  match s.who with
  | .task => true
  | .thread _ | .rxThread | .txThread => s.threaded
  | .rxHandler | .txHandler | .sequencer => false

/-- The running agent may send frames: as `mayAct`, but never the receive or the transmit thread (R280). -/
def State.maySend (s : State) : Bool :=
  match s.who with
  | .task => true
  | .thread _ => s.threaded
  | .rxHandler | .txHandler | .rxThread | .txThread | .sequencer => false

/-- The one producer of a pipe in the polled regime (R129, R268). -/
def putter : PipeId → Agent
  | .rxf => .rxHandler
  | .txf => .task

/-- The one consumer of a pipe in the polled regime (R129, R268). -/
def getter : PipeId → Agent
  | .rxf => .task
  | .txf => .txHandler

/-- No other store operation is under way and no command is in flight (R166, third test). -/
def State.storeFree (s : State) : Bool := s.seq.complete && decide (s.ws.state = .idle)

/-- The semaphore exists in this build (R24, R25, R128). -/
def State.semExists (x : Sem) (s : State) : Bool :=
  match x with
  | .lock _ => s.locked
  | .space _ | .items _ | .txlock => s.threaded

end Sys2Proof.Machine
end

