-- ==== Sys2Proof/Machine/Ops.lean ====
section
/-! DEFINITION. The named operations over the state: flash memory, pipes, semaphores, the codec's
registers, the allocation map, the store's checks and merge, the sequencer, and reporting an error. -/

namespace Sys2Proof.Machine

/-! ### Reporting an error

The block has no traps: an error is the result of the operation that met it, delivered to that
operation's caller; there is no vector, no saved program counter and no mode change (R240), and no
return from it (R243). -/

/-- `raise e`: the operation completes and reports failure to its caller (R15, R240). -/
def raise (e : ErrorKind) (s : State) : State := s.respond (.fail e)

/-! ### Flash memory

The list holds, addresses rising, exactly the bytes that differ from `ERASED_BYTE`; an unlisted address
reads as `ERASED_BYTE` (log 6). -/

namespace Memory

/-- What one address reads as: its entry, or `fill` where there is none. -/
def read (fill : Byte) : List Host.Cell → Nat → Byte
  | [], _ => fill
  | (a, v) :: m, x => if x = a then v else read fill m x

/-- Writing one byte: the entry is put at its place, and is left out where the value is `fill`. -/
def write (fill : Byte) : List Host.Cell → Nat → Byte → List Host.Cell
  | [], x, v => if v = fill then [] else [(x, v)]
  | (a, w) :: m, x, v =>
    if x < a then (if v = fill then (a, w) :: m else (x, v) :: (a, w) :: m)
    else if x = a then (if v = fill then m else (x, v) :: m)
    else (a, w) :: write fill m x v

/-- Writing a list of bytes at rising addresses (`MemWrite`, R14). -/
def writeList (fill : Byte) : List Host.Cell → Nat → List Byte → List Host.Cell
  | m, _, [] => m
  | m, x, v :: l => writeList fill (write fill m x v) (x + 1) l

/-- Setting every byte from `lo` to `hi - 1` to `fill`. -/
def fillRange (lo hi : Nat) (m : List Host.Cell) : List Host.Cell :=
  m.filter (fun c => decide (c.1 < lo ∨ hi ≤ c.1))

/-- Every address of the list is above `lo`, addresses rise, and no entry equals `fill`. -/
def wfAbove (fill : Byte) : Nat → List Host.Cell → Bool
  | _, [] => true
  | lo, (a, v) :: m => decide (lo ≤ a) && decide (v ≠ fill) && wfAbove fill (a + 1) m

/-- The canonical form: addresses strictly rising, no entry equal to what an unlisted address reads
as. Equal contents are then equal lists. -/
def wf (fill : Byte) (m : List Host.Cell) : Bool := wfAbove fill 0 m

end Memory

/-- `FLASH[a]` (R14). -/
def State.flashByte (s : State) (a : Nat) : Byte := Memory.read s.build.erasedByte s.flash a

/-- `MemRead(FLASH, a, n)`, lowest address first (R14). -/
def State.flashBytes (s : State) (a n : Nat) : List Byte :=
  (List.range n).map (fun i => s.flashByte (a + i))

/-- `FLASH_DATA_START` as a number. -/
def State.regionBase (s : State) : Nat := s.build.flashStart.toNat

/-- The address lies in the modelled sector (R31). -/
def State.inSector (s : State) (a : Nat) : Bool :=
  decide (s.build.sectorBase ≤ a) && decide (a < s.build.sectorBase + s.build.sectorBytes)

/-! ### Pipes -/

/-- Storing a byte at `end` (R121, R124 line 3). The rules give the count a value only below `C` (R18 (d)); at
`C`, where only a PIPE_INIT between line 1 and line 3 of a PIPE_PUT_B leads (U14), it becomes `C + 1`: a DESIGN
CHOICE (log 30). -/
def Pipe.store (capacity : Nat) (b : Byte) (p : Pipe) : Pipe :=
  { p with buf := p.buf.set p.endIx b, endIx := (p.endIx + 1) % capacity, count := p.count + 1 }

/-- The byte at `start`, the oldest one (R22). -/
def Pipe.oldest (p : Pipe) : Byte := p.buf.getD p.startIx 0#8

/-- Removing the byte at `start` (R122, R125 line 3); its slot keeps it. The rules give the count a value only
above 0 (R18 (d)); at 0, where only a PIPE_INIT between line 1 and line 3 of a PIPE_GET_B leads (U14), it stays
0, `start` moves, and the byte got is the stale one there: a DESIGN CHOICE (log 30). -/
def Pipe.drop (capacity : Nat) (p : Pipe) : Pipe :=
  { p with startIx := (p.startIx + 1) % capacity, count := p.count - 1 }

/-- The stored bytes, oldest first (R22 (e)). -/
def Pipe.stored (capacity : Nat) (p : Pipe) : List Byte :=
  (List.range p.count).map (fun i => p.buf.getD ((p.startIx + i) % capacity) 0#8)

/-- Who has put on a pipe without lock after one more put by `a`, who holds `TXLOCK` around it or does
not; none where `a` would be a second producer. Several agents are one producer only if each of them
holds `TXLOCK` (R128, R146, R273). Log 16. -/
def Producer.next (underLock : Bool) (a : Agent) : Option Producer → Option Producer
  | none => some (if underLock then .sender a else .direct a)
  | some (.direct b) => if b = a then some (.direct a) else none
  | some (.sender b) =>
    if underLock then some (if b = a then .sender a else .senders)
    else if b = a then some (.direct a) else none
  | some .senders => if underLock then some .senders else none

/-- The running agent may put on a pipe: in the polled regime it is the pipe's one producer (R129, R268);
in the threaded one there is a lock, or it makes no second producer (R128). -/
def State.mayPut (p : PipeId) (underLock : Bool) (s : State) : Bool :=
  if s.polled then decide (s.who = putter p)
  else s.locked || (Producer.next underLock s.who (s.users p).producer).isSome

/-- Notes that the running agent puts on a pipe that has no lock (log 16). -/
def State.notePut (p : PipeId) (underLock : Bool) (s : State) : State :=
  if s.polled || s.locked then s
  else s.setUsers p
    { s.users p with producer := Producer.next underLock s.who (s.users p).producer }

/-- The running agent is a pipe's consumer so far, or there is none. -/
def State.soleConsumer (p : PipeId) (s : State) : Bool :=
  match (s.users p).consumer with
  | none => true
  | some a => decide (a = s.who)

/-- The running agent may get from a pipe: in the polled regime it is the pipe's one consumer (R129,
R268); in the threaded one there is a lock, or no other consumer (R128). -/
def State.mayGet (p : PipeId) (s : State) : Bool :=
  if s.polled then decide (s.who = getter p) else s.locked || s.soleConsumer p

/-- Notes that the running agent gets from a pipe that has no lock (log 16). -/
def State.noteGet (p : PipeId) (s : State) : State :=
  if s.polled || s.locked then s
  else s.setUsers p { s.users p with consumer := some s.who }

/-- The running agent may step the codec: `FR.*` is "Not shared" (R253), so, with or without a lock, no
other agent steps it. In the polled regime that agent is `RXF`'s consumer (R129). -/
def State.mayStep (s : State) : Bool :=
  if s.polled then decide (s.who = getter .rxf) else s.soleConsumer .rxf

/-- Notes that the running agent is the codec's user (log 16). -/
def State.noteStep (s : State) : State :=
  if s.polled then s else s.setUsers .rxf { s.users .rxf with consumer := some s.who }

/-- PIPE_INIT's effect on the pipe (R120): indices and count 0, and in the threaded regime the
semaphores at their initial counts. The buffer is not cleared. -/
def Pipe.init (s : State) (p : Pipe) : Pipe :=
  { p with
    startIx := 0, endIx := 0, count := 0
    space := if s.threaded then s.build.capacity else p.space
    items := if s.threaded then 0 else p.items
    lock := if s.locked then 1 else p.lock
    inited := true }

/-- The index update of a put, after the pipe's PIPE_INIT (R121, R124 line 3). -/
def pipeStoreAs (p : PipeId) (b : Byte) (s : State) : Except Refusal State :=
  if (s.pipe p).inited = false then .error .pipeNotInitialised
  else .ok (s.setPipe p ((s.pipe p).store s.build.capacity b))

/-- The index update of a get and the byte it removes, after the pipe's PIPE_INIT (R122, R125 line 3). -/
def pipeDropAs (p : PipeId) (s : State) : Except Refusal (Byte × State) :=
  if (s.pipe p).inited = false then .error .pipeNotInitialised
  else .ok ((s.pipe p).oldest, s.setPipe p ((s.pipe p).drop s.build.capacity))

/-- PIPE_PUT (R121): false, and nothing changed, where the pipe is full. -/
def pipePut (p : PipeId) (b : Byte) (s : State) : Except Refusal (Bool × State) :=
  if s.polled = false then .error .wrongRegime
  else if (s.pipe p).inited = false then .error .pipeNotInitialised
  else if s.mayPut p false = false then .error .secondProducer
  else if (s.pipe p).full s.build.capacity then .ok (false, s)
  else (pipeStoreAs p b s).map (fun t => (true, t))

/-- PIPE_GET (R122): no byte, and nothing changed, where the pipe is empty. -/
def pipeGet (p : PipeId) (s : State) : Except Refusal (Option Byte × State) :=
  if s.polled = false then .error .wrongRegime
  else if (s.pipe p).inited = false then .error .pipeNotInitialised
  else if s.mayGet p = false then .error .secondConsumer
  else if (s.pipe p).empty then .ok (none, s)
  else (pipeDropAs p s).map (fun t => (some t.1, t.2))

/-! ### Semaphores -/

/-- The count of a semaphore. -/
def semValue (x : Sem) (s : State) : Nat :=
  match x with
  | .space p => (s.pipe p).space
  | .items p => (s.pipe p).items
  | .lock p => (s.pipe p).lock
  | .txlock => s.txlock

/-- `s` with another count in a semaphore. -/
def setSem (x : Sem) (n : Nat) (s : State) : State :=
  match x with
  | .space p => s.setPipe p { s.pipe p with space := n }
  | .items p => s.setPipe p { s.pipe p with items := n }
  | .lock p => s.setPipe p { s.pipe p with lock := n }
  | .txlock => s.setTxlock n

/-- The semaphore belongs to the pipe. -/
def semOfPipe (p : PipeId) : Sem → Bool
  | .space q | .items q | .lock q => decide (q = p)
  | .txlock => false

/-- What an agent carries is blocked on a semaphore of the pipe: SEM_WAIT is its next part and the
count is 0 (R126). -/
def Local.blockedOn (p : PipeId) (s : State) (l : Local) : Bool :=
  match l.todo with
  | .semWait x :: _ => semOfPipe p x && decide (semValue x s = 0)
  | _ => false

/-- Some caller is blocked on a semaphore of the pipe (R120). -/
def pipeHasWaiters (p : PipeId) (s : State) : Bool :=
  s.threaded && s.parked.any (fun x => x.2.blockedOn p s)

/-- PIPE_INIT (R120). The note of who uses the pipe begins anew (log 16). -/
def pipeInit (p : PipeId) (s : State) : Except Refusal State :=
  if pipeHasWaiters p s then .error .pipeHasWaiters
  else .ok ((s.setPipe p ((s.pipe p).init s)).setUsers p ⟨none, none⟩)

/-! ### The codec's registers -/

/-- CODEC_INIT (R140). -/
def codecInit (s : State) : State := s.setFr { s.fr with state := .awaitCommand }

/-- Validate (R141): on a match the frame is emitted and the codec awaits a command byte; on a mismatch
(`FrameError`, R231) the window shifts by one byte and the codec awaits a checksum again. -/
def Codec.validateStep (c : Codec) : Codec × Option Frame :=
  if c.checksum = Sys2Proof.Machine.checksum c.command c.p1 c.p2 c.p3 then
    ({ c with state := .awaitCommand }, some ⟨c.command, c.p1, c.p2, c.p3⟩)
  else
    (⟨c.p1, c.p2, c.p3, c.checksum, c.checksum, .awaitChecksum⟩, none)

/-- What one byte does to the codec's registers, and the frame it completes, if it does (R141).
Validate is fused into the step that takes the checksum byte (R142). From `Validate` itself, where the
codec never rests, nothing of the byte is used (log 19). -/
def Codec.takeByte (b : Byte) (c : Codec) : Codec × Option Frame :=
  match c.state with
  | .awaitCommand => ({ c with command := b, state := .awaitP1 }, none)
  | .awaitP1 => ({ c with p1 := b, state := .awaitP2 }, none)
  | .awaitP2 => ({ c with p2 := b, state := .awaitP3 }, none)
  | .awaitP3 => ({ c with p3 := b, state := .awaitChecksum }, none)
  | .awaitChecksum => Codec.validateStep { c with checksum := b, state := .validate }
  | .validate => Codec.validateStep c

/-- The result of FR_STEP: `Frame(...)` or `NoFrame` (R141). -/
def frameResponse : Option Frame → Response
  | some f => .frame f
  | none => .noFrame

/-- FR_STEP after its byte is obtained. -/
def codecTakeByte (b : Byte) (s : State) : State :=
  let r := s.fr.takeByte b
  (s.setFr r.1).respond (frameResponse r.2)

/-- FR_STEP in the polled regime (R141): one byte is taken from `RXF`, or `NoFrame` and nothing changed
where there is none. A codec found in `Validate` first leaves it, taking no byte (R142, log 19). -/
def frStep (s : State) : Except Refusal State :=
  match s.fr.state with
  | .validate =>
    if s.polled = false then .error .wrongRegime
    else if s.rxf.inited = false then .error .pipeNotInitialised
    else .ok (codecTakeByte 0#8 s)
  | .awaitCommand | .awaitP1 | .awaitP2 | .awaitP3 | .awaitChecksum =>
    match pipeGet .rxf s with
    | .error r => .error r
    | .ok (none, t) => .ok (t.respond .noFrame)
    | .ok (some b, t) => .ok (codecTakeByte b t)

/-! ### The allocation map -/

/-- NV_INIT's map: every entry 0 (R160). -/
def emptyMap (regionLen : Nat) : List Bool := List.replicate regionLen false

/-- `p mod size == 0` and the `size` entries from `p` are free (R161). Beyond the map nothing is free. -/
def mapFree (m : List Bool) (size p : Nat) : Bool :=
  decide (p % size = 0) && (List.range size).all (fun i => !(m.getD (p + i) true))

/-- The first position the allocator takes, scanning upwards (R161). -/
def findFree (m : List Bool) (size : Nat) : Option Nat :=
  (List.range (m.length - size + 1)).find? (fun p => mapFree m size p)

/-- The map with `size` entries from `p` used. -/
def markUsed (m : List Bool) (size p : Nat) : List Bool :=
  m.mapIdx (fun i b => b || (decide (p ≤ i) && decide (i < p + size)))

/-- The result of an allocation: the address and the new map, or the kind of the failure (R161). -/
def allocate (size : Byte) (s : State) : Except ErrorKind (Addr × State) :=
  if size = 1#8 ∨ size = 2#8 ∨ size = 4#8 then
    match findFree s.alloc size.toNat with
    | some p =>
      .ok (s.build.flashStart + BitVec.ofNat 24 p, s.setAlloc (markUsed s.alloc size.toNat p))
    | none => .error (.allocationExhausted size)
  else .error (.parameterInvalid (.size size))

/-! ### Store checks and reads -/

/-- What the shared operand check of the store says (R166). -/
inductive Check
  | bad (p : Param)
  | refused
  | pass
deriving DecidableEq, Repr

/-- The operand check of every read and write (R166): range, then alignment, then whether the store is
free. -/
def storeCheck (a : Addr) (n : Nat) (s : State) : Check :=
  if a.toNat < s.regionBase ∨ s.regionBase + s.build.regionLen < a.toNat + n then .bad .address
  else if a.toNat % n ≠ 0 then .bad .alignment
  else if s.storeFree = false then .refused
  else .pass

/-- The half-word at `a`, low byte first (R66). -/
def State.flash16 (s : State) (a : Nat) : BitVec 16 := le16 (s.flashByte a) (s.flashByte (a + 1))

/-- The word at `a`, low byte first (R66). -/
def State.flash32 (s : State) (a : Nat) : BitVec 32 :=
  le32 (s.flashByte a) (s.flashByte (a + 1)) (s.flashByte (a + 2)) (s.flashByte (a + 3))

/-! ### The merge of the write path -/

/-- The bytes of `l` with the eight bytes `new` from position `j` on. -/
def replace8 (l : List Byte) (j : Nat) (new : List Byte) : List Byte :=
  l.take j ++ new ++ l.drop (j + 8)

/-- The data region as it stands (`MemRead(FLASH, FLASH_DATA_START, REGION_LEN)`, R170). -/
def State.region (s : State) : List Byte := s.flashBytes s.regionBase s.build.regionLen

/-- NV_WRITE32's Merge (R170): the other word of the phrase is read, the phrase recombined, and put
into the image of the whole data region. -/
def merge32 (a : Addr) (w : BitVec 32) (s : State) : List Byte :=
  let other := s.flash32 (a ^^^ 4#24).toNat
  let q : BitVec 64 :=
    if a.getLsbD 2 = false then w.setWidth 64 ||| (other.setWidth 64 <<< 32)
    else other.setWidth 64 ||| (w.setWidth 64 <<< 32)
  replace8 s.region ((a &&& ~~~7#24).toNat - s.regionBase) (bytesLe64 q)

/-- NV_WRITE16's Merge (R169): the other half-word of the word is read and recombined. The first two
tests of the inner check cannot fail (R166). -/
def merge16 (a : Addr) (h : BitVec 16) (s : State) : List Byte :=
  let other := s.flash16 (a ^^^ 2#24).toNat
  let w : BitVec 32 :=
    if a.getLsbD 1 = false then h.setWidth 32 ||| (other.setWidth 32 <<< 16)
    else other.setWidth 32 ||| (h.setWidth 32 <<< 16)
  merge32 (a &&& ~~~3#24) w s

/-- NV_WRITE8's Merge (R168): the other byte of the half-word is read and recombined. -/
def merge8 (a : Addr) (b : Byte) (s : State) : List Byte :=
  let other := s.flashByte (a ^^^ 1#24).toNat
  let h : BitVec 16 := if a.getLsbD 0 = false then le16 b other else le16 other b
  merge16 (a &&& ~~~1#24) h s

/-- The image of the data region that the write path will program back (R168 to R171). -/
def mergeJob (j : StoreJob) (s : State) : List Byte :=
  match j with
  | .write8 a v => merge8 a v s
  | .write16 a v => merge16 a v s
  | .write32 a v => merge32 a v s
  | .erase => s.ws.snap

/-! ### The flash sequencer -/

/-- SEQ_LAUNCH's effect (R182): the registers are written, both violation flags cleared, the command is
in flight and `SEQ.complete` is 0. -/
def launch (d : Descriptor) (s : State) : State := s.setSeq d ⟨false, false, false, some d⟩

/-- The descriptor has no meaning of its own (R188): an unknown opcode, an address outside the sector,
or a program address that is not a multiple of 8. -/
def malformed (d : Descriptor) (s : State) : Bool :=
  if s.inSector d.addr.toNat = false then true
  else if d.opcode = Config.opcEraseSector then false
  else if d.opcode = Config.opcProgramPhrase then decide (d.addr.toNat % 8 ≠ 0)
  else true

/-- The outcome of a command. A descriptor without a meaning is taken as drawing `accerr`, which R188
allows. PRESUMED (log 14). -/
def outcomeOf (d : Descriptor) (drawn : SeqOutcome) (s : State) : SeqOutcome :=
  if malformed d s then .accerr else drawn

/-- FCMD_ERSSCR's effect: every byte of the sector holds `ERASED_BYTE` (R185). -/
def eraseSector (s : State) : State :=
  s.setFlash
    (Memory.fillRange s.build.sectorBase (s.build.sectorBase + s.build.sectorBytes) s.flash)

/-- Every byte of the phrase at `a` is `ERASED_BYTE` (R186). -/
def phraseErased (a : Nat) (s : State) : Bool :=
  (List.range 8).all (fun i => decide (s.flashByte (a + i) = s.build.erasedByte))

/-- FCMD_PGM8's effect: the eight bytes are written (R186), where the phrase is erased. -/
def programPhrase (a : Nat) (d : Phrase) (s : State) : Except Refusal State :=
  if phraseErased a s = false then .error .phraseNotErased
  else .ok (s.setFlash (Memory.writeList s.build.erasedByte s.flash a (phraseBytes d)))

/-- What a command does to the flash (R185 to R187): nothing unless its outcome is `ok` (R184). -/
def commandEffect (d : Descriptor) (o : SeqOutcome) (s : State) : Except Refusal State :=
  if o = .ok then
    if d.opcode = Config.opcEraseSector then .ok (eraseSector s)
    else if d.opcode = Config.opcProgramPhrase then programPhrase d.addr.toNat d.data s
    else .ok s
  else .ok s

/-- SEQ_EXEC's effect on the command in flight with the environment's answer (R187): flash, flags and
`SEQ.complete` change together. -/
def sequencerStep (d : Descriptor) (drawn : SeqOutcome) (s : State) : Except Refusal State :=
  let o := outcomeOf d drawn s
  (commandEffect d o s).map
    (fun t => t.setSeq t.cmd ⟨true, o.setsAccerr, o.setsFpviol, none⟩)

/-- The sequencer takes its step, if a command is in flight and the environment answers it (R181,
R187). `none`: it has no step. -/
def sequencerTurn (s : State) : Option (Except Refusal State) :=
  if s.seq.complete then none
  else match s.seq.inflight, s.draws with
    | some d, o :: l => some (sequencerStep d o (s.setDraws l))
    | _, _ => none

/-! ### Accepting a store write or erase -/

/-- The store accepts an operation (R171, rows from `Idle`). -/
def accept (j : StoreJob) (s : State) : State :=
  s.setWs { s.ws with state := (if j = .erase then .eraseLaunch else .merge), job := j }

/-- What asking the store for a write or an erase leads to. -/
inductive StoreStart
  | bad (p : Param)
  | refused (r : Refusal)
  | accepted (s : State)
deriving DecidableEq, Repr

/-- The address and the width of a write; an erase has none. -/
def StoreJob.target : StoreJob → Option (Addr × Nat)
  | .write8 a _ => some (a, 1)
  | .write16 a _ => some (a, 2)
  | .write32 a _ => some (a, 4)
  | .erase => none

/-- NV_WRITE8, NV_WRITE16, NV_WRITE32 or NV_ERASE is asked for: its check (R166, R173), and its
acceptance. -/
def storeStart (j : StoreJob) (s : State) : StoreStart :=
  match j.target with
  | some (a, n) =>
    match storeCheck a n s with
    | .bad p => .bad p
    | .refused => .refused .storeBusy
    | .pass => .accepted (accept j s)
  | none => if s.storeFree = false then .refused .storeBusy else .accepted (accept j s)

/-! ### Restart -/

/-- The addresses of the bytes that a command would change: none for a descriptor without a meaning
(R185, R186). -/
def commandChanges (d : Descriptor) (s : State) : List Nat :=
  if malformed d s then []
  else if d.opcode = Config.opcEraseSector then (s.flash.map (fun c => c.1)).filter s.inSector
  else (List.range 8).filterMap (fun i =>
    if s.flashByte (d.addr.toNat + i) = (phraseBytes d.data).getD i 0#8 then none
    else some (d.addr.toNat + i))

/-- Each of these bytes takes a free value (U27; log 20). -/
def tear (fill : Byte) (ix : Nat) (l : List Nat) (m : List Host.Cell) : List Host.Cell :=
  l.foldl (fun m a => Memory.write fill m a (Config.tornByte ix a)) m

/-- The bytes that a command in flight would change: none where no command is in flight. -/
def State.atRisk (s : State) : List Nat :=
  if s.seq.complete then []
  else match s.seq.inflight with
    | some d => commandChanges d s
    | none => []

/-- Reset at any later moment (R260, R261): volatile state is lost, and `FLASH` is kept as the last
completed command left it (R45), but for the bytes that a command in flight would have changed, which may
then hold any value (U27; log 20). The parameters and the environment's coming choices are no state of the
block (R42); the clock is not the block's (log 21). -/
def State.restart (s : State) : State :=
  { State.afterReset s.build (tear s.build.erasedByte s.freeIx s.atRisk s.flash) with
    rtc := s.rtc, queue := s.queue, draws := s.draws, freeIx := s.freeIx + 1 }

end Sys2Proof.Machine
end

