-- ==== Sys2Proof/Machine/Handlers.lean ====
section
/-! DEFINITION. The dispatcher's table and its handlers (R200, R205 to R213). -/

namespace Sys2Proof.Machine

/-- What a handler does up to its first wait. -/
inductive HandlerOut
  /-- It has its result. -/
  | answer (a : Answer) (s : State)
  /-- The store has accepted its write or erase; its result is the store operation's. -/
  | storing (s : State)
  /-- It puts whole frames into `TXF` and has its result, both fixed beforehand (R205; log 10). -/
  | sending (l : List Frame) (a : Answer) (s : State)
  /-- What it asked for is refused. -/
  | refused (r : Refusal)

/-- A failing handler returns the received parameters (R201, R203). -/
def failed (f : Frame) (e : ErrorKind) : Answer := ⟨false, f.p1, f.p2, f.p3, some e⟩

/-- A handler's failed parameter check, `ParameterInvalid` (R102, R234). -/
def badParam (p : Param) (f : Frame) (s : State) : HandlerOut :=
  .answer (failed f (.parameterInvalid p)) s

/-- A handler's store write or erase. -/
def handlerStore (j : StoreJob) (f : Frame) (s : State) : HandlerOut :=
  match storeStart j s with
  | .bad p => badParam p f s
  | .refused r => .refused r
  | .accepted t => .storing t

/-- A handler's store read of `n` bytes at `a`, whose result the reply is made of. -/
def handlerRead (a : Addr) (n : Nat) (f : Frame) (good : Answer) (s : State) : HandlerOut :=
  match storeCheck a n s with
  | .bad p => badParam p f s
  | .refused => .refused .storeBusy
  | .pass => .answer good s

/-- `H_STARTUP` (R205): the open handler, a free value (log 10). -/
def hStartup (f : Frame) (s : State) : HandlerOut :=
  let h := Config.hStartup s.freeIx f.p1 f.p2 f.p3
  .sending h.frames ⟨h.success, h.r1, h.r2, h.r3, none⟩ s.useFree

/-- `H_PGMBYTE` (R206). -/
def hPgmbyte (f : Frame) (s : State) : HandlerOut :=
  if f.p1.toNat ≤ 7 then
    handlerStore (.write8 (s.build.flashStart + f.p1.setWidth 24) f.p3) f s
  else if f.p1.toNat = 8 then handlerStore .erase f s
  else badParam .offset f s

/-- `H_RDBYTE` (R207): the byte read is the reply's third parameter. -/
def hRdbyte (f : Frame) (s : State) : HandlerOut :=
  if 7 < f.p1.toNat then badParam .offset f s
  else
    let a := s.build.flashStart + f.p1.setWidth 24
    handlerRead a 1 f ⟨true, f.p1, f.p2, s.flashByte a.toNat, none⟩ s

/-- `H_VERSION` (R208): `'v'` and the two version bytes, whatever the parameters. -/
def hVersion (_f : Frame) (s : State) : HandlerOut :=
  .answer ⟨true, 0x76#8, s.build.verHi, s.build.verLo, none⟩ s

/-- `H_PROTOCOL` (R209). -/
def hProtocol (f : Frame) (s : State) : HandlerOut :=
  if f.p1 = 1#8 then .answer ⟨true, 1#8, s.protoMode.setWidth 8, 0#8, none⟩ s
  else if f.p1 = 2#8 then
    if 1 < f.p2.toNat then badParam .value f s
    else .answer ⟨true, 2#8, f.p2, f.p3, none⟩ (s.setProto (f.p2.setWidth 1))
  else badParam .selector f s

/-- The handles of the two variables once step 4 of start-up has succeeded; before that there is "no
DISPATCH of a CMD_NUMBER or CMD_MODE frame" (R263), whatever its parameters, and it is refused (R267). -/
def withHandles (k : Addr → Addr → HandlerOut) (s : State) : HandlerOut :=
  match s.nvNumber, s.nvMode with
  | some a, some b => k a b
  | none, _ | some _, none => .refused .handleUnset

/-- Getting and setting the 16-bit non-volatile variable at `a`, the body of `H_NUMBER` and `H_MODE`
(R210, R212). -/
def getSet16 (a : Addr) (f : Frame) (s : State) : HandlerOut :=
  if f.p1 = 1#8 then
    let v := s.flash16 a.toNat
    handlerRead a 2 f ⟨true, 1#8, byteOf v 0, byteOf v 1, none⟩ s
  else if f.p1 = 2#8 then handlerStore (.write16 a (le16 f.p2 f.p3)) f s
  else badParam .selector f s

/-- `H_NUMBER` (R210). -/
def hNumber (f : Frame) (s : State) : HandlerOut := withHandles (fun a _ => getSet16 a f s) s

/-- `H_TIME` (R211). -/
def hTime (f : Frame) (s : State) : HandlerOut :=
  if 23 < f.p1.toNat ∨ 59 < f.p2.toNat ∨ 59 < f.p3.toNat then badParam .time f s
  else .answer ⟨true, f.p1, f.p2, f.p3, none⟩ (s.setRtc ⟨f.p1, f.p2, f.p3⟩)

/-- `H_MODE` (R212). -/
def hMode (f : Frame) (s : State) : HandlerOut := withHandles (fun _ b => getSet16 b f s) s

/-- No entry for the code: `UnknownCommand`, no handler runs (R213). -/
def hUnknown (f : Frame) (s : State) : HandlerOut :=
  .answer (failed f (.unknownCommand (codeOf f.command))) s

/-- The dispatcher's table (R200): the handler of a frame's 7-bit code, bit 7 masked off. -/
def handler (f : Frame) (s : State) : HandlerOut :=
  match (codeOf f.command).toNat with
  | 0x04 => hStartup f s
  | 0x07 => hPgmbyte f s
  | 0x08 => hRdbyte f s
  | 0x09 => hVersion f s
  | 0x0A => hProtocol f s
  | 0x0B => hNumber f s
  | 0x0C => hTime f s
  | 0x0D => hMode f s
  | _ => hUnknown f s

end Sys2Proof.Machine
end

