-- ==== Sys2Proof/Machine/Agents.lean ====
section
/-! DEFINITION. The operations that are not atomic as a whole, as sequences of atomic parts (R16, R71),
and how an agent runs them: it takes one part after another until its operation has returned, until it
is blocked (R15), or until its turn is over and other agents may step (log 1). -/

namespace Sys2Proof.Machine

/-- What trying one atomic part leads to. -/
inductive MicroOut
  /-- It is done. -/
  | go (s : State)
  /-- The agent has no step now (R15, R272). -/
  | wait
  /-- It has no meaning. -/
  | refuse (r : Refusal)

/-- An atomic part that is done or has no meaning. -/
def MicroOut.of : Except Refusal State → MicroOut
  | .ok s => .go s
  | .error r => .refuse r

/-- PIPE_PUT_B (R124), its numbered lines in order. -/
def putBParts (p : PipeId) (b : Byte) (s : State) : List Micro :=
  if s.locked then
    [.semWait (.space p), .semWait (.lock p), .pipeStore p b, .semSignal (.lock p),
      .semSignal (.items p)]
  else [.semWait (.space p), .pipeStore p b, .semSignal (.items p)]

/-- PIPE_GET_B (R125), its numbered lines in order; `line3` is what is done with the byte. -/
def getBParts (p : PipeId) (line3 : Micro) (s : State) : List Micro :=
  if s.locked then
    [.semWait (.items p), .semWait (.lock p), line3, .semSignal (.lock p), .semSignal (.space p)]
  else [.semWait (.items p), line3, .semSignal (.space p)]

/-- FR_STEP in the threaded regime (R141): its first line is PIPE_GET_B, and it "is atomic only from the
moment the byte is obtained", so line 3 and the update of `FR.*` are one part (R71). -/
def frStepParts (s : State) : List Micro := getBParts .rxf .codecTake s

/-- The emission of a frame: FR_PUT in the polled regime (R145), FR_PUT_B in the threaded one (R146). -/
def emission (f : Frame) (s : State) : List Micro :=
  if s.threaded then [.semWait .txlock, .emitBegin f, .emitB] else [.emitBegin f, .emit]

/-- The part `m` that waits for the sequencer (R171 rows marked wait, R183): where no command is in
flight it goes on with `k`; where one is, the sequencer takes its step if the environment answers it,
and `m` is tried again; else the agent stays where it is. -/
def awaitSequencer (m : Micro) (k : State → MicroOut) (s : State) : MicroOut :=
  if s.seq.complete then k s
  else match sequencerTurn s with
    | none => .wait
    | some (.error r) => .refuse r
    | some (.ok t) => .go (t.push [m])

/-- One row of the write path's table (R171). -/
def storePart (s : State) : MicroOut :=
  let w := s.ws
  match w.state with
  | .idle => .wait
  | .merge =>
    .go ((s.setWs { w with snap := mergeJob w.job s, state := .eraseLaunch }).push [.store])
  | .eraseLaunch =>
    if s.seq.complete then
      .go (((launch ⟨Config.opcEraseSector, s.build.flashStart, Config.eraseData s.freeIx⟩
        s.useFree).setWs { w with state := .eraseWait }).push [.store])
    else .wait
  | .eraseWait =>
    awaitSequencer .store (fun s =>
      if s.seq.violation then
        .go ((s.setWs { w with result := false, failedAt := .erase, state := .failed }).push [.store])
      else
        .go ((s.setWs { w with k := 0, state := (if w.job = .erase then .done else .programLaunch) }).push
          [.store])) s
  | .programLaunch =>
    if s.seq.complete = false then .refuse .sequencerBusy
    else if w.k < s.build.regionLen / 8 then
      .go (((launch
          ⟨Config.opcProgramPhrase, s.build.flashStart + BitVec.ofNat 24 (8 * w.k),
            phraseAt w.snap (8 * w.k)⟩ s).setWs { w with state := .programWait }).push [.store])
    else .wait
  | .programWait =>
    awaitSequencer .store (fun s =>
      if s.seq.violation then
        .go ((s.setWs { w with result := false, failedAt := .program w.k, state := .failed }).push
          [.store])
      else
        .go ((s.setWs { w with
          k := w.k + 1
          state := (if w.k + 1 = s.build.regionLen / 8 then .done else .programLaunch) }).push
          [.store])) s
  | .done => .go ((s.setWs { w with result := true, state := .idle }).respond (.flag true))
  | .failed =>
    .go (raise (.flashSequencer w.failedAt s.seq.accerr s.seq.fpviol)
      (s.setWs { w with state := .idle }))

/-- SEQ_WAIT (R183): false where either violation flag is set. -/
def seqWaitPart (s : State) : MicroOut :=
  awaitSequencer .seqWait (fun s => .go (s.respond (.flag (!s.seq.violation)))) s

/-- SEQ_EXEC, where the sequencer has a step (R187). -/
def seqExecPart (s : State) : MicroOut :=
  match sequencerTurn s with
  | none => .wait
  | some (.error r) => .refuse r
  | some (.ok t) => .go (t.respond .done)

/-- DISPATCH up to the handler's first wait (R201). The frames of the open handler (R205) are sent one
after another; where one of its FR_PUTs meets a full `TXF` the next frame is still sent, and neither the
handler's result nor DISPATCH's shows it: a DESIGN CHOICE, the spec leaves the handler open (log 10). -/
def handlePart (f : Frame) (s : State) : MicroOut :=
  match handler f s with
  | .answer a t => .go (t.push [.reply f.command a])
  | .storing t => .go (t.push [.store, .afterStore f])
  | .sending l a t => .go (t.push ((l.map (fun g => emission g t)).flatten ++ [.reply f.command a]))
  | .refused r => .refuse r

/-- The handler's result after its store operation: `ok` and the received parameters (R206, R210,
R212). -/
def afterStorePart (f : Frame) (s : State) : MicroOut :=
  match s.me.resp with
  | .fail e => .go (s.push [.reply f.command (failed f e)])
  | .pending | .done | .flag _ | .byte _ | .value _ | .addr _ | .noFrame | .frame _
  | .dispatched _ _ _ => .go (s.push [.reply f.command ⟨true, f.p1, f.p2, f.p3, none⟩])

/-- The reply policy (R201): exactly one reply iff the request's flag was set; its code is the received
one, its flag the handler's success. -/
def replyPart (c : Byte) (a : Answer) (s : State) : MicroOut :=
  if ackOf c then
    .go (s.push (emission ⟨commandByte a.success (codeOf c), a.r1, a.r2, a.r3⟩ s ++ [.replied a]))
  else .go (s.respond (.dispatched a.success a.err false))

/-- DISPATCH returns: its success, and whether the reply could not be queued (R201, R241). -/
def repliedPart (a : Answer) (s : State) : MicroOut :=
  match s.me.resp with
  | .fail _ => .go (s.respond (.dispatched a.success a.err true))
  | .pending | .done | .flag _ | .byte _ | .value _ | .addr _ | .noFrame | .frame _
  | .dispatched _ _ _ => .go (s.respond (.dispatched a.success a.err false))

/-- The next put of FR_PUT, or its return after the fifth (R145): the first put that fails ends it, and
the bytes already put stay. -/
def emitPart (s : State) : MicroOut :=
  match s.me.txe with
  | none => .wait
  | some e =>
    match (frameBytes e.frame)[e.idx]? with
    | none => .go ((s.setTxe none).respond (.flag true))
    | some b =>
      match pipePut .txf b s with
      | .error r => .refuse r
      | .ok (false, t) => .go (raise .capacityFull (t.setTxe none))
      | .ok (true, t) => .go ((t.setTxe (some { e with idx := e.idx + 1 })).push [.emit])

/-- An emission begins (R29): PIPE_INIT of `TXF` has run (R263), and its agent may put on `TXF`, in the
threaded regime as a holder of `TXLOCK` (R146): that `TXE` begins only there is a DESIGN CHOICE (log 31). -/
def emitBeginPart (f : Frame) (s : State) : MicroOut :=
  if s.txf.inited = false then .refuse .pipeNotInitialised
  else if s.mayPut .txf true then .go ((s.notePut .txf true).setTxe (some ⟨f, 0⟩))
  else .refuse .secondProducer

/-- The next PIPE_PUT_B of FR_PUT_B, or the release of `TXLOCK` after the fifth (R146). That `TXE` ends in a part
of its own after the release: a DESIGN CHOICE (log 31). -/
def emitBPart (s : State) : MicroOut :=
  match s.me.txe with
  | none => .wait
  | some e =>
    match (frameBytes e.frame)[e.idx]? with
    | none => .go (s.push [.semSignal .txlock, .emitEnd])
    | some b => .go (s.push (putBParts .txf b s ++ [.emitCount, .emitB]))

/-- One byte of FR_PUT_B has been put: `TXE.idx` rises (R29). R29 and R146 name no line of PIPE_PUT_B at which it
does; here it is a part of its own after line 5, when the PIPE_PUT_B has returned: a DESIGN CHOICE (log 31). -/
def emitCountPart (s : State) : MicroOut :=
  match s.me.txe with
  | none => .wait
  | some e => .go (s.setTxe (some { e with idx := e.idx + 1 }))

/-- One pass of FR_GET's loop in the polled regime (R143): it returns `NoFrame` where `RXF` is empty,
else it performs FR_STEP and goes on unless that returned a frame. -/
def frGetPassPart (s : State) : MicroOut :=
  if s.rxf.count = 0 then .go (s.respond .noFrame)
  else match frStep s with
    | .error r => .refuse r
    | .ok t => .go (match t.me.resp with
      | .frame _ => t
      | .pending | .done | .flag _ | .byte _ | .value _ | .addr _ | .noFrame | .fail _
      | .dispatched _ _ _ => t.push [.frGetPass])

/-- FR_GET in the threaded regime: FR_STEP again unless it returned a frame (R143). -/
def frGetAgainPart (s : State) : MicroOut :=
  match s.me.resp with
  | .frame _ => .go s
  | .pending | .done | .flag _ | .byte _ | .value _ | .addr _ | .noFrame | .fail _
  | .dispatched _ _ _ => .go (s.push (frStepParts s ++ [.frGetAgain]))

/-- FR_STEP in the threaded regime from the moment it obtains its byte (R71, R141). -/
def codecTakePart (s : State) : MicroOut :=
  MicroOut.of ((pipeDropAs .rxf s).map (fun r => codecTakeByte r.1 r.2))

/-- FR_GET's parts (R143). -/
def frGetParts (s : State) : List Micro :=
  if s.threaded then frStepParts s ++ [.frGetAgain] else [.frGetPass]

/-- The protocol loop asks for a frame (R263 step 5). In the polled regime FR_GET on an empty `RXF`
returns `NoFrame` and changes nothing: the loop has then nothing to do before a byte arrives. -/
def loopPart (s : State) : MicroOut :=
  if s.polled && decide (s.rxf.count = 0) then .wait
  else if s.mayStep then .go (s.noteStep.push (frGetParts s ++ [.loopDispatch]))
  else .refuse .secondConsumer

/-- The protocol loop dispatches the frame it got (R202, R263). -/
def loopDispatchPart (s : State) : MicroOut :=
  match s.me.resp with
  | .frame f => .go (s.push [.handle f, .loop])
  | .pending | .done | .flag _ | .byte _ | .value _ | .addr _ | .noFrame | .fail _
  | .dispatched _ _ _ => .go (s.push [.loop])

/-- START_UP step 4 (R204, R263): a two-byte variable is allocated and its handle `old` kept; where that
fails the start-up does not go on (R236; U17). A handle that is set is "never changed" (R41; log 23). -/
def startAlloc (old : Option Addr) (keep : Addr → State → State) (s : State) : MicroOut :=
  if old.isSome then .refuse .handleSet
  else match allocate 2#8 s with
    | .ok (a, t) => .go ((keep a t).respond (.addr a))
    | .error e => .go ((raise e s).setTodo [.halted])

/-- One atomic part, tried by the running agent; it has already been taken off what the agent has left
to do. -/
def micro (m : Micro) (s : State) : MicroOut :=
  match m with
  | .semWait x => if semValue x s = 0 then .wait else .go (setSem x (semValue x s - 1) s)
  | .semSignal x => .go (setSem x (semValue x s + 1) s)
  | .hold => .go ((s.setHeld true).respond .done)
  | .pipeStore p b => MicroOut.of (pipeStoreAs p b s)
  | .pipeTake p => MicroOut.of ((pipeDropAs p s).map (fun t => t.2.respond (.byte t.1)))
  | .ret r => .go (s.respond r)
  | .codecTake => codecTakePart s
  | .frGetPass => frGetPassPart s
  | .frGetAgain => frGetAgainPart s
  | .emitBegin f => emitBeginPart f s
  | .emit => emitPart s
  | .emitB => emitBPart s
  | .emitCount => emitCountPart s
  | .emitEnd => .go ((s.setTxe none).respond .done)
  | .store => storePart s
  | .seqWait => seqWaitPart s
  | .seqExec => seqExecPart s
  | .handle f => handlePart f s
  | .afterStore f => afterStorePart f s
  | .reply c a => replyPart c a s
  | .replied a => repliedPart a s
  | .startPipe p => MicroOut.of (pipeInit p s)
  | .startCodec => .go (codecInit s)
  | .startMap => .go (s.setAlloc (emptyMap s.build.regionLen))
  | .startNumber => startAlloc s.nvNumber State.setNumber s
  | .startMode => startAlloc s.nvMode State.setMode s
  | .loop => loopPart s
  | .loopDispatch => loopDispatchPart s
  | .halted => .wait

/-- The running agent takes at most `n` atomic parts: fewer where its operation returns or is blocked. A
blocked agent keeps the part it is blocked at. -/
def run : Nat → State → Host.Outcome State Fault Refusal
  | 0, s => .next s
  | n + 1, s =>
    match s.me.todo with
    | [] => .next s
    | m :: l =>
      match micro m (s.setTodo l) with
      | .go t => run n t
      | .wait => .next s
      | .refuse r => .refused r

/-- Every request: it has a meaning only in an instance of the block (R11) and for an agent whose
previous operation has returned (R75). -/
def issue (k : State → Host.Outcome State Fault Refusal) (s : State) :
    Host.Outcome State Fault Refusal :=
  if s.build.ok = false then .fault .buildBreaksR11
  else if s.me.todo ≠ [] then .refused .callerBusy
  else k s

/-- The running agent begins an operation with these parts and takes its turn. -/
def begin (l : List Micro) (s : State) : Host.Outcome State Fault Refusal :=
  run s.turn ((s.setTodo l).respond .pending)

/-- A request with a meaning only where `c` holds. -/
def need (c : Bool) (r : Refusal) (k : Host.Outcome State Fault Refusal) :
    Host.Outcome State Fault Refusal :=
  if c then k else .refused r

/-- An atomic operation that is done or has no meaning. -/
def settle : Except Refusal State → Host.Outcome State Fault Refusal
  | .ok s => .next s
  | .error r => .refused r

/-- START_UP (R263), its steps in order, and the protocol loop after them. -/
def startUpParts : List Micro :=
  [.startPipe .rxf, .startPipe .txf, .startCodec, .startMap, .startNumber, .startMode, .loop]

/-- The next of the two allocations of START_UP's step 4, in R204's order. -/
def startHandleParts (s : State) : List Micro :=
  if s.nvNumber.isNone then [.startNumber] else [.startMode]

end Sys2Proof.Machine
end

