-- ==== Sys2Proof/Machine/BytePipe.lean ====
section
/-! DEFINITION. The meanings of the Byte Pipe's operations and of the semaphore primitives
(40_byte_pipe.md, R120 to R130). -/

namespace Sys2Proof.Machine

/-- PIPE_INIT (R120). It cannot fail; it is refused while a caller is blocked on the pipe's semaphores. -/
def execPipeInit (p : PipeId) (s : State) : Host.Outcome State Fault Refusal :=
  issue (fun s => need s.mayAct .roleForbids
    (settle ((pipeInit p s).map (fun t => t.respond .done)))) s

/-- PIPE_PUT (R121): true, or `TransportCapacityError(full)` with nothing changed. -/
def execPipePut (p : PipeId) (b : Byte) (s : State) : Host.Outcome State Fault Refusal :=
  issue (fun s => settle ((pipePut p b s).map (fun t =>
    if t.1 then t.2.respond (.flag true) else raise .capacityFull t.2))) s

/-- PIPE_GET (R122): `(true, b)`, or `TransportCapacityError(empty)` with nothing changed and no byte. -/
def execPipeGet (p : PipeId) (s : State) : Host.Outcome State Fault Refusal :=
  issue (fun s => settle ((pipeGet p s).map (fun t =>
    match t.1 with
    | some b => t.2.respond (.byte b)
    | none => raise .capacityEmpty t.2))) s

/-- The running agent puts on the pipe as a holder of `TXLOCK` (R146). -/
def putsUnderLock (p : PipeId) (s : State) : Bool := decide (p = .txf) && s.me.held

/-- PIPE_PUT_B (R124). -/
def execPipePutB (p : PipeId) (b : Byte) (s : State) : Host.Outcome State Fault Refusal :=
  issue (fun s => need s.threaded .wrongRegime (need s.mayAct .roleForbids
    (need (s.pipe p).inited .pipeNotInitialised
      (need (s.mayPut p (putsUnderLock p s)) .secondProducer
        (begin (putBParts p b s ++ [.ret .done]) (s.notePut p (putsUnderLock p s))))))) s

/-- PIPE_GET_B (R125). -/
def execPipeGetB (p : PipeId) (s : State) : Host.Outcome State Fault Refusal :=
  issue (fun s => need s.threaded .wrongRegime (need s.mayAct .roleForbids
    (need (s.pipe p).inited .pipeNotInitialised
      (need (s.mayGet p) .secondConsumer (begin (getBParts p (.pipeTake p) s) (s.noteGet p)))))) s

/-- SEM_WAIT (R126): it blocks while the count is 0, else takes one. The pairs of the pipe rules cannot be
made of requests, since their line 3 is no request; the pair of R146 can, so a request has a meaning on
`TXLOCK` only, by an agent that may send frames, which then owes the SEM_SIGNAL (U13; log 15). -/
def execSemWait (x : Sem) (s : State) : Host.Outcome State Fault Refusal :=
  issue (fun s => need s.threaded .wrongRegime (need (s.semExists x) .noSuchSemaphore
    (need (decide (x = .txlock)) .outsideThePairs (need s.maySend .roleForbids
      (begin [.semWait x, .hold] s))))) s

/-- SEM_SIGNAL (R127): one more, where the caller owes it; refused where it is paired with no earlier
SEM_WAIT of its caller (U13; log 15), and for the sequencer, which performs SEQ_EXEC alone (R250). -/
def execSemSignal (x : Sem) (s : State) : Host.Outcome State Fault Refusal :=
  issue (fun s => need s.threaded .wrongRegime (need (s.semExists x) .noSuchSemaphore
    (need (decide (x = .txlock) && s.me.held) .outsideThePairs
      (need (decide (s.who ≠ .sequencer)) .roleForbids
        (.next (((setSem x (semValue x s + 1) s).setHeld false).respond .done)))))) s

end Sys2Proof.Machine
end

