-- ==== Sys2Proof/Machine/Commands.lean ====
section
/-! DEFINITION. The meanings of DISPATCH and of the wire commands (44_dispatcher.md, R200 to R213). -/

namespace Sys2Proof.Machine

/-- DISPATCH (R201), by an agent that may send the reply (R280). -/
def execDispatch (c p1 p2 p3 : Byte) (s : State) : Host.Outcome State Fault Refusal :=
  issue (fun s => need s.maySend .roleForbids (begin [.handle ⟨c, p1, p2, p3⟩] s)) s

/-- A whole frame as an instruction: valid, it is dispatched (R91, R201); with a wrong checksum it is a
frame that "the codec never emits" (R203), so nothing is dispatched and nothing changes (log 12). -/
def frameRun (f : Frame) (chk : Byte) (s : State) : Host.Outcome State Fault Refusal :=
  issue (fun s => need s.maySend .roleForbids
    (if chk = checksum f.command f.p1 f.p2 f.p3 then begin [.handle f] s
    else .next (s.respond .noFrame))) s

/-- CMD_STARTUP (R205). -/
def execCmdStartup (ack : Bool) (p1 p2 p3 chk : Byte) (s : State) :
    Host.Outcome State Fault Refusal :=
  frameRun ⟨commandByte ack 0x04#8, p1, p2, p3⟩ chk s

/-- CMD_PGMBYTE (R206). -/
def execCmdPgmbyte (ack : Bool) (p1 p2 p3 chk : Byte) (s : State) :
    Host.Outcome State Fault Refusal :=
  frameRun ⟨commandByte ack 0x07#8, p1, p2, p3⟩ chk s

/-- CMD_RDBYTE (R207). -/
def execCmdRdbyte (ack : Bool) (p1 p2 p3 chk : Byte) (s : State) :
    Host.Outcome State Fault Refusal :=
  frameRun ⟨commandByte ack 0x08#8, p1, p2, p3⟩ chk s

/-- CMD_VERSION (R208). -/
def execCmdVersion (ack : Bool) (p1 p2 p3 chk : Byte) (s : State) :
    Host.Outcome State Fault Refusal :=
  frameRun ⟨commandByte ack 0x09#8, p1, p2, p3⟩ chk s

/-- CMD_PROTOCOL (R209). -/
def execCmdProtocol (ack : Bool) (p1 p2 p3 chk : Byte) (s : State) :
    Host.Outcome State Fault Refusal :=
  frameRun ⟨commandByte ack 0x0A#8, p1, p2, p3⟩ chk s

/-- CMD_NUMBER (R210). -/
def execCmdNumber (ack : Bool) (p1 p2 p3 chk : Byte) (s : State) :
    Host.Outcome State Fault Refusal :=
  frameRun ⟨commandByte ack 0x0B#8, p1, p2, p3⟩ chk s

/-- CMD_TIME (R211). -/
def execCmdTime (ack : Bool) (p1 p2 p3 chk : Byte) (s : State) :
    Host.Outcome State Fault Refusal :=
  frameRun ⟨commandByte ack 0x0C#8, p1, p2, p3⟩ chk s

/-- CMD_MODE (R212). -/
def execCmdMode (ack : Bool) (p1 p2 p3 chk : Byte) (s : State) :
    Host.Outcome State Fault Refusal :=
  frameRun ⟨commandByte ack 0x0D#8, p1, p2, p3⟩ chk s

/-- A frame whose code has no row (R213): the dispatcher reports `UnknownCommand`. -/
def execUnknownFrame (f : Frame) (chk : Byte) (s : State) : Host.Outcome State Fault Refusal :=
  frameRun f chk s

end Sys2Proof.Machine
end

