-- ==== Sys2Proof/Machine/FlashSequencer.lean ====
section
/-! DEFINITION. The meanings of the flash command sequencer's operations and of the two flash commands
(43_flash_sequencer.md, R180 to R189). -/

namespace Sys2Proof.Machine

/-- A launch from outside the store: refused while a command is in flight (R182, R189) or a store
operation is under way (R271). -/
def launchFromOutside (d : Descriptor) (k : State → Host.Outcome State Fault Refusal) (s : State) :
    Host.Outcome State Fault Refusal :=
  need s.seq.complete .sequencerBusy (need (decide (s.ws.state = .idle)) .storeBusy (k (launch d s)))

/-- SEQ_LAUNCH (R182): it does not wait. -/
def execSeqLaunch (d : Descriptor) (s : State) : Host.Outcome State Fault Refusal :=
  issue (fun s => need s.mayAct .roleForbids
    (launchFromOutside d (fun t => .next (t.respond .done)) s)) s

/-- SEQ_WAIT (R183); an interrupt handler may not perform it (R274). -/
def execSeqWait (s : State) : Host.Outcome State Fault Refusal :=
  issue (fun s => need s.mayAct .roleForbids (begin [.seqWait] s)) s

/-- SEQ_EXEC (R187): only the sequencer performs it (R250). It has no step while no command is in
flight or the environment has not answered. -/
def execSeqExec (s : State) : Host.Outcome State Fault Refusal :=
  issue (fun s => need (decide (s.who = .sequencer)) .roleForbids (begin [.seqExec] s)) s

/-- A descriptor given to the sequencer on the `SEQ` channel (R105): it is launched, executed by the
sequencer and waited for, "issue command, poll completion, read status" (R180; log 13). -/
def giveDescriptor (d : Descriptor) (s : State) : Host.Outcome State Fault Refusal :=
  issue (fun s => need s.mayAct .roleForbids
    (launchFromOutside d (begin [.seqWait]) s)) s

/-- FCMD_PGM8 (R186). -/
def execFcmdPgm8 (a : Addr) (d : Phrase) (s : State) : Host.Outcome State Fault Refusal :=
  giveDescriptor ⟨Config.opcProgramPhrase, a, d⟩ s

/-- FCMD_ERSSCR (R185). -/
def execFcmdErsscr (a : Addr) (d : Phrase) (s : State) : Host.Outcome State Fault Refusal :=
  giveDescriptor ⟨Config.opcEraseSector, a, d⟩ s

end Sys2Proof.Machine
end

