-- ==== Sys2Proof/Machine/NvStore.lean ====
section
/-! DEFINITION. The meanings of the Non-Volatile Store's operations (42_nv_store.md, R160 to R175). -/

namespace Sys2Proof.Machine

/-- NV_INIT (R160): it does not touch `FLASH`. -/
def execNvInit (s : State) : Host.Outcome State Fault Refusal :=
  issue (fun s => need s.mayAct .roleForbids
    (.next ((s.setAlloc (emptyMap s.build.regionLen)).respond .done))) s

/-- NV_ALLOC (R161): the address of the first aligned free run, or `AllocationExhausted` or
`ParameterInvalid(size)` with the map unchanged. It writes only `ALLOC`: that an address becomes a handle is
the start-up code's doing (R204; `startAlloc`). -/
def execNvAlloc (size : Byte) (s : State) : Host.Outcome State Fault Refusal :=
  issue (fun s => need s.mayAct .roleForbids (match allocate size s with
    | .ok (a, t) => .next (t.respond (.addr a))
    | .error e => .next (raise e s))) s

/-- A store read of `n` bytes at `a` whose value is `v` (R163 to R166). -/
def storeRead (a : Addr) (n : Nat) (v : BitVec 32) (s : State) :
    Host.Outcome State Fault Refusal :=
  need s.mayAct .roleForbids (match storeCheck a n s with
    | .bad p => .next (raise (.parameterInvalid p) s)
    | .refused => .refused .storeBusy
    | .pass => .next (s.respond (.value v)))

/-- NV_READ8 (R163). -/
def execNvRead8 (a : Addr) (s : State) : Host.Outcome State Fault Refusal :=
  issue (fun s => storeRead a 1 ((s.flashByte a.toNat).setWidth 32) s) s

/-- NV_READ16 (R164). -/
def execNvRead16 (a : Addr) (s : State) : Host.Outcome State Fault Refusal :=
  issue (fun s => storeRead a 2 ((s.flash16 a.toNat).setWidth 32) s) s

/-- NV_READ32 (R165). -/
def execNvRead32 (a : Addr) (s : State) : Host.Outcome State Fault Refusal :=
  issue (fun s => storeRead a 4 (s.flash32 a.toNat) s) s

/-- A store write or erase asked for from outside: turned down, refused, or run as the write path's
steps (R166, R171). -/
def storeRun (j : StoreJob) (s : State) : Host.Outcome State Fault Refusal :=
  need s.mayAct .roleForbids (match storeStart j s with
    | .bad p => .next (raise (.parameterInvalid p) s)
    | .refused r => .refused r
    | .accepted t => begin [.store] t)

/-- NV_WRITE8 (R168). -/
def execNvWrite8 (a : Addr) (v : Byte) (s : State) : Host.Outcome State Fault Refusal :=
  issue (storeRun (.write8 a v)) s

/-- NV_WRITE16 (R169). -/
def execNvWrite16 (a : Addr) (v : BitVec 16) (s : State) : Host.Outcome State Fault Refusal :=
  issue (storeRun (.write16 a v)) s

/-- NV_WRITE32 (R170). -/
def execNvWrite32 (a : Addr) (v : BitVec 32) (s : State) : Host.Outcome State Fault Refusal :=
  issue (storeRun (.write32 a v)) s

/-- NV_ERASE (R173). -/
def execNvErase (s : State) : Host.Outcome State Fault Refusal :=
  issue (storeRun .erase) s

end Sys2Proof.Machine
end

