-- ==== Sys2Proof/Machine/PacketCodec.lean ====
section
/-! DEFINITION. The meanings of the Packet Codec's operations (41_packet_codec.md, R140 to R148). -/

namespace Sys2Proof.Machine

/-- CODEC_INIT (R140): the byte registers are not written. It has its effect for every agent that may ask for an
operation, also while another one is inside FR_STEP or FR_GET, blocked or not: a DESIGN CHOICE (log 32), since
U14's row names CODEC_INIT beside PIPE_INIT and R253 says `FR.*` is not shared. -/
def execCodecInit (s : State) : Host.Outcome State Fault Refusal :=
  issue (fun s => need s.mayAct .roleForbids (.next ((codecInit s).respond .done))) s

/-- FR_STEP (R141): atomic in the polled regime; in the threaded one it begins with PIPE_GET_B. `FR.*` has
one user (R253). -/
def execFrStep (s : State) : Host.Outcome State Fault Refusal :=
  issue (fun s => need s.mayAct .roleForbids (need s.rxf.inited .pipeNotInitialised
    (need s.mayStep .secondConsumer
      (if s.threaded then begin (frStepParts s) s.noteStep else settle (frStep s))))) s

/-- FR_GET (R143). -/
def execFrGet (s : State) : Host.Outcome State Fault Refusal :=
  issue (fun s => need s.mayAct .roleForbids (need s.rxf.inited .pipeNotInitialised
    (need s.mayStep .secondConsumer (begin (frGetParts s) s.noteStep)))) s

/-- FR_PUT (R145), the polled regime's emission. -/
def execFrPut (c p1 p2 p3 : Byte) (s : State) : Host.Outcome State Fault Refusal :=
  issue (fun s => need s.polled .wrongRegime (need s.maySend .roleForbids
    (need s.txf.inited .pipeNotInitialised (begin (emission ⟨c, p1, p2, p3⟩ s) s)))) s

/-- FR_PUT_B (R146), the threaded regime's emission. The receive and the transmit thread "must never send
frames" (R280). -/
def execFrPutB (c p1 p2 p3 : Byte) (s : State) : Host.Outcome State Fault Refusal :=
  issue (fun s => need s.threaded .wrongRegime (need s.maySend .roleForbids
    (need s.txf.inited .pipeNotInitialised (begin (emission ⟨c, p1, p2, p3⟩ s) s)))) s

end Sys2Proof.Machine
end

