-- ==== Sys2Proof/Machine/Dispatch.lean ====
section
/-! DEFINITION. The one dispatch from instruction to meaning. -/

namespace Sys2Proof.Machine

/-- Every instruction's meaning, one arm per row of the opcode table. -/
def exec (i : Instr) (s : State) : Host.Outcome State Fault Refusal :=
  match i with
  | .pipeInit p => Sys2Proof.Machine.execPipeInit p s
  | .pipePut p b => Sys2Proof.Machine.execPipePut p b s
  | .pipeGet p => Sys2Proof.Machine.execPipeGet p s
  | .pipePutB p b => Sys2Proof.Machine.execPipePutB p b s
  | .pipeGetB p => Sys2Proof.Machine.execPipeGetB p s
  | .semWait x => Sys2Proof.Machine.execSemWait x s
  | .semSignal x => Sys2Proof.Machine.execSemSignal x s
  | .codecInit => Sys2Proof.Machine.execCodecInit s
  | .frStep => Sys2Proof.Machine.execFrStep s
  | .frGet => Sys2Proof.Machine.execFrGet s
  | .frPut c p1 p2 p3 => Sys2Proof.Machine.execFrPut c p1 p2 p3 s
  | .frPutB c p1 p2 p3 => Sys2Proof.Machine.execFrPutB c p1 p2 p3 s
  | .nvInit => Sys2Proof.Machine.execNvInit s
  | .nvAlloc size => Sys2Proof.Machine.execNvAlloc size s
  | .nvRead8 a => Sys2Proof.Machine.execNvRead8 a s
  | .nvRead16 a => Sys2Proof.Machine.execNvRead16 a s
  | .nvRead32 a => Sys2Proof.Machine.execNvRead32 a s
  | .nvWrite8 a v => Sys2Proof.Machine.execNvWrite8 a v s
  | .nvWrite16 a v => Sys2Proof.Machine.execNvWrite16 a v s
  | .nvWrite32 a v => Sys2Proof.Machine.execNvWrite32 a v s
  | .nvErase => Sys2Proof.Machine.execNvErase s
  | .seqLaunch d => Sys2Proof.Machine.execSeqLaunch d s
  | .seqWait => Sys2Proof.Machine.execSeqWait s
  | .seqExec => Sys2Proof.Machine.execSeqExec s
  | .dispatch c p1 p2 p3 => Sys2Proof.Machine.execDispatch c p1 p2 p3 s
  | .cmdStartup ack p1 p2 p3 chk => Sys2Proof.Machine.execCmdStartup ack p1 p2 p3 chk s
  | .cmdPgmbyte ack p1 p2 p3 chk => Sys2Proof.Machine.execCmdPgmbyte ack p1 p2 p3 chk s
  | .cmdRdbyte ack p1 p2 p3 chk => Sys2Proof.Machine.execCmdRdbyte ack p1 p2 p3 chk s
  | .cmdVersion ack p1 p2 p3 chk => Sys2Proof.Machine.execCmdVersion ack p1 p2 p3 chk s
  | .cmdProtocol ack p1 p2 p3 chk => Sys2Proof.Machine.execCmdProtocol ack p1 p2 p3 chk s
  | .cmdNumber ack p1 p2 p3 chk => Sys2Proof.Machine.execCmdNumber ack p1 p2 p3 chk s
  | .cmdTime ack p1 p2 p3 chk => Sys2Proof.Machine.execCmdTime ack p1 p2 p3 chk s
  | .cmdMode ack p1 p2 p3 chk => Sys2Proof.Machine.execCmdMode ack p1 p2 p3 chk s
  | .fcmdPgm8 a d => Sys2Proof.Machine.execFcmdPgm8 a d s
  | .fcmdErsscr a d => Sys2Proof.Machine.execFcmdErsscr a d s

end Sys2Proof.Machine
end

