-- ==== Sys2Proof/Machine/Fetch.lean ====
section
/-! DEFINITION. How a request's bytes become an operation, and which agent drives the channel a word
of the opcode table travels on (R105). -/

namespace Sys2Proof.Machine

/-- What a request's bytes do: the instruction they decode to, or, for a frame whose code has no row,
the dispatcher's `UnknownCommand` (R101, R213); other bytes are refused (R103, R104). -/
def runBytes (f : Format) (bytes : List Byte) (s : State) : Host.Outcome State Fault Refusal :=
  match decode f bytes with
  | .ok i => exec i s
  | .error (.unknownCode g chk) => execUnknownFrame g chk s
  | .error e => .refused (.undecodable e)

/-- The agent that drives an instruction's channel (R105, R129, R130): the receive side's handler or thread
puts on `RXF`, the transmit side's gets from `TXF`, only the sequencer performs SEQ_EXEC (R187), the
protocol task does everything else. -/
def issuer : Instr → Agent
  | .pipePut .rxf _ => .rxHandler
  | .pipePutB .rxf _ => .rxThread
  | .pipeGet .txf => .txHandler
  | .pipeGetB .txf => .txThread
  | .seqExec => .sequencer
  | .pipePut .txf _ | .pipePutB .txf _ | .pipeGet .rxf | .pipeGetB .rxf | .pipeInit _ | .semWait _
  | .semSignal _ | .codecInit | .frStep | .frGet | .frPut _ _ _ _ | .frPutB _ _ _ _ | .nvInit
  | .nvAlloc _ | .nvRead8 _ | .nvRead16 _ | .nvRead32 _ | .nvWrite8 _ _ | .nvWrite16 _ _
  | .nvWrite32 _ _ | .nvErase | .seqLaunch _ | .seqWait | .dispatch _ _ _ _
  | .cmdStartup _ _ _ _ _ | .cmdPgmbyte _ _ _ _ _ | .cmdRdbyte _ _ _ _ _ | .cmdVersion _ _ _ _ _
  | .cmdProtocol _ _ _ _ _ | .cmdNumber _ _ _ _ _ | .cmdTime _ _ _ _ _ | .cmdMode _ _ _ _ _
  | .fcmdPgm8 _ _ | .fcmdErsscr _ _ => .task

/-- The request a word of the opcode table stands for (log 27). -/
def wordRequest (turn : Nat) (f : Format) (w : Nat) : Event :=
  match decode f (wordBytes f w) with
  | .ok i => .request (issuer i) f (wordBytes f w) turn
  | .error _ => .request .task f (wordBytes f w) turn

/-- The environment's next choice comes about. -/
def event (e : Event) (q : List Event) (s : State) : Host.Outcome State Fault Refusal :=
  match e with
  | .request who f bytes turn => runBytes f bytes ((s.take q turn).switchTo who)
  | .resume who turn => run turn ((s.take q turn).switchTo who)
  | .startUp turn =>
    issue (fun s => need (s.nvNumber.isNone && s.nvMode.isNone) .handleSet (begin startUpParts s))
      ((s.take q turn).switchTo .task)
  | .startHandle turn =>
    issue (fun s => begin (startHandleParts s) s) ((s.take q turn).switchTo .task)
  | .restart => .next ((s.take q s.turn).restart)

end Sys2Proof.Machine
end

