-- ==== Sys2Proof/Machine/Step.lean ====
section
/-! DEFINITION. One step of the machine, and where it fetches its next instruction. -/

namespace Sys2Proof.Machine

/-- One step: the environment's next choice comes about (R42, R75). Where there is none the block has
nothing to do and nothing changes: it fetches no instruction of its own (R80). -/
def step (s : State) : Host.Outcome State Fault Refusal :=
  match s.queue with
  | [] => .next s
  | e :: q => event e q s

/-- `s` with a word of the opcode table as the next request (log 27); the agent that drives the word's
channel makes it (R105). -/
def State.withFetchWord (s : State) (nbits w : Nat) : State :=
  match formatOfBits nbits with
  | some f => { s with queue := wordRequest s.turn f w :: s.queue }
  | none => s

end Sys2Proof.Machine
end

