-- ==== Sys2Proof/Safety.lean ====
section
/-! DEFINITION. What counts as a safe state and a safe run, in the terms the statements use: when a
request may be made, the invariants of the block, and what an operation leaves unchanged. -/

namespace Sys2Proof.Machine

/-- A request may be made: the state is an instance of the block (R11), and the running agent's previous
operation has returned (R75). -/
def State.canAsk (s : State) : Bool := s.build.ok && s.me.todo.isEmpty

/-- A request may be made by a task or thread (R129, R253): `canAsk`, and the agent is one. -/
def State.ready (s : State) : Bool := s.canAsk && s.mayAct

/-- The running agent may perform PIPE_PUT on a pipe: polled regime, PIPE_INIT has run, and it is the pipe's
producer (R129, R263, R268). -/
def State.mayPutNow (p : PipeId) (s : State) : Bool :=
  s.polled && (s.pipe p).inited && s.mayPut p false

/-- The running agent may perform PIPE_GET on a pipe: polled regime, PIPE_INIT has run, and it is the pipe's
consumer (R129, R263, R268). -/
def State.mayGetNow (p : PipeId) (s : State) : Bool :=
  s.polled && (s.pipe p).inited && s.mayGet p

/-- The running agent may perform PIPE_PUT_B on a pipe: threaded regime, PIPE_INIT has run, no second
producer unless there is a lock (R128, R129, R263). -/
def State.mayPutB (p : PipeId) (s : State) : Bool :=
  s.threaded && (s.pipe p).inited && s.mayPut p (putsUnderLock p s)

/-- The running agent may perform PIPE_GET_B on a pipe: threaded regime, PIPE_INIT has run, no other
consumer unless there is a lock (R128, R129, R263). -/
def State.mayGetB (p : PipeId) (s : State) : Bool :=
  s.threaded && (s.pipe p).inited && s.mayGet p

/-- The running agent may step the codec in the threaded regime: PIPE_INIT of `RXF` has run, and no other
agent is the codec's user (R253, R263). -/
def State.mayStepB (s : State) : Bool := s.threaded && s.rxf.inited && s.mayStep

/-- The lock of a pipe is free, where there is one (R128). -/
def State.lockFree (p : PipeId) (s : State) : Bool := !s.locked || decide (0 < (s.pipe p).lock)

/-! ### Invariants -/

/-- A pipe's registers stay inside its buffer: `start` and `end` are indices modulo `C` (R22 (b)). -/
def Pipe.inBounds (capacity : Nat) (p : Pipe) : Prop :=
  p.buf.length = capacity ∧ p.startIx < capacity ∧ p.endIx < capacity

/-- The pipe invariants of R22 (a), (b) and (c). -/
def Pipe.wf (capacity : Nat) (p : Pipe) : Prop :=
  p.inBounds capacity ∧ p.count ≤ capacity ∧ p.endIx = (p.startIx + p.count) % capacity

/-- The flash is in its canonical form and holds nothing outside the modelled sector (R31). -/
def State.flashWf (s : State) : Prop :=
  Memory.wf s.build.erasedByte s.flash = true ∧ ∀ c ∈ s.flash, s.inSector c.1 = true

/-- The codec rests in one of its five states (R27, R142). -/
def State.codecRests (s : State) : Prop := s.fr.state ≠ .validate

/-- The sequencer holds a command exactly while `SEQ.complete` is 0 (R36). -/
def State.sequencerWf (s : State) : Prop := s.seq.complete = s.seq.inflight.isNone

/-- The allocation map has `REGION_LEN` entries (R30). -/
def State.mapWf (s : State) : Prop := s.alloc.length = s.build.regionLen

/-- The parts that only the blocking forms of the threaded regime have (R124, R125, R129, R146). -/
def Micro.threadedOnly : Micro → Bool
  | .pipeStore _ _ | .pipeTake _ | .emitB | .codecTake | .frGetAgain => true
  | .semWait _ | .semSignal _ | .hold | .ret _ | .frGetPass | .emitBegin _ | .emit | .emitCount
  | .emitEnd | .store | .seqWait | .seqExec | .handle _ | .afterStore _ | .reply _ _ | .replied _
  | .startPipe _ | .startCodec | .startMap | .startNumber | .startMode | .loop | .loopDispatch
  | .halted => false

/-- No agent of a polled build is inside a blocking form (R129). -/
def State.polledParts (s : State) : Prop :=
  (∀ m ∈ s.me.todo, m.threadedOnly = false)
    ∧ ∀ x ∈ s.parked, ∀ m ∈ x.2.todo, m.threadedOnly = false

/-- The pipes of a polled build (R22), with what keeps them so. -/
def State.polledPipesWf (s : State) : Prop :=
  s.polled = true ∧ 1 ≤ s.build.capacity ∧ s.polledParts
    ∧ s.rxf.wf s.build.capacity ∧ s.txf.wf s.build.capacity

/-! ### The semaphores' accounts

In the threaded regime a blocking form takes units of one semaphore at its line 1 and gives units of
another at its line 5. What the agents have taken and not yet given back stands in the parts they still
have to do; with it the counts of R24 and R25 add up at every moment, not only between operations. -/

/-- What a part does to the count of a semaphore. -/
def Micro.gives (x : Sem) : Micro → Int
  | .semWait y => if y = x then -1 else 0
  | .semSignal y => if y = x then 1 else 0
  | .hold | .pipeStore _ _ | .pipeTake _ | .ret _ | .codecTake | .frGetPass | .frGetAgain
  | .emitBegin _ | .emit | .emitB | .emitCount | .emitEnd | .store | .seqWait | .seqExec | .handle _
  | .afterStore _ | .reply _ _ | .replied _ | .startPipe _ | .startCodec | .startMap | .startNumber
  | .startMode | .loop | .loopDispatch | .halted => 0

/-- What a part of a blocking form does to the number of bytes stored in a pipe (R124, R125 line 3). -/
def Micro.grows (p : PipeId) : Micro → Int
  | .pipeStore q _ => if q = p then 1 else 0
  | .pipeTake q => if q = p then -1 else 0
  | .codecTake => if p = .rxf then -1 else 0
  | .semWait _ | .semSignal _ | .hold | .ret _ | .frGetPass | .frGetAgain | .emitBegin _ | .emit
  | .emitB | .emitCount | .emitEnd | .store | .seqWait | .seqExec | .handle _ | .afterStore _
  | .reply _ _ | .replied _ | .startPipe _ | .startCodec | .startMap | .startNumber | .startMode
  | .loop | .loopDispatch | .halted => 0

/-- A part that comes only while its agent has `TXLOCK` and will give it back: an emission that is not
over (R146), the note after SEM_WAIT. -/
def Micro.sends : Micro → Int
  | .emitB | .hold => 1
  | .semWait _ | .semSignal _ | .pipeStore _ _ | .pipeTake _ | .ret _ | .codecTake | .frGetPass
  | .frGetAgain | .emitBegin _ | .emit | .emitCount | .emitEnd | .store | .seqWait | .seqExec
  | .handle _ | .afterStore _ | .reply _ _ | .replied _ | .startPipe _ | .startCodec | .startMap
  | .startNumber | .startMode | .loop | .loopDispatch | .halted => 0

/-- What a part still to do adds to a semaphore's account: to `space` its units and the slots it fills, to
`items` its units and the bytes it takes, to the locks its units. -/
def Micro.owes (x : Sem) (m : Micro) : Int :=
  match x with
  | .space p => m.gives x + m.grows p
  | .items p => m.gives x - m.grows p
  | .lock _ => m.gives x
  | .txlock => m.gives x + m.sends

/-- What a list of parts adds to a semaphore's account. -/
def owed (x : Sem) (l : List Micro) : Int := (l.map (fun m => m.owes x)).sum

/-- What an agent has taken from a semaphore's account and not yet given back. -/
def Local.owes (x : Sem) (l : Local) : Int :=
  owed x l.todo + (if x = .txlock ∧ l.held = true then 1 else 0)

/-- What all agents together have taken from a semaphore's account. -/
def State.owes (x : Sem) (s : State) : Int :=
  s.me.owes x + (s.parked.map (fun y => y.2.owes x)).sum

/-- A semaphore's account adds up (R24, R25, R127): the free slots, the stored bytes and what the blocking
forms under way have reserved are `C`; the stored bytes are those `items` counts and those spoken for; a
lock is free or held once. -/
def State.adds (x : Sem) (s : State) : Prop :=
  match x with
  | .space p => ((s.pipe p).space : Int) + (s.pipe p).count + s.owes x = s.build.capacity
  | .items p => ((s.pipe p).items : Int) + s.owes x = (s.pipe p).count
  | .lock p => ((s.pipe p).lock : Int) + s.owes x = 1
  | .txlock => (s.txlock : Int) + s.owes x = 1

/-- Wherever an agent stops in its parts, it has taken before it gives: no rest of them owes less than
nothing. -/
def settled (x : Sem) : List Micro → Prop
  | [] => True
  | m :: l => 0 ≤ owed x (m :: l) ∧ settled x l

/-- The parts of START_UP before its loop (R263). -/
def Micro.starts : Micro → Bool
  | .startPipe _ | .startCodec | .startMap | .startNumber | .startMode => true
  | .semWait _ | .semSignal _ | .hold | .pipeStore _ _ | .pipeTake _ | .ret _ | .codecTake
  | .frGetPass | .frGetAgain | .emitBegin _ | .emit | .emitB | .emitCount | .emitEnd | .store
  | .seqWait | .seqExec | .handle _ | .afterStore _ | .reply _ _ | .replied _ | .loop | .loopDispatch
  | .halted => false

/-- The parts of START_UP come first, and nothing that blocks stands among them (R263). -/
def startsClean : List Micro → Prop
  | [] => True
  | m :: l =>
    (if m.starts then ∀ x ∈ l, ∀ y, x.owes y = 0 else ∀ x ∈ l, x.starts = false) ∧ startsClean l

/-- What holds of what one agent carries in a threaded build. -/
def Local.wf (l : Local) : Prop := (∀ x, settled x l.todo) ∧ startsClean l.todo

/-- Each agent is the running one or parked, and only once. -/
def State.agentsWf (s : State) : Prop := (s.who :: s.parked.map (fun y => y.1)).Nodup

/-- The pipes and semaphores of a threaded build at any moment (R22, R24, R25), with what keeps them so. -/
def State.threadedPipesWf (s : State) : Prop :=
  s.threaded = true ∧ 1 ≤ s.build.capacity ∧ s.agentsWf ∧ s.me.wf ∧ (∀ y ∈ s.parked, y.2.wf)
    ∧ (∀ x, s.adds x)
    ∧ ∀ p, (s.pipe p).inBounds s.build.capacity
        ∧ (s.pipe p).endIx = ((s.pipe p).startIx + (s.pipe p).count) % s.build.capacity

/-- A PIPE_INIT may be part of the next step: it is asked for, or START_UP begins or is under way. -/
def State.initAhead (s : State) : Prop :=
  (∃ who f bytes turn q p, s.queue = .request who f bytes turn :: q ∧ decode f bytes = .ok (.pipeInit p))
    ∨ (∃ turn q, s.queue = .startUp turn :: q)
    ∨ (∃ p, .startPipe p ∈ s.me.todo) ∨ ∃ y ∈ s.parked, ∃ p, .startPipe p ∈ y.2.todo

/-- No agent is part-way through a blocking put or get. -/
def State.nobodyInside (s : State) : Prop :=
  ∀ x, x ≠ .txlock → (∀ m ∈ s.me.todo, m.owes x = 0) ∧ ∀ y ∈ s.parked, ∀ m ∈ y.2.todo, m.owes x = 0

/-- The flash invariant with the parameters it rests on (R11, R31). -/
def State.flashInv (s : State) : Prop := s.build.ok = true ∧ s.flashWf

/-- What holds of the sequencing registers between any two steps (R27, R36). -/
def State.restInv (s : State) : Prop := s.codecRests ∧ s.sequencerWf

/-! ### What an operation leaves unchanged -/

/-- Every byte of flash reads as before. -/
def sameFlash (s t : State) : Prop := ∀ a, t.flashByte a = s.flashByte a

/-- The sequencer's and the write path's registers are as before: `CMD.*`, `SEQ.*`, `WS.*`. -/
def sameSequencer (s t : State) : Prop := t.cmd = s.cmd ∧ t.seq = s.seq ∧ t.ws = s.ws

/-- The store's and the sequencer's registers are as before: `ALLOC`, `CMD.*`, `SEQ.*`, `WS.*`. -/
def sameStore (s t : State) : Prop := t.alloc = s.alloc ∧ sameSequencer s t

/-- The handles of the two variables are as before: `NvNumber`, `NvMode`. -/
def sameHandles (s t : State) : Prop := t.nvNumber = s.nvNumber ∧ t.nvMode = s.nvMode

/-- The handlers' registers are as before: `NvNumber`, `NvMode`, `PROTO_MODE`, the clock. -/
def sameHandlers (s t : State) : Prop :=
  sameHandles s t ∧ t.protoMode = s.protoMode ∧ t.rtc = s.rtc

/-- The notes of who uses the pipes are as before. -/
def sameUsers (s t : State) : Prop := ∀ p, t.users p = s.users p

/-- Both pipes with their semaphores, `TXLOCK`, and the notes of who uses the pipes are as before. -/
def samePipes (s t : State) : Prop :=
  t.rxf = s.rxf ∧ t.txf = s.txf ∧ t.txlock = s.txlock ∧ sameUsers s t

/-- The parameters, the other agents and the environment's choices are as before, and the same agent
runs. -/
def sameAgents (s t : State) : Prop :=
  t.build = s.build ∧ t.who = s.who ∧ t.parked = s.parked ∧ t.queue = s.queue ∧ t.turn = s.turn

/-- No answer to a flash command and no free value has been used. -/
def sameInputs (s t : State) : Prop := t.draws = s.draws ∧ t.freeIx = s.freeIx

/-- The running agent's emission, and whether it holds `TXLOCK`, are as before. -/
def sameCarried (s t : State) : Prop := t.me.txe = s.me.txe ∧ t.me.held = s.me.held

/-- The other pipe of the transport. -/
def otherPipe : PipeId → PipeId
  | .rxf => .txf
  | .txf => .rxf

/-- Nothing but one pipe and the codec's registers, and what the running agent carries, may differ. -/
def onlyCodecAnd (p : PipeId) (s t : State) : Prop :=
  t.pipe (otherPipe p) = s.pipe (otherPipe p) ∧ t.txlock = s.txlock ∧ sameUsers s t
    ∧ sameFlash s t ∧ sameStore s t ∧ sameHandlers s t ∧ sameAgents s t ∧ sameInputs s t

/-- Nothing but one pipe, and what the running agent carries, may differ. -/
def onlyPipe (p : PipeId) (s t : State) : Prop := onlyCodecAnd p s t ∧ t.fr = s.fr

/-- Nothing but what the running agent carries may differ. -/
def onlyMe (s t : State) : Prop :=
  samePipes s t ∧ t.fr = s.fr ∧ sameFlash s t ∧ sameStore s t ∧ sameHandlers s t ∧ sameAgents s t
    ∧ sameInputs s t

/-- Nothing but the counts of the pipes' semaphores and of `TXLOCK`, and what the running agent carries, may
differ. -/
def onlySemaphores (s t : State) : Prop :=
  (∀ p, (t.pipe p).buf = (s.pipe p).buf ∧ (t.pipe p).startIx = (s.pipe p).startIx
      ∧ (t.pipe p).endIx = (s.pipe p).endIx ∧ (t.pipe p).count = (s.pipe p).count
      ∧ (t.pipe p).inited = (s.pipe p).inited)
    ∧ sameUsers s t ∧ t.fr = s.fr ∧ sameFlash s t ∧ sameStore s t ∧ sameHandlers s t ∧ sameAgents s t
    ∧ sameInputs s t

/-- Nothing but the allocation map, and the response, may differ. -/
def onlyMap (s t : State) : Prop :=
  samePipes s t ∧ t.fr = s.fr ∧ sameFlash s t ∧ sameSequencer s t ∧ sameHandlers s t ∧ sameAgents s t
    ∧ sameInputs s t ∧ sameCarried s t

/-- Nothing but flash, the sequencer's and the write path's registers, the environment's answers to flash
commands, the counter of free values and the response may differ. -/
def onlyFlash (s t : State) : Prop :=
  samePipes s t ∧ t.fr = s.fr ∧ t.alloc = s.alloc ∧ sameHandlers s t ∧ sameAgents s t
    ∧ sameCarried s t

/-! ### Results -/

/-- The operation has returned `r` to the running agent, which has nothing left to do. -/
def returned (r : Response) (t : State) : Prop := t.me.todo = [] ∧ t.me.resp = r

/-- The caller is blocked (R15): its operation has changed nothing, has not returned, and it has no step
however long its turn. -/
def blocked (s t : State) : Prop :=
  onlyMe s t ∧ sameCarried s t ∧ t.me.todo ≠ [] ∧ t.me.resp = .pending
    ∧ ∀ n, run n t = .next t

/-- The bytes `l` have been put on a pipe, in order and after what it held, and nothing has been got: its
`space` and `items` moved with them in the threaded regime (R121, R124). -/
def Pipe.grewBy (capacity : Nat) (threaded : Bool) (l : List Byte) (p q : Pipe) : Prop :=
  q.stored capacity = p.stored capacity ++ l ∧ q.wf capacity ∧ q.startIx = p.startIx
    ∧ q.lock = p.lock ∧ q.inited = p.inited
    ∧ (if threaded then q.space + l.length = p.space ∧ q.items = p.items + l.length
       else q.space = p.space ∧ q.items = p.items)

/-- Bytes have been got from a pipe, oldest first, until it held `rest`, and nothing has been put: its
`space` and `items` moved with them in the threaded regime (R122, R125). -/
def Pipe.shrankTo (capacity : Nat) (threaded : Bool) (rest : List Byte) (p q : Pipe) : Prop :=
  q.stored capacity = rest ∧ q.wf capacity ∧ q.endIx = p.endIx ∧ q.buf = p.buf
    ∧ q.lock = p.lock ∧ q.inited = p.inited
    ∧ (if threaded then q.space + q.count = p.space + p.count ∧ q.items + p.count = p.items + q.count
       else q.space = p.space ∧ q.items = p.items)

/-- `TXF` can take a number of bytes of an emission at once: PIPE_INIT has run, the running agent may put on
it, there is room, and in the threaded regime `TXLOCK` and the pipe's lock are free (R145, R146, R268). -/
def State.canEmit (n : Nat) (s : State) : Prop :=
  s.txf.inited = true ∧ s.txf.wf s.build.capacity ∧ s.txf.count + n ≤ s.build.capacity
    ∧ s.mayPut .txf true = true
    ∧ (s.threaded = true → 0 < s.txlock ∧ n ≤ s.txf.space ∧ s.lockFree .txf = true)

/-- What one byte does to the codec's registers and what FR_STEP returns, row by row as R141 has it. -/
def Codec.takes (b : Byte) (c d : Codec) (r : Response) : Prop :=
  match c.state with
  | .awaitCommand => d = { c with command := b, state := .awaitP1 } ∧ r = .noFrame
  | .awaitP1 => d = { c with p1 := b, state := .awaitP2 } ∧ r = .noFrame
  | .awaitP2 => d = { c with p2 := b, state := .awaitP3 } ∧ r = .noFrame
  | .awaitP3 => d = { c with p3 := b, state := .awaitChecksum } ∧ r = .noFrame
  | .awaitChecksum =>
    if b = c.command ^^^ c.p1 ^^^ c.p2 ^^^ c.p3 then
      d = { c with checksum := b, state := .awaitCommand } ∧ r = .frame ⟨c.command, c.p1, c.p2, c.p3⟩
    else d = ⟨c.p1, c.p2, c.p3, b, b, .awaitChecksum⟩ ∧ r = .noFrame
  | .validate => True

/-- Giving the codec bytes one after another until a frame completes or there are no more: its registers,
the frame, and the bytes it has not taken (R143). -/
def Codec.feed : Codec → List Byte → Codec × Option Frame × List Byte
  | c, [] => (c, none, [])
  | c, b :: l =>
    match c.takeByte b with
    | (d, some f) => (d, some f, l)
    | (d, none) => d.feed l

/-- The instruction dispatches a command (R201, R205 to R212). -/
def dispatches : Instr → Bool
  | .dispatch _ _ _ _ | .cmdStartup _ _ _ _ _ | .cmdPgmbyte _ _ _ _ _ | .cmdRdbyte _ _ _ _ _
  | .cmdVersion _ _ _ _ _ | .cmdProtocol _ _ _ _ _ | .cmdNumber _ _ _ _ _ | .cmdTime _ _ _ _ _
  | .cmdMode _ _ _ _ _ => true
  | .pipeInit _ | .pipePut _ _ | .pipeGet _ | .pipePutB _ _ | .pipeGetB _ | .semWait _
  | .semSignal _ | .codecInit | .frStep | .frGet | .frPut _ _ _ _ | .frPutB _ _ _ _ | .nvInit
  | .nvAlloc _ | .nvRead8 _ | .nvRead16 _ | .nvRead32 _ | .nvWrite8 _ _ | .nvWrite16 _ _
  | .nvWrite32 _ _ | .nvErase | .seqLaunch _ | .seqWait | .seqExec | .fcmdPgm8 _ _
  | .fcmdErsscr _ _ => false

/-- The instruction may write the sequencer's registers, or wait for the sequencer, which then writes flash
(R37, R171, R180): a store write or erase, a sequencer operation, a command. -/
def reachesSequencer : Instr → Bool
  | .nvWrite8 _ _ | .nvWrite16 _ _ | .nvWrite32 _ _ | .nvErase | .seqLaunch _ | .seqWait | .seqExec
  | .fcmdPgm8 _ _ | .fcmdErsscr _ _ | .dispatch _ _ _ _ | .cmdStartup _ _ _ _ _
  | .cmdPgmbyte _ _ _ _ _ | .cmdRdbyte _ _ _ _ _ | .cmdVersion _ _ _ _ _ | .cmdProtocol _ _ _ _ _
  | .cmdNumber _ _ _ _ _ | .cmdTime _ _ _ _ _ | .cmdMode _ _ _ _ _ => true
  | .pipeInit _ | .pipePut _ _ | .pipeGet _ | .pipePutB _ _ | .pipeGetB _ | .semWait _
  | .semSignal _ | .codecInit | .frStep | .frGet | .frPut _ _ _ _ | .frPutB _ _ _ _ | .nvInit
  | .nvAlloc _ | .nvRead8 _ | .nvRead16 _ | .nvRead32 _ => false

/-- Position `n` of a stream passes the codec's test: the byte four places on is the exclusive-or of the
four from `n` (R144 (b)). -/
def passes (w : List Byte) (n : Nat) : Prop :=
  w[n + 4]? = some (w.getD n 0#8 ^^^ w.getD (n + 1) 0#8 ^^^ w.getD (n + 2) 0#8 ^^^ w.getD (n + 3) 0#8)

/-- The address and the bytes, lowest address first, that a store write is asked to write (R66, R168 to
R170). -/
def storeTarget : Instr → Option (Addr × List Byte)
  | .nvWrite8 a v => some (a, [v])
  | .nvWrite16 a v => some (a, [byteOf v 0, byteOf v 1])
  | .nvWrite32 a v => some (a, [byteOf v 0, byteOf v 1, byteOf v 2, byteOf v 3])
  | .pipeInit _ | .pipePut _ _ | .pipeGet _ | .pipePutB _ _ | .pipeGetB _ | .semWait _
  | .semSignal _ | .codecInit | .frStep | .frGet | .frPut _ _ _ _ | .frPutB _ _ _ _ | .nvInit
  | .nvAlloc _ | .nvRead8 _ | .nvRead16 _ | .nvRead32 _ | .nvErase | .seqLaunch _ | .seqWait
  | .seqExec | .dispatch _ _ _ _ | .cmdStartup _ _ _ _ _ | .cmdPgmbyte _ _ _ _ _
  | .cmdRdbyte _ _ _ _ _ | .cmdVersion _ _ _ _ _ | .cmdProtocol _ _ _ _ _ | .cmdNumber _ _ _ _ _
  | .cmdTime _ _ _ _ _ | .cmdMode _ _ _ _ _ | .fcmdPgm8 _ _ | .fcmdErsscr _ _ => none

/-- The store may begin a write or an erase, and its flash is in canonical form (R166, R271). -/
def State.storeReady (s : State) : Prop := s.ready = true ∧ s.flashWf ∧ s.storeFree = true

/-- `n` bytes at `a` lie in the data region and are aligned to `n` (R166). -/
def State.inRegion (a n : Nat) (s : State) : Prop :=
  s.regionBase ≤ a ∧ a + n ≤ s.regionBase + s.build.regionLen ∧ a % n = 0

/-- The data region with the bytes `l` at `a`: what one address reads as (R167). -/
def State.byteAfter (a : Nat) (l : List Byte) (s : State) (x : Nat) : Byte :=
  if a ≤ x ∧ x < a + l.length then l.getD (x - a) 0#8 else s.flashByte x

/-- The store has written `l` at `a` with the whole sector erased first (R167, R172): the data region holds
the new bytes up to phrase `k` and `ERASED_BYTE` from there on, the rest of the sector `ERASED_BYTE`, and
nothing else is changed (R175). -/
def storeWrote (k : Nat) (a : Nat) (l : List Byte) (s t : State) : Prop :=
  ∀ x, t.flashByte x =
    if s.regionBase ≤ x ∧ x < s.regionBase + 8 * k then s.byteAfter a l x
    else if s.inSector x then s.build.erasedByte else s.flashByte x

/-- A store operation has ended: the sequencer is idle with the given flags, the write path is idle with
the given result (R171, R187). -/
def storeEnded (accerr fpviol result : Bool) (t : State) : Prop :=
  t.seq = ⟨true, accerr, fpviol, none⟩ ∧ t.ws.state = .idle ∧ t.ws.result = result

/-- What a flash command with this outcome does to the bytes of flash (R184 to R186): nothing unless the
outcome is `ok`; an erase sets the whole sector to `ERASED_BYTE`, a program writes its eight bytes. -/
def commandWrote (d : Descriptor) (o : SeqOutcome) (s t : State) : Prop :=
  ∀ x, t.flashByte x =
    if o ≠ .ok then s.flashByte x
    else if d.opcode = Config.opcEraseSector then
      (if s.inSector x then s.build.erasedByte else s.flashByte x)
    else if d.addr.toNat ≤ x ∧ x < d.addr.toNat + 8 then
      (phraseBytes d.data).getD (x - d.addr.toNat) 0#8
    else s.flashByte x

/-- The eight bytes at `a` all hold `ERASED_BYTE`, which a program command requires (R186). -/
def State.erasedAt (a : Nat) (s : State) : Prop :=
  ∀ k, k < 8 → s.flashByte (a + k) = s.build.erasedByte

/-- The sequencer's status after a command with this outcome (R187). -/
def statusAfter (o : SeqOutcome) (q : Sequencer) : Prop :=
  q.complete = true ∧ q.inflight = none ∧ (q.accerr = true ↔ o = .accerr ∨ o = .both)
    ∧ (q.fpviol = true ↔ o = .fpviol ∨ o = .both)

/-- Doing several operations one after another, each in the state the one before left and by the agent that
drives its channel (R105): the responses in order and the last state, if each answers a next state. -/
def trace : List Instr → State → Option (List Response × State)
  | [], s => some ([], s)
  | i :: l, s =>
    match exec i (s.switchTo (issuer i)) with
    | .next t => (trace l t).map (fun r => (t.me.resp :: r.1, r.2))
    | .fault _ => none
    | .refused _ => none

/-- Every agent's previous operation has returned, in an instance of the block (R11, R75). -/
def State.allReturned (s : State) : Prop :=
  s.build.ok = true ∧ s.me.todo = [] ∧ ∀ y ∈ s.parked, y.2.todo = []

/-- The bytes a run of operations put: those whose put answered true. -/
def bytesPut : List Instr → List Response → List Byte
  | .pipePut _ b :: l, .flag true :: r => b :: bytesPut l r
  | _ :: l, _ :: r => bytesPut l r
  | _, _ => []

/-- The bytes a run of operations got. -/
def bytesGot (r : List Response) : List Byte :=
  r.filterMap (fun x => match x with
    | .byte b => some b
    | .pending | .done | .flag _ | .value _ | .addr _ | .noFrame | .frame _ | .fail _
    | .dispatched _ _ _ => none)

/-- Nothing but `TXF`, `TXLOCK` and the note of who uses `TXF`, and what the running agent carries, may
differ. -/
def onlyTxf (s t : State) : Prop :=
  t.rxf = s.rxf ∧ t.rxUsers = s.rxUsers ∧ t.fr = s.fr ∧ sameFlash s t ∧ sameStore s t
    ∧ sameHandlers s t ∧ sameAgents s t ∧ sameInputs s t

/-- A request that an agent other than the holder of `TXLOCK` makes puts nothing on `TXF` of itself: it is no
PIPE_PUT_B on `TXF`, and it does not initialise that pipe (R76, R146). -/
def sparesTxf (f : Format) (bytes : List Byte) : Prop :=
  decode f bytes ≠ .ok (.pipeInit .txf) ∧ ∀ v, decode f bytes ≠ .ok (.pipePutB .txf v)

/-! ### Dispatching -/

/-- A frame may be dispatched by the running agent (R280), and its reply can be sent at once, if it asks for
one (R201). -/
def State.canReply (c : Byte) (s : State) : Prop :=
  s.maySend = true ∧ (ackOf c = true → s.canEmit 5)

/-- The reply policy (R201): exactly one reply frame in `TXF` where the request's flag is set, and nothing
where it is clear. -/
def repliedWith (c : Byte) (success : Bool) (r1 r2 r3 : Byte) (s t : State) : Prop :=
  if ackOf c then
    s.txf.grewBy s.build.capacity s.threaded
        (frameBytes ⟨commandByte success (codeOf c), r1, r2, r3⟩) t.txf
      ∧ t.txUsers = (s.notePut .txf true).txUsers ∧ t.me.txe = none
  else t.txf = s.txf ∧ t.txUsers = s.txUsers ∧ t.me.txe = s.me.txe

/-- What no command changes: the receive pipe, `TXLOCK`, the codec, the allocation map, the handles, the
other agents, whether the running agent holds `TXLOCK`. -/
def dispatchFrame (s t : State) : Prop :=
  t.rxf = s.rxf ∧ t.rxUsers = s.rxUsers ∧ t.txlock = s.txlock ∧ t.fr = s.fr ∧ t.alloc = s.alloc
    ∧ sameHandles s t ∧ sameAgents s t ∧ t.me.held = s.me.held

/-- DISPATCH has returned with this success, and its reply (if one was due) has been sent. -/
def dispatched (c : Byte) (success : Bool) (e : Option ErrorKind) (r1 r2 r3 : Byte) (s t : State) :
    Prop :=
  returned (.dispatched success e false) t ∧ repliedWith c success r1 r2 r3 s t ∧ dispatchFrame s t

/-- No handler register has been written and no free value used: `PROTO_MODE`, the clock. -/
def handlersUntouched (s t : State) : Prop :=
  t.protoMode = s.protoMode ∧ t.rtc = s.rtc ∧ t.freeIx = s.freeIx

/-- A command that does not touch the store leaves flash, its registers and the answers to its commands
alone. -/
def storeUntouched (s t : State) : Prop :=
  sameFlash s t ∧ sameSequencer s t ∧ t.draws = s.draws

/-- The instruction is this command with a right checksum, or DISPATCH of its frame (R91, R201). -/
def isCommand (code : Byte) (mk : Bool → Byte → Byte → Byte → Byte → Instr) (ack : Bool)
    (p1 p2 p3 : Byte) (i : Instr) : Prop :=
  i = mk ack p1 p2 p3 (checksum (commandByte ack code) p1 p2 p3)
    ∨ i = .dispatch (commandByte ack code) p1 p2 p3

end Sys2Proof.Machine
end

