-- ==== Sys2Proof/Certificates/Slice0/Obligations.lean ====
section
/-! DEFINITION. The statements for the provers. Each says which rule of the spec it formalises; where a
clause is the model's own choice, the docstring names the entry of the assumption log. -/

open Sys2Proof Sys2Proof.Machine

/-! ### Encoding -/

/-- R91, R98, R100, R104: every instruction's encoding decodes to it, with every operand at every value. The
operand ports' byte layout is the model's (log 7). -/
def Obligations.DecodeInvertsEncode : Prop :=
  ∀ i : Instr, decode (encode i).1 (encode i).2 = .ok i

/-- R91, R100, R106: a frame and a descriptor have one encoding: bytes that decode to an instruction are its
encoding, so no bit of them is dropped. -/
def Obligations.EncodeInvertsDecode : Prop :=
  ∀ (f : Format) (bytes : List Byte) (i : Instr), f ≠ .op → decode f bytes = .ok i →
    encode i = (f, bytes)

/-- R91, R98, R100, R104: words written out from the spec's tables and examples decode to the instructions
they stand for. That the descriptor's first byte is 0x07 is PRESUMED (log 5), and the port bytes of the last
two are the model's layout (log 7). -/
def Obligations.SpecWordsDecode : Prop :=
  decode .frame [0x8B#8, 0x01#8, 0x00#8, 0x00#8, 0x8A#8]
      = .ok (.cmdNumber true 1#8 0#8 0#8 0x8A#8)
    ∧ decode .frame [0x07#8, 0x08#8, 0x00#8, 0xFF#8, 0xF0#8]
      = .ok (.cmdPgmbyte false 8#8 0#8 0xFF#8 0xF0#8)
    ∧ decode .fccob [0x07#8, 0x08#8, 0x00#8, 0x00#8, 0xA2#8, 0x0D#8, 0xFF#8, 0xFF#8, 0xFF#8, 0xFF#8,
        0xFF#8, 0xFE#8]
      = .ok (.fcmdPgm8 0x080000#24 ⟨0xA2#8, 0x0D#8, 0xFF#8, 0xFF#8, 0xFF#8, 0xFF#8, 0xFF#8, 0xFE#8⟩)
    ∧ decode .op [0x11#8, 0x02#8] = .ok (.nvAlloc 2#8)
    ∧ decode .op [0x16#8, 0x08#8, 0x00#8, 0x02#8, 0x34#8, 0x12#8]
      = .ok (.nvWrite16 0x080002#24 0x1234#16)

/-- R104: an operation select that is not in the table is refused. -/
def Obligations.ReservedOpselRefused : Prop :=
  ∀ (sel : Byte) (ports : List Byte) (s : State) (who : Agent) (turn : Nat) (q : List Event),
    sel.toNat ∉ [0x00, 0x01, 0x02, 0x03, 0x04, 0x05, 0x06, 0x08, 0x09, 0x0A, 0x0B, 0x0C, 0x10, 0x11,
      0x12, 0x13, 0x14, 0x15, 0x16, 0x17, 0x18, 0x1A, 0x1B, 0x1C, 0x1E] →
    s.queue = .request who .op (sel :: ports) turn :: q →
      step s = .refused (.undecodable (.reservedOpsel sel))

/-! ### Steps, reset, start-up -/

/-- R90, R105: where the next event of the queue is a request whose bytes decode to an instruction, the step
is that instruction's meaning, in the state where the event has been taken off the queue and its agent
runs. -/
def Obligations.StepRunsDecodedInstruction : Prop :=
  ∀ (s : State) (who : Agent) (f : Format) (bytes : List Byte) (turn : Nat) (q : List Event)
    (i : Instr), s.queue = .request who f bytes turn :: q → decode f bytes = .ok i →
      step s = exec i ((s.take q turn).switchTo who)

/-- R44, R45, R261: a restart leaves the block idle, with the values R44 gives, and keeps every byte of flash
that no command in flight would have changed; with none in flight it keeps them all. What it leaves in the
other bytes is a free value (U27, log 20). -/
def Obligations.RestartLeavesResetValues : Prop :=
  ∀ (s : State) (q : List Event), s.queue = .restart :: q → ∃ t, step s = .next t
    ∧ (s.seq.complete = true → sameFlash s t)
    ∧ (s.flashWf → ∀ a, a ∉ s.atRisk → t.flashByte a = s.flashByte a)
    ∧ t.build = s.build
    ∧ t.seq = ⟨true, false, false, none⟩ ∧ t.ws.state = .idle ∧ t.fr.state = .awaitCommand
    ∧ t.alloc = List.replicate s.build.regionLen false ∧ t.txlock = 1
    ∧ (∀ p, (t.pipe p).space = s.build.capacity ∧ (t.pipe p).items = 0 ∧ (t.pipe p).lock = 1
        ∧ (t.pipe p).inited = false)
    ∧ t.nvNumber = none ∧ t.nvMode = none ∧ t.protoMode = 0#1
    ∧ t.me.todo = [] ∧ t.me.txe = none ∧ t.parked = []

/-- R263, R266: START_UP from the machine after reset leaves the state R266 lists, in either regime and with
any parameters an instance may have, and every byte of flash as it was. R204: the allocations of its step 4,
performed one by one, leave the same handles and the same map, and change nothing else of the block; that a
start-up may come so is the model's (log 23). -/
def Obligations.StartUpLeavesTheListedState : Prop :=
  ∀ (b : Build) (flash : List Host.Cell) (turn : Nat) (q : List Event) (d : List SeqOutcome),
    b.ok = true → 6 ≤ turn →
    let s : State := { State.afterReset b flash with queue := .startUp turn :: q, draws := d }
    ∃ t, step s = .next t
      ∧ (∀ p, (t.pipe p).startIx = 0 ∧ (t.pipe p).endIx = 0 ∧ (t.pipe p).count = 0
          ∧ (t.pipe p).space = b.capacity ∧ (t.pipe p).items = 0 ∧ (t.pipe p).lock = 1
          ∧ (t.pipe p).inited = true)
      ∧ t.txlock = 1 ∧ t.fr.state = .awaitCommand
      ∧ (∀ i, t.alloc[i]? = if i < 4 then some true else if i < b.regionLen then some false else none)
      ∧ t.nvNumber = some b.flashStart ∧ t.nvMode = some (b.flashStart + 2#24)
      ∧ t.seq = ⟨true, false, false, none⟩ ∧ t.ws.state = .idle ∧ t.protoMode = 0#1
      ∧ sameFlash s t
      ∧ ∀ s' : State, s' = { s with queue := .startHandle turn :: .startHandle turn :: q } →
        ∃ u v, step s' = .next u ∧ u.me.resp = .addr b.flashStart ∧ step u = .next v
          ∧ returned (.addr (b.flashStart + 2#24)) v
          ∧ v.alloc = t.alloc ∧ v.nvNumber = t.nvNumber ∧ v.nvMode = t.nvMode
          ∧ samePipes s' v ∧ v.fr = s'.fr ∧ sameFlash s' v ∧ sameSequencer s' v
          ∧ v.protoMode = s'.protoMode ∧ v.rtc = s'.rtc ∧ v.queue = q

/-! ### What every step keeps -/

/-- R11, R31: every step keeps the flash canonical and inside the modelled sector. The canonical form is the
model's (log 6). -/
def Obligations.StepKeepsFlashCanonical : Prop :=
  ∀ s t : State, s.flashInv → step s = .next t → t.flashInv

/-- The reset state meets the invariants that every step keeps: those of flash, of the sequencing registers and
of the polled pipes; and a threaded instance meets those of its pipes right after its reset (R22, R27, R31,
R36, R44). Model's choices this rests on: the reference parameters (log 3), the reset flash (log 6), and the
indices of a pipe before its PIPE_INIT (log 2). -/
def Obligations.ResetMeetsTheInvariants : Prop :=
  State.reset.flashInv ∧ State.reset.restInv ∧ State.reset.polledPipesWf
    ∧ ∀ (b : Build) (flash : List Host.Cell), b.ok = true → b.regime = .threaded →
      (State.afterReset b flash).threadedPipesWf

/-- R27, R36: between steps the codec rests in one of its first five states, and the sequencer holds a command
exactly while `SEQ.complete` is 0. -/
def Obligations.StepKeepsRestingStates : Prop :=
  ∀ s t : State, s.restInv → step s = .next t → t.restInv

/-- R22 (a), (b), (c), R24, R25: in the polled regime every step keeps both pipes' counts, indices and the
relation between them. In the threaded one every step keeps the indices and their relation, and the accounts of
`space`, `items`, the locks and `TXLOCK`, with what the blocking forms under way have taken and not yet given
back; but for a PIPE_INIT while an agent is part-way through a put or get (R279). -/
def Obligations.StepKeepsPipes : Prop :=
  ∀ s t : State, step s = .next t →
    (s.polledPipesWf → t.polledPipesWf)
    ∧ (s.threadedPipesWf → (s.initAhead → s.nobodyInside) → t.threadedPipesWf)

/-- R31, R45, R184: a step changes a byte of flash only if the sequencer completes a command in it, for which
the environment gave an answer, or if it is a restart with a command in flight that would have changed that
byte. -/
def Obligations.FlashIsWrittenOnlyBySequencer : Prop :=
  ∀ s t : State, s.flashWf → step s = .next t → t.draws = s.draws →
    ∀ a, t.flashByte a = s.flashByte a ∨ ((∃ q, s.queue = .restart :: q) ∧ a ∈ s.atRisk)

/-- R42, R251: no step changes a parameter of the block; in particular none switches the regime. -/
def Obligations.StepKeepsParameters : Prop :=
  ∀ s t : State, step s = .next t → t.build = s.build

/-- R26, R30, R37, R41: which operations may write the allocation map, the codec's registers, the handlers'
registers, the sequencer's registers and flash. No operation writes a handle, and once start-up has set one,
no step but a restart changes it. -/
def Obligations.RegistersAreWrittenOnlyByTheirOperations : Prop :=
  (∀ (i : Instr) (s t : State), exec i s = .next t →
    (i ≠ .nvInit → (∀ n, i ≠ .nvAlloc n) → t.alloc = s.alloc)
    ∧ (i ≠ .codecInit → i ≠ .frStep → i ≠ .frGet → t.fr = s.fr)
    ∧ sameHandles s t
    ∧ (dispatches i = false → t.protoMode = s.protoMode ∧ t.rtc = s.rtc)
    ∧ (reachesSequencer i = false → sameSequencer s t ∧ sameFlash s t))
    ∧ ∀ s t : State, step s = .next t → (∀ q, s.queue ≠ .restart :: q) →
      (s.nvNumber ≠ none → t.nvNumber = s.nvNumber) ∧ (s.nvMode ≠ none → t.nvMode = s.nvMode)

/-- R129, R187, R250, R253, R268, R274, R280: each agent performs only what its role gives it. SEQ_EXEC is the
sequencer's, and the sequencer performs nothing else; in the polled regime PIPE_PUT and PIPE_GET are those of
the pipe's one producer and one consumer; an interrupt handler performs nothing but PIPE_PUT, PIPE_GET and
SEM_SIGNAL; the receive and the transmit thread send no frame. That these two threads do not dispatch either,
not even where no reply is due, is the model's (DEDUCED, log 18), and so is that they ask for no SEM_WAIT
(logs 15, 18). -/
def Obligations.AgentsKeepTheirRoles : Prop :=
  ∀ (i : Instr) (s t : State), exec i s = .next t →
    (s.who = .sequencer ↔ i = .seqExec)
    ∧ (∀ p b, i = .pipePut p b → s.polled = true ∧ s.who = putter p)
    ∧ (∀ p, i = .pipeGet p → s.polled = true ∧ s.who = getter p)
    ∧ (s.who = .rxHandler ∨ s.who = .txHandler →
        (∃ p b, i = .pipePut p b) ∨ (∃ p, i = .pipeGet p) ∨ ∃ x, i = .semSignal x)
    ∧ (s.who = .rxThread ∨ s.who = .txThread →
        dispatches i = false ∧ (∀ c p1 p2 p3, i ≠ .frPut c p1 p2 p3 ∧ i ≠ .frPutB c p1 p2 p3)
          ∧ ∀ x, i ≠ .semWait x)
    ∧ (∀ n, s.polled = true → s.who ≠ .thread n ∧ s.who ≠ .rxThread ∧ s.who ≠ .txThread)

/-! ### Byte Pipe -/

/-- R120: PIPE_INIT leaves an empty pipe with its buffer as it was, and in the threaded regime the semaphores
at their initial counts; with a caller blocked on one of them it is refused. That the note of who uses the pipe
begins anew is the model's (log 16). -/
def Obligations.PipeInitEmptiesThePipe : Prop :=
  ∀ (p : PipeId) (s : State), s.ready = true →
    (pipeHasWaiters p s = false → ∃ t, exec (.pipeInit p) s = .next t ∧ returned .done t
      ∧ (t.pipe p).startIx = 0 ∧ (t.pipe p).endIx = 0 ∧ (t.pipe p).count = 0
      ∧ (t.pipe p).buf = (s.pipe p).buf
      ∧ (t.pipe p).space = (if s.threaded then s.build.capacity else (s.pipe p).space)
      ∧ (t.pipe p).items = (if s.threaded then 0 else (s.pipe p).items)
      ∧ (t.pipe p).lock = (if s.threaded && s.build.multiAccess then 1 else (s.pipe p).lock)
      ∧ t.users p = ⟨none, none⟩
      ∧ onlyPipe p (s.setUsers p ⟨none, none⟩) t ∧ sameCarried s t)
    ∧ (pipeHasWaiters p s = true → exec (.pipeInit p) s = .refused .pipeHasWaiters)

/-- R121: PIPE_PUT on a pipe that is not full stores the byte at `end`, moves `end` modulo `C` and counts it. -/
def Obligations.PipePutStoresTheByte : Prop :=
  ∀ (p : PipeId) (b : Byte) (s : State), s.canAsk = true → s.mayPutNow p = true →
    (s.pipe p).count ≠ s.build.capacity →
    ∃ t, exec (.pipePut p b) s = .next t ∧ returned (.flag true) t
      ∧ t.pipe p = { s.pipe p with
          buf := (s.pipe p).buf.set (s.pipe p).endIx b
          endIx := ((s.pipe p).endIx + 1) % s.build.capacity
          count := (s.pipe p).count + 1 }
      ∧ onlyPipe p s t ∧ sameCarried s t

/-- R122: PIPE_GET on a pipe that is not empty returns the byte at `start`, moves `start` modulo `C` and
uncounts it; the slot keeps the byte. -/
def Obligations.PipeGetRemovesTheOldestByte : Prop :=
  ∀ (p : PipeId) (b : Byte) (s : State), s.canAsk = true → s.mayGetNow p = true →
    (s.pipe p).count ≠ 0 → (s.pipe p).buf[(s.pipe p).startIx]? = some b →
    ∃ t, exec (.pipeGet p) s = .next t ∧ returned (.byte b) t
      ∧ t.pipe p = { s.pipe p with
          startIx := ((s.pipe p).startIx + 1) % s.build.capacity
          count := (s.pipe p).count - 1 }
      ∧ onlyPipe p s t ∧ sameCarried s t

/-- R23, R121, R122, R123: a put on a full pipe and a get on an empty one report
`TransportCapacityError` and change no state at all. -/
def Obligations.FailedPutAndGetChangeNothing : Prop :=
  ∀ (p : PipeId) (s : State), s.canAsk = true →
    (∀ b, s.mayPutNow p = true → (s.pipe p).count = s.build.capacity →
      exec (.pipePut p b) s = .next (s.respond (.fail .capacityFull)))
    ∧ (s.mayGetNow p = true → (s.pipe p).count = 0 →
      exec (.pipeGet p) s = .next (s.respond (.fail .capacityEmpty)))

/-- R22 (d), R123: for any interleaving of puts and gets on a pipe, each by the agent that drives its channel,
what it held and the bytes put are the bytes got and what it holds in the end: strict FIFO, nothing lost,
doubled or invented. -/
def Obligations.PutsAndGetsAreFifo : Prop :=
  ∀ (p : PipeId) (l : List Instr) (s t : State) (r : List Response),
    s.allReturned → (s.pipe p).wf s.build.capacity →
    (∀ i ∈ l, (∃ b, i = .pipePut p b) ∨ i = .pipeGet p) → trace l s = some (r, t) →
      (s.pipe p).stored s.build.capacity ++ bytesPut l r
        = bytesGot r ++ (t.pipe p).stored s.build.capacity

/-- R124: PIPE_PUT_B on a pipe with space stores the byte as PIPE_PUT does, takes one from `space` and gives
one to `items`; the lock, where there is one, is taken and given back. Without a lock the put is noted
(log 16). -/
def Obligations.PipePutBStoresTheByte : Prop :=
  ∀ (p : PipeId) (b : Byte) (s : State), s.ready = true → s.mayPutB p = true →
    s.lockFree p = true → 0 < (s.pipe p).space → 6 ≤ s.turn →
    ∃ t, exec (.pipePutB p b) s = .next t ∧ returned .done t
      ∧ t.pipe p = { s.pipe p with
          buf := (s.pipe p).buf.set (s.pipe p).endIx b
          endIx := ((s.pipe p).endIx + 1) % s.build.capacity
          count := (s.pipe p).count + 1
          space := (s.pipe p).space - 1
          items := (s.pipe p).items + 1 }
      ∧ onlyPipe p (s.notePut p (putsUnderLock p s)) t ∧ sameCarried s t

/-- R125: PIPE_GET_B on a pipe with items returns the byte at `start` as PIPE_GET does, takes one from `items`
and gives one to `space`; the lock, where there is one, is taken and given back. Without a lock the get is
noted (log 16). -/
def Obligations.PipeGetBRemovesTheOldestByte : Prop :=
  ∀ (p : PipeId) (b : Byte) (s : State), s.ready = true → s.mayGetB p = true →
    s.lockFree p = true → 0 < (s.pipe p).items → (s.pipe p).buf[(s.pipe p).startIx]? = some b →
    6 ≤ s.turn →
    ∃ t, exec (.pipeGetB p) s = .next t ∧ returned (.byte b) t
      ∧ t.pipe p = { s.pipe p with
          startIx := ((s.pipe p).startIx + 1) % s.build.capacity
          count := (s.pipe p).count - 1
          space := (s.pipe p).space + 1
          items := (s.pipe p).items - 1 }
      ∧ onlyPipe p (s.noteGet p) t ∧ sameCarried s t

/-- R15, R124, R125, R126, R146, R183, R272: SEM_WAIT and FR_PUT_B with `TXLOCK` at 0, PIPE_PUT_B on a pipe
without space, PIPE_GET_B on one without items and SEQ_WAIT while no answer comes block their caller: nothing
changes, but for the note of a pipe's user (log 16), and the caller has no step. FR_PUT_B with room for only
`k` of its five bytes puts those and is blocked inside its loop with `TXLOCK` held. That its emission has begun
once it holds `TXLOCK`, and not before, is the model's (log 31). -/
def Obligations.BlockedCallerHasNoStep : Prop :=
  ∀ s : State, s.ready = true →
    (s.threaded = true → s.maySend = true → s.txlock = 0 →
      (∃ t, exec (.semWait .txlock) s = .next t ∧ blocked s t)
      ∧ (s.txf.inited = true → ∀ c p1 p2 p3, ∃ t, exec (.frPutB c p1 p2 p3) s = .next t
        ∧ blocked s t))
    ∧ (∀ p b, s.mayPutB p = true → (s.pipe p).space = 0 →
      ∃ t, exec (.pipePutB p b) s = .next t ∧ blocked (s.notePut p (putsUnderLock p s)) t)
    ∧ (∀ p, s.mayGetB p = true → (s.pipe p).items = 0 →
      ∃ t, exec (.pipeGetB p) s = .next t ∧ blocked (s.noteGet p) t)
    ∧ (s.seq.complete = false → s.draws = [] →
      ∃ t, exec .seqWait s = .next t ∧ blocked s t)
    ∧ (∀ (f : Frame) (k : Nat), s.threaded = true → s.maySend = true → s.canEmit k → k < 5 →
      s.txf.space = k → 64 ≤ s.turn →
      ∃ t, exec (.frPutB f.command f.p1 f.p2 f.p3) s = .next t
        ∧ s.txf.grewBy s.build.capacity true ((frameBytes f).take k) t.txf
        ∧ t.txlock + 1 = s.txlock ∧ onlyTxf s t ∧ t.me.txe = some ⟨f, k⟩
        ∧ t.me.todo ≠ [] ∧ t.me.resp = .pending ∧ ∀ n, run n t = .next t)

/-- R76 (c), R146: while an agent holds `TXLOCK`, no step of another one puts a byte into `TXF`, whatever it
asks for or goes on with, so the frames of two senders are never mixed; a PIPE_PUT_B that puts on `TXF` without
a frame, and a PIPE_INIT of it (START_UP's too), are left out. -/
def Obligations.SendersDoNotInterleave : Prop :=
  ∀ (s u t : State) (e : Event) (b : Agent) (turn : Nat) (q : List Event),
    s.threadedPipesWf → s.queue = e :: q →
    (e = .resume b turn ∨ ∃ f bytes, e = .request b f bytes turn ∧ sparesTxf f bytes) →
    u = (s.take q turn).switchTo b →
    (∃ y ∈ u.parked, 0 < y.2.owes .txlock) →
    (∀ m ∈ u.me.todo, (∀ v, m ≠ .pipeStore .txf v) ∧ m ≠ .startPipe .txf) →
    step s = .next t →
      t.txf.buf = s.txf.buf ∧ t.txf.endIx = s.txf.endIx
        ∧ ∃ y ∈ t.parked, 0 < y.2.owes .txlock

/-- R126, R127, R146: SEM_WAIT on `TXLOCK` at a count above 0 takes one, SEM_SIGNAL of its holder gives it back,
and nothing else changes. Outside the pairs of the pipe and codec rules both are refused: on a pipe's
semaphore, and a signal by an agent that does not hold `TXLOCK` (the pairing is log 15). -/
def Obligations.SemaphoresCountUnits : Prop :=
  ∀ s : State, s.canAsk = true → s.threaded = true →
    (s.maySend = true → 0 < s.txlock → 2 ≤ s.turn → ∃ t, exec (.semWait .txlock) s = .next t
      ∧ returned .done t ∧ t.txlock + 1 = s.txlock ∧ (∀ x, x ≠ .txlock → semValue x t = semValue x s)
      ∧ t.me.held = true ∧ t.me.txe = s.me.txe ∧ onlySemaphores s t)
    ∧ (s.me.held = true → s.who ≠ .sequencer → ∃ t, exec (.semSignal .txlock) s = .next t ∧ returned .done t
      ∧ t.txlock = s.txlock + 1 ∧ (∀ x, x ≠ .txlock → semValue x t = semValue x s)
      ∧ t.me.held = false ∧ t.me.txe = s.me.txe ∧ onlySemaphores s t)
    ∧ (s.me.held = false → exec (.semSignal .txlock) s = .refused .outsideThePairs)
    ∧ ∀ x, x ≠ .txlock → s.semExists x = true →
      exec (.semWait x) s = .refused .outsideThePairs
      ∧ exec (.semSignal x) s = .refused .outsideThePairs

/-! ### Packet Codec -/

/-- R140: CODEC_INIT sends the codec to `AwaitCommand` and writes none of its byte registers. That it does so also
while another agent is inside FR_STEP or FR_GET is the model's (log 32). -/
def Obligations.CodecInitAwaitsACommand : Prop :=
  ∀ s : State, s.ready = true → ∃ t, exec .codecInit s = .next t ∧ returned .done t
    ∧ t.fr = { s.fr with state := .awaitCommand }
    ∧ samePipes s t ∧ sameFlash s t ∧ sameStore s t ∧ sameHandlers s t ∧ sameAgents s t
    ∧ sameInputs s t ∧ sameCarried s t

/-- R125, R141, R142, R231: FR_STEP takes one byte from `RXF` and makes the step of R141's table. In the polled
regime it returns `NoFrame` on an empty `RXF` and changes nothing; in the threaded one it gets its byte with
PIPE_GET_B, and on a pipe without items it blocks, noted as the codec's user (log 16). -/
def Obligations.FrStepTakesOneByte : Prop :=
  ∀ s : State, s.ready = true → s.codecRests →
    (s.mayGetNow .rxf = true →
      (s.rxf.count = 0 → exec .frStep s = .next (s.respond .noFrame))
      ∧ (∀ b, s.rxf.count ≠ 0 → s.rxf.buf[s.rxf.startIx]? = some b →
        ∃ t, exec .frStep s = .next t ∧ t.me.todo = [] ∧ Codec.takes b s.fr t.fr t.me.resp
          ∧ t.rxf = { s.rxf with
              startIx := (s.rxf.startIx + 1) % s.build.capacity
              count := s.rxf.count - 1 }
          ∧ onlyCodecAnd .rxf s t ∧ sameCarried s t))
    ∧ (s.mayStepB = true →
      (s.rxf.items = 0 → ∃ t, exec .frStep s = .next t ∧ blocked s.noteStep t)
      ∧ (∀ b, s.lockFree .rxf = true → 0 < s.rxf.items → s.rxf.buf[s.rxf.startIx]? = some b →
        6 ≤ s.turn →
        ∃ t, exec .frStep s = .next t ∧ t.me.todo = [] ∧ Codec.takes b s.fr t.fr t.me.resp
          ∧ t.rxf = { s.rxf with
              startIx := (s.rxf.startIx + 1) % s.build.capacity
              count := s.rxf.count - 1
              space := s.rxf.space + 1
              items := s.rxf.items - 1 }
          ∧ onlyCodecAnd .rxf s.noteStep t ∧ sameCarried s t))

/-- R143: FR_GET in the polled regime gives the codec the bytes `RXF` holds, one after another, until a frame
completes or `RXF` is empty; it returns that frame or `NoFrame` and takes no byte after it. -/
def Obligations.FrGetFeedsTheCodec : Prop :=
  ∀ s : State, s.ready = true → s.mayGetNow .rxf = true → s.codecRests →
    s.rxf.wf s.build.capacity → s.rxf.count < s.turn →
    ∃ t, exec .frGet s = .next t
      ∧ t.fr = (s.fr.feed (s.rxf.stored s.build.capacity)).1
      ∧ returned (frameResponse (s.fr.feed (s.rxf.stored s.build.capacity)).2.1) t
      ∧ s.rxf.shrankTo s.build.capacity false
          (s.fr.feed (s.rxf.stored s.build.capacity)).2.2 t.rxf
      ∧ onlyCodecAnd .rxf s t ∧ sameCarried s t

/-- R143: FR_GET in the threaded regime is the same loop without the emptiness test: it returns the first frame
that completes, and where the bytes there are complete none it has taken them all and is blocked. -/
def Obligations.FrGetThreadedFeedsTheCodec : Prop :=
  ∀ s : State, s.ready = true → s.mayStepB = true → s.codecRests →
    s.rxf.wf s.build.capacity → s.rxf.items = s.rxf.count → s.lockFree .rxf = true →
    8 * s.rxf.count + 8 ≤ s.turn →
    ∃ t, exec .frGet s = .next t
      ∧ t.fr = (s.fr.feed (s.rxf.stored s.build.capacity)).1
      ∧ s.rxf.shrankTo s.build.capacity true
          (s.fr.feed (s.rxf.stored s.build.capacity)).2.2 t.rxf
      ∧ onlyCodecAnd .rxf s.noteStep t ∧ sameCarried s t
      ∧ match (s.fr.feed (s.rxf.stored s.build.capacity)).2.1 with
        | some f => returned (.frame f) t
        | none => t.me.todo ≠ [] ∧ ∀ n, run n t = .next t

/-- R144 (a): feeding a frame's four bytes and their checksum to a codec in `AwaitCommand` yields exactly one
frame, the one fed, and returns the codec to `AwaitCommand`. -/
def Obligations.FiveStepsEmitTheFrame : Prop :=
  ∀ (f : Frame) (rest : List Byte) (s : State), s.allReturned → s.polled = true →
    s.rxf.inited = true → s.fr.state = .awaitCommand → s.rxf.wf s.build.capacity →
    s.rxf.stored s.build.capacity = frameBytes f ++ rest →
    ∃ t, trace (List.replicate 5 .frStep) s
        = some ([.noFrame, .noFrame, .noFrame, .noFrame, .frame f], t)
      ∧ t.fr.state = .awaitCommand ∧ t.rxf.stored s.build.capacity = rest

/-- R144 (b): a codec that awaits a checksum tests every byte as the checksum of the four before it: of the
stream made of its window and the bytes to come, it emits the first four bytes that pass, and no others; where
no four pass it emits nothing, takes every byte, and its window is the last four. -/
def Obligations.ResyncEmitsTheFirstPassingWindow : Prop :=
  ∀ (c : Codec) (l w : List Byte), c.state = .awaitChecksum →
    w = [c.command, c.p1, c.p2, c.p3] ++ l →
    (∀ n, n < l.length → (∀ k, k < n → ¬ passes w k) → passes w n →
      (c.feed l).1.state = .awaitCommand ∧ (c.feed l).2.2 = l.drop (n + 1)
      ∧ (c.feed l).2.1 = some
          ⟨w.getD n 0#8, w.getD (n + 1) 0#8, w.getD (n + 2) 0#8, w.getD (n + 3) 0#8⟩)
    ∧ ((∀ k, k < l.length → ¬ passes w k) →
      (c.feed l).1.state = .awaitChecksum ∧ (c.feed l).2 = (none, [])
      ∧ [(c.feed l).1.command, (c.feed l).1.p1, (c.feed l).1.p2, (c.feed l).1.p3]
          = w.drop l.length)

/-- R148: a frame emitted by FR_PUT, taken from `TXF` by the transmit handler and put into `RXF` by the receive
handler byte for byte, is returned unchanged by FR_GET of a codec in `AwaitCommand`. -/
def Obligations.LoopedBackFrameIsReturned : Prop :=
  ∀ (f : Frame) (s : State), s.allReturned → s.polled = true → 5 ≤ s.build.capacity → 7 ≤ s.turn →
    s.fr.state = .awaitCommand →
    (∀ p, (s.pipe p).inited = true ∧ (s.pipe p).wf s.build.capacity ∧ (s.pipe p).count = 0) →
    ∃ t, trace ([.frPut f.command f.p1 f.p2 f.p3]
          ++ (frameBytes f).flatMap (fun b => [.pipeGet .txf, .pipePut .rxf b]) ++ [.frGet]) s
        = some ([.flag true] ++ (frameBytes f).flatMap (fun b => [.byte b, .flag true])
            ++ [.frame f], t)
      ∧ t.fr.state = .awaitCommand ∧ t.rxf.count = 0 ∧ t.txf.count = 0

/-- R145, R232, R273: FR_PUT with room for five bytes puts command, parameters and their checksum into `TXF` in
that order and returns true; with room for fewer it puts those that fit and stops: the failure is reported and
the bytes already put stay. -/
def Obligations.FrPutEmitsTheFrame : Prop :=
  ∀ (f : Frame) (s : State), s.ready = true → s.polled = true → 7 ≤ s.turn →
    (s.canEmit 5 → ∃ t, exec (.frPut f.command f.p1 f.p2 f.p3) s = .next t
      ∧ returned (.flag true) t
      ∧ s.txf.grewBy s.build.capacity false
          [f.command, f.p1, f.p2, f.p3, f.command ^^^ f.p1 ^^^ f.p2 ^^^ f.p3] t.txf
      ∧ onlyPipe .txf s t ∧ t.me.txe = none ∧ t.me.held = s.me.held)
    ∧ ∀ k, s.canEmit k → k < 5 → s.txf.count + k = s.build.capacity →
      ∃ t, exec (.frPut f.command f.p1 f.p2 f.p3) s = .next t ∧ returned (.fail .capacityFull) t
        ∧ s.txf.grewBy s.build.capacity false ((frameBytes f).take k) t.txf
        ∧ onlyPipe .txf s t ∧ t.me.txe = none ∧ t.me.held = s.me.held

/-- R146: FR_PUT_B with `TXLOCK` free and space for five bytes puts the frame's five bytes into `TXF` in order,
and gives `TXLOCK` back. Without a lock the put is noted (log 16). -/
def Obligations.FrPutBEmitsTheFrame : Prop :=
  ∀ (f : Frame) (s : State), s.ready = true → s.threaded = true → s.maySend = true →
    s.canEmit 5 → 64 ≤ s.turn →
    ∃ t, exec (.frPutB f.command f.p1 f.p2 f.p3) s = .next t ∧ returned .done t
      ∧ s.txf.grewBy s.build.capacity true
          [f.command, f.p1, f.p2, f.p3, f.command ^^^ f.p1 ^^^ f.p2 ^^^ f.p3] t.txf
      ∧ onlyPipe .txf (s.notePut .txf true) t ∧ t.me.txe = none ∧ t.me.held = s.me.held

/-! ### Non-Volatile Store -/

/-- R160: NV_INIT frees every entry of the allocation map and does not touch flash. -/
def Obligations.NvInitFreesTheMap : Prop :=
  ∀ s : State, s.ready = true → ∃ t, exec .nvInit s = .next t ∧ returned .done t
    ∧ t.alloc = List.replicate s.build.regionLen false ∧ onlyMap s t

/-- R161: NV_ALLOC of 1, 2 or 4 bytes takes the lowest aligned position whose entries are all free, marks
exactly those entries used, returns its address and writes nothing else. -/
def Obligations.NvAllocTakesTheLowestFreeRun : Prop :=
  ∀ (size : Byte) (p : Nat) (s : State), s.ready = true →
    (size = 1#8 ∨ size = 2#8 ∨ size = 4#8) →
    p % size.toNat = 0 → (∀ k, k < size.toNat → s.alloc[p + k]? = some false) →
    (∀ r, r < p → r % size.toNat = 0 → ∃ k, k < size.toNat ∧ s.alloc[r + k]? ≠ some false) →
    ∃ t, exec (.nvAlloc size) s = .next t
      ∧ returned (.addr (s.build.flashStart + BitVec.ofNat 24 p)) t
      ∧ (∀ i, t.alloc[i]? =
          if p ≤ i ∧ i < p + size.toNat then some true else s.alloc[i]?)
      ∧ onlyMap s t

/-- R161, R103: NV_ALLOC of any other size is `ParameterInvalid`, and where no aligned free run exists it is
`AllocationExhausted`; neither changes anything. -/
def Obligations.NvAllocFailsWithoutARun : Prop :=
  ∀ (size : Byte) (s : State), s.ready = true →
    (¬ (size = 1#8 ∨ size = 2#8 ∨ size = 4#8) →
      exec (.nvAlloc size) s = .next (s.respond (.fail (.parameterInvalid (.size size)))))
    ∧ ((size = 1#8 ∨ size = 2#8 ∨ size = 4#8) →
      (∀ r, r % size.toNat = 0 → ∃ k, k < size.toNat ∧ s.alloc[r + k]? ≠ some false) →
      exec (.nvAlloc size) s = .next (s.respond (.fail (.allocationExhausted size))))

/-- R163, R164, R165: with the store idle, a read of an aligned address of the data region returns the bytes
there, the lowest address least significant, and changes nothing. -/
def Obligations.NvReadsReturnFlash : Prop :=
  ∀ (a : Addr) (s : State), s.ready = true → s.storeFree = true →
    (s.inRegion a.toNat 1 → exec (.nvRead8 a) s
      = .next (s.respond (.value ((s.flashByte a.toNat).setWidth 32))))
    ∧ (s.inRegion a.toNat 2 → exec (.nvRead16 a) s
      = .next (s.respond (.value
          ((le16 (s.flashByte a.toNat) (s.flashByte (a.toNat + 1))).setWidth 32))))
    ∧ (s.inRegion a.toNat 4 → exec (.nvRead32 a) s
      = .next (s.respond (.value (le32 (s.flashByte a.toNat) (s.flashByte (a.toNat + 1))
          (s.flashByte (a.toNat + 2)) (s.flashByte (a.toNat + 3))))))

/-- R166, R173, R241: a read or write outside the data region, or inside it and misaligned, is
`ParameterInvalid`, range before alignment, and changes nothing; a well-placed one, and an erase, while a
command is in flight or a store write is under way is refused. -/
def Obligations.StoreOperandsAreChecked : Prop :=
  ∀ s : State, s.ready = true →
    (∀ (i : Instr) (a : Addr) (n : Nat),
      ((i = .nvRead8 a ∧ n = 1) ∨ (i = .nvRead16 a ∧ n = 2) ∨ (i = .nvRead32 a ∧ n = 4)
        ∨ ∃ l, storeTarget i = some (a, l) ∧ n = l.length) →
      (a.toNat < s.regionBase ∨ s.regionBase + s.build.regionLen < a.toNat + n →
        exec i s = .next (s.respond (.fail (.parameterInvalid .address))))
      ∧ (s.regionBase ≤ a.toNat → a.toNat + n ≤ s.regionBase + s.build.regionLen → a.toNat % n ≠ 0 →
        exec i s = .next (s.respond (.fail (.parameterInvalid .alignment))))
      ∧ (s.inRegion a.toNat n → s.storeFree = false → exec i s = .refused .storeBusy))
    ∧ (s.storeFree = false → exec .nvErase s = .refused .storeBusy)

/-- R167, R168, R169, R170, R172: a store write whose flash commands all answer `ok` returns true with the
addressed bytes replaced, every other byte of the data region as before, the rest of the sector erased, and
the sequencer and the write path idle again. -/
def Obligations.StoreWriteReplacesItsBytes : Prop :=
  ∀ (i : Instr) (a : Addr) (l : List Byte) (d : List SeqOutcome) (s : State),
    storeTarget i = some (a, l) → s.storeReady → s.inRegion a.toNat l.length →
    s.draws = List.replicate (s.build.regionLen / 8 + 1) .ok ++ d →
    64 + s.build.regionLen ≤ s.turn →
    ∃ t, exec i s = .next t ∧ returned (.flag true) t
      ∧ storeWrote (s.build.regionLen / 8) a.toNat l s t
      ∧ storeEnded false false true t ∧ onlyFlash s t ∧ t.draws = d ∧ t.freeIx = s.freeIx + 1

/-- R173, R172: NV_ERASE whose command answers `ok` returns true with every byte of the sector erased and the
allocation map unchanged. -/
def Obligations.NvEraseErasesTheSector : Prop :=
  ∀ (d : List SeqOutcome) (s : State), s.storeReady → s.draws = .ok :: d → 8 ≤ s.turn →
    ∃ t, exec .nvErase s = .next t ∧ returned (.flag true) t
      ∧ storeWrote 0 0 [] s t ∧ t.cmd.opcode = Config.opcEraseSector
      ∧ t.cmd.addr = s.build.flashStart
      ∧ storeEnded false false true t ∧ onlyFlash s t ∧ t.draws = d ∧ t.freeIx = s.freeIx + 1

/-- R175 (second row), R173, R184, R235: a store write or erase whose erase command ends with a violation
reports `FlashSequencerError(erase)` with the flags, issues no program command and leaves every byte of flash
as it was. -/
def Obligations.FailedEraseChangesNoByte : Prop :=
  ∀ (i : Instr) (o : SeqOutcome) (d : List SeqOutcome) (s : State),
    (i = .nvErase ∨ ∃ a l, storeTarget i = some (a, l) ∧ s.inRegion a.toNat l.length) →
    s.storeReady → s.draws = o :: d → o ≠ .ok → 8 ≤ s.turn →
    ∃ t, exec i s = .next t
      ∧ returned (.fail (.flashSequencer .erase o.setsAccerr o.setsFpviol)) t
      ∧ sameFlash s t ∧ t.cmd.opcode = Config.opcEraseSector ∧ t.cmd.addr = s.build.flashStart
      ∧ storeEnded o.setsAccerr o.setsFpviol false t ∧ onlyFlash s t ∧ t.draws = d
      ∧ t.freeIx = s.freeIx + 1

/-- R175 (third row), R235, R276: a store write whose program of phrase `k` ends with a violation reports
`FlashSequencerError(program, k)`; phrases below `k` hold the new region, the rest of the sector is erased. -/
def Obligations.FailedProgramLosesTheTail : Prop :=
  ∀ (i : Instr) (a : Addr) (l : List Byte) (k : Nat) (o : SeqOutcome) (d : List SeqOutcome)
    (s : State), storeTarget i = some (a, l) → s.storeReady → s.inRegion a.toNat l.length →
    k < s.build.regionLen / 8 → s.draws = List.replicate (k + 1) .ok ++ o :: d → o ≠ .ok →
    64 + s.build.regionLen ≤ s.turn →
    ∃ t, exec i s = .next t
      ∧ returned (.fail (.flashSequencer (.program k) o.setsAccerr o.setsFpviol)) t
      ∧ storeWrote k a.toNat l s t
      ∧ t.cmd.opcode = Config.opcProgramPhrase ∧ t.cmd.addr.toNat = s.regionBase + 8 * k
      ∧ storeEnded o.setsAccerr o.setsFpviol false t ∧ onlyFlash s t ∧ t.draws = d
      ∧ t.freeIx = s.freeIx + 1

/-! ### Flash sequencer -/

/-- R182, R189, R271: SEQ_LAUNCH with no command in flight writes the descriptor registers, clears both
violation flags and `SEQ.complete`, and the sequencer holds the command; with one in flight, or with a store
operation under way, it is refused. That a descriptor without a meaning of its own is launched like any other,
and not refused, is the model's (PRESUMED, log 14). -/
def Obligations.SeqLaunchStartsTheCommand : Prop :=
  ∀ (d : Descriptor) (s : State), s.ready = true →
    (s.seq.complete = false → exec (.seqLaunch d) s = .refused .sequencerBusy)
    ∧ (s.seq.complete = true → s.ws.state ≠ .idle → exec (.seqLaunch d) s = .refused .storeBusy)
    ∧ (s.seq.complete = true → s.ws.state = .idle → ∃ t, exec (.seqLaunch d) s = .next t
      ∧ returned .done t ∧ t.cmd = d ∧ t.seq.accerr = false ∧ t.seq.fpviol = false
      ∧ t.seq.inflight = some d ∧ t.seq.complete = false
      ∧ t.ws = s.ws ∧ t.alloc = s.alloc ∧ samePipes s t ∧ t.fr = s.fr ∧ sameFlash s t
      ∧ sameHandlers s t ∧ sameAgents s t ∧ sameInputs s t ∧ sameCarried s t)

/-- R183: SEQ_WAIT with no command in flight returns true exactly when neither violation flag is set, and
changes nothing. -/
def Obligations.SeqWaitReportsTheStatus : Prop :=
  ∀ s : State, s.ready = true → s.seq.complete = true → 1 ≤ s.turn →
    ∃ t, exec .seqWait s = .next t
      ∧ returned (.flag (decide (s.seq.accerr = false ∧ s.seq.fpviol = false))) t
      ∧ onlyMe s t ∧ sameCarried s t

/-- R184, R185, R186, R187: SEQ_EXEC of the sequencer completes the command in flight with the environment's
answer: flash, flags and `SEQ.complete` change together. A program command answered `ok` on a phrase that is
not erased is refused. -/
def Obligations.SeqExecCompletesTheCommand : Prop :=
  ∀ (d : Descriptor) (o : SeqOutcome) (l : List SeqOutcome) (s : State), s.canAsk = true →
    s.who = .sequencer → s.flashWf → s.seq.complete = false → s.seq.inflight = some d →
    s.draws = o :: l → malformed d s = false → 1 ≤ s.turn →
    ((o = .ok → d.opcode = Config.opcProgramPhrase → s.erasedAt d.addr.toNat) →
      ∃ t, exec .seqExec s = .next t ∧ returned .done t
        ∧ commandWrote d o s t ∧ statusAfter o t.seq
        ∧ t.cmd = s.cmd ∧ t.ws = s.ws ∧ onlyFlash s t ∧ t.draws = l ∧ t.freeIx = s.freeIx)
    ∧ (o = .ok → d.opcode = Config.opcProgramPhrase → ¬ s.erasedAt d.addr.toNat →
      exec .seqExec s = .refused .phraseNotErased)

/-- R180, R182 to R187: a descriptor given to the idle sequencer is launched, executed with the environment's
answer and waited for: an erase sets the whole sector to `ERASED_BYTE`, a program writes its eight bytes into
an erased phrase, a violation changes no byte; the result is whether no violation was reported. A program of a
phrase that is not erased is refused where it is answered `ok`. That a malformed descriptor answers with the
access violation is the model's choice (log 14), and so is that the three parts are one request (log 13). -/
def Obligations.FlashCommandsRunToCompletion : Prop :=
  ∀ (d : Descriptor) (i : Instr) (o : SeqOutcome) (l : List SeqOutcome) (s : State),
    ((d.opcode = Config.opcProgramPhrase ∧ i = .fcmdPgm8 d.addr d.data)
      ∨ (d.opcode = Config.opcEraseSector ∧ i = .fcmdErsscr d.addr d.data)) →
    s.ready = true → s.storeFree = true → s.flashWf → s.draws = o :: l →
    2 ≤ s.turn →
    (malformed d s = false →
      (o = .ok → d.opcode = Config.opcProgramPhrase → s.erasedAt d.addr.toNat) →
      ∃ t, exec i s = .next t ∧ returned (.flag (decide (o = .ok))) t
        ∧ commandWrote d o s t ∧ statusAfter o t.seq
        ∧ t.cmd = d ∧ t.ws = s.ws ∧ onlyFlash s t ∧ t.draws = l ∧ t.freeIx = s.freeIx)
    ∧ (malformed d s = false → o = .ok → d.opcode = Config.opcProgramPhrase →
      ¬ s.erasedAt d.addr.toNat → exec i s = .refused .phraseNotErased)
    ∧ (malformed d s = true →
      ∃ t, exec i s = .next t ∧ returned (.flag false) t ∧ sameFlash s t
        ∧ statusAfter .accerr t.seq
        ∧ t.cmd = d ∧ t.ws = s.ws ∧ onlyFlash s t ∧ t.draws = l ∧ t.freeIx = s.freeIx)

/-! ### Command Dispatcher -/

/-- R101, R213, R233: DISPATCH of a frame whose code is none of the eight is `UnknownCommand`: no handler runs,
the result is false, and the reply, if asked for, echoes the parameters with bit 7 clear. That such a frame's
bytes, as one request, do the same is the model's (DEDUCED, log 12). -/
def Obligations.UnknownCommandIsAFailure : Prop :=
  ∀ (c p1 p2 p3 : Byte) (s : State),
    (codeOf c).toNat ∉ [0x04, 0x07, 0x08, 0x09, 0x0A, 0x0B, 0x0C, 0x0D] → s.ready = true →
    s.canReply c → 64 ≤ s.turn →
    ∃ t, exec (.dispatch c p1 p2 p3) s = .next t
      ∧ runBytes .frame [c, p1, p2, p3, checksum c p1 p2 p3] s = .next t
      ∧ dispatched c false (some (.unknownCommand (codeOf c))) p1 p2 p3 s t
      ∧ storeUntouched s t ∧ handlersUntouched s t

/-- R201, R208: CMD_VERSION succeeds whatever its parameters and reports `'v'` and the two version bytes. -/
def Obligations.CmdVersionReportsTheVersion : Prop :=
  ∀ (ack : Bool) (p1 p2 p3 : Byte) (i : Instr) (s : State),
    isCommand 0x09#8 .cmdVersion ack p1 p2 p3 i → s.ready = true →
    s.canReply (commandByte ack 0x09#8) → 64 ≤ s.turn →
    ∃ t, exec i s = .next t
      ∧ dispatched (commandByte ack 0x09#8) true none 0x76#8 s.build.verHi s.build.verLo s t
      ∧ storeUntouched s t ∧ handlersUntouched s t

/-- R201, R209: CMD_PROTOCOL with selector 1 reports `PROTO_MODE`; with selector 2 and value 0 or 1 it sets
it. -/
def Obligations.CmdProtocolGetsAndSetsTheMode : Prop :=
  ∀ (ack : Bool) (p1 p2 p3 : Byte) (i : Instr) (s : State),
    isCommand 0x0A#8 .cmdProtocol ack p1 p2 p3 i → s.ready = true →
    s.canReply (commandByte ack 0x0A#8) → 64 ≤ s.turn →
    (p1 = 1#8 → ∃ t, exec i s = .next t
      ∧ dispatched (commandByte ack 0x0A#8) true none 1#8 (s.protoMode.setWidth 8) 0#8 s t
      ∧ storeUntouched s t ∧ handlersUntouched s t)
    ∧ (p1 = 2#8 → p2.toNat ≤ 1 → ∃ t, exec i s = .next t
      ∧ dispatched (commandByte ack 0x0A#8) true none 2#8 p2 p3 s t
      ∧ t.protoMode.toNat = p2.toNat ∧ t.rtc = s.rtc ∧ t.freeIx = s.freeIx ∧ storeUntouched s t)

/-- R201, R207: CMD_RDBYTE with an offset up to 7 reports the byte of the data region at that offset. -/
def Obligations.CmdRdbyteReportsTheByte : Prop :=
  ∀ (ack : Bool) (p1 p2 p3 : Byte) (i : Instr) (s : State),
    isCommand 0x08#8 .cmdRdbyte ack p1 p2 p3 i → s.ready = true →
    s.canReply (commandByte ack 0x08#8) → 64 ≤ s.turn → p1.toNat ≤ 7 → s.storeFree = true →
    ∃ t, exec i s = .next t
      ∧ dispatched (commandByte ack 0x08#8) true none p1 p2
          (s.flashByte (s.regionBase + p1.toNat)) s t
      ∧ storeUntouched s t ∧ handlersUntouched s t

/-- R201, R210, R212, R263, R267: CMD_NUMBER and CMD_MODE with selector 1 report the two bytes of their variable,
the least significant one first. Before start-up has allocated both variables they are refused, whatever
their parameters. -/
def Obligations.CmdNumberAndModeReportTheirVariable : Prop :=
  ∀ (code : Byte) (ack : Bool) (p1 p2 p3 : Byte) (i : Instr) (s : State),
    ((code = 0x0B#8 ∧ isCommand code .cmdNumber ack p1 p2 p3 i)
      ∨ (code = 0x0D#8 ∧ isCommand code .cmdMode ack p1 p2 p3 i)) →
    s.ready = true →
    (s.maySend = true → 1 ≤ s.turn → s.nvNumber = none ∨ s.nvMode = none →
      exec i s = .refused .handleUnset)
    ∧ (∀ n m a : Addr, s.canReply (commandByte ack code) → 64 ≤ s.turn →
      s.nvNumber = some n → s.nvMode = some m →
      a = (if code = 0x0B#8 then n else m) → p1 = 1#8 → s.inRegion a.toNat 2 → s.storeFree = true →
      ∃ t, exec i s = .next t
        ∧ dispatched (commandByte ack code) true none 1#8 (s.flashByte a.toNat)
            (s.flashByte (a.toNat + 1)) s t
        ∧ storeUntouched s t ∧ handlersUntouched s t)

/-- R201, R210, R212: CMD_NUMBER and CMD_MODE with selector 2 write the two parameter bytes to their variable,
the first at the lower address, when every flash command answers `ok`. -/
def Obligations.CmdNumberAndModeSetTheirVariable : Prop :=
  ∀ (code : Byte) (ack : Bool) (p1 p2 p3 : Byte) (n m a : Addr) (i : Instr) (d : List SeqOutcome)
    (s : State),
    ((code = 0x0B#8 ∧ isCommand code .cmdNumber ack p1 p2 p3 i ∧ a = n)
      ∨ (code = 0x0D#8 ∧ isCommand code .cmdMode ack p1 p2 p3 i ∧ a = m)) →
    s.nvNumber = some n → s.nvMode = some m →
    s.storeReady → s.canReply (commandByte ack code) → p1 = 2#8 → s.inRegion a.toNat 2 →
    s.draws = List.replicate (s.build.regionLen / 8 + 1) .ok ++ d →
    64 + s.build.regionLen ≤ s.turn →
    ∃ t, exec i s = .next t ∧ dispatched (commandByte ack code) true none 2#8 p2 p3 s t
      ∧ storeWrote (s.build.regionLen / 8) a.toNat [p2, p3] s t
      ∧ storeEnded false false true t ∧ t.draws = d
      ∧ t.protoMode = s.protoMode ∧ t.rtc = s.rtc ∧ t.freeIx = s.freeIx + 1

/-- R201, R211: CMD_TIME with hours up to 23, minutes and seconds up to 59 sets the clock to them and succeeds.
That the clock holds what was last set is the model's (log 21). -/
def Obligations.CmdTimeSetsTheClock : Prop :=
  ∀ (ack : Bool) (p1 p2 p3 : Byte) (i : Instr) (s : State),
    isCommand 0x0C#8 .cmdTime ack p1 p2 p3 i → s.ready = true →
    s.canReply (commandByte ack 0x0C#8) → 64 ≤ s.turn →
    p1.toNat ≤ 23 → p2.toNat ≤ 59 → p3.toNat ≤ 59 →
    ∃ t, exec i s = .next t ∧ dispatched (commandByte ack 0x0C#8) true none p1 p2 p3 s t
      ∧ t.rtc = ⟨p1, p2, p3⟩ ∧ t.protoMode = s.protoMode ∧ t.freeIx = s.freeIx
      ∧ storeUntouched s t

/-- R201, R206: CMD_PGMBYTE with an offset up to 7 writes its data byte there, and with offset 8 erases the
sector, when every flash command answers `ok`. -/
def Obligations.CmdPgmbyteWritesOrErases : Prop :=
  ∀ (ack : Bool) (p1 p2 p3 : Byte) (i : Instr) (d : List SeqOutcome) (s : State),
    isCommand 0x07#8 .cmdPgmbyte ack p1 p2 p3 i → s.storeReady →
    s.canReply (commandByte ack 0x07#8) → 64 + s.build.regionLen ≤ s.turn →
    (p1.toNat ≤ 7 → s.draws = List.replicate (s.build.regionLen / 8 + 1) .ok ++ d →
      ∃ t, exec i s = .next t ∧ dispatched (commandByte ack 0x07#8) true none p1 p2 p3 s t
        ∧ storeWrote (s.build.regionLen / 8) (s.regionBase + p1.toNat) [p3] s t
        ∧ storeEnded false false true t ∧ t.draws = d
        ∧ t.protoMode = s.protoMode ∧ t.rtc = s.rtc ∧ t.freeIx = s.freeIx + 1)
    ∧ (p1.toNat = 8 → s.draws = .ok :: d →
      ∃ t, exec i s = .next t ∧ dispatched (commandByte ack 0x07#8) true none p1 p2 p3 s t
        ∧ storeWrote 0 0 [] s t
        ∧ storeEnded false false true t ∧ t.draws = d
        ∧ t.protoMode = s.protoMode ∧ t.rtc = s.rtc ∧ t.freeIx = s.freeIx + 1)

/-- R201, R205: CMD_STARTUP puts the frames its open handler chooses into `TXF`, then the reply if one is asked
for, and touches nothing else. The handler's answer is a free value (log 10). -/
def Obligations.CmdStartupRunsTheOpenHandler : Prop :=
  ∀ (ack : Bool) (p1 p2 p3 : Byte) (i : Instr) (l : List Frame) (s : State),
    isCommand 0x04#8 .cmdStartup ack p1 p2 p3 i → s.ready = true → s.maySend = true →
    l = (Config.hStartup s.freeIx p1 p2 p3).frames
        ++ (if ack then [⟨commandByte (Config.hStartup s.freeIx p1 p2 p3).success 0x04#8,
              (Config.hStartup s.freeIx p1 p2 p3).r1, (Config.hStartup s.freeIx p1 p2 p3).r2,
              (Config.hStartup s.freeIx p1 p2 p3).r3⟩] else []) →
    (l ≠ [] → s.canEmit (5 * l.length)) → 64 * (l.length + 1) ≤ s.turn →
    ∃ t, exec i s = .next t
      ∧ returned (.dispatched (Config.hStartup s.freeIx p1 p2 p3).success none false) t
      ∧ (l = [] → t.txf = s.txf ∧ t.txUsers = s.txUsers)
      ∧ (l ≠ [] → s.txf.grewBy s.build.capacity s.threaded (l.flatMap frameBytes) t.txf
        ∧ t.txUsers = (s.notePut .txf true).txUsers)
      ∧ dispatchFrame s t ∧ storeUntouched s t
      ∧ t.protoMode = s.protoMode ∧ t.rtc = s.rtc ∧ t.freeIx = s.freeIx + 1

/-- R102, R201, R234: a command with a reserved parameter value fails with `ParameterInvalid`: nothing changes,
and the reply, if asked for, echoes the received parameters with bit 7 clear. CMD_NUMBER and CMD_MODE come to
that check once start-up has allocated their variables (R263). -/
def Obligations.ReservedParametersFail : Prop :=
  ∀ (code : Byte) (e : Param) (ack : Bool) (p1 p2 p3 : Byte) (i : Instr) (s : State),
    ((code = 0x07#8 ∧ isCommand code .cmdPgmbyte ack p1 p2 p3 i ∧ 8 < p1.toNat ∧ e = .offset)
      ∨ (code = 0x08#8 ∧ isCommand code .cmdRdbyte ack p1 p2 p3 i ∧ 7 < p1.toNat ∧ e = .offset)
      ∨ (code = 0x0C#8 ∧ isCommand code .cmdTime ack p1 p2 p3 i
          ∧ (23 < p1.toNat ∨ 59 < p2.toNat ∨ 59 < p3.toNat) ∧ e = .time)
      ∨ (code = 0x0B#8 ∧ isCommand code .cmdNumber ack p1 p2 p3 i ∧ p1 ≠ 1#8 ∧ p1 ≠ 2#8
          ∧ s.nvNumber ≠ none ∧ s.nvMode ≠ none ∧ e = .selector)
      ∨ (code = 0x0D#8 ∧ isCommand code .cmdMode ack p1 p2 p3 i ∧ p1 ≠ 1#8 ∧ p1 ≠ 2#8
          ∧ s.nvNumber ≠ none ∧ s.nvMode ≠ none ∧ e = .selector)
      ∨ (code = 0x0A#8 ∧ isCommand code .cmdProtocol ack p1 p2 p3 i ∧ p1 ≠ 1#8 ∧ p1 ≠ 2#8
          ∧ e = .selector)
      ∨ (code = 0x0A#8 ∧ isCommand code .cmdProtocol ack p1 p2 p3 i ∧ p1 = 2#8 ∧ 1 < p2.toNat
          ∧ e = .value)) →
    s.ready = true → s.canReply (commandByte ack code) → 64 ≤ s.turn →
    ∃ t, exec i s = .next t
      ∧ dispatched (commandByte ack code) false (some (.parameterInvalid e)) p1 p2 p3 s t
      ∧ storeUntouched s t ∧ handlersUntouched s t

/-- R201, R203, R206, R210, R212, R235: a command whose store write or erase meets a violation fails: the reply,
if asked for, echoes the received parameters with bit 7 clear. A violation in the erase leaves every byte of
flash as it was; one in the program of phrase `k` of a write leaves the phrases below `k` with the new region
and the rest of the sector erased. -/
def Obligations.FailedStoreWriteIsReported : Prop :=
  ∀ (code : Byte) (ack : Bool) (p1 p2 p3 : Byte) (a : Nat) (l : List Byte) (i : Instr)
    (o : SeqOutcome) (d : List SeqOutcome) (s : State),
    ((code = 0x07#8 ∧ isCommand code .cmdPgmbyte ack p1 p2 p3 i ∧ p1.toNat ≤ 7
          ∧ a = s.regionBase + p1.toNat ∧ l = [p3])
      ∨ (code = 0x07#8 ∧ isCommand code .cmdPgmbyte ack p1 p2 p3 i ∧ p1.toNat = 8 ∧ l = [])
      ∨ (∃ n m : Addr, s.nvNumber = some n ∧ s.nvMode = some m ∧ p1 = 2#8 ∧ l = [p2, p3]
          ∧ s.inRegion a 2
          ∧ ((code = 0x0B#8 ∧ isCommand code .cmdNumber ack p1 p2 p3 i ∧ a = n.toNat)
            ∨ (code = 0x0D#8 ∧ isCommand code .cmdMode ack p1 p2 p3 i ∧ a = m.toNat)))) →
    s.storeReady → s.canReply (commandByte ack code) → o ≠ .ok →
    64 + s.build.regionLen ≤ s.turn →
    (s.draws = o :: d → ∃ t, exec i s = .next t
      ∧ dispatched (commandByte ack code) false
          (some (.flashSequencer .erase o.setsAccerr o.setsFpviol)) p1 p2 p3 s t
      ∧ sameFlash s t ∧ storeEnded o.setsAccerr o.setsFpviol false t ∧ t.draws = d
      ∧ t.protoMode = s.protoMode ∧ t.rtc = s.rtc ∧ t.freeIx = s.freeIx + 1)
    ∧ (∀ k, l ≠ [] → k < s.build.regionLen / 8 →
      s.draws = List.replicate (k + 1) .ok ++ o :: d → ∃ t, exec i s = .next t
      ∧ dispatched (commandByte ack code) false
          (some (.flashSequencer (.program k) o.setsAccerr o.setsFpviol)) p1 p2 p3 s t
      ∧ storeWrote k a l s t ∧ storeEnded o.setsAccerr o.setsFpviol false t ∧ t.draws = d
      ∧ t.protoMode = s.protoMode ∧ t.rtc = s.rtc ∧ t.freeIx = s.freeIx + 1)

/-- R203 (last row): a frame whose checksum is wrong is dispatched by nobody. That the frame, as an
instruction, then changes nothing and answers `NoFrame` is the model's choice (DESIGN CHOICE, log 12); R203
says only that the codec never emits it. -/
def Obligations.WrongChecksumChangesNothing : Prop :=
  ∀ (code : Byte) (mk : Bool → Byte → Byte → Byte → Byte → Instr) (ack : Bool)
    (p1 p2 p3 chk : Byte) (s : State),
    ((code = 0x04#8 ∧ mk = .cmdStartup) ∨ (code = 0x07#8 ∧ mk = .cmdPgmbyte)
      ∨ (code = 0x08#8 ∧ mk = .cmdRdbyte) ∨ (code = 0x09#8 ∧ mk = .cmdVersion)
      ∨ (code = 0x0A#8 ∧ mk = .cmdProtocol) ∨ (code = 0x0B#8 ∧ mk = .cmdNumber)
      ∨ (code = 0x0C#8 ∧ mk = .cmdTime) ∨ (code = 0x0D#8 ∧ mk = .cmdMode)) →
    s.ready = true → s.maySend = true → chk ≠ checksum (commandByte ack code) p1 p2 p3 →
      exec (mk ack p1 p2 p3 chk) s = .next (s.respond .noFrame)

/-- R201, R205, R213, R241: where `TXF` has no room for the reply, DISPATCH reports both its handler's result and
the capacity error; the bytes that fitted stay. Said, in the polled regime, of every handler that answers
without a store write, its failures included; of the open handler of 0x04 where its own frames fit and its
reply does not (the frames and the result are a free value, log 10); and of an unknown code, where
`success = false` and the capacity error come together. -/
def Obligations.ReplyThatDoesNotFitIsReported : Prop :=
  ∀ (f : Frame) (k : Nat) (s : State), s.ready = true → s.polled = true → k < 5 →
    ackOf f.command = true →
    (∀ (l : List Frame) (a : Answer) (u : State), s.canEmit (5 * l.length + k) →
      s.txf.count + 5 * l.length + k = s.build.capacity → 64 * (l.length + 1) ≤ s.turn →
      handler f ((s.setTodo []).respond .pending) = .sending l a u →
      ∃ t, exec (.dispatch f.command f.p1 f.p2 f.p3) s = .next t
        ∧ returned (.dispatched a.success a.err true) t
        ∧ s.txf.grewBy s.build.capacity false (l.flatMap frameBytes
            ++ (frameBytes ⟨commandByte a.success (codeOf f.command), a.r1, a.r2, a.r3⟩).take k) t.txf
        ∧ t.me.txe = none ∧ dispatchFrame s t ∧ t.txUsers = s.txUsers ∧ storeUntouched s t
        ∧ t.protoMode = s.protoMode ∧ t.rtc = s.rtc ∧ t.freeIx = s.freeIx + 1)
    ∧ (s.canEmit k → s.txf.count + k = s.build.capacity → 64 ≤ s.turn →
      (∀ (a : Answer) (u : State),
        handler f ((s.setTodo []).respond .pending) = .answer a u →
        ∃ t, exec (.dispatch f.command f.p1 f.p2 f.p3) s = .next t
          ∧ returned (.dispatched a.success a.err true) t
          ∧ s.txf.grewBy s.build.capacity false
              ((frameBytes ⟨commandByte a.success (codeOf f.command), a.r1, a.r2, a.r3⟩).take k) t.txf
          ∧ t.me.txe = none ∧ dispatchFrame s t ∧ t.txUsers = s.txUsers ∧ storeUntouched s t
          ∧ t.protoMode = u.protoMode ∧ t.rtc = u.rtc ∧ t.freeIx = s.freeIx)
      ∧ ((codeOf f.command).toNat ∉ [0x04, 0x07, 0x08, 0x09, 0x0A, 0x0B, 0x0C, 0x0D] →
        ∃ t, exec (.dispatch f.command f.p1 f.p2 f.p3) s = .next t
          ∧ returned (.dispatched false (some (.unknownCommand (codeOf f.command))) true) t
          ∧ s.txf.grewBy s.build.capacity false
              ((frameBytes ⟨commandByte false (codeOf f.command), f.p1, f.p2, f.p3⟩).take k) t.txf
          ∧ t.me.txe = none ∧ dispatchFrame s t ∧ t.txUsers = s.txUsers ∧ storeUntouched s t
          ∧ handlersUntouched s t))
end

