-- ==== Sys2Proof/Laws/State.lean ====
section
/-! SUPPORT. What each update of the state does to each field, true by definition and in the simp set,
so that no proof unfolds a record update. -/

namespace Sys2Proof.Machine.State

variable (s : State)

/-! ### respond -/

@[simp] theorem respond_build (r : Response) : (s.respond r).build = s.build := rfl
@[simp] theorem respond_rxf (r : Response) : (s.respond r).rxf = s.rxf := rfl
@[simp] theorem respond_txf (r : Response) : (s.respond r).txf = s.txf := rfl
@[simp] theorem respond_txlock (r : Response) : (s.respond r).txlock = s.txlock := rfl
@[simp] theorem respond_fr (r : Response) : (s.respond r).fr = s.fr := rfl
@[simp] theorem respond_alloc (r : Response) : (s.respond r).alloc = s.alloc := rfl
@[simp] theorem respond_flash (r : Response) : (s.respond r).flash = s.flash := rfl
@[simp] theorem respond_cmd (r : Response) : (s.respond r).cmd = s.cmd := rfl
@[simp] theorem respond_seq (r : Response) : (s.respond r).seq = s.seq := rfl
@[simp] theorem respond_ws (r : Response) : (s.respond r).ws = s.ws := rfl
@[simp] theorem respond_nvNumber (r : Response) : (s.respond r).nvNumber = s.nvNumber := rfl
@[simp] theorem respond_nvMode (r : Response) : (s.respond r).nvMode = s.nvMode := rfl
@[simp] theorem respond_protoMode (r : Response) : (s.respond r).protoMode = s.protoMode := rfl
@[simp] theorem respond_rtc (r : Response) : (s.respond r).rtc = s.rtc := rfl
@[simp] theorem respond_who (r : Response) : (s.respond r).who = s.who := rfl
@[simp] theorem respond_me_todo (r : Response) : (s.respond r).me.todo = s.me.todo := rfl
@[simp] theorem respond_me_resp (r : Response) : (s.respond r).me.resp = r := rfl
@[simp] theorem respond_me_txe (r : Response) : (s.respond r).me.txe = s.me.txe := rfl
@[simp] theorem respond_me_held (r : Response) : (s.respond r).me.held = s.me.held := rfl
@[simp] theorem respond_parked (r : Response) : (s.respond r).parked = s.parked := rfl
@[simp] theorem respond_queue (r : Response) : (s.respond r).queue = s.queue := rfl
@[simp] theorem respond_turn (r : Response) : (s.respond r).turn = s.turn := rfl
@[simp] theorem respond_draws (r : Response) : (s.respond r).draws = s.draws := rfl
@[simp] theorem respond_freeIx (r : Response) : (s.respond r).freeIx = s.freeIx := rfl
@[simp] theorem respond_pipe (r : Response) (p : PipeId) : (s.respond r).pipe p = s.pipe p := by cases p <;> rfl
@[simp] theorem respond_polled (r : Response) : (s.respond r).polled = s.polled := rfl
@[simp] theorem respond_threaded (r : Response) : (s.respond r).threaded = s.threaded := rfl
@[simp] theorem respond_locked (r : Response) : (s.respond r).locked = s.locked := rfl
@[simp] theorem respond_rxUsers (r : Response) :
    (s.respond r).rxUsers = s.rxUsers := rfl
@[simp] theorem respond_txUsers (r : Response) :
    (s.respond r).txUsers = s.txUsers := rfl
@[simp] theorem respond_users (r : Response) (p : PipeId) :
    (s.respond r).users p = s.users p := by cases p <;> rfl
@[simp] theorem respond_mayAct (r : Response) :
    (s.respond r).mayAct = s.mayAct := rfl
@[simp] theorem respond_maySend (r : Response) :
    (s.respond r).maySend = s.maySend := rfl
@[simp] theorem respond_mayPut (r : Response) (p : PipeId) (u : Bool) :
    (s.respond r).mayPut p u = s.mayPut p u := by cases p <;> rfl
@[simp] theorem respond_mayGet (r : Response) (p : PipeId) :
    (s.respond r).mayGet p = s.mayGet p := by cases p <;> rfl
@[simp] theorem respond_mayStep (r : Response) :
    (s.respond r).mayStep = s.mayStep := rfl
@[simp] theorem respond_storeFree (r : Response) : (s.respond r).storeFree = s.storeFree := rfl
@[simp] theorem respond_flashByte (r : Response) (x : Nat) : (s.respond r).flashByte x = s.flashByte x := rfl

/-! ### setTodo -/

@[simp] theorem setTodo_build (l : List Micro) : (s.setTodo l).build = s.build := rfl
@[simp] theorem setTodo_rxf (l : List Micro) : (s.setTodo l).rxf = s.rxf := rfl
@[simp] theorem setTodo_txf (l : List Micro) : (s.setTodo l).txf = s.txf := rfl
@[simp] theorem setTodo_txlock (l : List Micro) : (s.setTodo l).txlock = s.txlock := rfl
@[simp] theorem setTodo_fr (l : List Micro) : (s.setTodo l).fr = s.fr := rfl
@[simp] theorem setTodo_alloc (l : List Micro) : (s.setTodo l).alloc = s.alloc := rfl
@[simp] theorem setTodo_flash (l : List Micro) : (s.setTodo l).flash = s.flash := rfl
@[simp] theorem setTodo_cmd (l : List Micro) : (s.setTodo l).cmd = s.cmd := rfl
@[simp] theorem setTodo_seq (l : List Micro) : (s.setTodo l).seq = s.seq := rfl
@[simp] theorem setTodo_ws (l : List Micro) : (s.setTodo l).ws = s.ws := rfl
@[simp] theorem setTodo_nvNumber (l : List Micro) : (s.setTodo l).nvNumber = s.nvNumber := rfl
@[simp] theorem setTodo_nvMode (l : List Micro) : (s.setTodo l).nvMode = s.nvMode := rfl
@[simp] theorem setTodo_protoMode (l : List Micro) : (s.setTodo l).protoMode = s.protoMode := rfl
@[simp] theorem setTodo_rtc (l : List Micro) : (s.setTodo l).rtc = s.rtc := rfl
@[simp] theorem setTodo_who (l : List Micro) : (s.setTodo l).who = s.who := rfl
@[simp] theorem setTodo_me_todo (l : List Micro) : (s.setTodo l).me.todo = l := rfl
@[simp] theorem setTodo_me_resp (l : List Micro) : (s.setTodo l).me.resp = s.me.resp := rfl
@[simp] theorem setTodo_me_txe (l : List Micro) : (s.setTodo l).me.txe = s.me.txe := rfl
@[simp] theorem setTodo_me_held (l : List Micro) : (s.setTodo l).me.held = s.me.held := rfl
@[simp] theorem setTodo_parked (l : List Micro) : (s.setTodo l).parked = s.parked := rfl
@[simp] theorem setTodo_queue (l : List Micro) : (s.setTodo l).queue = s.queue := rfl
@[simp] theorem setTodo_turn (l : List Micro) : (s.setTodo l).turn = s.turn := rfl
@[simp] theorem setTodo_draws (l : List Micro) : (s.setTodo l).draws = s.draws := rfl
@[simp] theorem setTodo_freeIx (l : List Micro) : (s.setTodo l).freeIx = s.freeIx := rfl
@[simp] theorem setTodo_pipe (l : List Micro) (p : PipeId) : (s.setTodo l).pipe p = s.pipe p := by cases p <;> rfl
@[simp] theorem setTodo_polled (l : List Micro) : (s.setTodo l).polled = s.polled := rfl
@[simp] theorem setTodo_threaded (l : List Micro) : (s.setTodo l).threaded = s.threaded := rfl
@[simp] theorem setTodo_locked (l : List Micro) : (s.setTodo l).locked = s.locked := rfl
@[simp] theorem setTodo_rxUsers (l : List Micro) :
    (s.setTodo l).rxUsers = s.rxUsers := rfl
@[simp] theorem setTodo_txUsers (l : List Micro) :
    (s.setTodo l).txUsers = s.txUsers := rfl
@[simp] theorem setTodo_users (l : List Micro) (p : PipeId) :
    (s.setTodo l).users p = s.users p := by cases p <;> rfl
@[simp] theorem setTodo_mayAct (l : List Micro) :
    (s.setTodo l).mayAct = s.mayAct := rfl
@[simp] theorem setTodo_maySend (l : List Micro) :
    (s.setTodo l).maySend = s.maySend := rfl
@[simp] theorem setTodo_mayPut (l : List Micro) (p : PipeId) (u : Bool) :
    (s.setTodo l).mayPut p u = s.mayPut p u := by cases p <;> rfl
@[simp] theorem setTodo_mayGet (l : List Micro) (p : PipeId) :
    (s.setTodo l).mayGet p = s.mayGet p := by cases p <;> rfl
@[simp] theorem setTodo_mayStep (l : List Micro) :
    (s.setTodo l).mayStep = s.mayStep := rfl
@[simp] theorem setTodo_storeFree (l : List Micro) : (s.setTodo l).storeFree = s.storeFree := rfl
@[simp] theorem setTodo_flashByte (l : List Micro) (x : Nat) : (s.setTodo l).flashByte x = s.flashByte x := rfl

/-! ### push -/

@[simp] theorem push_build (l : List Micro) : (s.push l).build = s.build := rfl
@[simp] theorem push_rxf (l : List Micro) : (s.push l).rxf = s.rxf := rfl
@[simp] theorem push_txf (l : List Micro) : (s.push l).txf = s.txf := rfl
@[simp] theorem push_txlock (l : List Micro) : (s.push l).txlock = s.txlock := rfl
@[simp] theorem push_fr (l : List Micro) : (s.push l).fr = s.fr := rfl
@[simp] theorem push_alloc (l : List Micro) : (s.push l).alloc = s.alloc := rfl
@[simp] theorem push_flash (l : List Micro) : (s.push l).flash = s.flash := rfl
@[simp] theorem push_cmd (l : List Micro) : (s.push l).cmd = s.cmd := rfl
@[simp] theorem push_seq (l : List Micro) : (s.push l).seq = s.seq := rfl
@[simp] theorem push_ws (l : List Micro) : (s.push l).ws = s.ws := rfl
@[simp] theorem push_nvNumber (l : List Micro) : (s.push l).nvNumber = s.nvNumber := rfl
@[simp] theorem push_nvMode (l : List Micro) : (s.push l).nvMode = s.nvMode := rfl
@[simp] theorem push_protoMode (l : List Micro) : (s.push l).protoMode = s.protoMode := rfl
@[simp] theorem push_rtc (l : List Micro) : (s.push l).rtc = s.rtc := rfl
@[simp] theorem push_who (l : List Micro) : (s.push l).who = s.who := rfl
@[simp] theorem push_me_todo (l : List Micro) : (s.push l).me.todo = l ++ s.me.todo := rfl
@[simp] theorem push_me_resp (l : List Micro) : (s.push l).me.resp = s.me.resp := rfl
@[simp] theorem push_me_txe (l : List Micro) : (s.push l).me.txe = s.me.txe := rfl
@[simp] theorem push_me_held (l : List Micro) : (s.push l).me.held = s.me.held := rfl
@[simp] theorem push_parked (l : List Micro) : (s.push l).parked = s.parked := rfl
@[simp] theorem push_queue (l : List Micro) : (s.push l).queue = s.queue := rfl
@[simp] theorem push_turn (l : List Micro) : (s.push l).turn = s.turn := rfl
@[simp] theorem push_draws (l : List Micro) : (s.push l).draws = s.draws := rfl
@[simp] theorem push_freeIx (l : List Micro) : (s.push l).freeIx = s.freeIx := rfl
@[simp] theorem push_pipe (l : List Micro) (p : PipeId) : (s.push l).pipe p = s.pipe p := by cases p <;> rfl
@[simp] theorem push_polled (l : List Micro) : (s.push l).polled = s.polled := rfl
@[simp] theorem push_threaded (l : List Micro) : (s.push l).threaded = s.threaded := rfl
@[simp] theorem push_locked (l : List Micro) : (s.push l).locked = s.locked := rfl
@[simp] theorem push_rxUsers (l : List Micro) :
    (s.push l).rxUsers = s.rxUsers := rfl
@[simp] theorem push_txUsers (l : List Micro) :
    (s.push l).txUsers = s.txUsers := rfl
@[simp] theorem push_users (l : List Micro) (p : PipeId) :
    (s.push l).users p = s.users p := by cases p <;> rfl
@[simp] theorem push_mayAct (l : List Micro) :
    (s.push l).mayAct = s.mayAct := rfl
@[simp] theorem push_maySend (l : List Micro) :
    (s.push l).maySend = s.maySend := rfl
@[simp] theorem push_mayPut (l : List Micro) (p : PipeId) (u : Bool) :
    (s.push l).mayPut p u = s.mayPut p u := by cases p <;> rfl
@[simp] theorem push_mayGet (l : List Micro) (p : PipeId) :
    (s.push l).mayGet p = s.mayGet p := by cases p <;> rfl
@[simp] theorem push_mayStep (l : List Micro) :
    (s.push l).mayStep = s.mayStep := rfl
@[simp] theorem push_storeFree (l : List Micro) : (s.push l).storeFree = s.storeFree := rfl
@[simp] theorem push_flashByte (l : List Micro) (x : Nat) : (s.push l).flashByte x = s.flashByte x := rfl

/-! ### setTxe -/

@[simp] theorem setTxe_build (e : Option Emission) : (s.setTxe e).build = s.build := rfl
@[simp] theorem setTxe_rxf (e : Option Emission) : (s.setTxe e).rxf = s.rxf := rfl
@[simp] theorem setTxe_txf (e : Option Emission) : (s.setTxe e).txf = s.txf := rfl
@[simp] theorem setTxe_txlock (e : Option Emission) : (s.setTxe e).txlock = s.txlock := rfl
@[simp] theorem setTxe_fr (e : Option Emission) : (s.setTxe e).fr = s.fr := rfl
@[simp] theorem setTxe_alloc (e : Option Emission) : (s.setTxe e).alloc = s.alloc := rfl
@[simp] theorem setTxe_flash (e : Option Emission) : (s.setTxe e).flash = s.flash := rfl
@[simp] theorem setTxe_cmd (e : Option Emission) : (s.setTxe e).cmd = s.cmd := rfl
@[simp] theorem setTxe_seq (e : Option Emission) : (s.setTxe e).seq = s.seq := rfl
@[simp] theorem setTxe_ws (e : Option Emission) : (s.setTxe e).ws = s.ws := rfl
@[simp] theorem setTxe_nvNumber (e : Option Emission) : (s.setTxe e).nvNumber = s.nvNumber := rfl
@[simp] theorem setTxe_nvMode (e : Option Emission) : (s.setTxe e).nvMode = s.nvMode := rfl
@[simp] theorem setTxe_protoMode (e : Option Emission) : (s.setTxe e).protoMode = s.protoMode := rfl
@[simp] theorem setTxe_rtc (e : Option Emission) : (s.setTxe e).rtc = s.rtc := rfl
@[simp] theorem setTxe_who (e : Option Emission) : (s.setTxe e).who = s.who := rfl
@[simp] theorem setTxe_me_todo (e : Option Emission) : (s.setTxe e).me.todo = s.me.todo := rfl
@[simp] theorem setTxe_me_resp (e : Option Emission) : (s.setTxe e).me.resp = s.me.resp := rfl
@[simp] theorem setTxe_me_txe (e : Option Emission) : (s.setTxe e).me.txe = e := rfl
@[simp] theorem setTxe_me_held (e : Option Emission) : (s.setTxe e).me.held = s.me.held := rfl
@[simp] theorem setTxe_parked (e : Option Emission) : (s.setTxe e).parked = s.parked := rfl
@[simp] theorem setTxe_queue (e : Option Emission) : (s.setTxe e).queue = s.queue := rfl
@[simp] theorem setTxe_turn (e : Option Emission) : (s.setTxe e).turn = s.turn := rfl
@[simp] theorem setTxe_draws (e : Option Emission) : (s.setTxe e).draws = s.draws := rfl
@[simp] theorem setTxe_freeIx (e : Option Emission) : (s.setTxe e).freeIx = s.freeIx := rfl
@[simp] theorem setTxe_pipe (e : Option Emission) (p : PipeId) : (s.setTxe e).pipe p = s.pipe p := by cases p <;> rfl
@[simp] theorem setTxe_polled (e : Option Emission) : (s.setTxe e).polled = s.polled := rfl
@[simp] theorem setTxe_threaded (e : Option Emission) : (s.setTxe e).threaded = s.threaded := rfl
@[simp] theorem setTxe_locked (e : Option Emission) : (s.setTxe e).locked = s.locked := rfl
@[simp] theorem setTxe_rxUsers (e : Option Emission) :
    (s.setTxe e).rxUsers = s.rxUsers := rfl
@[simp] theorem setTxe_txUsers (e : Option Emission) :
    (s.setTxe e).txUsers = s.txUsers := rfl
@[simp] theorem setTxe_users (e : Option Emission) (p : PipeId) :
    (s.setTxe e).users p = s.users p := by cases p <;> rfl
@[simp] theorem setTxe_mayAct (e : Option Emission) :
    (s.setTxe e).mayAct = s.mayAct := rfl
@[simp] theorem setTxe_maySend (e : Option Emission) :
    (s.setTxe e).maySend = s.maySend := rfl
@[simp] theorem setTxe_mayPut (e : Option Emission) (p : PipeId) (u : Bool) :
    (s.setTxe e).mayPut p u = s.mayPut p u := by cases p <;> rfl
@[simp] theorem setTxe_mayGet (e : Option Emission) (p : PipeId) :
    (s.setTxe e).mayGet p = s.mayGet p := by cases p <;> rfl
@[simp] theorem setTxe_mayStep (e : Option Emission) :
    (s.setTxe e).mayStep = s.mayStep := rfl
@[simp] theorem setTxe_storeFree (e : Option Emission) : (s.setTxe e).storeFree = s.storeFree := rfl
@[simp] theorem setTxe_flashByte (e : Option Emission) (x : Nat) : (s.setTxe e).flashByte x = s.flashByte x := rfl

/-! ### setHeld -/

@[simp] theorem setHeld_build (l : Bool) : (s.setHeld l).build = s.build := rfl
@[simp] theorem setHeld_rxf (l : Bool) : (s.setHeld l).rxf = s.rxf := rfl
@[simp] theorem setHeld_txf (l : Bool) : (s.setHeld l).txf = s.txf := rfl
@[simp] theorem setHeld_txlock (l : Bool) : (s.setHeld l).txlock = s.txlock := rfl
@[simp] theorem setHeld_fr (l : Bool) : (s.setHeld l).fr = s.fr := rfl
@[simp] theorem setHeld_alloc (l : Bool) : (s.setHeld l).alloc = s.alloc := rfl
@[simp] theorem setHeld_flash (l : Bool) : (s.setHeld l).flash = s.flash := rfl
@[simp] theorem setHeld_cmd (l : Bool) : (s.setHeld l).cmd = s.cmd := rfl
@[simp] theorem setHeld_seq (l : Bool) : (s.setHeld l).seq = s.seq := rfl
@[simp] theorem setHeld_ws (l : Bool) : (s.setHeld l).ws = s.ws := rfl
@[simp] theorem setHeld_nvNumber (l : Bool) : (s.setHeld l).nvNumber = s.nvNumber := rfl
@[simp] theorem setHeld_nvMode (l : Bool) : (s.setHeld l).nvMode = s.nvMode := rfl
@[simp] theorem setHeld_protoMode (l : Bool) : (s.setHeld l).protoMode = s.protoMode := rfl
@[simp] theorem setHeld_rtc (l : Bool) : (s.setHeld l).rtc = s.rtc := rfl
@[simp] theorem setHeld_who (l : Bool) : (s.setHeld l).who = s.who := rfl
@[simp] theorem setHeld_me_todo (l : Bool) : (s.setHeld l).me.todo = s.me.todo := rfl
@[simp] theorem setHeld_me_resp (l : Bool) : (s.setHeld l).me.resp = s.me.resp := rfl
@[simp] theorem setHeld_me_txe (l : Bool) : (s.setHeld l).me.txe = s.me.txe := rfl
@[simp] theorem setHeld_me_held (l : Bool) : (s.setHeld l).me.held = l := rfl
@[simp] theorem setHeld_parked (l : Bool) : (s.setHeld l).parked = s.parked := rfl
@[simp] theorem setHeld_queue (l : Bool) : (s.setHeld l).queue = s.queue := rfl
@[simp] theorem setHeld_turn (l : Bool) : (s.setHeld l).turn = s.turn := rfl
@[simp] theorem setHeld_draws (l : Bool) : (s.setHeld l).draws = s.draws := rfl
@[simp] theorem setHeld_freeIx (l : Bool) : (s.setHeld l).freeIx = s.freeIx := rfl
@[simp] theorem setHeld_pipe (l : Bool) (p : PipeId) : (s.setHeld l).pipe p = s.pipe p := by cases p <;> rfl
@[simp] theorem setHeld_polled (l : Bool) : (s.setHeld l).polled = s.polled := rfl
@[simp] theorem setHeld_threaded (l : Bool) : (s.setHeld l).threaded = s.threaded := rfl
@[simp] theorem setHeld_locked (l : Bool) : (s.setHeld l).locked = s.locked := rfl
@[simp] theorem setHeld_rxUsers (l : Bool) :
    (s.setHeld l).rxUsers = s.rxUsers := rfl
@[simp] theorem setHeld_txUsers (l : Bool) :
    (s.setHeld l).txUsers = s.txUsers := rfl
@[simp] theorem setHeld_users (l : Bool) (p : PipeId) :
    (s.setHeld l).users p = s.users p := by cases p <;> rfl
@[simp] theorem setHeld_mayAct (l : Bool) :
    (s.setHeld l).mayAct = s.mayAct := rfl
@[simp] theorem setHeld_maySend (l : Bool) :
    (s.setHeld l).maySend = s.maySend := rfl
@[simp] theorem setHeld_mayPut (l : Bool) (p : PipeId) (u : Bool) :
    (s.setHeld l).mayPut p u = s.mayPut p u := by cases p <;> rfl
@[simp] theorem setHeld_mayGet (l : Bool) (p : PipeId) :
    (s.setHeld l).mayGet p = s.mayGet p := by cases p <;> rfl
@[simp] theorem setHeld_mayStep (l : Bool) :
    (s.setHeld l).mayStep = s.mayStep := rfl
@[simp] theorem setHeld_storeFree (l : Bool) : (s.setHeld l).storeFree = s.storeFree := rfl
@[simp] theorem setHeld_flashByte (l : Bool) (x : Nat) : (s.setHeld l).flashByte x = s.flashByte x := rfl

/-! ### setTxlock -/

@[simp] theorem setTxlock_build (n : Nat) : (s.setTxlock n).build = s.build := rfl
@[simp] theorem setTxlock_rxf (n : Nat) : (s.setTxlock n).rxf = s.rxf := rfl
@[simp] theorem setTxlock_txf (n : Nat) : (s.setTxlock n).txf = s.txf := rfl
@[simp] theorem setTxlock_txlock (n : Nat) : (s.setTxlock n).txlock = n := rfl
@[simp] theorem setTxlock_fr (n : Nat) : (s.setTxlock n).fr = s.fr := rfl
@[simp] theorem setTxlock_alloc (n : Nat) : (s.setTxlock n).alloc = s.alloc := rfl
@[simp] theorem setTxlock_flash (n : Nat) : (s.setTxlock n).flash = s.flash := rfl
@[simp] theorem setTxlock_cmd (n : Nat) : (s.setTxlock n).cmd = s.cmd := rfl
@[simp] theorem setTxlock_seq (n : Nat) : (s.setTxlock n).seq = s.seq := rfl
@[simp] theorem setTxlock_ws (n : Nat) : (s.setTxlock n).ws = s.ws := rfl
@[simp] theorem setTxlock_nvNumber (n : Nat) : (s.setTxlock n).nvNumber = s.nvNumber := rfl
@[simp] theorem setTxlock_nvMode (n : Nat) : (s.setTxlock n).nvMode = s.nvMode := rfl
@[simp] theorem setTxlock_protoMode (n : Nat) : (s.setTxlock n).protoMode = s.protoMode := rfl
@[simp] theorem setTxlock_rtc (n : Nat) : (s.setTxlock n).rtc = s.rtc := rfl
@[simp] theorem setTxlock_who (n : Nat) : (s.setTxlock n).who = s.who := rfl
@[simp] theorem setTxlock_me (n : Nat) : (s.setTxlock n).me = s.me := rfl
@[simp] theorem setTxlock_parked (n : Nat) : (s.setTxlock n).parked = s.parked := rfl
@[simp] theorem setTxlock_queue (n : Nat) : (s.setTxlock n).queue = s.queue := rfl
@[simp] theorem setTxlock_turn (n : Nat) : (s.setTxlock n).turn = s.turn := rfl
@[simp] theorem setTxlock_draws (n : Nat) : (s.setTxlock n).draws = s.draws := rfl
@[simp] theorem setTxlock_freeIx (n : Nat) : (s.setTxlock n).freeIx = s.freeIx := rfl
@[simp] theorem setTxlock_pipe (n : Nat) (p : PipeId) : (s.setTxlock n).pipe p = s.pipe p := by cases p <;> rfl
@[simp] theorem setTxlock_polled (n : Nat) : (s.setTxlock n).polled = s.polled := rfl
@[simp] theorem setTxlock_threaded (n : Nat) : (s.setTxlock n).threaded = s.threaded := rfl
@[simp] theorem setTxlock_locked (n : Nat) : (s.setTxlock n).locked = s.locked := rfl
@[simp] theorem setTxlock_rxUsers (n : Nat) :
    (s.setTxlock n).rxUsers = s.rxUsers := rfl
@[simp] theorem setTxlock_txUsers (n : Nat) :
    (s.setTxlock n).txUsers = s.txUsers := rfl
@[simp] theorem setTxlock_users (n : Nat) (p : PipeId) :
    (s.setTxlock n).users p = s.users p := by cases p <;> rfl
@[simp] theorem setTxlock_mayAct (n : Nat) :
    (s.setTxlock n).mayAct = s.mayAct := rfl
@[simp] theorem setTxlock_maySend (n : Nat) :
    (s.setTxlock n).maySend = s.maySend := rfl
@[simp] theorem setTxlock_mayPut (n : Nat) (p : PipeId) (u : Bool) :
    (s.setTxlock n).mayPut p u = s.mayPut p u := by cases p <;> rfl
@[simp] theorem setTxlock_mayGet (n : Nat) (p : PipeId) :
    (s.setTxlock n).mayGet p = s.mayGet p := by cases p <;> rfl
@[simp] theorem setTxlock_mayStep (n : Nat) :
    (s.setTxlock n).mayStep = s.mayStep := rfl
@[simp] theorem setTxlock_storeFree (n : Nat) : (s.setTxlock n).storeFree = s.storeFree := rfl
@[simp] theorem setTxlock_flashByte (n : Nat) (x : Nat) : (s.setTxlock n).flashByte x = s.flashByte x := rfl

/-! ### setFr -/

@[simp] theorem setFr_build (c : Codec) : (s.setFr c).build = s.build := rfl
@[simp] theorem setFr_rxf (c : Codec) : (s.setFr c).rxf = s.rxf := rfl
@[simp] theorem setFr_txf (c : Codec) : (s.setFr c).txf = s.txf := rfl
@[simp] theorem setFr_txlock (c : Codec) : (s.setFr c).txlock = s.txlock := rfl
@[simp] theorem setFr_fr (c : Codec) : (s.setFr c).fr = c := rfl
@[simp] theorem setFr_alloc (c : Codec) : (s.setFr c).alloc = s.alloc := rfl
@[simp] theorem setFr_flash (c : Codec) : (s.setFr c).flash = s.flash := rfl
@[simp] theorem setFr_cmd (c : Codec) : (s.setFr c).cmd = s.cmd := rfl
@[simp] theorem setFr_seq (c : Codec) : (s.setFr c).seq = s.seq := rfl
@[simp] theorem setFr_ws (c : Codec) : (s.setFr c).ws = s.ws := rfl
@[simp] theorem setFr_nvNumber (c : Codec) : (s.setFr c).nvNumber = s.nvNumber := rfl
@[simp] theorem setFr_nvMode (c : Codec) : (s.setFr c).nvMode = s.nvMode := rfl
@[simp] theorem setFr_protoMode (c : Codec) : (s.setFr c).protoMode = s.protoMode := rfl
@[simp] theorem setFr_rtc (c : Codec) : (s.setFr c).rtc = s.rtc := rfl
@[simp] theorem setFr_who (c : Codec) : (s.setFr c).who = s.who := rfl
@[simp] theorem setFr_me (c : Codec) : (s.setFr c).me = s.me := rfl
@[simp] theorem setFr_parked (c : Codec) : (s.setFr c).parked = s.parked := rfl
@[simp] theorem setFr_queue (c : Codec) : (s.setFr c).queue = s.queue := rfl
@[simp] theorem setFr_turn (c : Codec) : (s.setFr c).turn = s.turn := rfl
@[simp] theorem setFr_draws (c : Codec) : (s.setFr c).draws = s.draws := rfl
@[simp] theorem setFr_freeIx (c : Codec) : (s.setFr c).freeIx = s.freeIx := rfl
@[simp] theorem setFr_pipe (c : Codec) (p : PipeId) : (s.setFr c).pipe p = s.pipe p := by cases p <;> rfl
@[simp] theorem setFr_polled (c : Codec) : (s.setFr c).polled = s.polled := rfl
@[simp] theorem setFr_threaded (c : Codec) : (s.setFr c).threaded = s.threaded := rfl
@[simp] theorem setFr_locked (c : Codec) : (s.setFr c).locked = s.locked := rfl
@[simp] theorem setFr_rxUsers (c : Codec) :
    (s.setFr c).rxUsers = s.rxUsers := rfl
@[simp] theorem setFr_txUsers (c : Codec) :
    (s.setFr c).txUsers = s.txUsers := rfl
@[simp] theorem setFr_users (c : Codec) (p : PipeId) :
    (s.setFr c).users p = s.users p := by cases p <;> rfl
@[simp] theorem setFr_mayAct (c : Codec) :
    (s.setFr c).mayAct = s.mayAct := rfl
@[simp] theorem setFr_maySend (c : Codec) :
    (s.setFr c).maySend = s.maySend := rfl
@[simp] theorem setFr_mayPut (c : Codec) (p : PipeId) (u : Bool) :
    (s.setFr c).mayPut p u = s.mayPut p u := by cases p <;> rfl
@[simp] theorem setFr_mayGet (c : Codec) (p : PipeId) :
    (s.setFr c).mayGet p = s.mayGet p := by cases p <;> rfl
@[simp] theorem setFr_mayStep (c : Codec) :
    (s.setFr c).mayStep = s.mayStep := rfl
@[simp] theorem setFr_storeFree (c : Codec) : (s.setFr c).storeFree = s.storeFree := rfl
@[simp] theorem setFr_flashByte (c : Codec) (x : Nat) : (s.setFr c).flashByte x = s.flashByte x := rfl

/-! ### setAlloc -/

@[simp] theorem setAlloc_build (m : List Bool) : (s.setAlloc m).build = s.build := rfl
@[simp] theorem setAlloc_rxf (m : List Bool) : (s.setAlloc m).rxf = s.rxf := rfl
@[simp] theorem setAlloc_txf (m : List Bool) : (s.setAlloc m).txf = s.txf := rfl
@[simp] theorem setAlloc_txlock (m : List Bool) : (s.setAlloc m).txlock = s.txlock := rfl
@[simp] theorem setAlloc_fr (m : List Bool) : (s.setAlloc m).fr = s.fr := rfl
@[simp] theorem setAlloc_alloc (m : List Bool) : (s.setAlloc m).alloc = m := rfl
@[simp] theorem setAlloc_flash (m : List Bool) : (s.setAlloc m).flash = s.flash := rfl
@[simp] theorem setAlloc_cmd (m : List Bool) : (s.setAlloc m).cmd = s.cmd := rfl
@[simp] theorem setAlloc_seq (m : List Bool) : (s.setAlloc m).seq = s.seq := rfl
@[simp] theorem setAlloc_ws (m : List Bool) : (s.setAlloc m).ws = s.ws := rfl
@[simp] theorem setAlloc_nvNumber (m : List Bool) : (s.setAlloc m).nvNumber = s.nvNumber := rfl
@[simp] theorem setAlloc_nvMode (m : List Bool) : (s.setAlloc m).nvMode = s.nvMode := rfl
@[simp] theorem setAlloc_protoMode (m : List Bool) : (s.setAlloc m).protoMode = s.protoMode := rfl
@[simp] theorem setAlloc_rtc (m : List Bool) : (s.setAlloc m).rtc = s.rtc := rfl
@[simp] theorem setAlloc_who (m : List Bool) : (s.setAlloc m).who = s.who := rfl
@[simp] theorem setAlloc_me (m : List Bool) : (s.setAlloc m).me = s.me := rfl
@[simp] theorem setAlloc_parked (m : List Bool) : (s.setAlloc m).parked = s.parked := rfl
@[simp] theorem setAlloc_queue (m : List Bool) : (s.setAlloc m).queue = s.queue := rfl
@[simp] theorem setAlloc_turn (m : List Bool) : (s.setAlloc m).turn = s.turn := rfl
@[simp] theorem setAlloc_draws (m : List Bool) : (s.setAlloc m).draws = s.draws := rfl
@[simp] theorem setAlloc_freeIx (m : List Bool) : (s.setAlloc m).freeIx = s.freeIx := rfl
@[simp] theorem setAlloc_pipe (m : List Bool) (p : PipeId) : (s.setAlloc m).pipe p = s.pipe p := by cases p <;> rfl
@[simp] theorem setAlloc_polled (m : List Bool) : (s.setAlloc m).polled = s.polled := rfl
@[simp] theorem setAlloc_threaded (m : List Bool) : (s.setAlloc m).threaded = s.threaded := rfl
@[simp] theorem setAlloc_locked (m : List Bool) : (s.setAlloc m).locked = s.locked := rfl
@[simp] theorem setAlloc_rxUsers (m : List Bool) :
    (s.setAlloc m).rxUsers = s.rxUsers := rfl
@[simp] theorem setAlloc_txUsers (m : List Bool) :
    (s.setAlloc m).txUsers = s.txUsers := rfl
@[simp] theorem setAlloc_users (m : List Bool) (p : PipeId) :
    (s.setAlloc m).users p = s.users p := by cases p <;> rfl
@[simp] theorem setAlloc_mayAct (m : List Bool) :
    (s.setAlloc m).mayAct = s.mayAct := rfl
@[simp] theorem setAlloc_maySend (m : List Bool) :
    (s.setAlloc m).maySend = s.maySend := rfl
@[simp] theorem setAlloc_mayPut (m : List Bool) (p : PipeId) (u : Bool) :
    (s.setAlloc m).mayPut p u = s.mayPut p u := by cases p <;> rfl
@[simp] theorem setAlloc_mayGet (m : List Bool) (p : PipeId) :
    (s.setAlloc m).mayGet p = s.mayGet p := by cases p <;> rfl
@[simp] theorem setAlloc_mayStep (m : List Bool) :
    (s.setAlloc m).mayStep = s.mayStep := rfl
@[simp] theorem setAlloc_storeFree (m : List Bool) : (s.setAlloc m).storeFree = s.storeFree := rfl
@[simp] theorem setAlloc_flashByte (m : List Bool) (x : Nat) : (s.setAlloc m).flashByte x = s.flashByte x := rfl

/-! ### setFlash -/

@[simp] theorem setFlash_build (m : List Host.Cell) : (s.setFlash m).build = s.build := rfl
@[simp] theorem setFlash_rxf (m : List Host.Cell) : (s.setFlash m).rxf = s.rxf := rfl
@[simp] theorem setFlash_txf (m : List Host.Cell) : (s.setFlash m).txf = s.txf := rfl
@[simp] theorem setFlash_txlock (m : List Host.Cell) : (s.setFlash m).txlock = s.txlock := rfl
@[simp] theorem setFlash_fr (m : List Host.Cell) : (s.setFlash m).fr = s.fr := rfl
@[simp] theorem setFlash_alloc (m : List Host.Cell) : (s.setFlash m).alloc = s.alloc := rfl
@[simp] theorem setFlash_flash (m : List Host.Cell) : (s.setFlash m).flash = m := rfl
@[simp] theorem setFlash_cmd (m : List Host.Cell) : (s.setFlash m).cmd = s.cmd := rfl
@[simp] theorem setFlash_seq (m : List Host.Cell) : (s.setFlash m).seq = s.seq := rfl
@[simp] theorem setFlash_ws (m : List Host.Cell) : (s.setFlash m).ws = s.ws := rfl
@[simp] theorem setFlash_nvNumber (m : List Host.Cell) : (s.setFlash m).nvNumber = s.nvNumber := rfl
@[simp] theorem setFlash_nvMode (m : List Host.Cell) : (s.setFlash m).nvMode = s.nvMode := rfl
@[simp] theorem setFlash_protoMode (m : List Host.Cell) : (s.setFlash m).protoMode = s.protoMode := rfl
@[simp] theorem setFlash_rtc (m : List Host.Cell) : (s.setFlash m).rtc = s.rtc := rfl
@[simp] theorem setFlash_who (m : List Host.Cell) : (s.setFlash m).who = s.who := rfl
@[simp] theorem setFlash_me (m : List Host.Cell) : (s.setFlash m).me = s.me := rfl
@[simp] theorem setFlash_parked (m : List Host.Cell) : (s.setFlash m).parked = s.parked := rfl
@[simp] theorem setFlash_queue (m : List Host.Cell) : (s.setFlash m).queue = s.queue := rfl
@[simp] theorem setFlash_turn (m : List Host.Cell) : (s.setFlash m).turn = s.turn := rfl
@[simp] theorem setFlash_draws (m : List Host.Cell) : (s.setFlash m).draws = s.draws := rfl
@[simp] theorem setFlash_freeIx (m : List Host.Cell) : (s.setFlash m).freeIx = s.freeIx := rfl
@[simp] theorem setFlash_pipe (m : List Host.Cell) (p : PipeId) : (s.setFlash m).pipe p = s.pipe p := by cases p <;> rfl
@[simp] theorem setFlash_polled (m : List Host.Cell) : (s.setFlash m).polled = s.polled := rfl
@[simp] theorem setFlash_threaded (m : List Host.Cell) : (s.setFlash m).threaded = s.threaded := rfl
@[simp] theorem setFlash_locked (m : List Host.Cell) : (s.setFlash m).locked = s.locked := rfl
@[simp] theorem setFlash_rxUsers (m : List Host.Cell) :
    (s.setFlash m).rxUsers = s.rxUsers := rfl
@[simp] theorem setFlash_txUsers (m : List Host.Cell) :
    (s.setFlash m).txUsers = s.txUsers := rfl
@[simp] theorem setFlash_users (m : List Host.Cell) (p : PipeId) :
    (s.setFlash m).users p = s.users p := by cases p <;> rfl
@[simp] theorem setFlash_mayAct (m : List Host.Cell) :
    (s.setFlash m).mayAct = s.mayAct := rfl
@[simp] theorem setFlash_maySend (m : List Host.Cell) :
    (s.setFlash m).maySend = s.maySend := rfl
@[simp] theorem setFlash_mayPut (m : List Host.Cell) (p : PipeId) (u : Bool) :
    (s.setFlash m).mayPut p u = s.mayPut p u := by cases p <;> rfl
@[simp] theorem setFlash_mayGet (m : List Host.Cell) (p : PipeId) :
    (s.setFlash m).mayGet p = s.mayGet p := by cases p <;> rfl
@[simp] theorem setFlash_mayStep (m : List Host.Cell) :
    (s.setFlash m).mayStep = s.mayStep := rfl
@[simp] theorem setFlash_storeFree (m : List Host.Cell) : (s.setFlash m).storeFree = s.storeFree := rfl

/-! ### setSeq -/

@[simp] theorem setSeq_build (d : Descriptor) (q : Sequencer) : (s.setSeq d q).build = s.build := rfl
@[simp] theorem setSeq_rxf (d : Descriptor) (q : Sequencer) : (s.setSeq d q).rxf = s.rxf := rfl
@[simp] theorem setSeq_txf (d : Descriptor) (q : Sequencer) : (s.setSeq d q).txf = s.txf := rfl
@[simp] theorem setSeq_txlock (d : Descriptor) (q : Sequencer) : (s.setSeq d q).txlock = s.txlock := rfl
@[simp] theorem setSeq_fr (d : Descriptor) (q : Sequencer) : (s.setSeq d q).fr = s.fr := rfl
@[simp] theorem setSeq_alloc (d : Descriptor) (q : Sequencer) : (s.setSeq d q).alloc = s.alloc := rfl
@[simp] theorem setSeq_flash (d : Descriptor) (q : Sequencer) : (s.setSeq d q).flash = s.flash := rfl
@[simp] theorem setSeq_cmd (d : Descriptor) (q : Sequencer) : (s.setSeq d q).cmd = d := rfl
@[simp] theorem setSeq_seq (d : Descriptor) (q : Sequencer) : (s.setSeq d q).seq = q := rfl
@[simp] theorem setSeq_ws (d : Descriptor) (q : Sequencer) : (s.setSeq d q).ws = s.ws := rfl
@[simp] theorem setSeq_nvNumber (d : Descriptor) (q : Sequencer) : (s.setSeq d q).nvNumber = s.nvNumber := rfl
@[simp] theorem setSeq_nvMode (d : Descriptor) (q : Sequencer) : (s.setSeq d q).nvMode = s.nvMode := rfl
@[simp] theorem setSeq_protoMode (d : Descriptor) (q : Sequencer) : (s.setSeq d q).protoMode = s.protoMode := rfl
@[simp] theorem setSeq_rtc (d : Descriptor) (q : Sequencer) : (s.setSeq d q).rtc = s.rtc := rfl
@[simp] theorem setSeq_who (d : Descriptor) (q : Sequencer) : (s.setSeq d q).who = s.who := rfl
@[simp] theorem setSeq_me (d : Descriptor) (q : Sequencer) : (s.setSeq d q).me = s.me := rfl
@[simp] theorem setSeq_parked (d : Descriptor) (q : Sequencer) : (s.setSeq d q).parked = s.parked := rfl
@[simp] theorem setSeq_queue (d : Descriptor) (q : Sequencer) : (s.setSeq d q).queue = s.queue := rfl
@[simp] theorem setSeq_turn (d : Descriptor) (q : Sequencer) : (s.setSeq d q).turn = s.turn := rfl
@[simp] theorem setSeq_draws (d : Descriptor) (q : Sequencer) : (s.setSeq d q).draws = s.draws := rfl
@[simp] theorem setSeq_freeIx (d : Descriptor) (q : Sequencer) : (s.setSeq d q).freeIx = s.freeIx := rfl
@[simp] theorem setSeq_pipe (d : Descriptor) (q : Sequencer) (p : PipeId) : (s.setSeq d q).pipe p = s.pipe p := by cases p <;> rfl
@[simp] theorem setSeq_polled (d : Descriptor) (q : Sequencer) : (s.setSeq d q).polled = s.polled := rfl
@[simp] theorem setSeq_threaded (d : Descriptor) (q : Sequencer) : (s.setSeq d q).threaded = s.threaded := rfl
@[simp] theorem setSeq_locked (d : Descriptor) (q : Sequencer) : (s.setSeq d q).locked = s.locked := rfl
@[simp] theorem setSeq_rxUsers (d : Descriptor) (q : Sequencer) :
    (s.setSeq d q).rxUsers = s.rxUsers := rfl
@[simp] theorem setSeq_txUsers (d : Descriptor) (q : Sequencer) :
    (s.setSeq d q).txUsers = s.txUsers := rfl
@[simp] theorem setSeq_users (d : Descriptor) (q : Sequencer) (p : PipeId) :
    (s.setSeq d q).users p = s.users p := by cases p <;> rfl
@[simp] theorem setSeq_mayAct (d : Descriptor) (q : Sequencer) :
    (s.setSeq d q).mayAct = s.mayAct := rfl
@[simp] theorem setSeq_maySend (d : Descriptor) (q : Sequencer) :
    (s.setSeq d q).maySend = s.maySend := rfl
@[simp] theorem setSeq_mayPut (d : Descriptor) (q : Sequencer) (p : PipeId) (u : Bool) :
    (s.setSeq d q).mayPut p u = s.mayPut p u := by cases p <;> rfl
@[simp] theorem setSeq_mayGet (d : Descriptor) (q : Sequencer) (p : PipeId) :
    (s.setSeq d q).mayGet p = s.mayGet p := by cases p <;> rfl
@[simp] theorem setSeq_mayStep (d : Descriptor) (q : Sequencer) :
    (s.setSeq d q).mayStep = s.mayStep := rfl
@[simp] theorem setSeq_flashByte (d : Descriptor) (q : Sequencer) (x : Nat) : (s.setSeq d q).flashByte x = s.flashByte x := rfl

/-! ### setWs -/

@[simp] theorem setWs_build (w : WritePath) : (s.setWs w).build = s.build := rfl
@[simp] theorem setWs_rxf (w : WritePath) : (s.setWs w).rxf = s.rxf := rfl
@[simp] theorem setWs_txf (w : WritePath) : (s.setWs w).txf = s.txf := rfl
@[simp] theorem setWs_txlock (w : WritePath) : (s.setWs w).txlock = s.txlock := rfl
@[simp] theorem setWs_fr (w : WritePath) : (s.setWs w).fr = s.fr := rfl
@[simp] theorem setWs_alloc (w : WritePath) : (s.setWs w).alloc = s.alloc := rfl
@[simp] theorem setWs_flash (w : WritePath) : (s.setWs w).flash = s.flash := rfl
@[simp] theorem setWs_cmd (w : WritePath) : (s.setWs w).cmd = s.cmd := rfl
@[simp] theorem setWs_seq (w : WritePath) : (s.setWs w).seq = s.seq := rfl
@[simp] theorem setWs_ws (w : WritePath) : (s.setWs w).ws = w := rfl
@[simp] theorem setWs_nvNumber (w : WritePath) : (s.setWs w).nvNumber = s.nvNumber := rfl
@[simp] theorem setWs_nvMode (w : WritePath) : (s.setWs w).nvMode = s.nvMode := rfl
@[simp] theorem setWs_protoMode (w : WritePath) : (s.setWs w).protoMode = s.protoMode := rfl
@[simp] theorem setWs_rtc (w : WritePath) : (s.setWs w).rtc = s.rtc := rfl
@[simp] theorem setWs_who (w : WritePath) : (s.setWs w).who = s.who := rfl
@[simp] theorem setWs_me (w : WritePath) : (s.setWs w).me = s.me := rfl
@[simp] theorem setWs_parked (w : WritePath) : (s.setWs w).parked = s.parked := rfl
@[simp] theorem setWs_queue (w : WritePath) : (s.setWs w).queue = s.queue := rfl
@[simp] theorem setWs_turn (w : WritePath) : (s.setWs w).turn = s.turn := rfl
@[simp] theorem setWs_draws (w : WritePath) : (s.setWs w).draws = s.draws := rfl
@[simp] theorem setWs_freeIx (w : WritePath) : (s.setWs w).freeIx = s.freeIx := rfl
@[simp] theorem setWs_pipe (w : WritePath) (p : PipeId) : (s.setWs w).pipe p = s.pipe p := by cases p <;> rfl
@[simp] theorem setWs_polled (w : WritePath) : (s.setWs w).polled = s.polled := rfl
@[simp] theorem setWs_threaded (w : WritePath) : (s.setWs w).threaded = s.threaded := rfl
@[simp] theorem setWs_locked (w : WritePath) : (s.setWs w).locked = s.locked := rfl
@[simp] theorem setWs_rxUsers (w : WritePath) :
    (s.setWs w).rxUsers = s.rxUsers := rfl
@[simp] theorem setWs_txUsers (w : WritePath) :
    (s.setWs w).txUsers = s.txUsers := rfl
@[simp] theorem setWs_users (w : WritePath) (p : PipeId) :
    (s.setWs w).users p = s.users p := by cases p <;> rfl
@[simp] theorem setWs_mayAct (w : WritePath) :
    (s.setWs w).mayAct = s.mayAct := rfl
@[simp] theorem setWs_maySend (w : WritePath) :
    (s.setWs w).maySend = s.maySend := rfl
@[simp] theorem setWs_mayPut (w : WritePath) (p : PipeId) (u : Bool) :
    (s.setWs w).mayPut p u = s.mayPut p u := by cases p <;> rfl
@[simp] theorem setWs_mayGet (w : WritePath) (p : PipeId) :
    (s.setWs w).mayGet p = s.mayGet p := by cases p <;> rfl
@[simp] theorem setWs_mayStep (w : WritePath) :
    (s.setWs w).mayStep = s.mayStep := rfl
@[simp] theorem setWs_flashByte (w : WritePath) (x : Nat) : (s.setWs w).flashByte x = s.flashByte x := rfl

/-! ### setDraws -/

@[simp] theorem setDraws_build (l : List SeqOutcome) : (s.setDraws l).build = s.build := rfl
@[simp] theorem setDraws_rxf (l : List SeqOutcome) : (s.setDraws l).rxf = s.rxf := rfl
@[simp] theorem setDraws_txf (l : List SeqOutcome) : (s.setDraws l).txf = s.txf := rfl
@[simp] theorem setDraws_txlock (l : List SeqOutcome) : (s.setDraws l).txlock = s.txlock := rfl
@[simp] theorem setDraws_fr (l : List SeqOutcome) : (s.setDraws l).fr = s.fr := rfl
@[simp] theorem setDraws_alloc (l : List SeqOutcome) : (s.setDraws l).alloc = s.alloc := rfl
@[simp] theorem setDraws_flash (l : List SeqOutcome) : (s.setDraws l).flash = s.flash := rfl
@[simp] theorem setDraws_cmd (l : List SeqOutcome) : (s.setDraws l).cmd = s.cmd := rfl
@[simp] theorem setDraws_seq (l : List SeqOutcome) : (s.setDraws l).seq = s.seq := rfl
@[simp] theorem setDraws_ws (l : List SeqOutcome) : (s.setDraws l).ws = s.ws := rfl
@[simp] theorem setDraws_nvNumber (l : List SeqOutcome) : (s.setDraws l).nvNumber = s.nvNumber := rfl
@[simp] theorem setDraws_nvMode (l : List SeqOutcome) : (s.setDraws l).nvMode = s.nvMode := rfl
@[simp] theorem setDraws_protoMode (l : List SeqOutcome) : (s.setDraws l).protoMode = s.protoMode := rfl
@[simp] theorem setDraws_rtc (l : List SeqOutcome) : (s.setDraws l).rtc = s.rtc := rfl
@[simp] theorem setDraws_who (l : List SeqOutcome) : (s.setDraws l).who = s.who := rfl
@[simp] theorem setDraws_me (l : List SeqOutcome) : (s.setDraws l).me = s.me := rfl
@[simp] theorem setDraws_parked (l : List SeqOutcome) : (s.setDraws l).parked = s.parked := rfl
@[simp] theorem setDraws_queue (l : List SeqOutcome) : (s.setDraws l).queue = s.queue := rfl
@[simp] theorem setDraws_turn (l : List SeqOutcome) : (s.setDraws l).turn = s.turn := rfl
@[simp] theorem setDraws_draws (l : List SeqOutcome) : (s.setDraws l).draws = l := rfl
@[simp] theorem setDraws_freeIx (l : List SeqOutcome) : (s.setDraws l).freeIx = s.freeIx := rfl
@[simp] theorem setDraws_pipe (l : List SeqOutcome) (p : PipeId) : (s.setDraws l).pipe p = s.pipe p := by cases p <;> rfl
@[simp] theorem setDraws_polled (l : List SeqOutcome) : (s.setDraws l).polled = s.polled := rfl
@[simp] theorem setDraws_threaded (l : List SeqOutcome) : (s.setDraws l).threaded = s.threaded := rfl
@[simp] theorem setDraws_locked (l : List SeqOutcome) : (s.setDraws l).locked = s.locked := rfl
@[simp] theorem setDraws_rxUsers (l : List SeqOutcome) :
    (s.setDraws l).rxUsers = s.rxUsers := rfl
@[simp] theorem setDraws_txUsers (l : List SeqOutcome) :
    (s.setDraws l).txUsers = s.txUsers := rfl
@[simp] theorem setDraws_users (l : List SeqOutcome) (p : PipeId) :
    (s.setDraws l).users p = s.users p := by cases p <;> rfl
@[simp] theorem setDraws_mayAct (l : List SeqOutcome) :
    (s.setDraws l).mayAct = s.mayAct := rfl
@[simp] theorem setDraws_maySend (l : List SeqOutcome) :
    (s.setDraws l).maySend = s.maySend := rfl
@[simp] theorem setDraws_mayPut (l : List SeqOutcome) (p : PipeId) (u : Bool) :
    (s.setDraws l).mayPut p u = s.mayPut p u := by cases p <;> rfl
@[simp] theorem setDraws_mayGet (l : List SeqOutcome) (p : PipeId) :
    (s.setDraws l).mayGet p = s.mayGet p := by cases p <;> rfl
@[simp] theorem setDraws_mayStep (l : List SeqOutcome) :
    (s.setDraws l).mayStep = s.mayStep := rfl
@[simp] theorem setDraws_storeFree (l : List SeqOutcome) : (s.setDraws l).storeFree = s.storeFree := rfl
@[simp] theorem setDraws_flashByte (l : List SeqOutcome) (x : Nat) : (s.setDraws l).flashByte x = s.flashByte x := rfl

/-! ### useFree -/

@[simp] theorem useFree_build : s.useFree.build = s.build := rfl
@[simp] theorem useFree_rxf : s.useFree.rxf = s.rxf := rfl
@[simp] theorem useFree_txf : s.useFree.txf = s.txf := rfl
@[simp] theorem useFree_txlock : s.useFree.txlock = s.txlock := rfl
@[simp] theorem useFree_fr : s.useFree.fr = s.fr := rfl
@[simp] theorem useFree_alloc : s.useFree.alloc = s.alloc := rfl
@[simp] theorem useFree_flash : s.useFree.flash = s.flash := rfl
@[simp] theorem useFree_cmd : s.useFree.cmd = s.cmd := rfl
@[simp] theorem useFree_seq : s.useFree.seq = s.seq := rfl
@[simp] theorem useFree_ws : s.useFree.ws = s.ws := rfl
@[simp] theorem useFree_nvNumber : s.useFree.nvNumber = s.nvNumber := rfl
@[simp] theorem useFree_nvMode : s.useFree.nvMode = s.nvMode := rfl
@[simp] theorem useFree_protoMode : s.useFree.protoMode = s.protoMode := rfl
@[simp] theorem useFree_rtc : s.useFree.rtc = s.rtc := rfl
@[simp] theorem useFree_who : s.useFree.who = s.who := rfl
@[simp] theorem useFree_me : s.useFree.me = s.me := rfl
@[simp] theorem useFree_parked : s.useFree.parked = s.parked := rfl
@[simp] theorem useFree_queue : s.useFree.queue = s.queue := rfl
@[simp] theorem useFree_turn : s.useFree.turn = s.turn := rfl
@[simp] theorem useFree_draws : s.useFree.draws = s.draws := rfl
@[simp] theorem useFree_freeIx : s.useFree.freeIx = s.freeIx + 1 := rfl
@[simp] theorem useFree_pipe (p : PipeId) : s.useFree.pipe p = s.pipe p := by cases p <;> rfl
@[simp] theorem useFree_polled : s.useFree.polled = s.polled := rfl
@[simp] theorem useFree_threaded : s.useFree.threaded = s.threaded := rfl
@[simp] theorem useFree_locked : s.useFree.locked = s.locked := rfl
@[simp] theorem useFree_rxUsers :
    s.useFree.rxUsers = s.rxUsers := rfl
@[simp] theorem useFree_txUsers :
    s.useFree.txUsers = s.txUsers := rfl
@[simp] theorem useFree_users (p : PipeId) :
    s.useFree.users p = s.users p := by cases p <;> rfl
@[simp] theorem useFree_mayAct :
    s.useFree.mayAct = s.mayAct := rfl
@[simp] theorem useFree_maySend :
    s.useFree.maySend = s.maySend := rfl
@[simp] theorem useFree_mayPut (p : PipeId) (u : Bool) :
    s.useFree.mayPut p u = s.mayPut p u := by cases p <;> rfl
@[simp] theorem useFree_mayGet (p : PipeId) :
    s.useFree.mayGet p = s.mayGet p := by cases p <;> rfl
@[simp] theorem useFree_mayStep :
    s.useFree.mayStep = s.mayStep := rfl
@[simp] theorem useFree_storeFree : s.useFree.storeFree = s.storeFree := rfl
@[simp] theorem useFree_flashByte (x : Nat) : s.useFree.flashByte x = s.flashByte x := rfl

/-! ### setProto -/

@[simp] theorem setProto_build (m : BitVec 1) : (s.setProto m).build = s.build := rfl
@[simp] theorem setProto_rxf (m : BitVec 1) : (s.setProto m).rxf = s.rxf := rfl
@[simp] theorem setProto_txf (m : BitVec 1) : (s.setProto m).txf = s.txf := rfl
@[simp] theorem setProto_txlock (m : BitVec 1) : (s.setProto m).txlock = s.txlock := rfl
@[simp] theorem setProto_fr (m : BitVec 1) : (s.setProto m).fr = s.fr := rfl
@[simp] theorem setProto_alloc (m : BitVec 1) : (s.setProto m).alloc = s.alloc := rfl
@[simp] theorem setProto_flash (m : BitVec 1) : (s.setProto m).flash = s.flash := rfl
@[simp] theorem setProto_cmd (m : BitVec 1) : (s.setProto m).cmd = s.cmd := rfl
@[simp] theorem setProto_seq (m : BitVec 1) : (s.setProto m).seq = s.seq := rfl
@[simp] theorem setProto_ws (m : BitVec 1) : (s.setProto m).ws = s.ws := rfl
@[simp] theorem setProto_nvNumber (m : BitVec 1) : (s.setProto m).nvNumber = s.nvNumber := rfl
@[simp] theorem setProto_nvMode (m : BitVec 1) : (s.setProto m).nvMode = s.nvMode := rfl
@[simp] theorem setProto_protoMode (m : BitVec 1) : (s.setProto m).protoMode = m := rfl
@[simp] theorem setProto_rtc (m : BitVec 1) : (s.setProto m).rtc = s.rtc := rfl
@[simp] theorem setProto_who (m : BitVec 1) : (s.setProto m).who = s.who := rfl
@[simp] theorem setProto_me (m : BitVec 1) : (s.setProto m).me = s.me := rfl
@[simp] theorem setProto_parked (m : BitVec 1) : (s.setProto m).parked = s.parked := rfl
@[simp] theorem setProto_queue (m : BitVec 1) : (s.setProto m).queue = s.queue := rfl
@[simp] theorem setProto_turn (m : BitVec 1) : (s.setProto m).turn = s.turn := rfl
@[simp] theorem setProto_draws (m : BitVec 1) : (s.setProto m).draws = s.draws := rfl
@[simp] theorem setProto_freeIx (m : BitVec 1) : (s.setProto m).freeIx = s.freeIx := rfl
@[simp] theorem setProto_pipe (m : BitVec 1) (p : PipeId) : (s.setProto m).pipe p = s.pipe p := by cases p <;> rfl
@[simp] theorem setProto_polled (m : BitVec 1) : (s.setProto m).polled = s.polled := rfl
@[simp] theorem setProto_threaded (m : BitVec 1) : (s.setProto m).threaded = s.threaded := rfl
@[simp] theorem setProto_locked (m : BitVec 1) : (s.setProto m).locked = s.locked := rfl
@[simp] theorem setProto_rxUsers (m : BitVec 1) :
    (s.setProto m).rxUsers = s.rxUsers := rfl
@[simp] theorem setProto_txUsers (m : BitVec 1) :
    (s.setProto m).txUsers = s.txUsers := rfl
@[simp] theorem setProto_users (m : BitVec 1) (p : PipeId) :
    (s.setProto m).users p = s.users p := by cases p <;> rfl
@[simp] theorem setProto_mayAct (m : BitVec 1) :
    (s.setProto m).mayAct = s.mayAct := rfl
@[simp] theorem setProto_maySend (m : BitVec 1) :
    (s.setProto m).maySend = s.maySend := rfl
@[simp] theorem setProto_mayPut (m : BitVec 1) (p : PipeId) (u : Bool) :
    (s.setProto m).mayPut p u = s.mayPut p u := by cases p <;> rfl
@[simp] theorem setProto_mayGet (m : BitVec 1) (p : PipeId) :
    (s.setProto m).mayGet p = s.mayGet p := by cases p <;> rfl
@[simp] theorem setProto_mayStep (m : BitVec 1) :
    (s.setProto m).mayStep = s.mayStep := rfl
@[simp] theorem setProto_storeFree (m : BitVec 1) : (s.setProto m).storeFree = s.storeFree := rfl
@[simp] theorem setProto_flashByte (m : BitVec 1) (x : Nat) : (s.setProto m).flashByte x = s.flashByte x := rfl

/-! ### setRtc -/

@[simp] theorem setRtc_build (r : Rtc) : (s.setRtc r).build = s.build := rfl
@[simp] theorem setRtc_rxf (r : Rtc) : (s.setRtc r).rxf = s.rxf := rfl
@[simp] theorem setRtc_txf (r : Rtc) : (s.setRtc r).txf = s.txf := rfl
@[simp] theorem setRtc_txlock (r : Rtc) : (s.setRtc r).txlock = s.txlock := rfl
@[simp] theorem setRtc_fr (r : Rtc) : (s.setRtc r).fr = s.fr := rfl
@[simp] theorem setRtc_alloc (r : Rtc) : (s.setRtc r).alloc = s.alloc := rfl
@[simp] theorem setRtc_flash (r : Rtc) : (s.setRtc r).flash = s.flash := rfl
@[simp] theorem setRtc_cmd (r : Rtc) : (s.setRtc r).cmd = s.cmd := rfl
@[simp] theorem setRtc_seq (r : Rtc) : (s.setRtc r).seq = s.seq := rfl
@[simp] theorem setRtc_ws (r : Rtc) : (s.setRtc r).ws = s.ws := rfl
@[simp] theorem setRtc_nvNumber (r : Rtc) : (s.setRtc r).nvNumber = s.nvNumber := rfl
@[simp] theorem setRtc_nvMode (r : Rtc) : (s.setRtc r).nvMode = s.nvMode := rfl
@[simp] theorem setRtc_protoMode (r : Rtc) : (s.setRtc r).protoMode = s.protoMode := rfl
@[simp] theorem setRtc_rtc (r : Rtc) : (s.setRtc r).rtc = r := rfl
@[simp] theorem setRtc_who (r : Rtc) : (s.setRtc r).who = s.who := rfl
@[simp] theorem setRtc_me (r : Rtc) : (s.setRtc r).me = s.me := rfl
@[simp] theorem setRtc_parked (r : Rtc) : (s.setRtc r).parked = s.parked := rfl
@[simp] theorem setRtc_queue (r : Rtc) : (s.setRtc r).queue = s.queue := rfl
@[simp] theorem setRtc_turn (r : Rtc) : (s.setRtc r).turn = s.turn := rfl
@[simp] theorem setRtc_draws (r : Rtc) : (s.setRtc r).draws = s.draws := rfl
@[simp] theorem setRtc_freeIx (r : Rtc) : (s.setRtc r).freeIx = s.freeIx := rfl
@[simp] theorem setRtc_pipe (r : Rtc) (p : PipeId) : (s.setRtc r).pipe p = s.pipe p := by cases p <;> rfl
@[simp] theorem setRtc_polled (r : Rtc) : (s.setRtc r).polled = s.polled := rfl
@[simp] theorem setRtc_threaded (r : Rtc) : (s.setRtc r).threaded = s.threaded := rfl
@[simp] theorem setRtc_locked (r : Rtc) : (s.setRtc r).locked = s.locked := rfl
@[simp] theorem setRtc_rxUsers (r : Rtc) :
    (s.setRtc r).rxUsers = s.rxUsers := rfl
@[simp] theorem setRtc_txUsers (r : Rtc) :
    (s.setRtc r).txUsers = s.txUsers := rfl
@[simp] theorem setRtc_users (r : Rtc) (p : PipeId) :
    (s.setRtc r).users p = s.users p := by cases p <;> rfl
@[simp] theorem setRtc_mayAct (r : Rtc) :
    (s.setRtc r).mayAct = s.mayAct := rfl
@[simp] theorem setRtc_maySend (r : Rtc) :
    (s.setRtc r).maySend = s.maySend := rfl
@[simp] theorem setRtc_mayPut (r : Rtc) (p : PipeId) (u : Bool) :
    (s.setRtc r).mayPut p u = s.mayPut p u := by cases p <;> rfl
@[simp] theorem setRtc_mayGet (r : Rtc) (p : PipeId) :
    (s.setRtc r).mayGet p = s.mayGet p := by cases p <;> rfl
@[simp] theorem setRtc_mayStep (r : Rtc) :
    (s.setRtc r).mayStep = s.mayStep := rfl
@[simp] theorem setRtc_storeFree (r : Rtc) : (s.setRtc r).storeFree = s.storeFree := rfl
@[simp] theorem setRtc_flashByte (r : Rtc) (x : Nat) : (s.setRtc r).flashByte x = s.flashByte x := rfl

/-! ### setNumber -/

@[simp] theorem setNumber_build (a : Addr) : (s.setNumber a).build = s.build := rfl
@[simp] theorem setNumber_rxf (a : Addr) : (s.setNumber a).rxf = s.rxf := rfl
@[simp] theorem setNumber_txf (a : Addr) : (s.setNumber a).txf = s.txf := rfl
@[simp] theorem setNumber_txlock (a : Addr) : (s.setNumber a).txlock = s.txlock := rfl
@[simp] theorem setNumber_fr (a : Addr) : (s.setNumber a).fr = s.fr := rfl
@[simp] theorem setNumber_alloc (a : Addr) : (s.setNumber a).alloc = s.alloc := rfl
@[simp] theorem setNumber_flash (a : Addr) : (s.setNumber a).flash = s.flash := rfl
@[simp] theorem setNumber_cmd (a : Addr) : (s.setNumber a).cmd = s.cmd := rfl
@[simp] theorem setNumber_seq (a : Addr) : (s.setNumber a).seq = s.seq := rfl
@[simp] theorem setNumber_ws (a : Addr) : (s.setNumber a).ws = s.ws := rfl
@[simp] theorem setNumber_nvNumber (a : Addr) : (s.setNumber a).nvNumber = some a := rfl
@[simp] theorem setNumber_nvMode (a : Addr) : (s.setNumber a).nvMode = s.nvMode := rfl
@[simp] theorem setNumber_protoMode (a : Addr) : (s.setNumber a).protoMode = s.protoMode := rfl
@[simp] theorem setNumber_rtc (a : Addr) : (s.setNumber a).rtc = s.rtc := rfl
@[simp] theorem setNumber_who (a : Addr) : (s.setNumber a).who = s.who := rfl
@[simp] theorem setNumber_me (a : Addr) : (s.setNumber a).me = s.me := rfl
@[simp] theorem setNumber_parked (a : Addr) : (s.setNumber a).parked = s.parked := rfl
@[simp] theorem setNumber_queue (a : Addr) : (s.setNumber a).queue = s.queue := rfl
@[simp] theorem setNumber_turn (a : Addr) : (s.setNumber a).turn = s.turn := rfl
@[simp] theorem setNumber_draws (a : Addr) : (s.setNumber a).draws = s.draws := rfl
@[simp] theorem setNumber_freeIx (a : Addr) : (s.setNumber a).freeIx = s.freeIx := rfl
@[simp] theorem setNumber_pipe (a : Addr) (p : PipeId) : (s.setNumber a).pipe p = s.pipe p := by cases p <;> rfl
@[simp] theorem setNumber_polled (a : Addr) : (s.setNumber a).polled = s.polled := rfl
@[simp] theorem setNumber_threaded (a : Addr) : (s.setNumber a).threaded = s.threaded := rfl
@[simp] theorem setNumber_locked (a : Addr) : (s.setNumber a).locked = s.locked := rfl
@[simp] theorem setNumber_rxUsers (a : Addr) :
    (s.setNumber a).rxUsers = s.rxUsers := rfl
@[simp] theorem setNumber_txUsers (a : Addr) :
    (s.setNumber a).txUsers = s.txUsers := rfl
@[simp] theorem setNumber_users (a : Addr) (p : PipeId) :
    (s.setNumber a).users p = s.users p := by cases p <;> rfl
@[simp] theorem setNumber_mayAct (a : Addr) :
    (s.setNumber a).mayAct = s.mayAct := rfl
@[simp] theorem setNumber_maySend (a : Addr) :
    (s.setNumber a).maySend = s.maySend := rfl
@[simp] theorem setNumber_mayPut (a : Addr) (p : PipeId) (u : Bool) :
    (s.setNumber a).mayPut p u = s.mayPut p u := by cases p <;> rfl
@[simp] theorem setNumber_mayGet (a : Addr) (p : PipeId) :
    (s.setNumber a).mayGet p = s.mayGet p := by cases p <;> rfl
@[simp] theorem setNumber_mayStep (a : Addr) :
    (s.setNumber a).mayStep = s.mayStep := rfl
@[simp] theorem setNumber_storeFree (a : Addr) : (s.setNumber a).storeFree = s.storeFree := rfl
@[simp] theorem setNumber_flashByte (a : Addr) (x : Nat) : (s.setNumber a).flashByte x = s.flashByte x := rfl

/-! ### setMode -/

@[simp] theorem setMode_build (a : Addr) : (s.setMode a).build = s.build := rfl
@[simp] theorem setMode_rxf (a : Addr) : (s.setMode a).rxf = s.rxf := rfl
@[simp] theorem setMode_txf (a : Addr) : (s.setMode a).txf = s.txf := rfl
@[simp] theorem setMode_txlock (a : Addr) : (s.setMode a).txlock = s.txlock := rfl
@[simp] theorem setMode_fr (a : Addr) : (s.setMode a).fr = s.fr := rfl
@[simp] theorem setMode_alloc (a : Addr) : (s.setMode a).alloc = s.alloc := rfl
@[simp] theorem setMode_flash (a : Addr) : (s.setMode a).flash = s.flash := rfl
@[simp] theorem setMode_cmd (a : Addr) : (s.setMode a).cmd = s.cmd := rfl
@[simp] theorem setMode_seq (a : Addr) : (s.setMode a).seq = s.seq := rfl
@[simp] theorem setMode_ws (a : Addr) : (s.setMode a).ws = s.ws := rfl
@[simp] theorem setMode_nvNumber (a : Addr) : (s.setMode a).nvNumber = s.nvNumber := rfl
@[simp] theorem setMode_nvMode (a : Addr) : (s.setMode a).nvMode = some a := rfl
@[simp] theorem setMode_protoMode (a : Addr) : (s.setMode a).protoMode = s.protoMode := rfl
@[simp] theorem setMode_rtc (a : Addr) : (s.setMode a).rtc = s.rtc := rfl
@[simp] theorem setMode_who (a : Addr) : (s.setMode a).who = s.who := rfl
@[simp] theorem setMode_me (a : Addr) : (s.setMode a).me = s.me := rfl
@[simp] theorem setMode_parked (a : Addr) : (s.setMode a).parked = s.parked := rfl
@[simp] theorem setMode_queue (a : Addr) : (s.setMode a).queue = s.queue := rfl
@[simp] theorem setMode_turn (a : Addr) : (s.setMode a).turn = s.turn := rfl
@[simp] theorem setMode_draws (a : Addr) : (s.setMode a).draws = s.draws := rfl
@[simp] theorem setMode_freeIx (a : Addr) : (s.setMode a).freeIx = s.freeIx := rfl
@[simp] theorem setMode_pipe (a : Addr) (p : PipeId) : (s.setMode a).pipe p = s.pipe p := by cases p <;> rfl
@[simp] theorem setMode_polled (a : Addr) : (s.setMode a).polled = s.polled := rfl
@[simp] theorem setMode_threaded (a : Addr) : (s.setMode a).threaded = s.threaded := rfl
@[simp] theorem setMode_locked (a : Addr) : (s.setMode a).locked = s.locked := rfl
@[simp] theorem setMode_rxUsers (a : Addr) :
    (s.setMode a).rxUsers = s.rxUsers := rfl
@[simp] theorem setMode_txUsers (a : Addr) :
    (s.setMode a).txUsers = s.txUsers := rfl
@[simp] theorem setMode_users (a : Addr) (p : PipeId) :
    (s.setMode a).users p = s.users p := by cases p <;> rfl
@[simp] theorem setMode_mayAct (a : Addr) :
    (s.setMode a).mayAct = s.mayAct := rfl
@[simp] theorem setMode_maySend (a : Addr) :
    (s.setMode a).maySend = s.maySend := rfl
@[simp] theorem setMode_mayPut (a : Addr) (p : PipeId) (u : Bool) :
    (s.setMode a).mayPut p u = s.mayPut p u := by cases p <;> rfl
@[simp] theorem setMode_mayGet (a : Addr) (p : PipeId) :
    (s.setMode a).mayGet p = s.mayGet p := by cases p <;> rfl
@[simp] theorem setMode_mayStep (a : Addr) :
    (s.setMode a).mayStep = s.mayStep := rfl
@[simp] theorem setMode_storeFree (a : Addr) : (s.setMode a).storeFree = s.storeFree := rfl
@[simp] theorem setMode_flashByte (a : Addr) (x : Nat) : (s.setMode a).flashByte x = s.flashByte x := rfl

/-! ### take -/

@[simp] theorem take_build (q : List Event) (n : Nat) : (s.take q n).build = s.build := rfl
@[simp] theorem take_rxf (q : List Event) (n : Nat) : (s.take q n).rxf = s.rxf := rfl
@[simp] theorem take_txf (q : List Event) (n : Nat) : (s.take q n).txf = s.txf := rfl
@[simp] theorem take_txlock (q : List Event) (n : Nat) : (s.take q n).txlock = s.txlock := rfl
@[simp] theorem take_fr (q : List Event) (n : Nat) : (s.take q n).fr = s.fr := rfl
@[simp] theorem take_alloc (q : List Event) (n : Nat) : (s.take q n).alloc = s.alloc := rfl
@[simp] theorem take_flash (q : List Event) (n : Nat) : (s.take q n).flash = s.flash := rfl
@[simp] theorem take_cmd (q : List Event) (n : Nat) : (s.take q n).cmd = s.cmd := rfl
@[simp] theorem take_seq (q : List Event) (n : Nat) : (s.take q n).seq = s.seq := rfl
@[simp] theorem take_ws (q : List Event) (n : Nat) : (s.take q n).ws = s.ws := rfl
@[simp] theorem take_nvNumber (q : List Event) (n : Nat) : (s.take q n).nvNumber = s.nvNumber := rfl
@[simp] theorem take_nvMode (q : List Event) (n : Nat) : (s.take q n).nvMode = s.nvMode := rfl
@[simp] theorem take_protoMode (q : List Event) (n : Nat) : (s.take q n).protoMode = s.protoMode := rfl
@[simp] theorem take_rtc (q : List Event) (n : Nat) : (s.take q n).rtc = s.rtc := rfl
@[simp] theorem take_who (q : List Event) (n : Nat) : (s.take q n).who = s.who := rfl
@[simp] theorem take_me (q : List Event) (n : Nat) : (s.take q n).me = s.me := rfl
@[simp] theorem take_parked (q : List Event) (n : Nat) : (s.take q n).parked = s.parked := rfl
@[simp] theorem take_queue (q : List Event) (n : Nat) : (s.take q n).queue = q := rfl
@[simp] theorem take_turn (q : List Event) (n : Nat) : (s.take q n).turn = n := rfl
@[simp] theorem take_draws (q : List Event) (n : Nat) : (s.take q n).draws = s.draws := rfl
@[simp] theorem take_freeIx (q : List Event) (n : Nat) : (s.take q n).freeIx = s.freeIx := rfl
@[simp] theorem take_pipe (q : List Event) (n : Nat) (p : PipeId) : (s.take q n).pipe p = s.pipe p := by cases p <;> rfl
@[simp] theorem take_polled (q : List Event) (n : Nat) : (s.take q n).polled = s.polled := rfl
@[simp] theorem take_threaded (q : List Event) (n : Nat) : (s.take q n).threaded = s.threaded := rfl
@[simp] theorem take_locked (q : List Event) (n : Nat) : (s.take q n).locked = s.locked := rfl
@[simp] theorem take_rxUsers (q : List Event) (n : Nat) :
    (s.take q n).rxUsers = s.rxUsers := rfl
@[simp] theorem take_txUsers (q : List Event) (n : Nat) :
    (s.take q n).txUsers = s.txUsers := rfl
@[simp] theorem take_users (q : List Event) (n : Nat) (p : PipeId) :
    (s.take q n).users p = s.users p := by cases p <;> rfl
@[simp] theorem take_mayAct (q : List Event) (n : Nat) :
    (s.take q n).mayAct = s.mayAct := rfl
@[simp] theorem take_maySend (q : List Event) (n : Nat) :
    (s.take q n).maySend = s.maySend := rfl
@[simp] theorem take_mayPut (q : List Event) (n : Nat) (p : PipeId) (u : Bool) :
    (s.take q n).mayPut p u = s.mayPut p u := by cases p <;> rfl
@[simp] theorem take_mayGet (q : List Event) (n : Nat) (p : PipeId) :
    (s.take q n).mayGet p = s.mayGet p := by cases p <;> rfl
@[simp] theorem take_mayStep (q : List Event) (n : Nat) :
    (s.take q n).mayStep = s.mayStep := rfl
@[simp] theorem take_storeFree (q : List Event) (n : Nat) : (s.take q n).storeFree = s.storeFree := rfl
@[simp] theorem take_flashByte (q : List Event) (n : Nat) (x : Nat) : (s.take q n).flashByte x = s.flashByte x := rfl

/-! ### setPipe -/

@[simp] theorem setPipe_build (p : PipeId) (q : Pipe) : (s.setPipe p q).build = s.build := by cases p <;> rfl
@[simp] theorem setPipe_txlock (p : PipeId) (q : Pipe) : (s.setPipe p q).txlock = s.txlock := by cases p <;> rfl
@[simp] theorem setPipe_fr (p : PipeId) (q : Pipe) : (s.setPipe p q).fr = s.fr := by cases p <;> rfl
@[simp] theorem setPipe_alloc (p : PipeId) (q : Pipe) : (s.setPipe p q).alloc = s.alloc := by cases p <;> rfl
@[simp] theorem setPipe_flash (p : PipeId) (q : Pipe) : (s.setPipe p q).flash = s.flash := by cases p <;> rfl
@[simp] theorem setPipe_cmd (p : PipeId) (q : Pipe) : (s.setPipe p q).cmd = s.cmd := by cases p <;> rfl
@[simp] theorem setPipe_seq (p : PipeId) (q : Pipe) : (s.setPipe p q).seq = s.seq := by cases p <;> rfl
@[simp] theorem setPipe_ws (p : PipeId) (q : Pipe) : (s.setPipe p q).ws = s.ws := by cases p <;> rfl
@[simp] theorem setPipe_nvNumber (p : PipeId) (q : Pipe) : (s.setPipe p q).nvNumber = s.nvNumber := by cases p <;> rfl
@[simp] theorem setPipe_nvMode (p : PipeId) (q : Pipe) : (s.setPipe p q).nvMode = s.nvMode := by cases p <;> rfl
@[simp] theorem setPipe_protoMode (p : PipeId) (q : Pipe) : (s.setPipe p q).protoMode = s.protoMode := by cases p <;> rfl
@[simp] theorem setPipe_rtc (p : PipeId) (q : Pipe) : (s.setPipe p q).rtc = s.rtc := by cases p <;> rfl
@[simp] theorem setPipe_who (p : PipeId) (q : Pipe) : (s.setPipe p q).who = s.who := by cases p <;> rfl
@[simp] theorem setPipe_me (p : PipeId) (q : Pipe) : (s.setPipe p q).me = s.me := by cases p <;> rfl
@[simp] theorem setPipe_parked (p : PipeId) (q : Pipe) : (s.setPipe p q).parked = s.parked := by cases p <;> rfl
@[simp] theorem setPipe_queue (p : PipeId) (q : Pipe) : (s.setPipe p q).queue = s.queue := by cases p <;> rfl
@[simp] theorem setPipe_turn (p : PipeId) (q : Pipe) : (s.setPipe p q).turn = s.turn := by cases p <;> rfl
@[simp] theorem setPipe_draws (p : PipeId) (q : Pipe) : (s.setPipe p q).draws = s.draws := by cases p <;> rfl
@[simp] theorem setPipe_freeIx (p : PipeId) (q : Pipe) : (s.setPipe p q).freeIx = s.freeIx := by cases p <;> rfl
@[simp] theorem setPipe_polled (p : PipeId) (q : Pipe) : (s.setPipe p q).polled = s.polled := by cases p <;> rfl
@[simp] theorem setPipe_threaded (p : PipeId) (q : Pipe) : (s.setPipe p q).threaded = s.threaded := by cases p <;> rfl
@[simp] theorem setPipe_locked (p : PipeId) (q : Pipe) : (s.setPipe p q).locked = s.locked := by cases p <;> rfl
@[simp] theorem setPipe_rxUsers (p : PipeId) (q : Pipe) :
    (s.setPipe p q).rxUsers = s.rxUsers := by cases p <;> rfl
@[simp] theorem setPipe_txUsers (p : PipeId) (q : Pipe) :
    (s.setPipe p q).txUsers = s.txUsers := by cases p <;> rfl
@[simp] theorem setPipe_users (p : PipeId) (q : Pipe) (r : PipeId) :
    (s.setPipe p q).users r = s.users r := by cases p <;> cases r <;> rfl
@[simp] theorem setPipe_mayAct (p : PipeId) (q : Pipe) :
    (s.setPipe p q).mayAct = s.mayAct := by cases p <;> rfl
@[simp] theorem setPipe_maySend (p : PipeId) (q : Pipe) :
    (s.setPipe p q).maySend = s.maySend := by cases p <;> rfl
@[simp] theorem setPipe_mayPut (p : PipeId) (q : Pipe) (r : PipeId) (u : Bool) :
    (s.setPipe p q).mayPut r u = s.mayPut r u := by cases p <;> cases r <;> rfl
@[simp] theorem setPipe_mayGet (p : PipeId) (q : Pipe) (r : PipeId) :
    (s.setPipe p q).mayGet r = s.mayGet r := by cases p <;> cases r <;> rfl
@[simp] theorem setPipe_mayStep (p : PipeId) (q : Pipe) :
    (s.setPipe p q).mayStep = s.mayStep := by cases p <;> rfl
@[simp] theorem setPipe_storeFree (p : PipeId) (q : Pipe) : (s.setPipe p q).storeFree = s.storeFree := by cases p <;> rfl
@[simp] theorem setPipe_flashByte (p : PipeId) (q : Pipe) (x : Nat) :
    (s.setPipe p q).flashByte x = s.flashByte x := by cases p <;> rfl
@[simp] theorem setPipe_pipe_self (p : PipeId) (q : Pipe) : (s.setPipe p q).pipe p = q := by
  cases p <;> rfl
@[simp] theorem setPipe_pipe_other (p : PipeId) (q : Pipe) :
    (s.setPipe p q).pipe (otherPipe p) = s.pipe (otherPipe p) := by cases p <;> rfl
@[simp] theorem setPipe_rxf_rxf (q : Pipe) : (s.setPipe .rxf q).rxf = q := rfl
@[simp] theorem setPipe_rxf_txf (q : Pipe) : (s.setPipe .rxf q).txf = s.txf := rfl
@[simp] theorem setPipe_txf_txf (q : Pipe) : (s.setPipe .txf q).txf = q := rfl
@[simp] theorem setPipe_txf_rxf (q : Pipe) : (s.setPipe .txf q).rxf = s.rxf := rfl
@[simp] theorem pipe_rxf : s.pipe .rxf = s.rxf := rfl
@[simp] theorem pipe_txf : s.pipe .txf = s.txf := rfl

/-! ### setUsers -/

@[simp] theorem setUsers_build (p : PipeId) (u : Users) : (s.setUsers p u).build = s.build := by cases p <;> rfl
@[simp] theorem setUsers_rxf (p : PipeId) (u : Users) : (s.setUsers p u).rxf = s.rxf := by cases p <;> rfl
@[simp] theorem setUsers_txf (p : PipeId) (u : Users) : (s.setUsers p u).txf = s.txf := by cases p <;> rfl
@[simp] theorem setUsers_txlock (p : PipeId) (u : Users) : (s.setUsers p u).txlock = s.txlock := by cases p <;> rfl
@[simp] theorem setUsers_fr (p : PipeId) (u : Users) : (s.setUsers p u).fr = s.fr := by cases p <;> rfl
@[simp] theorem setUsers_alloc (p : PipeId) (u : Users) : (s.setUsers p u).alloc = s.alloc := by cases p <;> rfl
@[simp] theorem setUsers_flash (p : PipeId) (u : Users) : (s.setUsers p u).flash = s.flash := by cases p <;> rfl
@[simp] theorem setUsers_cmd (p : PipeId) (u : Users) : (s.setUsers p u).cmd = s.cmd := by cases p <;> rfl
@[simp] theorem setUsers_seq (p : PipeId) (u : Users) : (s.setUsers p u).seq = s.seq := by cases p <;> rfl
@[simp] theorem setUsers_ws (p : PipeId) (u : Users) : (s.setUsers p u).ws = s.ws := by cases p <;> rfl
@[simp] theorem setUsers_nvNumber (p : PipeId) (u : Users) : (s.setUsers p u).nvNumber = s.nvNumber := by cases p <;> rfl
@[simp] theorem setUsers_nvMode (p : PipeId) (u : Users) : (s.setUsers p u).nvMode = s.nvMode := by cases p <;> rfl
@[simp] theorem setUsers_protoMode (p : PipeId) (u : Users) : (s.setUsers p u).protoMode = s.protoMode := by cases p <;> rfl
@[simp] theorem setUsers_rtc (p : PipeId) (u : Users) : (s.setUsers p u).rtc = s.rtc := by cases p <;> rfl
@[simp] theorem setUsers_who (p : PipeId) (u : Users) : (s.setUsers p u).who = s.who := by cases p <;> rfl
@[simp] theorem setUsers_me (p : PipeId) (u : Users) : (s.setUsers p u).me = s.me := by cases p <;> rfl
@[simp] theorem setUsers_parked (p : PipeId) (u : Users) : (s.setUsers p u).parked = s.parked := by cases p <;> rfl
@[simp] theorem setUsers_queue (p : PipeId) (u : Users) : (s.setUsers p u).queue = s.queue := by cases p <;> rfl
@[simp] theorem setUsers_turn (p : PipeId) (u : Users) : (s.setUsers p u).turn = s.turn := by cases p <;> rfl
@[simp] theorem setUsers_draws (p : PipeId) (u : Users) : (s.setUsers p u).draws = s.draws := by cases p <;> rfl
@[simp] theorem setUsers_freeIx (p : PipeId) (u : Users) : (s.setUsers p u).freeIx = s.freeIx := by cases p <;> rfl
@[simp] theorem setUsers_pipe (p : PipeId) (u : Users) (r : PipeId) : (s.setUsers p u).pipe r = s.pipe r := by
  cases r <;> simp only [pipe, setUsers_rxf, setUsers_txf]
@[simp] theorem setUsers_polled (p : PipeId) (u : Users) : (s.setUsers p u).polled = s.polled := by
  simp only [State.polled, State.polled, State.threaded, setUsers_build]
@[simp] theorem setUsers_threaded (p : PipeId) (u : Users) : (s.setUsers p u).threaded = s.threaded := by
  simp only [State.threaded, State.polled, State.threaded, setUsers_build]
@[simp] theorem setUsers_locked (p : PipeId) (u : Users) : (s.setUsers p u).locked = s.locked := by
  simp only [State.locked, State.polled, State.threaded, setUsers_build]
@[simp] theorem setUsers_storeFree (p : PipeId) (u : Users) : (s.setUsers p u).storeFree = s.storeFree := by
  simp only [State.storeFree, setUsers_seq, setUsers_ws]
@[simp] theorem setUsers_flashByte (p : PipeId) (u : Users) (x : Nat) : (s.setUsers p u).flashByte x = s.flashByte x := by
  simp only [State.flashByte, setUsers_build, setUsers_flash]
@[simp] theorem setUsers_mayAct (p : PipeId) (u : Users) : (s.setUsers p u).mayAct = s.mayAct := by
  simp only [State.mayAct, setUsers_who, setUsers_threaded]
@[simp] theorem setUsers_maySend (p : PipeId) (u : Users) : (s.setUsers p u).maySend = s.maySend := by
  simp only [State.maySend, setUsers_who, setUsers_threaded]
@[simp] theorem setUsers_users_self (p : PipeId) (u : Users) : (s.setUsers p u).users p = u := by
  cases p <;> rfl
@[simp] theorem setUsers_users_other (p : PipeId) (u : Users) :
    (s.setUsers p u).users (otherPipe p) = s.users (otherPipe p) := by cases p <;> rfl
@[simp] theorem users_rxf : s.users .rxf = s.rxUsers := rfl
@[simp] theorem users_txf : s.users .txf = s.txUsers := rfl

/-! ### notePut -/

@[simp] theorem notePut_build (p : PipeId) (l : Bool) : (s.notePut p l).build = s.build := by
  unfold notePut; split <;> first | rfl | (cases p <;> rfl)
@[simp] theorem notePut_rxf (p : PipeId) (l : Bool) : (s.notePut p l).rxf = s.rxf := by
  unfold notePut; split <;> first | rfl | (cases p <;> rfl)
@[simp] theorem notePut_txf (p : PipeId) (l : Bool) : (s.notePut p l).txf = s.txf := by
  unfold notePut; split <;> first | rfl | (cases p <;> rfl)
@[simp] theorem notePut_txlock (p : PipeId) (l : Bool) : (s.notePut p l).txlock = s.txlock := by
  unfold notePut; split <;> first | rfl | (cases p <;> rfl)
@[simp] theorem notePut_fr (p : PipeId) (l : Bool) : (s.notePut p l).fr = s.fr := by
  unfold notePut; split <;> first | rfl | (cases p <;> rfl)
@[simp] theorem notePut_alloc (p : PipeId) (l : Bool) : (s.notePut p l).alloc = s.alloc := by
  unfold notePut; split <;> first | rfl | (cases p <;> rfl)
@[simp] theorem notePut_flash (p : PipeId) (l : Bool) : (s.notePut p l).flash = s.flash := by
  unfold notePut; split <;> first | rfl | (cases p <;> rfl)
@[simp] theorem notePut_cmd (p : PipeId) (l : Bool) : (s.notePut p l).cmd = s.cmd := by
  unfold notePut; split <;> first | rfl | (cases p <;> rfl)
@[simp] theorem notePut_seq (p : PipeId) (l : Bool) : (s.notePut p l).seq = s.seq := by
  unfold notePut; split <;> first | rfl | (cases p <;> rfl)
@[simp] theorem notePut_ws (p : PipeId) (l : Bool) : (s.notePut p l).ws = s.ws := by
  unfold notePut; split <;> first | rfl | (cases p <;> rfl)
@[simp] theorem notePut_nvNumber (p : PipeId) (l : Bool) : (s.notePut p l).nvNumber = s.nvNumber := by
  unfold notePut; split <;> first | rfl | (cases p <;> rfl)
@[simp] theorem notePut_nvMode (p : PipeId) (l : Bool) : (s.notePut p l).nvMode = s.nvMode := by
  unfold notePut; split <;> first | rfl | (cases p <;> rfl)
@[simp] theorem notePut_protoMode (p : PipeId) (l : Bool) : (s.notePut p l).protoMode = s.protoMode := by
  unfold notePut; split <;> first | rfl | (cases p <;> rfl)
@[simp] theorem notePut_rtc (p : PipeId) (l : Bool) : (s.notePut p l).rtc = s.rtc := by
  unfold notePut; split <;> first | rfl | (cases p <;> rfl)
@[simp] theorem notePut_who (p : PipeId) (l : Bool) : (s.notePut p l).who = s.who := by
  unfold notePut; split <;> first | rfl | (cases p <;> rfl)
@[simp] theorem notePut_me (p : PipeId) (l : Bool) : (s.notePut p l).me = s.me := by
  unfold notePut; split <;> first | rfl | (cases p <;> rfl)
@[simp] theorem notePut_parked (p : PipeId) (l : Bool) : (s.notePut p l).parked = s.parked := by
  unfold notePut; split <;> first | rfl | (cases p <;> rfl)
@[simp] theorem notePut_queue (p : PipeId) (l : Bool) : (s.notePut p l).queue = s.queue := by
  unfold notePut; split <;> first | rfl | (cases p <;> rfl)
@[simp] theorem notePut_turn (p : PipeId) (l : Bool) : (s.notePut p l).turn = s.turn := by
  unfold notePut; split <;> first | rfl | (cases p <;> rfl)
@[simp] theorem notePut_draws (p : PipeId) (l : Bool) : (s.notePut p l).draws = s.draws := by
  unfold notePut; split <;> first | rfl | (cases p <;> rfl)
@[simp] theorem notePut_freeIx (p : PipeId) (l : Bool) : (s.notePut p l).freeIx = s.freeIx := by
  unfold notePut; split <;> first | rfl | (cases p <;> rfl)
@[simp] theorem notePut_pipe (p : PipeId) (l : Bool) (r : PipeId) : (s.notePut p l).pipe r = s.pipe r := by
  cases r <;> simp only [pipe, notePut_rxf, notePut_txf]
@[simp] theorem notePut_polled (p : PipeId) (l : Bool) : (s.notePut p l).polled = s.polled := by
  simp only [State.polled, State.polled, State.threaded, notePut_build]
@[simp] theorem notePut_threaded (p : PipeId) (l : Bool) : (s.notePut p l).threaded = s.threaded := by
  simp only [State.threaded, State.polled, State.threaded, notePut_build]
@[simp] theorem notePut_locked (p : PipeId) (l : Bool) : (s.notePut p l).locked = s.locked := by
  simp only [State.locked, State.polled, State.threaded, notePut_build]
@[simp] theorem notePut_storeFree (p : PipeId) (l : Bool) : (s.notePut p l).storeFree = s.storeFree := by
  simp only [State.storeFree, notePut_seq, notePut_ws]
@[simp] theorem notePut_flashByte (p : PipeId) (l : Bool) (x : Nat) : (s.notePut p l).flashByte x = s.flashByte x := by
  simp only [State.flashByte, notePut_build, notePut_flash]
@[simp] theorem notePut_mayAct (p : PipeId) (l : Bool) : (s.notePut p l).mayAct = s.mayAct := by
  simp only [State.mayAct, notePut_who, notePut_threaded]
@[simp] theorem notePut_maySend (p : PipeId) (l : Bool) : (s.notePut p l).maySend = s.maySend := by
  simp only [State.maySend, notePut_who, notePut_threaded]

/-! ### noteGet -/

@[simp] theorem noteGet_build (p : PipeId) : (s.noteGet p).build = s.build := by
  unfold noteGet; split <;> first | rfl | (cases p <;> rfl)
@[simp] theorem noteGet_rxf (p : PipeId) : (s.noteGet p).rxf = s.rxf := by
  unfold noteGet; split <;> first | rfl | (cases p <;> rfl)
@[simp] theorem noteGet_txf (p : PipeId) : (s.noteGet p).txf = s.txf := by
  unfold noteGet; split <;> first | rfl | (cases p <;> rfl)
@[simp] theorem noteGet_txlock (p : PipeId) : (s.noteGet p).txlock = s.txlock := by
  unfold noteGet; split <;> first | rfl | (cases p <;> rfl)
@[simp] theorem noteGet_fr (p : PipeId) : (s.noteGet p).fr = s.fr := by
  unfold noteGet; split <;> first | rfl | (cases p <;> rfl)
@[simp] theorem noteGet_alloc (p : PipeId) : (s.noteGet p).alloc = s.alloc := by
  unfold noteGet; split <;> first | rfl | (cases p <;> rfl)
@[simp] theorem noteGet_flash (p : PipeId) : (s.noteGet p).flash = s.flash := by
  unfold noteGet; split <;> first | rfl | (cases p <;> rfl)
@[simp] theorem noteGet_cmd (p : PipeId) : (s.noteGet p).cmd = s.cmd := by
  unfold noteGet; split <;> first | rfl | (cases p <;> rfl)
@[simp] theorem noteGet_seq (p : PipeId) : (s.noteGet p).seq = s.seq := by
  unfold noteGet; split <;> first | rfl | (cases p <;> rfl)
@[simp] theorem noteGet_ws (p : PipeId) : (s.noteGet p).ws = s.ws := by
  unfold noteGet; split <;> first | rfl | (cases p <;> rfl)
@[simp] theorem noteGet_nvNumber (p : PipeId) : (s.noteGet p).nvNumber = s.nvNumber := by
  unfold noteGet; split <;> first | rfl | (cases p <;> rfl)
@[simp] theorem noteGet_nvMode (p : PipeId) : (s.noteGet p).nvMode = s.nvMode := by
  unfold noteGet; split <;> first | rfl | (cases p <;> rfl)
@[simp] theorem noteGet_protoMode (p : PipeId) : (s.noteGet p).protoMode = s.protoMode := by
  unfold noteGet; split <;> first | rfl | (cases p <;> rfl)
@[simp] theorem noteGet_rtc (p : PipeId) : (s.noteGet p).rtc = s.rtc := by
  unfold noteGet; split <;> first | rfl | (cases p <;> rfl)
@[simp] theorem noteGet_who (p : PipeId) : (s.noteGet p).who = s.who := by
  unfold noteGet; split <;> first | rfl | (cases p <;> rfl)
@[simp] theorem noteGet_me (p : PipeId) : (s.noteGet p).me = s.me := by
  unfold noteGet; split <;> first | rfl | (cases p <;> rfl)
@[simp] theorem noteGet_parked (p : PipeId) : (s.noteGet p).parked = s.parked := by
  unfold noteGet; split <;> first | rfl | (cases p <;> rfl)
@[simp] theorem noteGet_queue (p : PipeId) : (s.noteGet p).queue = s.queue := by
  unfold noteGet; split <;> first | rfl | (cases p <;> rfl)
@[simp] theorem noteGet_turn (p : PipeId) : (s.noteGet p).turn = s.turn := by
  unfold noteGet; split <;> first | rfl | (cases p <;> rfl)
@[simp] theorem noteGet_draws (p : PipeId) : (s.noteGet p).draws = s.draws := by
  unfold noteGet; split <;> first | rfl | (cases p <;> rfl)
@[simp] theorem noteGet_freeIx (p : PipeId) : (s.noteGet p).freeIx = s.freeIx := by
  unfold noteGet; split <;> first | rfl | (cases p <;> rfl)
@[simp] theorem noteGet_pipe (p : PipeId) (r : PipeId) : (s.noteGet p).pipe r = s.pipe r := by
  cases r <;> simp only [pipe, noteGet_rxf, noteGet_txf]
@[simp] theorem noteGet_polled (p : PipeId) : (s.noteGet p).polled = s.polled := by
  simp only [State.polled, State.polled, State.threaded, noteGet_build]
@[simp] theorem noteGet_threaded (p : PipeId) : (s.noteGet p).threaded = s.threaded := by
  simp only [State.threaded, State.polled, State.threaded, noteGet_build]
@[simp] theorem noteGet_locked (p : PipeId) : (s.noteGet p).locked = s.locked := by
  simp only [State.locked, State.polled, State.threaded, noteGet_build]
@[simp] theorem noteGet_storeFree (p : PipeId) : (s.noteGet p).storeFree = s.storeFree := by
  simp only [State.storeFree, noteGet_seq, noteGet_ws]
@[simp] theorem noteGet_flashByte (p : PipeId) (x : Nat) : (s.noteGet p).flashByte x = s.flashByte x := by
  simp only [State.flashByte, noteGet_build, noteGet_flash]
@[simp] theorem noteGet_mayAct (p : PipeId) : (s.noteGet p).mayAct = s.mayAct := by
  simp only [State.mayAct, noteGet_who, noteGet_threaded]
@[simp] theorem noteGet_maySend (p : PipeId) : (s.noteGet p).maySend = s.maySend := by
  simp only [State.maySend, noteGet_who, noteGet_threaded]

/-! ### noteStep -/

@[simp] theorem noteStep_build : s.noteStep.build = s.build := by
  unfold noteStep; split <;> rfl
@[simp] theorem noteStep_rxf : s.noteStep.rxf = s.rxf := by
  unfold noteStep; split <;> rfl
@[simp] theorem noteStep_txf : s.noteStep.txf = s.txf := by
  unfold noteStep; split <;> rfl
@[simp] theorem noteStep_txlock : s.noteStep.txlock = s.txlock := by
  unfold noteStep; split <;> rfl
@[simp] theorem noteStep_fr : s.noteStep.fr = s.fr := by
  unfold noteStep; split <;> rfl
@[simp] theorem noteStep_alloc : s.noteStep.alloc = s.alloc := by
  unfold noteStep; split <;> rfl
@[simp] theorem noteStep_flash : s.noteStep.flash = s.flash := by
  unfold noteStep; split <;> rfl
@[simp] theorem noteStep_cmd : s.noteStep.cmd = s.cmd := by
  unfold noteStep; split <;> rfl
@[simp] theorem noteStep_seq : s.noteStep.seq = s.seq := by
  unfold noteStep; split <;> rfl
@[simp] theorem noteStep_ws : s.noteStep.ws = s.ws := by
  unfold noteStep; split <;> rfl
@[simp] theorem noteStep_nvNumber : s.noteStep.nvNumber = s.nvNumber := by
  unfold noteStep; split <;> rfl
@[simp] theorem noteStep_nvMode : s.noteStep.nvMode = s.nvMode := by
  unfold noteStep; split <;> rfl
@[simp] theorem noteStep_protoMode : s.noteStep.protoMode = s.protoMode := by
  unfold noteStep; split <;> rfl
@[simp] theorem noteStep_rtc : s.noteStep.rtc = s.rtc := by
  unfold noteStep; split <;> rfl
@[simp] theorem noteStep_who : s.noteStep.who = s.who := by
  unfold noteStep; split <;> rfl
@[simp] theorem noteStep_me : s.noteStep.me = s.me := by
  unfold noteStep; split <;> rfl
@[simp] theorem noteStep_parked : s.noteStep.parked = s.parked := by
  unfold noteStep; split <;> rfl
@[simp] theorem noteStep_queue : s.noteStep.queue = s.queue := by
  unfold noteStep; split <;> rfl
@[simp] theorem noteStep_turn : s.noteStep.turn = s.turn := by
  unfold noteStep; split <;> rfl
@[simp] theorem noteStep_draws : s.noteStep.draws = s.draws := by
  unfold noteStep; split <;> rfl
@[simp] theorem noteStep_freeIx : s.noteStep.freeIx = s.freeIx := by
  unfold noteStep; split <;> rfl
@[simp] theorem noteStep_pipe  (r : PipeId) : s.noteStep.pipe r = s.pipe r := by
  cases r <;> simp only [pipe, noteStep_rxf, noteStep_txf]
@[simp] theorem noteStep_polled : s.noteStep.polled = s.polled := by
  simp only [State.polled, State.polled, State.threaded, noteStep_build]
@[simp] theorem noteStep_threaded : s.noteStep.threaded = s.threaded := by
  simp only [State.threaded, State.polled, State.threaded, noteStep_build]
@[simp] theorem noteStep_locked : s.noteStep.locked = s.locked := by
  simp only [State.locked, State.polled, State.threaded, noteStep_build]
@[simp] theorem noteStep_storeFree : s.noteStep.storeFree = s.storeFree := by
  simp only [State.storeFree, noteStep_seq, noteStep_ws]
@[simp] theorem noteStep_flashByte  (x : Nat) : s.noteStep.flashByte x = s.flashByte x := by
  simp only [State.flashByte, noteStep_build, noteStep_flash]
@[simp] theorem noteStep_mayAct : s.noteStep.mayAct = s.mayAct := by
  simp only [State.mayAct, noteStep_who, noteStep_threaded]
@[simp] theorem noteStep_maySend : s.noteStep.maySend = s.maySend := by
  simp only [State.maySend, noteStep_who, noteStep_threaded]

/-! ### switchTo -/

theorem switchTo_self {a : Agent} (h : a = s.who) : s.switchTo a = s := by simp [switchTo, h]
@[simp] theorem switchTo_build (a : Agent) : (s.switchTo a).build = s.build := by
  unfold switchTo; split <;> rfl
@[simp] theorem switchTo_rxf (a : Agent) : (s.switchTo a).rxf = s.rxf := by
  unfold switchTo; split <;> rfl
@[simp] theorem switchTo_txf (a : Agent) : (s.switchTo a).txf = s.txf := by
  unfold switchTo; split <;> rfl
@[simp] theorem switchTo_txlock (a : Agent) : (s.switchTo a).txlock = s.txlock := by
  unfold switchTo; split <;> rfl
@[simp] theorem switchTo_fr (a : Agent) : (s.switchTo a).fr = s.fr := by
  unfold switchTo; split <;> rfl
@[simp] theorem switchTo_alloc (a : Agent) : (s.switchTo a).alloc = s.alloc := by
  unfold switchTo; split <;> rfl
@[simp] theorem switchTo_flash (a : Agent) : (s.switchTo a).flash = s.flash := by
  unfold switchTo; split <;> rfl
@[simp] theorem switchTo_cmd (a : Agent) : (s.switchTo a).cmd = s.cmd := by
  unfold switchTo; split <;> rfl
@[simp] theorem switchTo_seq (a : Agent) : (s.switchTo a).seq = s.seq := by
  unfold switchTo; split <;> rfl
@[simp] theorem switchTo_ws (a : Agent) : (s.switchTo a).ws = s.ws := by
  unfold switchTo; split <;> rfl
@[simp] theorem switchTo_nvNumber (a : Agent) : (s.switchTo a).nvNumber = s.nvNumber := by
  unfold switchTo; split <;> rfl
@[simp] theorem switchTo_nvMode (a : Agent) : (s.switchTo a).nvMode = s.nvMode := by
  unfold switchTo; split <;> rfl
@[simp] theorem switchTo_protoMode (a : Agent) : (s.switchTo a).protoMode = s.protoMode := by
  unfold switchTo; split <;> rfl
@[simp] theorem switchTo_rtc (a : Agent) : (s.switchTo a).rtc = s.rtc := by
  unfold switchTo; split <;> rfl
@[simp] theorem switchTo_queue (a : Agent) : (s.switchTo a).queue = s.queue := by
  unfold switchTo; split <;> rfl
@[simp] theorem switchTo_turn (a : Agent) : (s.switchTo a).turn = s.turn := by
  unfold switchTo; split <;> rfl
@[simp] theorem switchTo_draws (a : Agent) : (s.switchTo a).draws = s.draws := by
  unfold switchTo; split <;> rfl
@[simp] theorem switchTo_freeIx (a : Agent) : (s.switchTo a).freeIx = s.freeIx := by
  unfold switchTo; split <;> rfl
@[simp] theorem switchTo_users (a : Agent) (p : PipeId) : (s.switchTo a).users p = s.users p := by
  unfold switchTo; split <;> cases p <;> rfl
@[simp] theorem switchTo_pipe (a : Agent) (p : PipeId) : (s.switchTo a).pipe p = s.pipe p := by
  unfold switchTo; split <;> cases p <;> rfl
@[simp] theorem switchTo_who (a : Agent) : (s.switchTo a).who = a := by
  unfold switchTo; split
  · rename_i h; exact h.symm
  · rfl

end Sys2Proof.Machine.State
end

