-- ==== Sys2Proof/Laws/Ops.lean ====
section
/-! SUPPORT. For each shared operation one lemma that says everything it can do. -/

namespace Sys2Proof.Machine

variable {s t : State}

/-- A put's index update has a meaning on an initialised pipe, and is then the store of the byte. -/
theorem pipeStoreAs_ok {p : PipeId} {b : Byte} (h : pipeStoreAs p b s = .ok t) :
    (s.pipe p).inited = true ∧ t = s.setPipe p ((s.pipe p).store s.build.capacity b) := by
  unfold pipeStoreAs at h
  split at h
  · cases h
  · cases h; simp_all

/-- A get's index update has a meaning on an initialised pipe, and is then the removal of the oldest
byte. -/
theorem pipeDropAs_ok {p : PipeId} {r : Byte × State} (h : pipeDropAs p s = .ok r) :
    (s.pipe p).inited = true
      ∧ r = ((s.pipe p).oldest, s.setPipe p ((s.pipe p).drop s.build.capacity)) := by
  unfold pipeDropAs at h
  split at h
  · cases h
  · cases h; simp_all

/-- PIPE_PUT does one of two things: nothing, in a full pipe, or its store. -/
theorem pipePut_ok {p : PipeId} {b : Byte} {r : Bool × State} (h : pipePut p b s = .ok r) :
    s.polled = true ∧ (s.pipe p).inited = true ∧ s.mayPut p false = true
      ∧ (((s.pipe p).full s.build.capacity = true ∧ r = (false, s))
        ∨ ((s.pipe p).full s.build.capacity = false
          ∧ r = (true, s.setPipe p ((s.pipe p).store s.build.capacity b)))) := by
  unfold pipePut at h
  split at h
  · cases h
  · split at h
    · cases h
    · split at h
      · cases h
      · rename_i h1 h2 h3
        refine ⟨by simpa using h1, by simpa using h2, by simpa using h3, ?_⟩
        split at h
        · rename_i hf; cases h; exact .inl ⟨hf, rfl⟩
        · rename_i hf
          refine .inr ⟨by simpa using hf, ?_⟩
          cases hs : pipeStoreAs p b s with
          | error e => rw [hs] at h; cases h
          | ok u =>
            rw [hs] at h
            obtain ⟨_, rfl⟩ := pipeStoreAs_ok hs
            cases h; rfl

/-- PIPE_GET does one of two things: nothing, in an empty pipe, or its removal. -/
theorem pipeGet_ok {p : PipeId} {r : Option Byte × State} (h : pipeGet p s = .ok r) :
    s.polled = true ∧ (s.pipe p).inited = true ∧ s.mayGet p = true
      ∧ (((s.pipe p).count = 0 ∧ r = (none, s))
        ∨ ((s.pipe p).count ≠ 0
          ∧ r = (some (s.pipe p).oldest, s.setPipe p ((s.pipe p).drop s.build.capacity)))) := by
  unfold pipeGet at h
  split at h
  · cases h
  · split at h
    · cases h
    · split at h
      · cases h
      · rename_i h1 h2 h3
        refine ⟨by simpa using h1, by simpa using h2, by simpa using h3, ?_⟩
        split at h
        · rename_i hf; cases h; exact .inl ⟨by simpa [Pipe.empty] using hf, rfl⟩
        · rename_i hf
          refine .inr ⟨by simpa [Pipe.empty] using hf, ?_⟩
          cases hs : pipeDropAs p s with
          | error e => rw [hs] at h; cases h
          | ok u =>
            rw [hs] at h
            obtain ⟨_, rfl⟩ := pipeDropAs_ok hs
            cases h; rfl

/-- The outcomes of FR_STEP in the polled regime. -/
theorem frStep_ok (h : frStep s = .ok t) :
    s.polled = true ∧ s.rxf.inited = true
      ∧ ((s.fr.state = .validate ∧ t = codecTakeByte 0#8 s)
        ∨ (s.fr.state ≠ .validate ∧ s.mayGet .rxf = true ∧
          ((s.rxf.count = 0 ∧ t = s.respond .noFrame)
          ∨ (s.rxf.count ≠ 0 ∧ t = codecTakeByte s.rxf.oldest
            (s.setPipe .rxf (s.rxf.drop s.build.capacity)))))) := by
  by_cases hv : s.fr.state = .validate
  · unfold frStep at h
    rw [hv] at h
    simp only at h
    split at h
    · cases h
    · split at h
      · cases h
      · rename_i h1 h2
        cases h
        exact ⟨by simpa using h1, by simpa using h2, .inl ⟨hv, rfl⟩⟩
  · have key : ∀ {u}, (match pipeGet .rxf s with
        | .error r => .error r
        | .ok (none, t) => .ok (t.respond .noFrame)
        | .ok (some b, t) => .ok (codecTakeByte b t) : Except Refusal State) = .ok u →
        s.polled = true ∧ s.rxf.inited = true ∧ s.mayGet .rxf = true ∧
          ((s.rxf.count = 0 ∧ u = s.respond .noFrame)
          ∨ (s.rxf.count ≠ 0 ∧ u = codecTakeByte s.rxf.oldest
            (s.setPipe .rxf (s.rxf.drop s.build.capacity)))) := by
      intro u h
      cases hg : pipeGet .rxf s with
      | error e => rw [hg] at h; cases h
      | ok r =>
        rw [hg] at h
        obtain ⟨a, b, c, ⟨d, rfl⟩ | ⟨d, rfl⟩⟩ := pipeGet_ok hg
        · cases h; exact ⟨a, b, c, .inl ⟨d, rfl⟩⟩
        · cases h; exact ⟨a, b, c, .inr ⟨d, rfl⟩⟩
    unfold frStep at h
    cases hs : s.fr.state with
    | validate => exact absurd hs hv
    | awaitCommand | awaitP1 | awaitP2 | awaitP3 | awaitChecksum =>
      rw [hs] at h
      obtain ⟨a, b, c, d⟩ := key h
      exact ⟨a, b, .inr ⟨by simp, c, d⟩⟩

/-- PIPE_INIT: no caller is blocked on the pipe, and the pipe is initialised. -/
theorem pipeInit_ok {p : PipeId} (h : pipeInit p s = .ok t) :
    pipeHasWaiters p s = false
      ∧ t = (s.setPipe p ((s.pipe p).init s)).setUsers p ⟨none, none⟩ := by
  unfold pipeInit at h
  split at h
  · cases h
  · cases h; simp_all

/-- An allocation that succeeds: the lowest position, its address, and the map with it marked. -/
theorem allocate_ok {size : Byte} {r : Addr × State} (h : allocate size s = .ok r) :
    (size = 1#8 ∨ size = 2#8 ∨ size = 4#8) ∧ ∃ p, findFree s.alloc size.toNat = some p
      ∧ r = (s.build.flashStart + BitVec.ofNat 24 p,
        s.setAlloc (markUsed s.alloc size.toNat p)) := by
  unfold allocate at h
  split at h
  · rename_i hs
    split at h
    · rename_i p hp; cases h; exact ⟨hs, p, hp, rfl⟩
    · cases h
  · cases h

/-- A store write or erase is turned down with nothing changed, refused, or accepted. -/
theorem storeStart_accepted {j : StoreJob} (h : storeStart j s = .accepted t) :
    s.storeFree = true ∧ t = accept j s
      ∧ ∀ a n, j.target = some (a, n) → storeCheck a n s = .pass := by
  unfold storeStart at h
  split at h
  · rename_i a n hj
    split at h
    · cases h
    · cases h
    · rename_i hc
      cases h
      refine ⟨?_, rfl, ?_⟩
      · unfold storeCheck at hc
        split at hc
        · cases hc
        · split at hc
          · cases hc
          · split at hc
            · cases hc
            · simp_all
      · intro a' n' h'
        cases hj.symm.trans h'
        exact hc
  · rename_i hj
    split at h
    · cases h
    · rename_i h1
      cases h
      exact ⟨by simpa using h1, rfl, fun a n h' => by simp [h'] at hj⟩

/-- What the sequencer's turn is, if it has one. -/
theorem sequencerTurn_some {r : Except Refusal State} (h : sequencerTurn s = some r) :
    s.seq.complete = false ∧ ∃ d o l, s.seq.inflight = some d ∧ s.draws = o :: l
      ∧ r = sequencerStep d o (s.setDraws l) := by
  unfold sequencerTurn at h
  split at h
  · cases h
  · rename_i hc
    split at h
    · rename_i d o l h1 h2
      cases h
      exact ⟨by simpa using hc, d, o, l, h1, h2, rfl⟩
    · cases h

/-- What a command that has a meaning does: its effect on flash, and the status (R187). -/
theorem sequencerStep_ok {d : Descriptor} {o : SeqOutcome} (h : sequencerStep d o s = .ok t) :
    ∃ m, t = (s.setFlash m).setSeq s.cmd
        ⟨true, (outcomeOf d o s).setsAccerr, (outcomeOf d o s).setsFpviol, none⟩
      ∧ (m = s.flash
        ∨ (outcomeOf d o s = .ok ∧ d.opcode = Config.opcEraseSector ∧ m = (eraseSector s).flash)
        ∨ (outcomeOf d o s = .ok ∧ d.opcode = Config.opcProgramPhrase
          ∧ phraseErased d.addr.toNat s = true
          ∧ m = Memory.writeList s.build.erasedByte s.flash d.addr.toNat (phraseBytes d.data))) := by
  unfold sequencerStep commandEffect at h
  simp only at h
  split at h
  · rename_i ho
    split at h
    · rename_i he
      cases h
      exact ⟨(eraseSector s).flash, rfl, .inr (.inl ⟨ho, he, rfl⟩)⟩
    · split at h
      · rename_i hp
        unfold programPhrase at h
        split at h
        · cases h
        · rename_i hpe
          cases h
          exact ⟨_, rfl, .inr (.inr ⟨ho, hp, by simpa using hpe, rfl⟩)⟩
      · cases h; exact ⟨s.flash, rfl, .inl rfl⟩
  · cases h; exact ⟨s.flash, rfl, .inl rfl⟩

end Sys2Proof.Machine
end

