-- ==== Sys2Proof/Laws/Parts.lean ====
section
/-! SUPPORT. What one atomic part can do to the state, and what it leaves to be done. -/

namespace Sys2Proof.Machine

/-- The kinds of change one atomic part can make, whatever it does to what the running agent carries. -/
inductive Change (m : Micro) (s : State) : State → Prop
  | carry (l : Local) : Change m s { s with me := l }
  | put (p : PipeId) (b : Byte) (l : Local) (hi : (s.pipe p).inited = true)
      (hf : m = .pipeStore p b ∨ (s.polled = true ∧ m = .emit ∧ p = .txf
        ∧ s.mayPut p false = true ∧ (s.pipe p).full s.build.capacity = false)) :
      Change m s { s.setPipe p ((s.pipe p).store s.build.capacity b) with me := l }
  | get (p : PipeId) (l : Local) (hi : (s.pipe p).inited = true) (hm : m = .pipeTake p) :
      Change m s { s.setPipe p ((s.pipe p).drop s.build.capacity) with me := l }
  | step (l : Local) (hi : s.rxf.inited = true)
      (hm : m = .codecTake ∨ (m = .frGetPass ∧ s.polled = true ∧ s.rxf.count ≠ 0)) :
      Change m s { (s.setPipe .rxf (s.rxf.drop s.build.capacity)).setFr
        (s.fr.takeByte s.rxf.oldest).1 with me := l }
  | codec (b : Byte) (l : Local) (hm : m = .frGetPass) :
      Change m s { s.setFr (s.fr.takeByte b).1 with me := l }
  | users (p : PipeId) (u : Users) (l : Local) (hm : m = .loop ∨ ∃ f, m = .emitBegin f) :
      Change m s { s.setUsers p u with me := l }
  | sem (x : Sem) (n : Nat) (l : Local) (hm : m = .semWait x ∨ m = .semSignal x) :
      Change m s { setSem x n s with me := l }
  | init (p : PipeId) (l : Local) (hm : m = .startPipe p) :
      Change m s { (s.setPipe p ((s.pipe p).init s)).setUsers p ⟨none, none⟩ with me := l }
  | codecInit (l : Local) (hm : m = .startCodec) :
      Change m s { s.setFr { s.fr with state := .awaitCommand } with me := l }
  | map (a : List Bool) (n d : Option Addr) (l : Local)
      (hm : m = .startMap ∨ m = .startNumber ∨ m = .startMode)
      (hn : n = s.nvNumber ∨ s.nvNumber = none) (hd : d = s.nvMode ∨ s.nvMode = none) :
      Change m s { s with alloc := a, nvNumber := n, nvMode := d, me := l }
  | handler (pm : BitVec 1) (r : Rtc) (f : Nat) (l : Local) (hm : ∃ f, m = .handle f) :
      Change m s { s with protoMode := pm, rtc := r, freeIx := f, me := l }
  | write (w : WritePath) (l : Local) (hm : m = .store ∨ ∃ f, m = .handle f) :
      Change m s { s.setWs w with me := l }
  | launch (d : Descriptor) (w : WritePath) (f : Nat) (l : Local) (hm : m = .store)
      (hc : s.seq.complete = true) :
      Change m s { (launch d s).setWs w with me := l, freeIx := f }
  | exec (d : Descriptor) (o : SeqOutcome) (r : List SeqOutcome) (u : State) (l : Local)
      (hm : m = .store ∨ m = .seqWait ∨ m = .seqExec) (hc : s.seq.complete = false)
      (hd : s.seq.inflight = some d) (hr : s.draws = o :: r)
      (hu : sequencerStep d o (s.setDraws r) = .ok u) : Change m s { u with me := l }

variable {s t : State} {m : Micro}

theorem Change.of_me {l : Local} (h : t = { s with me := l }) : Change m s t := h ▸ .carry l

theorem sequencerTurn_ok (h : sequencerTurn s = some (.ok t)) :
    s.seq.complete = false ∧ ∃ d o r, s.seq.inflight = some d ∧ s.draws = o :: r
      ∧ sequencerStep d o (s.setDraws r) = .ok t := by
  obtain ⟨a, d, o, r, b, c, e⟩ := sequencerTurn_some h
  exact ⟨a, d, o, r, b, c, e.symm⟩

theorem awaitSequencer_go {k : State → MicroOut} (h : awaitSequencer m k s = .go t) :
    (s.seq.complete = true ∧ k s = .go t)
      ∨ ∃ u, sequencerTurn s = some (.ok u) ∧ t = u.push [m] := by
  unfold awaitSequencer at h
  split at h
  · exact .inl ⟨‹_›, h⟩
  · split at h
    · cases h
    · cases h
    · rename_i u hu; cases h; exact .inr ⟨u, hu, rfl⟩

theorem Change.of_turn {u : State} (h : sequencerTurn s = some (.ok u)) (l : Local)
    (hm : m = .store ∨ m = .seqWait ∨ m = .seqExec) (ht : t = { u with me := l }) :
    Change m s t := by
  obtain ⟨a, d, o, r, b, c, e⟩ := sequencerTurn_ok h
  subst ht
  exact .exec d o r u l hm a b c e

theorem storePart_change (h : storePart s = .go t) : Change .store s t := by
  unfold storePart at h
  simp only at h
  split at h
  · cases h
  · cases h; exact .write _ _ (.inl rfl)
  · split at h
    · rename_i hc; cases h; exact .launch _ _ _ _ rfl hc
    · cases h
  · rcases awaitSequencer_go h with ⟨hc, hk⟩ | ⟨u, hu, rfl⟩
    · split at hk <;> (cases hk; exact .write _ _ (.inl rfl))
    · exact .of_turn hu _ (.inl rfl) rfl
  · split at h
    · cases h
    · split at h
      · rename_i hc _; cases h; exact .launch _ _ _ _ rfl (by simpa using hc)
      · cases h
  · rcases awaitSequencer_go h with ⟨hc, hk⟩ | ⟨u, hu, rfl⟩
    · split at hk <;> (cases hk; exact .write _ _ (.inl rfl))
    · exact .of_turn hu _ (.inl rfl) rfl
  · cases h; exact .write _ _ (.inl rfl)
  · cases h; exact .write _ _ (.inl rfl)

theorem handlerRead_ok {a : Addr} {n : Nat} {f : Frame} {g : Answer} :
    (∃ x, handlerRead a n f g s = .answer x s) ∨ ∃ r, handlerRead a n f g s = .refused r := by
  unfold handlerRead badParam
  split
  · exact .inl ⟨_, rfl⟩
  · exact .inr ⟨_, rfl⟩
  · exact .inl ⟨_, rfl⟩

theorem handlerStore_ok {j : StoreJob} {f : Frame} :
    (∃ x, handlerStore j f s = .answer x s) ∨ (∃ r, handlerStore j f s = .refused r)
      ∨ (storeStart j s = .accepted (accept j s) ∧ handlerStore j f s = .storing (accept j s)) := by
  unfold handlerStore badParam
  split
  · exact .inl ⟨_, rfl⟩
  · exact .inr (.inl ⟨_, rfl⟩)
  · rename_i t h
    obtain ⟨_, rfl, _⟩ := storeStart_accepted h
    exact .inr (.inr ⟨h, rfl⟩)

/-- What a handler leads to: an answer with nothing or a handler register changed, an accepted store
operation, or the open handler's frames. -/
inductive HandlerCase (s : State) : HandlerOut → Prop
  | answer (a : Answer) : HandlerCase s (.answer a s)
  | proto (a : Answer) (m : BitVec 1) : HandlerCase s (.answer a (s.setProto m))
  | rtc (a : Answer) (r : Rtc) : HandlerCase s (.answer a (s.setRtc r))
  | storing (j : StoreJob) (h : storeStart j s = .accepted (accept j s)) :
      HandlerCase s (.storing (accept j s))
  | sending (l : List Frame) (a : Answer) : HandlerCase s (.sending l a s.useFree)
  | refused (r : Refusal) : HandlerCase s (.refused r)

theorem handlerRead_case (a : Addr) (n : Nat) (f : Frame) (g : Answer) :
    HandlerCase s (handlerRead a n f g s) := by
  rcases @handlerRead_ok s a n f g with ⟨x, h⟩ | ⟨r, h⟩ <;> rw [h] <;> constructor

theorem handlerStore_case (j : StoreJob) (f : Frame) : HandlerCase s (handlerStore j f s) := by
  rcases @handlerStore_ok s j f with ⟨x, h⟩ | ⟨r, h⟩ | ⟨h', h⟩ <;> rw [h]
  · constructor
  · constructor
  · exact .storing j h'

theorem getSet16_case (a : Addr) (f : Frame) : HandlerCase s (getSet16 a f s) := by
  unfold getSet16 badParam
  split
  · exact handlerRead_case _ _ _ _
  · split
    · exact handlerStore_case _ _
    · constructor

theorem withHandles_case {k : Addr → Addr → HandlerOut} (hk : ∀ a b, HandlerCase s (k a b)) :
    HandlerCase s (withHandles k s) := by
  unfold withHandles
  split
  · exact hk _ _
  all_goals constructor

theorem handler_case (f : Frame) (s : State) : HandlerCase s (handler f s) := by
  unfold handler
  split
  · unfold hStartup; constructor
  · unfold hPgmbyte badParam
    split
    · exact handlerStore_case _ _
    · split
      · exact handlerStore_case _ _
      · constructor
  · unfold hRdbyte badParam
    split
    · constructor
    · exact handlerRead_case _ _ _ _
  · unfold hVersion; constructor
  · unfold hProtocol badParam
    split
    · constructor
    · split
      · split
        · constructor
        · constructor
      · constructor
  · exact withHandles_case fun _ _ => getSet16_case _ _
  · unfold hTime badParam
    split
    · constructor
    · constructor
  · exact withHandles_case fun _ _ => getSet16_case _ _
  · unfold hUnknown; constructor

theorem handlePart_change {f : Frame} (h : handlePart f s = .go t) : Change (.handle f) s t := by
  unfold handlePart at h
  have hc := handler_case f s
  generalize handler f s = x at h hc
  cases hc with
  | answer a => cases h; exact .carry _
  | proto a m => cases h; exact .handler _ s.rtc s.freeIx _ ⟨_, rfl⟩
  | rtc a r => cases h; exact .handler s.protoMode _ s.freeIx _ ⟨_, rfl⟩
  | storing j hj => cases h; exact .write _ _ (.inr ⟨_, rfl⟩)
  | sending l a => cases h; exact .handler s.protoMode s.rtc _ _ ⟨_, rfl⟩
  | refused r => cases h

theorem emitPart_change (h : emitPart s = .go t) : Change .emit s t := by
  unfold emitPart at h
  split at h
  · cases h
  · split at h
    · cases h; exact .carry _
    · split at h
      · cases h
      · rename_i hp
        obtain ⟨_, _, _, ⟨_, he⟩ | ⟨_, he⟩⟩ := pipePut_ok hp
        · cases he; cases h; exact .carry _
        · cases he
      · rename_i hp
        obtain ⟨hp0, hi, hm, ⟨_, he⟩ | ⟨hf, he⟩⟩ := pipePut_ok hp
        · cases he
        · cases he; cases h; exact .put .txf _ _ hi (.inr ⟨hp0, rfl, rfl, hm, hf⟩)

theorem frGetPassPart_change (h : frGetPassPart s = .go t) : Change .frGetPass s t := by
  unfold frGetPassPart at h
  split at h
  · cases h; exact .carry _
  · split at h
    · cases h
    · rename_i u hu
      obtain ⟨hp, hi, ⟨_, rfl⟩ | ⟨_, hm, ⟨hc, rfl⟩ | ⟨hc, rfl⟩⟩⟩ := frStep_ok hu
      · simp only [MicroOut.go.injEq] at h
        subst h
        split <;> exact .codec 0#8 _ rfl
      · contradiction
      · simp only [MicroOut.go.injEq] at h
        subst h
        split <;> exact .step _ hi (.inr ⟨rfl, hp, hc⟩)

theorem MicroOut.of_go {x : Except Refusal State} (h : MicroOut.of x = .go t) : x = .ok t := by
  cases x with
  | error e => cases h
  | ok u => cases h; rfl

theorem notePut_set (p : PipeId) (l : Bool) (s : State) :
    s.notePut p l = s ∨ ∃ u, s.notePut p l = s.setUsers p u := by
  unfold State.notePut
  split
  · exact .inl rfl
  · exact .inr ⟨_, rfl⟩

theorem noteGet_set (p : PipeId) (s : State) :
    s.noteGet p = s ∨ ∃ u, s.noteGet p = s.setUsers p u := by
  unfold State.noteGet
  split
  · exact .inl rfl
  · exact .inr ⟨_, rfl⟩

theorem noteStep_set (s : State) : s.noteStep = s ∨ ∃ u, s.noteStep = s.setUsers .rxf u := by
  unfold State.noteStep
  split
  · exact .inl rfl
  · exact .inr ⟨_, rfl⟩

theorem emitBeginPart_go {f : Frame} (h : emitBeginPart f s = .go t) :
    s.mayPut .txf true = true ∧ t = (s.notePut .txf true).setTxe (some ⟨f, 0⟩) := by
  unfold emitBeginPart at h
  split at h
  · cases h
  · split at h
    · rename_i hm; cases h; exact ⟨hm, rfl⟩
    · cases h

theorem loopPart_go (h : loopPart s = .go t) :
    s.mayStep = true ∧ t = s.noteStep.push (frGetParts s ++ [.loopDispatch]) := by
  unfold loopPart at h
  split at h
  · cases h
  · split at h
    · rename_i hm; cases h; exact ⟨hm, rfl⟩
    · cases h

/-- Step 4 of START_UP: the handle was unset, and the variable is allocated, or the start-up has halted. -/
theorem startAlloc_go {old : Option Addr} {keep : Addr → State → State}
    (h : startAlloc old keep s = .go t) :
    old = none ∧ ((∃ p, findFree s.alloc 2 = some p
        ∧ t = (keep (s.build.flashStart + BitVec.ofNat 24 p)
            (s.setAlloc (markUsed s.alloc 2 p))).respond
              (.addr (s.build.flashStart + BitVec.ofNat 24 p)))
      ∨ ∃ e, t = (raise e s).setTodo [.halted]) := by
  unfold startAlloc at h
  split at h
  · cases h
  · rename_i ho
    refine ⟨by simpa using ho, ?_⟩
    split at h
    · rename_i a u hu
      obtain ⟨_, p, hp, he⟩ := allocate_ok hu
      cases he; cases h
      exact .inl ⟨p, hp, rfl⟩
    · cases h; exact .inr ⟨_, rfl⟩

theorem setSem_with_me (x : Sem) (n : Nat) : { setSem x n s with me := s.me } = setSem x n s := by
  rcases x with p | p | p | _
  all_goals first | rfl | (cases p <;> rfl)

/-- One atomic part makes one of the changes. -/
theorem micro_change (h : micro m s = .go t) : Change m s t := by
  cases m with
  | semWait x =>
    simp only [micro] at h
    split at h
    · cases h
    · cases h
      have := Change.sem (m := .semWait x) (s := s) x (semValue x s - 1) s.me (.inl rfl)
      rwa [setSem_with_me] at this
  | semSignal x =>
    simp only [micro] at h
    cases h
    have := Change.sem (m := .semSignal x) (s := s) x (semValue x s + 1) s.me (.inr rfl)
    rwa [setSem_with_me] at this
  | hold => cases h; exact .carry _
  | pipeStore p b =>
    obtain ⟨hi, rfl⟩ := pipeStoreAs_ok (MicroOut.of_go h)
    have := Change.put (m := .pipeStore p b) (s := s) p b s.me hi (.inl rfl)
    cases p <;> exact this
  | pipeTake p =>
    have h := MicroOut.of_go h
    cases hd : pipeDropAs p s with
    | error e => rw [hd] at h; cases h
    | ok r =>
      rw [hd] at h
      obtain ⟨hi, rfl⟩ := pipeDropAs_ok hd
      cases h
      exact .get p _ hi rfl
  | ret r => cases h; exact .carry _
  | codecTake =>
    have h := MicroOut.of_go h
    cases hd : pipeDropAs .rxf s with
    | error e => rw [hd] at h; cases h
    | ok r =>
      rw [hd] at h
      obtain ⟨hi, rfl⟩ := pipeDropAs_ok hd
      cases h
      exact .step _ hi (.inl rfl)
  | frGetPass => exact frGetPassPart_change h
  | frGetAgain =>
    simp only [micro, frGetAgainPart] at h
    split at h <;> (cases h; exact .carry _)
  | emitBegin f =>
    obtain ⟨_, rfl⟩ := emitBeginPart_go h
    rcases notePut_set .txf true s with e | ⟨u, e⟩ <;> rw [e]
    · exact .carry _
    · exact .users .txf u _ (.inr ⟨f, rfl⟩)
  | emit => exact emitPart_change h
  | emitB =>
    simp only [micro, emitBPart] at h
    split at h
    · cases h
    · split at h <;> (cases h; exact .carry _)
  | emitCount =>
    simp only [micro, emitCountPart] at h
    split at h
    · cases h
    · cases h; exact .carry _
  | emitEnd => cases h; exact .carry _
  | store => exact storePart_change h
  | seqWait =>
    simp only [micro, seqWaitPart] at h
    rcases awaitSequencer_go h with ⟨_, hk⟩ | ⟨u, hu, rfl⟩
    · cases hk; exact .carry _
    · exact .of_turn hu _ (.inr (.inl rfl)) rfl
  | seqExec =>
    simp only [micro, seqExecPart] at h
    split at h
    · cases h
    · cases h
    · rename_i u hu; cases h; exact .of_turn hu _ (.inr (.inr rfl)) rfl
  | handle f => exact handlePart_change h
  | afterStore f =>
    simp only [micro, afterStorePart] at h
    split at h <;> (cases h; exact .carry _)
  | reply c a =>
    simp only [micro, replyPart] at h
    split at h <;> (cases h; exact .carry _)
  | replied a =>
    simp only [micro, repliedPart] at h
    split at h <;> (cases h; exact .carry _)
  | startPipe p =>
    obtain ⟨_, rfl⟩ := pipeInit_ok (MicroOut.of_go h)
    have := Change.init (m := .startPipe p) (s := s) p s.me rfl
    cases p <;> exact this
  | startCodec => cases h; exact .codecInit _ rfl
  | startMap => cases h; exact .map _ s.nvNumber s.nvMode _ (.inl rfl) (.inl rfl) (.inl rfl)
  | startNumber =>
    obtain ⟨ho, ⟨p, _, rfl⟩ | ⟨e, rfl⟩⟩ := startAlloc_go h
    · exact .map _ _ s.nvMode _ (.inr (.inl rfl)) (.inr ho) (.inl rfl)
    · exact .carry _
  | startMode =>
    obtain ⟨ho, ⟨p, _, rfl⟩ | ⟨e, rfl⟩⟩ := startAlloc_go h
    · exact .map _ s.nvNumber _ _ (.inr (.inr rfl)) (.inl rfl) (.inr ho)
    · exact .carry _
  | loop =>
    obtain ⟨_, rfl⟩ := loopPart_go h
    rcases noteStep_set s with e | ⟨u, e⟩ <;> rw [e]
    · exact .carry _
    · exact .users .rxf u _ (.inl rfl)
  | loopDispatch =>
    simp only [micro, loopDispatchPart] at h
    split at h <;> (cases h; exact .carry _)
  | halted => cases h

/-- Which registers a part can reach. -/
inductive Kind
  | plain
  | codec
  | store
  | handle
  | start
deriving DecidableEq, Repr

/-- The kind of each part: the codec's registers, flash and its registers, a handler's registers, those
only START_UP writes, or none of these. -/
def Micro.kind : Micro → Kind
  | .codecTake | .frGetPass | .frGetAgain => .codec
  | .store | .seqWait | .seqExec => .store
  | .handle _ => .handle
  | .startPipe _ | .startCodec | .startMap | .startNumber | .startMode | .loop | .loopDispatch
  | .halted => .start
  | .semWait _ | .semSignal _ | .hold | .pipeStore _ _ | .pipeTake _ | .ret _ | .emitBegin _
  | .emit | .emitB | .emitCount | .emitEnd | .afterStore _ | .reply _ _ | .replied _ => .plain

/-- What a part of one kind may leave to be done. -/
def Kind.leads (a b : Kind) : Prop :=
  b = .plain ∨ b = a ∨ (a = .handle ∧ b = .store) ∨ a = .start

/-- A part that an agent of the regime may have to do: no blocking form in the polled one. -/
def Micro.fits (s : State) (m : Micro) : Prop := s.polled = true → m.threadedOnly = false

theorem not_polled_of_threaded (h : s.threaded = true) : ¬ s.polled = true := by
  unfold State.threaded State.polled at *
  intro h'
  rw [decide_eq_true_eq] at h h'
  rw [h] at h'
  cases h'

theorem polled_or_threaded (s : State) : s.polled = true ∨ s.threaded = true := by
  unfold State.threaded State.polled
  cases s.build.regime <;> simp

theorem putBParts_mem {p : PipeId} {b : Byte} {x : Micro} (h : x ∈ putBParts p b s) :
    x.kind = .plain := by
  unfold putBParts at h
  split at h
  · simp at h; rcases h with rfl | rfl | rfl | rfl | rfl <;> rfl
  · simp at h; rcases h with rfl | rfl | rfl <;> rfl

theorem getBParts_mem {p : PipeId} {m x : Micro} (h : x ∈ getBParts p m s) :
    x.kind = .plain ∨ x = m := by
  unfold getBParts at h
  split at h
  · simp at h; rcases h with rfl | rfl | rfl | rfl | rfl <;> simp [Micro.kind]
  · simp at h; rcases h with rfl | rfl | rfl <;> simp [Micro.kind]

theorem frStepParts_mem {x : Micro} (h : x ∈ frStepParts s) : x.kind = .plain ∨ x.kind = .codec := by
  rcases getBParts_mem h with h | rfl
  · exact .inl h
  · exact .inr rfl

theorem emission_mem {f : Frame} {x : Micro} (h : x ∈ emission f s) :
    x.kind = .plain ∧ x.fits s := by
  unfold emission at h
  split at h
  · rename_i ht
    refine ⟨?_, fun hp => absurd hp (not_polled_of_threaded ht)⟩
    simp at h
    rcases h with rfl | rfl | rfl <;> rfl
  · simp at h
    rcases h with rfl | rfl <;> exact ⟨rfl, fun _ => rfl⟩

theorem frGetParts_mem {x : Micro} (h : x ∈ frGetParts s) :
    (x.kind = .plain ∨ x.kind = .codec) ∧ x.fits s := by
  unfold frGetParts at h
  split at h
  · rename_i ht
    refine ⟨?_, fun hp => absurd hp (not_polled_of_threaded ht)⟩
    rcases List.mem_append.mp h with h | h
    · exact frStepParts_mem h
    · simp at h; subst h; exact .inr rfl
  · simp at h; subst h; exact ⟨.inr rfl, fun _ => rfl⟩

/-- The parts after one part are those there were, or parts its kind may leave to be done; in the polled
regime none of them is a blocking form if the part itself is none. -/
theorem micro_todo (h : micro m s = .go t) {x : Micro} (hx : x ∈ t.me.todo) :
    x ∈ s.me.todo ∨ (m.kind.leads x.kind ∧ (m.fits s → x.fits s)) := by
  have new : ∀ {l : List Micro}, x ∈ l ++ s.me.todo → (∀ y ∈ l, m.kind.leads y.kind ∧
      (m.fits s → y.fits s)) → x ∈ s.me.todo ∨ (m.kind.leads x.kind ∧ (m.fits s → x.fits s)) := by
    intro l hl hy
    rcases List.mem_append.mp hl with h1 | h1
    · exact .inr (hy x h1)
    · exact .inl h1
  have one : ∀ {y : Micro}, x ∈ [y] ++ s.me.todo → m.kind.leads y.kind → y.threadedOnly = false →
      x ∈ s.me.todo ∨ (m.kind.leads x.kind ∧ (m.fits s → x.fits s)) := by
    intro y hy h1 h2
    exact new hy (fun z hz => by simp at hz; subst hz; exact ⟨h1, fun _ _ => h2⟩)
  have turnEq : ∀ {u : State}, sequencerTurn s = some (.ok u) → u.me.todo = s.me.todo := by
    intro u hu
    obtain ⟨_, d, o, r, _, _, e⟩ := sequencerTurn_ok hu
    obtain ⟨f, rfl, _⟩ := sequencerStep_ok e
    rfl
  cases m with
  | semWait y =>
    simp only [micro] at h
    split at h
    · cases h
    · cases h
      rcases y with p | p | p | _
      all_goals first | exact .inl hx | (cases p <;> exact .inl hx)
  | semSignal y =>
    simp only [micro] at h
    cases h
    rcases y with p | p | p | _
    all_goals first | exact .inl hx | (cases p <;> exact .inl hx)
  | hold => cases h; exact .inl hx
  | pipeStore p b =>
    obtain ⟨_, rfl⟩ := pipeStoreAs_ok (MicroOut.of_go h)
    simp at hx; exact .inl hx
  | pipeTake p =>
    have h := MicroOut.of_go h
    cases hd : pipeDropAs p s with
    | error e => rw [hd] at h; cases h
    | ok r =>
      rw [hd] at h
      obtain ⟨_, rfl⟩ := pipeDropAs_ok hd
      cases h
      simp at hx; exact .inl hx
  | ret r => cases h; exact .inl hx
  | codecTake =>
    have h := MicroOut.of_go h
    cases hd : pipeDropAs .rxf s with
    | error e => rw [hd] at h; cases h
    | ok r =>
      rw [hd] at h
      obtain ⟨_, rfl⟩ := pipeDropAs_ok hd
      cases h
      simp [codecTakeByte] at hx; exact .inl hx
  | frGetPass =>
    simp only [micro, frGetPassPart] at h
    split at h
    · cases h; exact .inl hx
    · split at h
      · cases h
      · rename_i u hu
        have hl : u.me.todo = s.me.todo := by
          obtain ⟨_, _, ⟨_, rfl⟩ | ⟨_, _, ⟨_, rfl⟩ | ⟨_, rfl⟩⟩⟩ := frStep_ok hu
          · rfl
          · rfl
          · simp [codecTakeByte]
        simp only [MicroOut.go.injEq] at h
        subst h
        split at hx
        · rw [hl] at hx; exact .inl hx
        all_goals (
          rw [State.push_me_todo, hl] at hx
          exact one hx (.inr (.inl rfl)) rfl)
  | frGetAgain =>
    simp only [micro, frGetAgainPart] at h
    split at h
    · cases h; exact .inl hx
    all_goals (
      cases h
      rw [State.push_me_todo] at hx
      refine new hx (fun y hy => ?_)
      rcases List.mem_append.mp hy with hy | hy
      · refine ⟨(frStepParts_mem hy).imp id .inl, fun hf hp => absurd (hf hp) ?_⟩
        simp [Micro.threadedOnly]
      · simp at hy
        subst hy
        exact ⟨.inr (.inl rfl), fun hf hp => absurd (hf hp) (by simp [Micro.threadedOnly])⟩)
  | emitBegin f =>
    obtain ⟨_, rfl⟩ := emitBeginPart_go h
    simp at hx; exact .inl hx
  | emit =>
    simp only [micro, emitPart] at h
    split at h
    · cases h
    · split at h
      · cases h; exact .inl hx
      · split at h
        · cases h
        · rename_i hp
          obtain ⟨_, _, _, ⟨_, he⟩ | ⟨_, he⟩⟩ := pipePut_ok hp
          · cases he; cases h; exact .inl hx
          · cases he
        · rename_i hp
          obtain ⟨_, _, _, ⟨_, he⟩ | ⟨_, he⟩⟩ := pipePut_ok hp
          · cases he
          · cases he; cases h
            simp at hx
            exact one (y := .emit) (by simpa using hx) (.inl rfl) rfl
  | emitB =>
    have hb : ∀ {y : Micro}, y.kind = .plain → Micro.emitB.kind.leads y.kind ∧
        (Micro.emitB.fits s → y.fits s) := fun hk =>
      ⟨.inl hk, fun hf hp => absurd (hf hp) (by simp [Micro.threadedOnly])⟩
    simp only [micro, emitBPart] at h
    split at h
    · cases h
    · split at h
      · cases h
        rw [State.push_me_todo] at hx
        refine new hx (fun y hy => hb ?_)
        simp at hy
        rcases hy with rfl | rfl <;> rfl
      · cases h
        rw [State.push_me_todo] at hx
        refine new hx (fun y hy => hb ?_)
        rcases List.mem_append.mp hy with hy | hy
        · exact putBParts_mem hy
        · simp at hy
          rcases hy with rfl | rfl <;> rfl
  | emitCount =>
    simp only [micro, emitCountPart] at h
    split at h
    · cases h
    · cases h; exact .inl hx
  | emitEnd => cases h; exact .inl hx
  | store =>
    simp only [micro, storePart] at h
    split at h
    · cases h
    · cases h; exact one hx (.inr (.inl rfl)) rfl
    · split at h
      · cases h; exact one hx (.inr (.inl rfl)) rfl
      · cases h
    · rcases awaitSequencer_go h with ⟨hc, hk⟩ | ⟨u, hu, rfl⟩
      · split at hk <;> (cases hk; exact one hx (.inr (.inl rfl)) rfl)
      · rw [State.push_me_todo, turnEq hu] at hx
        exact one hx (.inr (.inl rfl)) rfl
    · split at h
      · cases h
      · split at h
        · cases h; exact one hx (.inr (.inl rfl)) rfl
        · cases h
    · rcases awaitSequencer_go h with ⟨hc, hk⟩ | ⟨u, hu, rfl⟩
      · split at hk <;> (cases hk; exact one hx (.inr (.inl rfl)) rfl)
      · rw [State.push_me_todo, turnEq hu] at hx
        exact one hx (.inr (.inl rfl)) rfl
    · cases h; exact .inl hx
    · cases h; exact .inl hx
  | seqWait =>
    simp only [micro, seqWaitPart] at h
    rcases awaitSequencer_go h with ⟨_, hk⟩ | ⟨u, hu, rfl⟩
    · cases hk; exact .inl hx
    · rw [State.push_me_todo, turnEq hu] at hx
      exact one hx (.inr (.inl rfl)) rfl
  | seqExec =>
    simp only [micro, seqExecPart] at h
    split at h
    · cases h
    · cases h
    · rename_i u hu
      cases h
      rw [State.respond_me_todo, turnEq hu] at hx
      exact .inl hx
  | handle f =>
    simp only [micro, handlePart] at h
    have hc := handler_case f s
    generalize handler f s = y at h hc
    cases hc with
    | answer a => cases h; exact one hx (.inl rfl) rfl
    | proto a m => cases h; exact one hx (.inl rfl) rfl
    | rtc a r => cases h; exact one hx (.inl rfl) rfl
    | storing j hj =>
      cases h
      rw [State.push_me_todo] at hx
      refine new hx (fun y hy => ?_)
      simp at hy
      rcases hy with rfl | rfl
      · exact ⟨.inr (.inr (.inl ⟨rfl, rfl⟩)), fun _ _ => rfl⟩
      · exact ⟨.inl rfl, fun _ _ => rfl⟩
    | sending l a =>
      cases h
      rw [State.push_me_todo] at hx
      refine new hx (fun y hy => ?_)
      rcases List.mem_append.mp hy with hy | hy
      · obtain ⟨z, hz, hy⟩ := List.mem_flatten.mp hy
        obtain ⟨g, _, rfl⟩ := List.mem_map.mp hz
        obtain ⟨h1, h2⟩ := emission_mem hy
        exact ⟨.inl h1, fun _ => h2⟩
      · simp at hy; subst hy; exact ⟨.inl rfl, fun _ _ => rfl⟩
    | refused r => cases h
  | afterStore f =>
    simp only [micro, afterStorePart] at h
    split at h <;> (cases h; exact one hx (.inl rfl) rfl)
  | reply c a =>
    simp only [micro, replyPart] at h
    split at h
    · cases h
      rw [State.push_me_todo] at hx
      refine new hx (fun y hy => ?_)
      rcases List.mem_append.mp hy with hy | hy
      · obtain ⟨h1, h2⟩ := emission_mem hy
        exact ⟨.inl h1, fun _ => h2⟩
      · simp at hy; subst hy; exact ⟨.inl rfl, fun _ _ => rfl⟩
    · cases h; exact .inl hx
  | replied a =>
    simp only [micro, repliedPart] at h
    split at h <;> (cases h; exact .inl hx)
  | startPipe p =>
    obtain ⟨_, rfl⟩ := pipeInit_ok (MicroOut.of_go h)
    simp at hx; exact .inl hx
  | startCodec => cases h; exact .inl hx
  | startMap => cases h; exact .inl hx
  | startNumber =>
    obtain ⟨_, ⟨p, _, rfl⟩ | ⟨e, rfl⟩⟩ := startAlloc_go h
    · exact .inl hx
    · simp at hx; subst hx
      exact .inr ⟨.inr (.inr (.inr rfl)), fun _ _ => rfl⟩
  | startMode =>
    obtain ⟨_, ⟨p, _, rfl⟩ | ⟨e, rfl⟩⟩ := startAlloc_go h
    · exact .inl hx
    · simp at hx; subst hx
      exact .inr ⟨.inr (.inr (.inr rfl)), fun _ _ => rfl⟩
  | loop =>
    obtain ⟨_, rfl⟩ := loopPart_go h
    rw [State.push_me_todo, State.noteStep_me] at hx
    refine new hx (fun y hy => ⟨.inr (.inr (.inr rfl)), fun _ => ?_⟩)
    rcases List.mem_append.mp hy with hy | hy
    · exact (frGetParts_mem hy).2
    · simp at hy; subst hy; exact fun _ => rfl
  | loopDispatch =>
    simp only [micro, loopDispatchPart] at h
    split at h
    · cases h
      rw [State.push_me_todo] at hx
      refine new hx (fun y hy => ⟨.inr (.inr (.inr rfl)), fun _ _ => ?_⟩)
      simp at hy
      rcases hy with rfl | rfl <;> rfl
    all_goals (
      cases h
      exact one hx (.inr (.inr (.inr rfl))) rfl)
  | halted => cases h

end Sys2Proof.Machine
end

