-- ==== Sys2Proof/Laws/Accounts.lean ====
section
/-! SUPPORT. The semaphores' accounts of a list of parts: every operation's parts take first and give
back as much. -/

namespace Sys2Proof.Machine

variable {s : State} {x : Sem}

@[simp] theorem owed_nil (x : Sem) : owed x [] = 0 := rfl

@[simp] theorem owed_cons (x : Sem) (m : Micro) (l : List Micro) :
    owed x (m :: l) = m.owes x + owed x l := by simp [owed]

@[simp] theorem owed_append (x : Sem) (k l : List Micro) :
    owed x (k ++ l) = owed x k + owed x l := by simp [owed]

theorem owed_zero {l : List Micro} (h : ∀ m ∈ l, m.owes x = 0) : owed x l = 0 := by
  induction l with
  | nil => rfl
  | cons m l ih => simp at h; simp [h.1, ih h.2]

theorem settled_nonneg {l : List Micro} (h : settled x l) : 0 ≤ owed x l := by
  cases l with
  | nil => simp
  | cons m l => exact h.1

theorem settled_tail {m : Micro} {l : List Micro} (h : settled x (m :: l)) : settled x l := h.2

theorem settled_append {k l : List Micro} (hk : settled x k) (hl : settled x l) :
    settled x (k ++ l) := by
  induction k with
  | nil => exact hl
  | cons m k ih =>
    have h1 := hk.1
    have h2 := settled_nonneg hl
    rw [List.cons_append]
    refine ⟨?_, ih hk.2⟩
    simp only [owed_cons, owed_append] at *
    omega

/-- A list of parts takes from each semaphore's account and gives back the same, taking first; it holds no
part of START_UP. -/
def balanced (l : List Micro) : Prop :=
  (∀ x, owed x l = 0 ∧ settled x l) ∧ ∀ m ∈ l, m.starts = false

/-- A list of parts that owes what the part `m` did and holds no part of START_UP nor, unless `m` puts the
next byte of a frame, the storing of a byte: what `m` may leave. -/
def replaces (m : Micro) (l : List Micro) : Prop :=
  (∀ x, owed x l = m.owes x ∧ settled x l) ∧ (∀ y ∈ l, y.starts = false)
    ∧ (m ≠ .emitB → ∀ p b, .pipeStore p b ∉ l)

theorem balanced_append {k l : List Micro} (hk : balanced k) (hl : balanced l) :
    balanced (k ++ l) :=
  ⟨fun x => ⟨by rw [owed_append, (hk.1 x).1, (hl.1 x).1]; rfl,
    settled_append (hk.1 x).2 (hl.1 x).2⟩,
   fun m hm => (List.mem_append.mp hm).elim (hk.2 m) (hl.2 m)⟩

/-- A part that no account counts and that is none of START_UP's. -/
def Micro.free (m : Micro) : Prop := (∀ x, m.owes x = 0) ∧ m.starts = false

theorem balanced_free {l : List Micro} (h : ∀ m ∈ l, m.free) : balanced l := by
  refine ⟨fun x => ?_, fun m hm => (h m hm).2⟩
  induction l with
  | nil => exact ⟨rfl, trivial⟩
  | cons m l ih =>
    simp at h
    obtain ⟨h1, h2⟩ := ih h.2
    have := h.1.1 x
    refine ⟨by simp [this, h1], by simp [this, h1], h2⟩

theorem free_of {m : Micro} (h1 : ∀ x, m.gives x = 0) (h2 : ∀ p, m.grows p = 0) (h3 : m.sends = 0)
    (h4 : m.starts = false) : m.free :=
  ⟨fun x => by cases x <;> simp [Micro.owes, h1, h2, h3], h4⟩

theorem putBParts_balanced (p : PipeId) (b : Byte) (s : State) : balanced (putBParts p b s) := by
  unfold putBParts
  split
  all_goals
    refine ⟨fun x => ?_, by simp [Micro.starts]⟩
    cases p <;> rcases x with (_ | _) | (_ | _) | (_ | _) | _ <;>
      simp [settled, Micro.owes, Micro.gives, Micro.grows, Micro.sends]

theorem getBParts_balanced (p : PipeId) {m : Micro} (s : State)
    (hm : m = .pipeTake p ∨ (m = .codecTake ∧ p = .rxf)) : balanced (getBParts p m s) := by
  unfold getBParts
  rcases hm with rfl | ⟨rfl, rfl⟩ <;> split
  all_goals
    refine ⟨fun x => ?_, by simp [Micro.starts]⟩
    try cases p
  all_goals
    rcases x with (_ | _) | (_ | _) | (_ | _) | _ <;>
      simp [settled, Micro.owes, Micro.gives, Micro.grows, Micro.sends]

theorem frStepParts_balanced (s : State) : balanced (frStepParts s) :=
  getBParts_balanced .rxf s (.inr ⟨rfl, rfl⟩)

theorem emission_balanced (f : Frame) (s : State) : balanced (emission f s) := by
  unfold emission
  split
  all_goals
    refine ⟨fun x => ?_, by simp [Micro.starts]⟩
    rcases x with (_ | _) | (_ | _) | (_ | _) | _ <;>
      simp [settled, Micro.owes, Micro.gives, Micro.grows, Micro.sends]

theorem frGetParts_balanced (s : State) : balanced (frGetParts s) := by
  unfold frGetParts
  split
  · refine balanced_append (frStepParts_balanced s) (balanced_free ?_)
    intro m hm; simp at hm; subst hm
    exact free_of (fun _ => rfl) (fun _ => rfl) rfl rfl
  · refine balanced_free ?_
    intro m hm; simp at hm; subst hm
    exact free_of (fun _ => rfl) (fun _ => rfl) rfl rfl

theorem semWaitParts_balanced : balanced [.semWait .txlock, .hold] := by
  refine ⟨fun x => ?_, by simp [Micro.starts]⟩
  rcases x with (_ | _) | (_ | _) | (_ | _) | _ <;>
    simp [settled, Micro.owes, Micro.gives, Micro.grows, Micro.sends]

theorem balanced_one {m : Micro} (h : m.free) : balanced [m] :=
  balanced_free (fun y hy => by simp at hy; exact hy ▸ h)

end Sys2Proof.Machine
end

