-- ==== Sys2Proof/Laws/Pipe.lean ====
section
/-! SUPPORT. The Byte Pipe as a queue: what storing and removing a byte do to the stored run, and that
they keep the pipe's invariants (R22, R123). -/

namespace Sys2Proof.Machine.Pipe

variable {C : Nat} {p : Pipe}

theorem wf_congr {q : Pipe} (h1 : q.buf = p.buf) (h2 : q.startIx = p.startIx)
    (h3 : q.endIx = p.endIx) (h4 : q.count = p.count) (h : p.wf C) : q.wf C := by
  unfold wf inBounds at *; rw [h1, h2, h3, h4]; exact h

theorem stored_congr {q : Pipe} (h1 : q.buf = p.buf) (h2 : q.startIx = p.startIx)
    (h4 : q.count = p.count) : q.stored C = p.stored C := by
  unfold stored; rw [h1, h2, h4]

@[simp] theorem stored_length : (p.stored C).length = p.count := by simp [stored]

/-- Storing a byte in a pipe that is not full keeps its invariants. -/
theorem wf_store (h : p.wf C) (hc : p.count < C) (b : Byte) : (p.store C b).wf C := by
  obtain ⟨⟨hl, hs, _⟩, _, he⟩ := h
  refine ⟨⟨by simp [store, hl], hs, Nat.mod_lt _ (by omega)⟩, by simp only [store]; omega, ?_⟩
  simp only [store, he, Nat.mod_add_mod]
  congr 1

/-- Removing a byte from a pipe that is not empty keeps its invariants. -/
theorem wf_drop (h : p.wf C) (hc : 0 < p.count) : (p.drop C).wf C := by
  obtain ⟨⟨hl, hs, hs'⟩, hle, he⟩ := h
  refine ⟨⟨hl, Nat.mod_lt _ (by omega), hs'⟩, by simp only [drop]; omega, ?_⟩
  simp only [drop, he, Nat.mod_add_mod]
  congr 1
  omega

/-- Storing a byte appends it to the stored run (R22 (e)). -/
theorem stored_store (h : p.wf C) (hc : p.count < C) (b : Byte) :
    (p.store C b).stored C = p.stored C ++ [b] := by
  obtain ⟨⟨hl, hs, he'⟩, _, he⟩ := h
  unfold stored store
  simp only
  rw [List.range_succ, List.map_append]
  congr 1
  · apply List.map_congr_left
    intro i hi
    have hi := List.mem_range.mp hi
    have hne : (p.startIx + i) % C ≠ p.endIx := by
      rw [he]
      intro hcon
      have h1 : p.startIx + i < p.startIx + p.count := by omega
      have h2 : (p.startIx + p.count) - (p.startIx + i) < C := by omega
      have := (Nat.modEq_iff_dvd' (n := C) (Nat.le_of_lt h1)).mp hcon
      have := Nat.le_of_dvd (by omega) this
      omega
    rw [List.getD_eq_getElem?_getD, List.getD_eq_getElem?_getD, List.getElem?_set_ne (Ne.symm hne)]
  · simp only [List.map_cons, List.map_nil, ← he]
    rw [List.getD_eq_getElem?_getD, List.getElem?_set_self (by omega)]
    rfl

/-- Removing a byte takes it from the front of the stored run (R22 (d), (e)). -/
theorem stored_drop (hc : 0 < p.count) (hs : p.startIx < C) :
    p.stored C = p.oldest :: (p.drop C).stored C := by
  unfold stored drop oldest
  obtain ⟨n, hn⟩ := Nat.exists_eq_succ_of_ne_zero (by omega : p.count ≠ 0)
  simp only [hn, Nat.succ_eq_add_one, Nat.add_sub_cancel, List.range_succ_eq_map, List.map_cons,
    List.map_map, Nat.add_zero, Nat.mod_eq_of_lt hs]
  congr 1
  apply List.map_congr_left
  intro i _
  simp only [Function.comp_apply, Nat.succ_eq_add_one, Nat.mod_add_mod]
  congr 2
  omega

end Sys2Proof.Machine.Pipe
end

