-- ==== Sys2Proof/Laws/Run.lean ====
section
/-! SUPPORT. How a turn runs, what an operation does before its parts or instead of them, and the proof
principle for what every step keeps. -/

namespace Sys2Proof.Machine

variable {s t : State}

/-! ### Running -/

theorem run_nil (h : s.me.todo = []) : ∀ n, run n s = .next s
  | 0 => rfl
  | n + 1 => by unfold run; rw [h]

theorem run_go {m : Micro} {l : List Micro} {n : Nat} (h : s.me.todo = m :: l)
    (hm : micro m (s.setTodo l) = .go t) : run (n + 1) s = run n t := by
  rw [run, h]; simp only [hm]

theorem run_wait {m : Micro} {l : List Micro} (h : s.me.todo = m :: l)
    (hm : micro m (s.setTodo l) = .wait) : ∀ n, run n s = .next s
  | 0 => rfl
  | n + 1 => by rw [run, h]; simp only [hm]

theorem run_refuse {m : Micro} {l : List Micro} {r : Refusal} {n : Nat} (h : s.me.todo = m :: l)
    (hm : micro m (s.setTodo l) = .refuse r) : run (n + 1) s = .refused r := by
  rw [run, h]; simp only [hm]

/-- What every atomic part keeps, a turn keeps. -/
theorem run_keeps {P : State → Prop}
    (part : ∀ s t m l, P s → s.me.todo = m :: l → micro m (s.setTodo l) = .go t → P t) :
    ∀ (n : Nat) (s t : State), P s → run n s = .next t → P t
  | 0, s, t, hs, h => by cases h; exact hs
  | n + 1, s, t, hs, h => by
    unfold run at h
    split at h
    · cases h; exact hs
    · rename_i m l hl
      split at h
      · rename_i u hu; exact run_keeps part n u t (part s u m l hs hl hu) h
      · cases h; exact hs
      · cases h

theorem run_succ (n : Nat) (s : State) : run (n + 1) s = match s.me.todo with
    | [] => .next s
    | m :: l => match micro m (s.setTodo l) with
      | .go t => run n t
      | .wait => .next s
      | .refuse r => .refused r := rfl

/-- A turn that ends early leaves what a longer one leaves. -/
theorem run_add {u : State} : ∀ {n k : Nat} {s : State}, run n s = .next u →
    run (n + k) s = run k u
  | 0, k, s, h => by cases h; rw [Nat.zero_add]
  | n + 1, k, s, h => by
    rw [Nat.add_right_comm, run_succ]
    rw [run_succ] at h
    split at h
    · rename_i hl; cases h
      rw [run_nil hl]
    · rename_i m l hl
      split at h
      · rename_i v hv
        exact run_add h
      · rename_i hv
        cases h
        rw [run_wait hl hv]
      · cases h

/-! ### What an operation does before or instead of its parts -/

/-- An operation that is atomic, or that has failed at once. -/
inductive Atomic (i : Instr) (s : State) : State → Prop
  | answer (r : Response) : Atomic i s (s.respond r)
  | init (p : PipeId) (hi : i = .pipeInit p) :
      Atomic i s (((s.setPipe p ((s.pipe p).init s)).setUsers p ⟨none, none⟩).respond .done)
  | put (p : PipeId) (b : Byte) (r : Response) (hi : i = .pipePut p b)
      (hp : s.polled = true) (hf : (s.pipe p).full s.build.capacity = false) :
      Atomic i s ((s.setPipe p ((s.pipe p).store s.build.capacity b)).respond r)
  | get (p : PipeId) (r : Response) (hi : i = .pipeGet p) (hp : s.polled = true)
      (hc : (s.pipe p).count ≠ 0) :
      Atomic i s ((s.setPipe p ((s.pipe p).drop s.build.capacity)).respond r)
  | signal (r : Response) (hi : i = .semSignal .txlock) (ht : s.threaded = true)
      (hh : s.me.held = true) :
      Atomic i s (((s.setTxlock (s.txlock + 1)).setHeld false).respond r)
  | codecInit (r : Response) (hi : i = .codecInit) : Atomic i s ((codecInit s).respond r)
  | codec (b : Byte) (r : Response) (hi : i = .frStep) :
      Atomic i s ((s.setFr (s.fr.takeByte b).1).respond r)
  | step (r : Response) (hi : i = .frStep) (hp : s.polled = true) (hc : s.rxf.count ≠ 0) :
      Atomic i s (((s.setPipe .rxf (s.rxf.drop s.build.capacity)).setFr
        (s.fr.takeByte s.rxf.oldest).1).respond r)
  | nvInit (r : Response) (hi : i = .nvInit) :
      Atomic i s ((s.setAlloc (emptyMap s.build.regionLen)).respond r)
  | alloc (n : Byte) (p : Nat) (r : Response) (hi : i = .nvAlloc n)
      (hp : findFree s.alloc n.toNat = some p) :
      Atomic i s ((s.setAlloc (markUsed s.alloc n.toNat p)).respond r)
  | launch (d : Descriptor) (r : Response) (hi : i = .seqLaunch d) (hc : s.seq.complete = true)
      (hw : s.ws.state = .idle) : Atomic i s ((launch d s).respond r)

/-- The kinds of parts an operation may have. -/
def mayDo : Instr → Kind → Prop
  | .frStep, k | .frGet, k => k = .plain ∨ k = .codec
  | .nvWrite8 _ _, k | .nvWrite16 _ _, k | .nvWrite32 _ _, k | .nvErase, k | .seqWait, k
  | .seqExec, k | .fcmdPgm8 _ _, k | .fcmdErsscr _ _, k => k = .plain ∨ k = .store
  | .dispatch _ _ _ _, k | .cmdStartup _ _ _ _ _, k | .cmdPgmbyte _ _ _ _ _, k
  | .cmdRdbyte _ _ _ _ _, k | .cmdVersion _ _ _ _ _, k | .cmdProtocol _ _ _ _ _, k
  | .cmdNumber _ _ _ _ _, k | .cmdTime _ _ _ _ _, k | .cmdMode _ _ _ _ _, k =>
    k = .plain ∨ k = .store ∨ k = .handle
  | .pipeInit _, k | .pipePut _ _, k | .pipeGet _, k | .pipePutB _ _, k | .pipeGetB _, k
  | .semWait _, k | .semSignal _, k | .codecInit, k | .frPut _ _ _ _, k | .frPutB _ _ _ _, k
  | .nvInit, k | .nvAlloc _, k | .nvRead8 _, k | .nvRead16 _, k | .nvRead32 _, k
  | .seqLaunch _, k => k = .plain

/-- The state an operation that is not atomic begins its parts in. -/
inductive Begun (i : Instr) (s : State) : State → Prop
  | parts (l : List Micro) (v : State) (hk : ∀ m ∈ l, mayDo i m.kind) (hf : ∀ m ∈ l, m.fits s)
      (hb : balanced l) (hp : ∀ p b, .pipeStore p b ∈ l → i = .pipePutB p b)
      (hv : v = s ∨ ∃ p u, v = s.setUsers p u) :
      Begun i s ((v.setTodo l).respond .pending)
  | launched (d : Descriptor) (hc : s.seq.complete = true) (hw : s.ws.state = .idle)
      (hk : mayDo i .store) : Begun i s (((launch d s).setTodo [.seqWait]).respond .pending)
  | accepted (j : StoreJob) (h : storeStart j s = .accepted (accept j s)) (hk : mayDo i .store) :
      Begun i s (((accept j s).setTodo [.store]).respond .pending)

theorem issue_next {k : State → Host.Outcome State Fault Refusal} (h : issue k s = .next t) :
    s.build.ok = true ∧ s.me.todo = [] ∧ k s = .next t := by
  unfold issue at h
  split at h
  · cases h
  · split at h
    · cases h
    · rename_i h1 h2
      exact ⟨by simpa using h1, by simpa using h2, h⟩

theorem issue_canAsk {k : State → Host.Outcome State Fault Refusal} (h : s.canAsk = true) :
    issue k s = k s := by
  unfold State.canAsk at h
  simp only [Bool.and_eq_true, List.isEmpty_iff] at h
  unfold issue
  simp [h.1, h.2]

theorem State.ready.canAsk (h : s.ready = true) : s.canAsk = true := by
  unfold State.ready at h
  exact (Bool.and_eq_true .. ▸ h : _ ∧ _).1

theorem State.ready.mayAct (h : s.ready = true) : s.mayAct = true := by
  unfold State.ready at h
  exact (Bool.and_eq_true .. ▸ h : _ ∧ _).2

theorem issue_ready {k : State → Host.Outcome State Fault Refusal} (h : s.ready = true) :
    issue k s = k s := issue_canAsk (State.ready.canAsk h)

theorem need_next {c : Bool} {r : Refusal} {k : Host.Outcome State Fault Refusal}
    (h : need c r k = .next t) : c = true ∧ k = .next t := by
  unfold need at h
  split at h
  · exact ⟨‹_›, h⟩
  · cases h

@[simp] theorem need_true (r : Refusal) (k : Host.Outcome State Fault Refusal) :
    need true r k = k := rfl

theorem notePut_or (p : PipeId) (l : Bool) (s : State) :
    s.notePut p l = s ∨ ∃ q u, s.notePut p l = s.setUsers q u :=
  (notePut_set p l s).imp id (fun ⟨u, h⟩ => ⟨p, u, h⟩)

theorem noteGet_or (p : PipeId) (s : State) :
    s.noteGet p = s ∨ ∃ q u, s.noteGet p = s.setUsers q u :=
  (noteGet_set p s).imp id (fun ⟨u, h⟩ => ⟨p, u, h⟩)

theorem noteStep_or (s : State) : s.noteStep = s ∨ ∃ q u, s.noteStep = s.setUsers q u :=
  (noteStep_set s).imp id (fun ⟨u, h⟩ => ⟨.rxf, u, h⟩)

theorem settle_next {x : Except Refusal State} (h : settle x = .next t) : x = .ok t := by
  cases x with
  | error e => cases h
  | ok u => cases h; rfl

theorem map_ok {α β : Type} {x : Except Refusal α} {f : α → β} {b : β} (h : x.map f = .ok b) :
    ∃ a, x = .ok a ∧ b = f a := by
  cases x with
  | error e => cases h
  | ok a => cases h; exact ⟨a, rfl, rfl⟩

theorem putB_stores {p : PipeId} {b : Byte} (q : PipeId) (v : Byte)
    (h : .pipeStore q v ∈ putBParts p b s ++ [.ret .done]) : Instr.pipePutB p b = .pipePutB q v := by
  unfold putBParts at h
  split at h <;> (simp at h; rw [h.1, h.2])

theorem getBParts_stores {p q : PipeId} {b : Byte} {m : Micro} (hm : .pipeStore q b ≠ m) :
    .pipeStore q b ∉ getBParts p m s := by
  unfold getBParts
  split <;> simp [hm]

theorem emission_stores {f : Frame} {q : PipeId} {b : Byte} : .pipeStore q b ∉ emission f s := by
  unfold emission
  split <;> simp

theorem frGetParts_stores {q : PipeId} {b : Byte} : .pipeStore q b ∉ frGetParts s := by
  unfold frGetParts frStepParts
  split
  · simpa using getBParts_stores (by simp)
  · simp

/-- An operation that answers a next state is an instance of the block, its agent was free, and it is
atomic or it begins its parts and takes its turn. -/
theorem exec_next {i : Instr} (h : exec i s = .next t) :
    s.build.ok = true ∧ s.me.todo = []
      ∧ (Atomic i s t ∨ ∃ u, Begun i s u ∧ run s.turn u = .next t) := by
  have one : ∀ m, mayDo i m.kind → m.threadedOnly = false → m.free →
      Begun i s ((s.setTodo [m]).respond .pending) := fun m hk hf hb =>
    .parts [m] s (fun y hy => by simp at hy; exact hy ▸ hk)
      (fun y hy => by simp at hy; exact hy ▸ fun _ => hf) (balanced_one hb)
      (fun p b hm => by simp at hm; subst hm; cases hf) (.inl rfl)
  have reads : ∀ {a n v}, storeRead a n v s = .next t → Atomic i s t := by
    intro a n v h
    unfold storeRead at h
    obtain ⟨_, h⟩ := need_next h
    split at h
    · cases h; exact .answer _
    · cases h
    · cases h; exact .answer _
  have writes : ∀ {j}, storeRun j s = .next t → mayDo i .store →
      Atomic i s t ∨ ∃ u, Begun i s u ∧ run s.turn u = .next t := by
    intro j h hk
    unfold storeRun at h
    obtain ⟨_, h⟩ := need_next h
    split at h
    · cases h; exact .inl (.answer _)
    · cases h
    · rename_i u hu
      obtain ⟨_, rfl, _⟩ := storeStart_accepted hu
      exact .inr ⟨_, .accepted j hu hk, h⟩
  have frames : ∀ {f chk}, frameRun f chk s = .next t → (∀ f, mayDo i (Micro.handle f).kind) →
      s.build.ok = true ∧ s.me.todo = []
        ∧ (Atomic i s t ∨ ∃ u, Begun i s u ∧ run s.turn u = .next t) := by
    intro f chk h hk
    unfold frameRun at h
    obtain ⟨h1, h2, h⟩ := issue_next h
    obtain ⟨_, h⟩ := need_next h
    refine ⟨h1, h2, ?_⟩
    split at h
    · exact .inr ⟨_, one _ (hk f) rfl (free_of (fun _ => rfl) (fun _ => rfl) rfl rfl), h⟩
    · cases h; exact .inl (.answer _)
  have gives : ∀ {d}, giveDescriptor d s = .next t → mayDo i .store →
      s.build.ok = true ∧ s.me.todo = []
        ∧ (Atomic i s t ∨ ∃ u, Begun i s u ∧ run s.turn u = .next t) := by
    intro d h hk
    unfold giveDescriptor launchFromOutside at h
    obtain ⟨h1, h2, h⟩ := issue_next h
    obtain ⟨_, h⟩ := need_next h
    obtain ⟨h3, h⟩ := need_next h
    obtain ⟨h4, h⟩ := need_next h
    exact ⟨h1, h2, .inr ⟨_, .launched d h3 (by simpa using h4) hk, h⟩⟩
  cases i with
  | pipeInit p =>
    simp only [exec, execPipeInit] at h
    obtain ⟨h1, h2, h⟩ := issue_next h
    obtain ⟨_, h⟩ := need_next h
    refine ⟨h1, h2, .inl ?_⟩
    obtain ⟨u, hu, rfl⟩ := map_ok (settle_next h)
    obtain ⟨_, rfl⟩ := pipeInit_ok hu
    exact .init p rfl
  | pipePut p b =>
    simp only [exec, execPipePut] at h
    obtain ⟨h1, h2, h⟩ := issue_next h
    refine ⟨h1, h2, .inl ?_⟩
    obtain ⟨u, hu, rfl⟩ := map_ok (settle_next h)
    obtain ⟨hp, _, _, ⟨_, rfl⟩ | ⟨hf, rfl⟩⟩ := pipePut_ok hu
    · exact .answer _
    · exact .put p b _ rfl hp hf
  | pipeGet p =>
    simp only [exec, execPipeGet] at h
    obtain ⟨h1, h2, h⟩ := issue_next h
    refine ⟨h1, h2, .inl ?_⟩
    obtain ⟨u, hu, rfl⟩ := map_ok (settle_next h)
    obtain ⟨hp, _, _, ⟨_, rfl⟩ | ⟨hf, rfl⟩⟩ := pipeGet_ok hu
    · exact .answer _
    · exact .get p _ rfl hp hf
  | pipePutB p b =>
    simp only [exec, execPipePutB] at h
    obtain ⟨h1, h2, h⟩ := issue_next h
    obtain ⟨h3, h⟩ := need_next h
    obtain ⟨_, h⟩ := need_next h
    obtain ⟨_, h⟩ := need_next h
    obtain ⟨_, h⟩ := need_next h
    unfold begin at h
    rw [State.notePut_turn] at h
    refine ⟨h1, h2, .inr ⟨_, .parts _ _ ?_ (fun m _ hp => absurd hp (not_polled_of_threaded h3))
      (balanced_append (putBParts_balanced p b s) (balanced_one (m := .ret .done)
        (free_of (fun _ => rfl) (fun _ => rfl) rfl rfl))) putB_stores (notePut_or _ _ _), h⟩⟩
    intro m hm
    rcases List.mem_append.mp hm with hm | hm
    · exact putBParts_mem hm
    · simp at hm; subst hm; rfl
  | pipeGetB p =>
    simp only [exec, execPipeGetB] at h
    obtain ⟨h1, h2, h⟩ := issue_next h
    obtain ⟨h3, h⟩ := need_next h
    obtain ⟨_, h⟩ := need_next h
    obtain ⟨_, h⟩ := need_next h
    obtain ⟨_, h⟩ := need_next h
    unfold begin at h
    rw [State.noteGet_turn] at h
    exact ⟨h1, h2, .inr ⟨_, .parts _ _
      (fun m hm => (getBParts_mem hm).elim id (fun e => by subst e; rfl))
      (fun m _ hp => absurd hp (not_polled_of_threaded h3)) (getBParts_balanced _ _ (.inl rfl))
      (fun q b hm => absurd hm (getBParts_stores (by simp))) (noteGet_or _ _), h⟩⟩
  | semWait x =>
    simp only [exec, execSemWait] at h
    obtain ⟨h1, h2, h⟩ := issue_next h
    obtain ⟨h3, h⟩ := need_next h
    obtain ⟨_, h⟩ := need_next h
    obtain ⟨hx, h⟩ := need_next h
    obtain ⟨_, h⟩ := need_next h
    rw [decide_eq_true_eq] at hx
    subst hx
    refine ⟨h1, h2, .inr ⟨_, .parts _ _ ?_ (fun m _ hp => absurd hp (not_polled_of_threaded h3))
      semWaitParts_balanced (by simp) (.inl rfl), h⟩⟩
    intro m hm
    simp at hm
    rcases hm with rfl | rfl <;> rfl
  | semSignal x =>
    simp only [exec, execSemSignal] at h
    obtain ⟨h1, h2, h⟩ := issue_next h
    obtain ⟨h3, h⟩ := need_next h
    obtain ⟨_, h⟩ := need_next h
    obtain ⟨hx, h⟩ := need_next h
    simp only [Bool.and_eq_true, decide_eq_true_eq] at hx
    obtain ⟨rfl, hh⟩ := hx
    obtain ⟨_, h⟩ := need_next h
    cases h
    exact ⟨h1, h2, .inl (.signal _ rfl h3 hh)⟩
  | codecInit =>
    simp only [exec, execCodecInit] at h
    obtain ⟨h1, h2, h⟩ := issue_next h
    obtain ⟨_, h⟩ := need_next h
    cases h
    exact ⟨h1, h2, .inl (.codecInit _ rfl)⟩
  | frStep =>
    simp only [exec, execFrStep] at h
    obtain ⟨h1, h2, h⟩ := issue_next h
    obtain ⟨_, h⟩ := need_next h
    obtain ⟨_, h⟩ := need_next h
    obtain ⟨_, h⟩ := need_next h
    refine ⟨h1, h2, ?_⟩
    split at h
    · rename_i h3
      unfold begin at h
      rw [State.noteStep_turn] at h
      exact .inr ⟨_, .parts _ _ (fun m hm => frStepParts_mem hm)
        (fun m _ hp => absurd hp (not_polled_of_threaded h3)) (frStepParts_balanced s)
        (fun q b hm => absurd hm (getBParts_stores (by simp))) (noteStep_or s), h⟩
    · obtain ⟨hp, _, ⟨_, rfl⟩ | ⟨_, _, ⟨_, rfl⟩ | ⟨hc, rfl⟩⟩⟩ := frStep_ok (settle_next h)
      · exact .inl (.codec 0#8 _ rfl)
      · exact .inl (.answer _)
      · exact .inl (.step _ rfl hp hc)
  | frGet =>
    simp only [exec, execFrGet] at h
    obtain ⟨h1, h2, h⟩ := issue_next h
    obtain ⟨_, h⟩ := need_next h
    obtain ⟨_, h⟩ := need_next h
    obtain ⟨_, h⟩ := need_next h
    unfold begin at h
    rw [State.noteStep_turn] at h
    exact ⟨h1, h2, .inr ⟨_, .parts _ _ (fun m hm => (frGetParts_mem hm).1)
      (fun m hm => (frGetParts_mem hm).2) (frGetParts_balanced s)
      (fun q b hm => absurd hm frGetParts_stores) (noteStep_or s), h⟩⟩
  | frPut c p1 p2 p3 =>
    simp only [exec, execFrPut] at h
    obtain ⟨h1, h2, h⟩ := issue_next h
    obtain ⟨_, h⟩ := need_next h
    obtain ⟨_, h⟩ := need_next h
    obtain ⟨_, h⟩ := need_next h
    exact ⟨h1, h2, .inr ⟨_, .parts _ _ (fun m hm => (emission_mem hm).1)
      (fun m hm => (emission_mem hm).2) (emission_balanced _ s)
      (fun q b hm => absurd hm emission_stores) (.inl rfl), h⟩⟩
  | frPutB c p1 p2 p3 =>
    simp only [exec, execFrPutB] at h
    obtain ⟨h1, h2, h⟩ := issue_next h
    obtain ⟨_, h⟩ := need_next h
    obtain ⟨_, h⟩ := need_next h
    obtain ⟨_, h⟩ := need_next h
    exact ⟨h1, h2, .inr ⟨_, .parts _ _ (fun m hm => (emission_mem hm).1)
      (fun m hm => (emission_mem hm).2) (emission_balanced _ s)
      (fun q b hm => absurd hm emission_stores) (.inl rfl), h⟩⟩
  | nvInit =>
    simp only [exec, execNvInit] at h
    obtain ⟨h1, h2, h⟩ := issue_next h
    obtain ⟨_, h⟩ := need_next h
    cases h
    exact ⟨h1, h2, .inl (.nvInit _ rfl)⟩
  | nvAlloc n =>
    simp only [exec, execNvAlloc] at h
    obtain ⟨h1, h2, h⟩ := issue_next h
    obtain ⟨_, h⟩ := need_next h
    refine ⟨h1, h2, .inl ?_⟩
    split at h
    · rename_i a u hu
      obtain ⟨_, p, hp, he⟩ := allocate_ok hu
      cases he; cases h
      exact .alloc n p _ rfl hp
    · cases h; exact .answer _
  | nvRead8 a =>
    simp only [exec, execNvRead8] at h
    obtain ⟨h1, h2, h⟩ := issue_next h
    exact ⟨h1, h2, .inl (reads h)⟩
  | nvRead16 a =>
    simp only [exec, execNvRead16] at h
    obtain ⟨h1, h2, h⟩ := issue_next h
    exact ⟨h1, h2, .inl (reads h)⟩
  | nvRead32 a =>
    simp only [exec, execNvRead32] at h
    obtain ⟨h1, h2, h⟩ := issue_next h
    exact ⟨h1, h2, .inl (reads h)⟩
  | nvWrite8 a v =>
    simp only [exec, execNvWrite8] at h
    obtain ⟨h1, h2, h⟩ := issue_next h; exact ⟨h1, h2, writes h (.inr rfl)⟩
  | nvWrite16 a v =>
    simp only [exec, execNvWrite16] at h
    obtain ⟨h1, h2, h⟩ := issue_next h; exact ⟨h1, h2, writes h (.inr rfl)⟩
  | nvWrite32 a v =>
    simp only [exec, execNvWrite32] at h
    obtain ⟨h1, h2, h⟩ := issue_next h; exact ⟨h1, h2, writes h (.inr rfl)⟩
  | nvErase =>
    simp only [exec, execNvErase] at h
    obtain ⟨h1, h2, h⟩ := issue_next h
    exact ⟨h1, h2, writes h (.inr rfl)⟩
  | seqLaunch d =>
    simp only [exec, execSeqLaunch] at h
    obtain ⟨h1, h2, h⟩ := issue_next h
    obtain ⟨_, h⟩ := need_next h
    obtain ⟨h3, h⟩ := need_next h
    obtain ⟨h4, h⟩ := need_next h
    cases h
    exact ⟨h1, h2, .inl (.launch d _ rfl h3 (by simpa using h4))⟩
  | seqWait =>
    simp only [exec, execSeqWait] at h
    obtain ⟨h1, h2, h⟩ := issue_next h
    obtain ⟨_, h⟩ := need_next h
    exact ⟨h1, h2, .inr ⟨_, one .seqWait (.inr rfl) rfl
      (free_of (fun _ => rfl) (fun _ => rfl) rfl rfl), h⟩⟩
  | seqExec =>
    simp only [exec, execSeqExec] at h
    obtain ⟨h1, h2, h⟩ := issue_next h
    obtain ⟨_, h⟩ := need_next h
    exact ⟨h1, h2, .inr ⟨_, one .seqExec (.inr rfl) rfl
      (free_of (fun _ => rfl) (fun _ => rfl) rfl rfl), h⟩⟩
  | dispatch c p1 p2 p3 =>
    simp only [exec, execDispatch] at h
    obtain ⟨h1, h2, h⟩ := issue_next h
    obtain ⟨_, h⟩ := need_next h
    exact ⟨h1, h2, .inr ⟨_, one (.handle ⟨c, p1, p2, p3⟩) (.inr (.inr rfl)) rfl
      (free_of (fun _ => rfl) (fun _ => rfl) rfl rfl), h⟩⟩
  | cmdStartup ack p1 p2 p3 chk =>
    simp only [exec, execCmdStartup] at h
    exact frames h (fun _ => .inr (.inr rfl))
  | cmdPgmbyte ack p1 p2 p3 chk =>
    simp only [exec, execCmdPgmbyte] at h
    exact frames h (fun _ => .inr (.inr rfl))
  | cmdRdbyte ack p1 p2 p3 chk =>
    simp only [exec, execCmdRdbyte] at h
    exact frames h (fun _ => .inr (.inr rfl))
  | cmdVersion ack p1 p2 p3 chk =>
    simp only [exec, execCmdVersion] at h
    exact frames h (fun _ => .inr (.inr rfl))
  | cmdProtocol ack p1 p2 p3 chk =>
    simp only [exec, execCmdProtocol] at h
    exact frames h (fun _ => .inr (.inr rfl))
  | cmdNumber ack p1 p2 p3 chk =>
    simp only [exec, execCmdNumber] at h
    exact frames h (fun _ => .inr (.inr rfl))
  | cmdTime ack p1 p2 p3 chk =>
    simp only [exec, execCmdTime] at h
    exact frames h (fun _ => .inr (.inr rfl))
  | cmdMode ack p1 p2 p3 chk =>
    simp only [exec, execCmdMode] at h
    exact frames h (fun _ => .inr (.inr rfl))
  | fcmdPgm8 a d =>
    simp only [exec, execFcmdPgm8] at h
    exact gives h (.inr rfl)
  | fcmdErsscr a d =>
    simp only [exec, execFcmdErsscr] at h
    exact gives h (.inr rfl)

/-- Bytes that a request carries run an operation of the table, or, for a frame whose code has no row, do
what DISPATCH of that frame does. -/
theorem runBytes_next {f : Format} {bytes : List Byte} (h : runBytes f bytes s = .next t) :
    s.build.ok = true ∧ s.me.todo = []
      ∧ ∃ i, (decode f bytes = .ok i ∨ i = .dispatch 0#8 0#8 0#8 0#8)
        ∧ (Atomic i s t ∨ ∃ u, Begun i s u ∧ run s.turn u = .next t) := by
  unfold runBytes at h
  split at h
  · rename_i i hd
    obtain ⟨h1, h2, h3⟩ := exec_next h
    exact ⟨h1, h2, i, .inl hd, h3⟩
  · rename_i g chk _
    unfold execUnknownFrame frameRun at h
    obtain ⟨h1, h2, h⟩ := issue_next h
    obtain ⟨_, h⟩ := need_next h
    refine ⟨h1, h2, .dispatch 0#8 0#8 0#8 0#8, .inr rfl, ?_⟩
    split at h
    · refine .inr ⟨_, .parts [.handle g] s ?_ ?_ (balanced_one (free_of (fun _ => rfl)
        (fun _ => rfl) rfl rfl)) (by simp) (.inl rfl), h⟩
      · intro m hm; simp at hm; subst hm; exact .inr (.inr rfl)
      · intro m hm; simp at hm; subst hm; exact fun _ => rfl
    · cases h; exact .inl (.answer _)
  · cases h

/-- Everything a step can be, event by event. -/
inductive StepCase (s t : State) : Prop
  | none (hq : s.queue = []) (ht : t = s)
  | request (who : Agent) (f : Format) (bytes : List Byte) (turn : Nat) (q : List Event) (i : Instr)
      (v : State) (hq : s.queue = .request who f bytes turn :: q)
      (hv : v = (s.take q turn).switchTo who)
      (hi : decode f bytes = .ok i ∨ i = .dispatch 0#8 0#8 0#8 0#8)
      (hb : v.build.ok = true) (hl : v.me.todo = [])
      (h : Atomic i v t ∨ ∃ u, Begun i v u ∧ run v.turn u = .next t)
  | resume (who : Agent) (turn : Nat) (q : List Event) (hq : s.queue = .resume who turn :: q)
      (h : run turn ((s.take q turn).switchTo who) = .next t)
  | startUp (turn : Nat) (q : List Event) (v : State) (hq : s.queue = .startUp turn :: q)
      (hv : v = (s.take q turn).switchTo .task) (hl : v.me.todo = [])
      (hn : v.nvNumber = none) (hm : v.nvMode = none)
      (h : run v.turn ((v.setTodo startUpParts).respond .pending) = .next t)
  | startHandle (turn : Nat) (q : List Event) (v : State) (hq : s.queue = .startHandle turn :: q)
      (hv : v = (s.take q turn).switchTo .task) (hl : v.me.todo = [])
      (h : run v.turn ((v.setTodo (startHandleParts v)).respond .pending) = .next t)
  | restart (q : List Event) (hq : s.queue = .restart :: q) (ht : t = (s.take q s.turn).restart)

theorem step_case (h : step s = .next t) : StepCase s t := by
  unfold step at h
  split at h
  · rename_i hq; cases h; exact .none hq rfl
  · rename_i e q hq
    unfold event at h
    split at h
    · rename_i who f bytes turn
      obtain ⟨h1, h2, i, hi, h⟩ := runBytes_next h
      exact .request who f bytes turn q i _ hq rfl hi h1 h2 h
    · exact .resume _ _ q hq h
    · obtain ⟨_, h2, h⟩ := issue_next h
      obtain ⟨h3, h⟩ := need_next h
      simp only [Bool.and_eq_true, Option.isNone_iff_eq_none] at h3
      exact .startUp _ q _ hq rfl h2 h3.1 h3.2 h
    · obtain ⟨_, h2, h⟩ := issue_next h
      exact .startHandle _ q _ hq rfl h2 h
    · cases h; exact .restart q hq rfl

/-- The proof principle for invariants: what atomic operations, the beginning of the others, every atomic
part, START_UP, a change of agent and the restart keep, a step keeps. -/
theorem step_keeps {P : State → Prop}
    (atomic : ∀ i s t, P s → Atomic i s t → P t)
    (begun : ∀ i s u, P s → s.build.ok = true → s.me.todo = [] → Begun i s u → P u)
    (part : ∀ s t m l, P s → s.me.todo = m :: l → micro m (s.setTodo l) = .go t → P t)
    (startUp : ∀ s l, P s → s.me.todo = [] → l = startUpParts ∨ l = startHandleParts s →
      P ((s.setTodo l).respond .pending))
    (switch : ∀ s q n a, P s → P ((s.take q n).switchTo a))
    (restart : ∀ q, s.queue = .restart :: q → P (s.take q s.turn).restart)
    (hs : P s) (h : step s = .next t) : P t := by
  have keeps := run_keeps part
  cases step_case h with
  | none _ ht => exact ht ▸ hs
  | request who f bytes turn q i v hq hv hi hb hl h =>
    have hp : P v := hv ▸ switch s q turn who hs
    rcases h with h | ⟨u, hu, h⟩
    · exact atomic i _ _ hp h
    · exact keeps _ _ _ (begun i _ _ hp hb hl hu) h
  | resume who turn q hq h => exact keeps _ _ _ (switch s q _ _ hs) h
  | startUp turn q v hq hv hl _ _ h =>
    have hp : P v := hv ▸ switch s q turn _ hs
    exact keeps _ _ _ (startUp _ _ hp hl (.inl rfl)) h
  | startHandle turn q v hq hv hl h =>
    have hp : P v := hv ▸ switch s q turn _ hs
    exact keeps _ _ _ (startUp _ _ hp hl (.inr rfl)) h
  | restart q hq ht => exact ht ▸ restart q hq

end Sys2Proof.Machine
end

