-- ==== Sys2Proof/Laws/Steps.lean ====
section
/-! SUPPORT. Running parts one after another, and the blocking forms of put and get (R124, R125) where none
of their parts waits. -/

namespace Sys2Proof.Machine

/-- In `k` parts the running agent takes `s` to `t`, whatever the length of the turn after them. -/
def Steps (k : Nat) (s t : State) : Prop := ∀ n, run (n + k) s = run n t

/-- No part, no change. -/
theorem Steps.refl (s : State) : Steps 0 s s := fun _ => rfl

/-- Parts one after another. -/
theorem Steps.trans {j k : Nat} {s t u : State} (h : Steps j s t) (h' : Steps k t u) :
    Steps (j + k) s u := fun n => by
  rw [show n + (j + k) = (n + k) + j by omega, h, h']

/-- One part. -/
theorem Steps.one {s t : State} {m : Micro} {l : List Micro} (h : s.me.todo = m :: l)
    (hm : micro m (s.setTodo l) = .go t) : Steps 1 s t := fun _ => run_go h hm

/-- Where the parts end, said otherwise. -/
theorem Steps.to {k : Nat} {s t u : State} (h : Steps k s t) (e : t = u) : Steps k s u := e ▸ h

/-- One part, then more. -/
theorem Steps.cons {k : Nat} {s t u : State} {m : Micro} {l : List Micro} (h : s.me.todo = m :: l)
    (hm : micro m (s.setTodo l) = .go t) (ht : Steps k t u) : Steps (k + 1) s u := fun n => by
  rw [show n + (k + 1) = (n + k) + 1 by omega, run_go h hm, ht]

/-- A turn long enough ends where the parts end. -/
theorem Steps.run {k n : Nat} {s t : State} (h : Steps k s t) (hn : k ≤ n) (ht : t.me.todo = []) :
    run n s = .next t := by
  rw [show n = (n - k) + k by omega, h, run_nil ht]

variable {s : State}

/-- `s` with one pipe and the parts still to do replaced. -/
def State.at (s : State) (p : PipeId) (q : Pipe) (l : List Micro) : State := (s.setPipe p q).setTodo l

/-- A state is itself with its own pipe and parts. -/
theorem State.eq_at (s : State) (p : PipeId) : s = s.at p (s.pipe p) s.me.todo := by cases p <;> rfl

/-- SEM_WAIT on `space` above 0 takes one. -/
theorem at_wait_space (p : PipeId) (q : Pipe) (l : List Micro) (h : 0 < q.space) :
    Steps 1 (s.at p q (.semWait (.space p) :: l)) (s.at p { q with space := q.space - 1 } l) := by
  cases p <;>
  · refine Steps.one (m := .semWait _) rfl ?_
    have : ¬ q.space = 0 := by omega
    simp only [micro, semValue, State.at, State.pipe, State.setPipe, State.setTodo, this, if_false]
    rfl

/-- SEM_WAIT on `items` above 0 takes one. -/
theorem at_wait_items (p : PipeId) (q : Pipe) (l : List Micro) (h : 0 < q.items) :
    Steps 1 (s.at p q (.semWait (.items p) :: l)) (s.at p { q with items := q.items - 1 } l) := by
  cases p <;>
  · refine Steps.one (m := .semWait _) rfl ?_
    have : ¬ q.items = 0 := by omega
    simp only [micro, semValue, State.at, State.pipe, State.setPipe, State.setTodo, this, if_false]
    rfl

/-- SEM_WAIT on a free lock takes it. -/
theorem at_wait_lock (p : PipeId) (q : Pipe) (l : List Micro) (h : 0 < q.lock) :
    Steps 1 (s.at p q (.semWait (.lock p) :: l)) (s.at p { q with lock := q.lock - 1 } l) := by
  cases p <;>
  · refine Steps.one (m := .semWait _) rfl ?_
    have : ¬ q.lock = 0 := by omega
    simp only [micro, semValue, State.at, State.pipe, State.setPipe, State.setTodo, this, if_false]
    rfl

/-- SEM_SIGNAL on `space` gives one. -/
theorem at_signal_space (p : PipeId) (q : Pipe) (l : List Micro) :
    Steps 1 (s.at p q (.semSignal (.space p) :: l)) (s.at p { q with space := q.space + 1 } l) := by
  cases p <;> exact Steps.one (m := .semSignal _) rfl rfl

/-- SEM_SIGNAL on `items` gives one. -/
theorem at_signal_items (p : PipeId) (q : Pipe) (l : List Micro) :
    Steps 1 (s.at p q (.semSignal (.items p) :: l)) (s.at p { q with items := q.items + 1 } l) := by
  cases p <;> exact Steps.one (m := .semSignal _) rfl rfl

/-- SEM_SIGNAL on the lock gives it back. -/
theorem at_signal_lock (p : PipeId) (q : Pipe) (l : List Micro) :
    Steps 1 (s.at p q (.semSignal (.lock p) :: l)) (s.at p { q with lock := q.lock + 1 } l) := by
  cases p <;> exact Steps.one (m := .semSignal _) rfl rfl

/-- PIPE_PUT_B's line 3. -/
theorem at_store (p : PipeId) (q : Pipe) (b : Byte) (l : List Micro) (hi : q.inited = true) :
    Steps 1 (s.at p q (.pipeStore p b :: l)) (s.at p (q.store s.build.capacity b) l) := by
  cases p <;>
  · refine Steps.one (m := .pipeStore _ _) rfl ?_
    simp only [micro, pipeStoreAs]
    rw [if_neg]
    · rfl
    · exact fun h => Bool.noConfusion (hi.symm.trans h)

/-- PIPE_GET_B's line 3. -/
theorem at_take (p : PipeId) (q : Pipe) (l : List Micro) (hi : q.inited = true) :
    Steps 1 (s.at p q (.pipeTake p :: l))
      ((s.respond (.byte q.oldest)).at p (q.drop s.build.capacity) l) := by
  cases p <;>
  · refine Steps.one (m := .pipeTake _) rfl ?_
    simp only [micro, pipeDropAs]
    rw [if_neg]
    · rfl
    · exact fun h => Bool.noConfusion (hi.symm.trans h)

/-- Line 3 of FR_STEP's PIPE_GET_B with the update of the codec's registers (R71, R141). -/
theorem at_codecTake (q : Pipe) (l : List Micro) (hi : q.inited = true) :
    Steps 1 (s.at .rxf q (.codecTake :: l))
      ((codecTakeByte q.oldest s).at .rxf (q.drop s.build.capacity) l) := by
  refine Steps.one (m := .codecTake) rfl ?_
  simp only [micro, codecTakePart, pipeDropAs]
  rw [if_neg]
  · rfl
  · exact fun h => Bool.noConfusion (hi.symm.trans h)

namespace Pipe

/-- What PIPE_PUT_B leaves of a pipe it has not waited at (R124). -/
def putB (capacity : Nat) (b : Byte) (p : Pipe) : Pipe :=
  { p with
    buf := p.buf.set p.endIx b
    endIx := (p.endIx + 1) % capacity
    count := p.count + 1
    space := p.space - 1
    items := p.items + 1 }

/-- What PIPE_GET_B leaves of a pipe it has not waited at (R125). -/
def getB (capacity : Nat) (p : Pipe) : Pipe :=
  { p with
    startIx := (p.startIx + 1) % capacity
    count := p.count - 1
    space := p.space + 1
    items := p.items - 1 }

end Pipe

/-- PIPE_PUT_B's parts, where none of them waits. -/
theorem putB_steps {p : PipeId} {b : Byte} {l : List Micro}
    (ht : s.me.todo = putBParts p b s ++ l) (hi : (s.pipe p).inited = true)
    (hf : s.lockFree p = true) (hs : 0 < (s.pipe p).space) :
    ∃ k, k ≤ 5 ∧ Steps k s (s.at p ((s.pipe p).putB s.build.capacity b) l) := by
  have key : ∃ k, k ≤ 5 ∧ Steps k (s.at p (s.pipe p) (putBParts p b s ++ l))
      (s.at p ((s.pipe p).putB s.build.capacity b) l) := by
    unfold putBParts
    cases hl : s.locked
    · refine ⟨1 + 1 + 1, by omega, ?_⟩
      exact ((at_wait_space p _ _ hs).trans (at_store p _ b _ (by exact hi))).trans
        (at_signal_items p _ _)
    · have hk : 0 < (s.pipe p).lock := by
        unfold State.lockFree at hf; rw [hl] at hf; simpa using hf
      refine ⟨1 + 1 + 1 + 1 + 1, by omega, ?_⟩
      refine (((((at_wait_space p _ _ hs).trans (at_wait_lock p _ _ (by exact hk))).trans
        (at_store p _ b _ (by exact hi))).trans (at_signal_lock p _ _)).trans
        (at_signal_items p _ _)).to ?_
      simp [Pipe.store, Pipe.putB, Nat.sub_add_cancel (show 1 ≤ _ from hk)]
  rw [← ht, ← State.eq_at] at key
  exact key

/-- PIPE_GET_B's parts, where none of them waits, with the line 3 `m` that leaves `u` besides the pipe. -/
theorem getB_steps {p : PipeId} {m : Micro} {u : State} {l : List Micro}
    (h3 : ∀ (q : Pipe) (k : List Micro), q.inited = true → q.oldest = (s.pipe p).oldest →
      Steps 1 (s.at p q (m :: k)) (u.at p (q.drop s.build.capacity) k))
    (ht : s.me.todo = getBParts p m s ++ l) (hi : (s.pipe p).inited = true)
    (hf : s.lockFree p = true) (hs : 0 < (s.pipe p).items) :
    ∃ k, k ≤ 5 ∧ Steps k s (u.at p ((s.pipe p).getB s.build.capacity) l) := by
  have key : ∃ k, k ≤ 5 ∧ Steps k (s.at p (s.pipe p) (getBParts p m s ++ l))
      (u.at p ((s.pipe p).getB s.build.capacity) l) := by
    unfold getBParts
    cases hl : s.locked
    · refine ⟨1 + 1 + 1, by omega, ?_⟩
      exact ((at_wait_items p _ _ hs).trans (h3 _ _ (by exact hi) rfl)).trans
        (at_signal_space p _ _)
    · have hk : 0 < (s.pipe p).lock := by
        unfold State.lockFree at hf; rw [hl] at hf; simpa using hf
      refine ⟨1 + 1 + 1 + 1 + 1, by omega, ?_⟩
      refine (((((at_wait_items p _ _ hs).trans (at_wait_lock p _ _ (by exact hk))).trans
        (h3 _ _ (by exact hi) rfl)).trans (at_signal_lock p _ _)).trans
        (at_signal_space p _ _)).to ?_
      simp [Pipe.drop, Pipe.getB, Nat.sub_add_cancel (show 1 ≤ _ from hk)]
  rw [← ht, ← State.eq_at] at key
  exact key

/-- PIPE_GET_B's own parts. -/
theorem takeB_steps {p : PipeId} {l : List Micro}
    (ht : s.me.todo = getBParts p (.pipeTake p) s ++ l) (hi : (s.pipe p).inited = true)
    (hf : s.lockFree p = true) (hs : 0 < (s.pipe p).items) :
    ∃ k, k ≤ 5 ∧ Steps k s ((s.respond (.byte (s.pipe p).oldest)).at p
      ((s.pipe p).getB s.build.capacity) l) :=
  getB_steps (fun q k hq ho => ho ▸ at_take p q k hq) ht hi hf hs

/-- FR_STEP's parts in the threaded regime, where none of them waits. -/
theorem stepB_steps {l : List Micro}
    (ht : s.me.todo = frStepParts s ++ l) (hi : s.rxf.inited = true)
    (hf : s.lockFree .rxf = true) (hs : 0 < s.rxf.items) :
    ∃ k, k ≤ 5 ∧ Steps k s ((codecTakeByte s.rxf.oldest s).at .rxf
      (s.rxf.getB s.build.capacity) l) :=
  getB_steps (p := .rxf) (fun q k hq ho => ho ▸ at_codecTake q k hq) ht hi hf hs

end Sys2Proof.Machine
end

