-- ==== Sys2Proof/Laws/Frames.lean ====
section
/-! SUPPORT. What the premises of the statements give, PIPE_PUT and PIPE_GET where they may be
performed, and frames of single updates. -/

namespace Sys2Proof.Machine

variable {s : State} {p : PipeId}

theorem threaded_of_polled (h : s.polled = true) : s.threaded = false := by
  cases ht : s.threaded
  · rfl
  · exact absurd h (not_polled_of_threaded ht)

theorem polled_of_threaded (h : s.threaded = true) : s.polled = false := by
  cases hp : s.polled
  · rfl
  · exact absurd hp (not_polled_of_threaded h)

theorem locked_of_polled (h : s.polled = true) : s.locked = false := by
  unfold State.locked; rw [threaded_of_polled h]; rfl

theorem canAsk_todo (h : s.canAsk = true) : s.me.todo = [] := by
  unfold State.canAsk at h; simp at h; exact h.2

theorem canAsk_ok (h : s.canAsk = true) : s.build.ok = true := by
  unfold State.canAsk at h; simp at h; exact h.1

theorem ready_todo (h : s.ready = true) : s.me.todo = [] := canAsk_todo (State.ready.canAsk h)

theorem ready_ok (h : s.ready = true) : s.build.ok = true := canAsk_ok (State.ready.canAsk h)

/-- An agent that may send frames may ask for the operations of tasks and threads. -/
theorem mayAct_of_maySend (h : s.maySend = true) : s.mayAct = true := by
  unfold State.maySend State.mayAct at *
  split at h <;> simp_all

theorem mayPutNow_iff (h : s.mayPutNow p = true) : s.polled = true ∧ (s.pipe p).inited = true
    ∧ s.mayPut p false = true := by
  unfold State.mayPutNow at h; simp at h; exact ⟨h.1.1, h.1.2, h.2⟩

theorem mayGetNow_iff (h : s.mayGetNow p = true) : s.polled = true ∧ (s.pipe p).inited = true
    ∧ s.mayGet p = true := by
  unfold State.mayGetNow at h; simp at h; exact ⟨h.1.1, h.1.2, h.2⟩

theorem mayPutB_iff (h : s.mayPutB p = true) : s.threaded = true
    ∧ (s.pipe p).inited = true ∧ s.mayPut p (putsUnderLock p s) = true := by
  unfold State.mayPutB at h; simp at h; exact ⟨h.1.1, h.1.2, h.2⟩

theorem mayGetB_iff (h : s.mayGetB p = true) : s.threaded = true
    ∧ (s.pipe p).inited = true ∧ s.mayGet p = true := by
  unfold State.mayGetB at h; simp at h; exact ⟨h.1.1, h.1.2, h.2⟩

theorem mayStepB_iff (h : s.mayStepB = true) : s.threaded = true
    ∧ s.rxf.inited = true ∧ s.mayStep = true := by
  unfold State.mayStepB at h; simp at h; exact ⟨h.1.1, h.1.2, h.2⟩

/-- PIPE_PUT where it may be performed. -/
theorem pipePut_eq {b : Byte} (h : s.mayPutNow p = true) : pipePut p b s =
    if (s.pipe p).count = s.build.capacity then .ok (false, s)
    else .ok (true, s.setPipe p ((s.pipe p).store s.build.capacity b)) := by
  obtain ⟨a, b', c⟩ := mayPutNow_iff h
  unfold pipePut pipeStoreAs Pipe.full
  simp only [a, b', c, Bool.true_eq_false, if_false, decide_eq_true_eq]
  split <;> rfl

/-- PIPE_GET where it may be performed. -/
theorem pipeGet_eq (h : s.mayGetNow p = true) : pipeGet p s =
    if (s.pipe p).count = 0 then .ok (none, s)
    else .ok (some (s.pipe p).oldest, s.setPipe p ((s.pipe p).drop s.build.capacity)) := by
  obtain ⟨a, b', c⟩ := mayGetNow_iff h
  unfold pipeGet pipeDropAs Pipe.empty
  simp only [a, b', c, Bool.true_eq_false, if_false, decide_eq_true_eq]
  split <;> rfl

/-- The byte at `start` is the oldest one. -/
theorem oldest_eq {q : Pipe} {b : Byte} (h : q.buf[q.startIx]? = some b) : q.oldest = b := by
  unfold Pipe.oldest; rw [List.getD_eq_getElem?_getD, h]; rfl

/-- Replacing one pipe and answering changes nothing else. -/
theorem onlyPipe_set (p : PipeId) (q : Pipe) (r : Response) (s : State) :
    onlyPipe p s ((s.setPipe p q).respond r) := by
  cases p <;>
  exact ⟨⟨rfl, rfl, fun q => by cases q <;> rfl, fun _ => rfl, ⟨rfl, rfl, rfl, rfl⟩,
    ⟨⟨rfl, rfl⟩, rfl, rfl⟩, ⟨rfl, rfl, rfl, rfl, rfl⟩, rfl, rfl⟩, rfl⟩

/-- Changing what the running agent has left to do and its response changes nothing else. -/
theorem onlyMe_begun (l : List Micro) (r : Response) (s : State) :
    onlyMe s ((s.setTodo l).respond r) :=
  ⟨⟨rfl, rfl, rfl, fun q => by cases q <;> rfl⟩, rfl, fun _ => rfl, ⟨rfl, rfl, rfl, rfl⟩,
    ⟨⟨rfl, rfl⟩, rfl, rfl⟩, ⟨rfl, rfl, rfl, rfl, rfl⟩, rfl, rfl⟩

/-- An operation whose first part waits is blocked. -/
theorem begin_blocked {m : Micro} {l : List Micro}
    (h : micro m (((s.setTodo (m :: l)).respond .pending).setTodo l) = .wait) :
    ∃ t, begin (m :: l) s = .next t ∧ blocked s t := by
  refine ⟨(s.setTodo (m :: l)).respond .pending, run_wait rfl h _, onlyMe_begun _ _ _, ⟨rfl, rfl⟩,
    by simp, rfl, run_wait rfl h⟩

/-- Nothing left to do, and nothing put there. -/
theorem setTodo_self {s : State} (h : s.me.todo = []) : s.setTodo [] = s := by
  cases s; rename_i me _ _ _ _ _; cases me; simp_all [State.setTodo]

theorem putBParts_congr {t : State} (h : t.locked = s.locked) (p : PipeId) (b : Byte) :
    putBParts p b t = putBParts p b s := by unfold putBParts; rw [h]

theorem getBParts_congr {t : State} (h : t.locked = s.locked) (p : PipeId) (m : Micro) :
    getBParts p m t = getBParts p m s := by unfold getBParts; rw [h]

/-- PIPE_PUT_B's parts from the beginning, where none waits. -/
theorem putB_begin {p b l} (s : State) (hi : (s.pipe p).inited = true) (hl : s.lockFree p = true)
    (hs : 0 < (s.pipe p).space) :
    ∃ k, k ≤ 5 ∧ Steps k ((s.setTodo (putBParts p b s ++ l)).respond .pending)
      (((s.setTodo []).respond .pending).at p ((s.pipe p).putB s.build.capacity b) l) := by
  obtain ⟨k, hk, hst⟩ := putB_steps (s := (s.setTodo (putBParts p b s ++ l)).respond .pending)
    (p := p) (b := b) (l := l) rfl
    (by simpa using hi) (by simpa [State.lockFree] using hl) (by simpa using hs)
  refine ⟨k, hk, hst.to ?_⟩
  cases p <;> rfl

/-- PIPE_GET_B's parts from the beginning, where none waits. -/
theorem takeB_begin {p l} (s : State) (hi : (s.pipe p).inited = true) (hl : s.lockFree p = true)
    (hs : 0 < (s.pipe p).items) :
    ∃ k, k ≤ 5 ∧ Steps k ((s.setTodo (getBParts p (.pipeTake p) s ++ l)).respond .pending)
      (((s.setTodo []).respond (.byte (s.pipe p).oldest)).at p
        ((s.pipe p).getB s.build.capacity) l) := by
  obtain ⟨k, hk, hst⟩ := takeB_steps
    (s := (s.setTodo (getBParts p (.pipeTake p) s ++ l)).respond .pending) (p := p) (l := l) rfl
    (by simpa using hi) (by simpa [State.lockFree] using hl) (by simpa using hs)
  refine ⟨k, hk, hst.to ?_⟩
  cases p <;> rfl

/-- FR_STEP's parts from the beginning in the threaded regime, where none waits. -/
theorem stepB_begin {l} (s : State) (hi : s.rxf.inited = true) (hl : s.lockFree .rxf = true)
    (hs : 0 < s.rxf.items) :
    ∃ k, k ≤ 5 ∧ Steps k ((s.setTodo (frStepParts s ++ l)).respond .pending)
      ((codecTakeByte s.rxf.oldest (s.setTodo [])).at .rxf
        (s.rxf.getB s.build.capacity) l) := by
  obtain ⟨k, hk, hst⟩ := stepB_steps
    (s := (s.setTodo (frStepParts s ++ l)).respond .pending) (l := l) rfl
    hi hl hs
  exact ⟨k, hk, hst.to rfl⟩

/-- A semaphore written reads back. -/
theorem semValue_setSem (x : Sem) (n : Nat) (s : State) : semValue x (setSem x n s) = n := by
  rcases x with p | p | p | _ <;> (try cases p) <;> rfl

/-- The other semaphores read as before. -/
theorem semValue_setSem_ne {x y : Sem} (h : y ≠ x) (n : Nat) (s : State) : semValue y
    (setSem x n s) = semValue y s := by
  rcases x with p | p | p | _ <;> rcases y with q | q | q | _ <;> (try cases p) <;>
      (try cases q) <;> first | rfl | exact absurd rfl h

/-- Writing a semaphore changes nothing else. -/
theorem onlySem (x n l r) (s : State) :
    onlySemaphores s (((setSem x n s).setHeld l).respond r) := by
  rcases x with p | p | p | _ <;> (try cases p) <;>
  exact ⟨fun p => by cases p <;> exact ⟨rfl, rfl, rfl, rfl, rfl⟩, fun p => by cases p <;> rfl, rfl,
    fun _ => rfl, ⟨rfl, rfl, rfl, rfl⟩, ⟨⟨rfl, rfl⟩, rfl, rfl⟩, ⟨rfl, rfl, rfl, rfl, rfl⟩, rfl, rfl⟩

theorem semValue_me (x l r) (s : State) : semValue x ((s.setHeld l).respond r) = semValue x s := by
  rcases x with p | p | p | _ <;> (try cases p) <;> rfl

theorem setSem_me (x n) (s : State) : (setSem x n s).me = s.me := by
  rcases x with p | p | p | _ <;> (try cases p) <;> rfl

theorem setSem_setTodo (x n l) (s : State) : setSem x n (s.setTodo l) =
    (setSem x n s).setTodo l := by
  rcases x with p | p | p | _ <;> (try cases p) <;> rfl

theorem setSem_respond (x n l) (s : State) : setSem x n (s.respond l) =
    (setSem x n s).respond l := by
  rcases x with p | p | p | _ <;> (try cases p) <;> rfl

theorem semValue_setTodo (x l) (s : State) : semValue x (s.setTodo l) = semValue x s := by
  rcases x with p | p | p | _ <;> (try cases p) <;> rfl

theorem semValue_respond (x l) (s : State) : semValue x (s.respond l) = semValue x s := by
  rcases x with p | p | p | _ <;> (try cases p) <;> rfl

/-- SEM_WAIT on a count above 0 takes one. -/
theorem semWait_steps {x l} (h : 0 < semValue x s) (hl : s.me.todo = .semWait x :: l) : Steps 1 s
    ((setSem x (semValue x s - 1) s).setTodo l) := by
  refine Steps.one hl ?_
  simp only [micro, semValue_setTodo, setSem_setTodo]
  rw [if_neg (by omega)]

end Sys2Proof.Machine
end

