-- ==== Sys2Proof/Laws/Codec.lean ====
section
/-! SUPPORT. The codec taking bytes, FR_STEP and FR_GET (R141 to R144). -/

namespace Sys2Proof.Machine

variable {s : State}

/-- A byte in `AwaitChecksum` (R141, R142). -/
theorem takeByte_checksum (b : Byte) {c : Codec} (h : c.state = .awaitChecksum) : c.takeByte b =
    if b = c.command ^^^ c.p1 ^^^ c.p2 ^^^ c.p3 then
      ({ c with checksum := b, state := .awaitCommand }, some ⟨c.command, c.p1, c.p2, c.p3⟩)
    else (⟨c.p1, c.p2, c.p3, b, b, .awaitChecksum⟩, none) := by
  unfold Codec.takeByte; rw [h]; rfl

/-- R141's table, row by row. -/
theorem takes_takeByte (b : Byte) {c : Codec} (h : c.state ≠ .validate) :
    Codec.takes b c (c.takeByte b).1 (frameResponse (c.takeByte b).2) := by
  unfold Codec.takes
  cases hs : c.state with
  | validate => exact absurd hs h
  | awaitCommand | awaitP1 | awaitP2 | awaitP3 => unfold Codec.takeByte; rw [hs]; exact ⟨rfl, rfl⟩
  | awaitChecksum =>
    rw [takeByte_checksum b hs]
    by_cases hb : b = c.command ^^^ c.p1 ^^^ c.p2 ^^^ c.p3
    · simp only [hb, if_true, frameResponse, and_self]
    · simp only [hb, if_false, frameResponse, and_self]

/-- A byte leaves the codec in a resting state (R142). -/
theorem takeByte_state (b : Byte) {c : Codec} (h : c.state ≠ .validate) :
    (c.takeByte b).1.state ≠ .validate := by
  cases hs : c.state with
  | validate => exact absurd hs h
  | awaitCommand | awaitP1 | awaitP2 | awaitP3 => unfold Codec.takeByte; rw [hs]; simp
  | awaitChecksum =>
    rw [takeByte_checksum b hs]
    by_cases hb : b = c.command ^^^ c.p1 ^^^ c.p2 ^^^ c.p3
    · simp only [hb, if_true]; simp
    · simp only [hb, if_false]; simp

/-- FR_STEP where it may be performed (R141). -/
theorem frStep_eq (h : s.mayGetNow .rxf = true) (hc : s.codecRests) : frStep s =
    if s.rxf.count = 0 then .ok (s.respond .noFrame) else .ok
      (codecTakeByte s.rxf.oldest (s.setPipe .rxf (s.rxf.drop s.build.capacity))) := by
  have hg : pipeGet .rxf s = if s.rxf.count = 0 then .ok (none, s) else .ok
      (some s.rxf.oldest, s.setPipe .rxf (s.rxf.drop s.build.capacity)) := pipeGet_eq h
  unfold frStep
  rw [hg]
  unfold State.codecRests at hc
  cases hs : s.fr.state with
  | validate => exact absurd hs hc
  | awaitCommand | awaitP1 | awaitP2 | awaitP3 | awaitChecksum => by_cases h0 :
      s.rxf.count = 0 <;> simp [h0]

/-- Replacing `RXF` and the codec and answering changes nothing else. -/
theorem onlyCodec_set (q : Pipe) (c : Codec) (r : Response) (s : State) :
    onlyCodecAnd .rxf s (((s.setPipe .rxf q).setFr c).respond r) :=
  ⟨rfl, rfl, fun p => by cases p <;> rfl, fun _ => rfl, ⟨rfl, rfl, rfl, rfl⟩,
    ⟨⟨rfl, rfl⟩, rfl, rfl⟩, ⟨rfl, rfl, rfl, rfl, rfl⟩, rfl, rfl⟩

/-- Nothing got. -/
theorem shrankTo_refl {C : Nat} {th : Bool} {p : Pipe} (h : p.wf C) : p.shrankTo C th
    (p.stored C) p := by
  refine ⟨rfl, h, rfl, rfl, rfl, rfl, ?_⟩
  cases th <;> simp

/-- Bytes got one after another. -/
theorem shrankTo_trans {C : Nat} {th : Bool} {l m : List Byte} {p q r : Pipe}
    (h : p.shrankTo C th l q) (h' : q.shrankTo C th m r) : p.shrankTo C th m r := by
  obtain ⟨a1, a2, a3, a4, a5, a6, a7⟩ := h
  obtain ⟨b1, b2, b3, b4, b5, b6, b7⟩ := h'
  refine ⟨b1, b2, b3.trans a3, b4.trans a4, b5.trans a5, b6.trans a6, ?_⟩
  cases th <;> simp at * <;> omega

/-- FR_GET's loop in the polled regime (R143). -/
theorem frGetPass_steps : ∀ (n : Nat) (s : State), s.rxf.count = n → s.mayGetNow .rxf = true
    → s.codecRests →
    s.rxf.wf s.build.capacity → ∀ l, s.me.todo = .frGetPass :: l →
    ∃ k q, k ≤ n + 1 ∧ s.rxf.shrankTo s.build.capacity false
        (s.fr.feed (s.rxf.stored s.build.capacity)).2.2 q
      ∧ Steps k s ((((s.setPipe .rxf q).setFr
          (s.fr.feed (s.rxf.stored s.build.capacity)).1).setTodo l).respond
          (frameResponse (s.fr.feed (s.rxf.stored s.build.capacity)).2.1))
  | 0, s, hn, hm, hc, hw, l, hl => by
    have hs : s.rxf.stored s.build.capacity = [] := by simp [Pipe.stored, hn]
    refine ⟨1, s.rxf, by omega, ?_, ?_⟩
    · rw [hs]; simpa [Codec.feed, hs] using shrankTo_refl (th := false) hw
    · rw [hs]
      refine Steps.one hl ?_
      simp only [micro, frGetPassPart]
      exact if_pos hn
  | n + 1, s, hn, hm, hc, hw, l, hl => by
    have hpos : 0 < s.rxf.count := by omega
    have hs := Pipe.stored_drop hpos hw.1.2.1
    obtain ⟨a, b', c⟩ := mayGetNow_iff hm
    have hq := Pipe.wf_drop hw hpos
    have hsh : s.rxf.shrankTo s.build.capacity false
        ((s.rxf.drop s.build.capacity).stored s.build.capacity) (s.rxf.drop s.build.capacity) :=
      ⟨rfl, hq, rfl, rfl, rfl, rfl, by simp [Pipe.drop]⟩
    have hstep : frStep (s.setTodo l) = .ok
        (codecTakeByte s.rxf.oldest
        ((s.setTodo l).setPipe .rxf (s.rxf.drop s.build.capacity))) := by
      rw [frStep_eq (by exact hm) (by exact hc)]
      exact if_neg (by show s.rxf.count ≠ 0; omega)
    rw [hs, Codec.feed]
    cases hf : s.fr.takeByte s.rxf.oldest with
    | mk d r =>
    cases r with
    | some f =>
      refine ⟨1, _, by omega, hsh, ?_⟩
      refine Steps.one hl ?_
      simp only [micro, frGetPassPart]
      rw [if_neg (by show s.rxf.count ≠ 0; omega), hstep]
      simp [codecTakeByte, hf, frameResponse]
      rfl
    | none =>
      let u :=
          (((s.setPipe .rxf (s.rxf.drop s.build.capacity)).setFr d).setTodo
          (.frGetPass :: l)).respond .noFrame
      have h1 : Steps 1 s u := by
        refine Steps.one hl ?_
        simp only [micro, frGetPassPart]
        rw [if_neg (by show s.rxf.count ≠ 0; omega), hstep]
        simp [codecTakeByte, hf, frameResponse]
        rfl
      have hd : d.state ≠ .validate := by have := takeByte_state s.rxf.oldest hc; rwa [hf] at this
      obtain ⟨k, q, hk, hsh', hst⟩ := frGetPass_steps n u
          (by show s.rxf.count - 1 = n; omega) hm hd hq l rfl
      have e : u.rxf.stored s.build.capacity =
          (s.rxf.drop s.build.capacity).stored s.build.capacity := rfl
      have e1 : u.fr = d := rfl
      have e2 : u.build = s.build := rfl
      rw [e2, e, e1] at hsh' hst
      exact ⟨1 + k, q, by omega, shrankTo_trans hsh hsh', h1.trans hst⟩

/-- Where no frame completes every byte is taken. -/
theorem feed_none {c : Codec} : ∀ {l}, (c.feed l).2.1 = none → (c.feed l).2.2 = []
  | [] , _ => rfl
  | b :: l, h => by
    unfold Codec.feed at h ⊢
    split at h
    · cases h
    · rename_i d hd
      exact feed_none h

/-- FR_GET's loop in the threaded regime, until a frame completes or it is blocked (R143). -/
theorem frGetB_steps : ∀ (n : Nat) (s : State), s.rxf.count = n → s.rxf.inited = true
    → s.codecRests →
    s.rxf.wf s.build.capacity → s.rxf.items = s.rxf.count → s.lockFree .rxf = true
        → ∀ l, s.me.todo = frStepParts s ++ .frGetAgain :: l →
    ∃ k q t, k ≤ 6 * n + 1 ∧ s.rxf.shrankTo s.build.capacity true
        (s.fr.feed (s.rxf.stored s.build.capacity)).2.2 q
      ∧ Steps k s t
      ∧ ((∃ f, (s.fr.feed (s.rxf.stored s.build.capacity)).2.1 = some f
          ∧ t =
          (((s.setPipe .rxf q).setFr (s.fr.feed (s.rxf.stored s.build.capacity)).1).setTodo
          l).respond (.frame f))
        ∨ ((s.fr.feed (s.rxf.stored s.build.capacity)).2.1 = none ∧ q.items = 0
            ∧ ∃ r, t =
            ((s.setPipe .rxf q).setFr (s.fr.feed (s.rxf.stored s.build.capacity)).1).respond r))
  | 0, s, hn, hm, hc, hw, hi, hlk, l, hl => by
    have hs : s.rxf.stored s.build.capacity = [] := by simp [Pipe.stored, hn]
    refine ⟨0, s.rxf, s, by omega, ?_, .refl _, .inr ⟨?_, by omega, s.me.resp, ?_⟩⟩
    · rw [hs]; simpa [Codec.feed, hs] using shrankTo_refl (th := true) hw
    · rw [hs]; rfl
    · rw [hs]; rfl
  | n + 1, s, hn, hm, hc, hw, hi, hlk, l, hl => by
    have hpos : 0 < s.rxf.count := by omega
    have hs := Pipe.stored_drop hpos hw.1.2.1
    have hq : (s.rxf.getB s.build.capacity).wf s.build.capacity :=
      Pipe.wf_congr rfl rfl rfl rfl (Pipe.wf_drop hw hpos)
    have hsh : s.rxf.shrankTo s.build.capacity true
        ((s.rxf.drop s.build.capacity).stored s.build.capacity) (s.rxf.getB s.build.capacity) :=
      ⟨rfl, hq, rfl, rfl, rfl, rfl, by simp [Pipe.getB]; omega⟩
    obtain ⟨k0, hk0, hst0⟩ := stepB_steps hl hm hlk (by omega)
    rw [hs, Codec.feed]
    cases hf : s.fr.takeByte s.rxf.oldest with
    | mk d r =>
    cases r with
    | some f =>
      refine
          ⟨k0 + 1, _, _, by omega, hsh, hst0.trans (Steps.one (m := .frGetAgain) (l := l) rfl ?_),
            .inl ⟨f, rfl, rfl⟩⟩
      simp only [micro, frGetAgainPart, codecTakeByte]
      simp [hf, frameResponse, State.at]
      rfl
    | none =>
      let u := (((s.setPipe .rxf (s.rxf.getB s.build.capacity)).setFr d).setTodo
          s.me.todo).respond .noFrame
      have h1 : Steps (k0 + 1) s u := by
        refine hst0.trans (Steps.one (m := .frGetAgain) (l := l) rfl ?_)
        simp only [micro, frGetAgainPart, codecTakeByte]
        simp [hf, frameResponse, State.at]
        simp [u, hl, State.push, frStepParts, getBParts, State.setTodo, State.setPipe, State.setFr,
            State.respond]
        rfl
      have hd : d.state ≠ .validate := by have := takeByte_state s.rxf.oldest hc; rwa [hf] at this
      obtain ⟨k, q, t, hk, hsh', hst, hg⟩ := frGetB_steps n u
          (by show s.rxf.count - 1 = n; omega) hm hd hq
            (by show s.rxf.items - 1 = s.rxf.count - 1; omega) hlk l hl
      have e : u.rxf.stored s.build.capacity =
          (s.rxf.drop s.build.capacity).stored s.build.capacity := rfl
      have e1 : u.fr = d := rfl
      have e2 : u.build = s.build := rfl
      rw [e2, e, e1] at hsh' hg
      exact ⟨k0 + 1 + k, q, t, by omega, shrankTo_trans hsh hsh', h1.trans hst, by
        rcases hg with ⟨f, h1, h2⟩ | ⟨h1, h2, r, h3⟩
        · exact .inl ⟨f, h1, h2⟩
        · exact .inr ⟨h1, h2, r, h3⟩⟩

/-- One FR_STEP on a pipe whose oldest byte is known. -/
theorem frStep_one {C : Nat} {b : Byte} {rest : List Byte} (hC : s.build.capacity = C)
    (hr : s.ready = true) (hm : s.mayGetNow .rxf = true) (hc : s.codecRests)
    (hw : s.rxf.wf C) (hs : s.rxf.stored C = b :: rest) :
    ∃ t, exec .frStep s = .next t ∧ t.me.resp = frameResponse (s.fr.takeByte b).2
        ∧ t.fr = (s.fr.takeByte b).1
      ∧ t.rxf.stored C = rest ∧ t.ready = true ∧ t.mayGetNow .rxf = true ∧ t.codecRests
          ∧ t.rxf.wf C ∧ t.build.capacity = C := by
  subst hC
  obtain ⟨a, b', c⟩ := mayGetNow_iff hm
  have e : exec .frStep s = settle (frStep s) := by
    have hst : s.mayStep = true := by unfold State.mayStep State.mayGet at *; simp_all
    simp only [exec, execFrStep]
    rw [issue_ready hr, State.ready.mayAct hr, threaded_of_polled a,
      show s.rxf.inited = true from b', hst]
    rfl
  have hpos : 0 < s.rxf.count := by
    rw [← Pipe.stored_length (C := s.build.capacity) (p := s.rxf), hs]; simp
  have hd := Pipe.stored_drop hpos hw.1.2.1
  rw [hs] at hd
  obtain ⟨rfl, hrest⟩ := List.cons.inj hd
  have hrun : exec .frStep s = .next
      (codecTakeByte s.rxf.oldest (s.setPipe .rxf (s.rxf.drop s.build.capacity))) := by
    rw [e, frStep_eq hm hc, if_neg (by omega)]; rfl
  exact ⟨_, hrun, rfl, rfl, hrest.symm, hr, hm, takeByte_state _ hc, Pipe.wf_drop hw hpos, rfl⟩

/-- A frame's bytes, checksum written out (R92). -/
theorem frameBytes_def (f : Frame) : frameBytes f =
    [f.command, f.p1, f.p2, f.p3, f.command ^^^ f.p1 ^^^ f.p2 ^^^ f.p3] := rfl

/-- A frame's five bytes complete it (R144 (a)). -/
theorem feed_frame {c : Codec} (h : c.state = .awaitCommand) (f : Frame) (rest : List Byte) :
    (c.feed (frameBytes f ++ rest)).1.state = .awaitCommand
        ∧ (c.feed (frameBytes f ++ rest)).2 = (some f, rest) := by
  rw [frameBytes_def]
  simp [Codec.feed, Codec.takeByte, h, Codec.validateStep, checksum]

/-- A frame's five bytes and nothing after them. -/
theorem feed_frame_all {c : Codec} (h : c.state = .awaitCommand) (f : Frame) :
    (c.feed (frameBytes f)).1.state = .awaitCommand ∧ (c.feed (frameBytes f)).2 = (some f, []) := by
  have := feed_frame h f []; rwa [List.append_nil] at this

/-- A run of operations, then another. -/
theorem trace_append : ∀ (l m : List Instr) (s : State), trace (l ++ m) s = (trace l s).bind
    (fun r => (trace m r.2).map (fun x => (r.1 ++ x.1, x.2)))
  | [], m, s => by simp [trace]
  | i :: l, m, s => by
    simp only [List.cons_append, trace]
    cases exec i (s.switchTo (issuer i)) with
    | next t =>
      simp only [trace_append l m t, Option.map_bind, Option.bind_map]
      cases trace l t with
      | none => rfl
      | some r => simp; rfl
    | fault _ => rfl
    | refused _ => rfl

end Sys2Proof.Machine
end

