-- ==== Sys2Proof/Laws/Emission.lean ====
section
/-! SUPPORT. Emitting a frame, FR_PUT and FR_PUT_B (R145, R146). -/

namespace Sys2Proof.Machine

variable {s : State}

/-- Nothing put. -/
theorem grewBy_refl {C th} {p : Pipe} (h : p.wf C) : p.grewBy C th [] p := by
  refine ⟨by simp, h, rfl, rfl, rfl, ?_⟩
  cases th <;> simp

/-- Bytes put one after another. -/
theorem grewBy_trans {C : Nat} {th : Bool} {l m : List Byte} {p q r : Pipe}
    (h : p.grewBy C th l q) (h' : q.grewBy C th m r) : p.grewBy C th (l ++ m) r := by
  obtain ⟨a1, a2, a3, a4, a5, a6⟩ := h
  obtain ⟨b1, b2, b3, b4, b5, b6⟩ := h'
  refine ⟨by rw [b1, a1, List.append_assoc], b2, b3.trans a3, b4.trans a4, b5.trans a5, ?_⟩
  cases th <;> simp at * <;> omega

/-- Every byte put is counted. -/
theorem grewBy_count {C : Nat} {th : Bool} {l : List Byte} {p q : Pipe} (h : p.grewBy C th l q) :
    q.count = p.count + l.length := by
  have := congrArg List.length h.1
  simpa using this

/-- Puts of FR_PUT that succeed (R145). -/
theorem emit_run : ∀ (k : Nat) (i : Nat) (f : Frame) (s : State) (l : List Micro), i + k ≤ 5
    → s.txf.count + k ≤ s.build.capacity →
    s.mayPutNow .txf = true → s.txf.wf s.build.capacity → s.me.todo = .emit :: l
        → s.me.txe = some ⟨f, i⟩ →
    ∃ q, s.txf.grewBy s.build.capacity false (((frameBytes f).drop i).take k) q
      ∧ Steps k s ((s.setPipe .txf q).setTxe (some ⟨f, i + k⟩))
  | 0, i, f, s, l, hi, hk, hm, hw, hl, ht => by
    refine ⟨s.txf, grewBy_refl hw, (Steps.refl s).to ?_⟩
    rw [Nat.add_zero, ← ht]; rfl
  | k + 1, i, f, s, l, hi, hk, hm, hw, hl, ht => by
    obtain ⟨a, b', c⟩ := mayPutNow_iff hm
    have hb : ∃ b, (frameBytes f)[i]? = some b :=
        ⟨_, List.getElem?_eq_getElem (by rw [frameBytes_def]; simp; omega)⟩
    obtain ⟨b, hb⟩ := hb
    let q1 : Pipe := s.txf.store s.build.capacity b
    have hput : pipePut .txf b (s.setTodo l) = .ok (true, (s.setTodo l).setPipe .txf q1) := by
      rw [pipePut_eq (by exact hm)]
      exact if_neg (by show s.txf.count ≠ s.build.capacity; omega)
    have hg1 : s.txf.grewBy s.build.capacity false [b] q1 :=
      ⟨Pipe.stored_store hw (by omega) b, Pipe.wf_store hw (by omega) b, rfl, rfl, rfl, ⟨rfl, rfl⟩⟩
    have h1 : Steps 1 s ((s.setPipe .txf q1).setTxe (some ⟨f, i + 1⟩)) := by
      refine Steps.one hl ?_
      simp only [micro, emitPart]
      rw [show (s.setTodo l).me.txe = some ⟨f, i⟩ from ht]
      simp only [hb, hput]
      simp [State.push, hl, State.setTodo, State.setPipe, State.setTxe]
    obtain ⟨q, hg, hst⟩ := emit_run k (i + 1) f
      ((s.setPipe .txf q1).setTxe (some ⟨f, i + 1⟩)) l (by omega)
      (by show s.txf.count + 1 + k ≤ s.build.capacity; omega) hm hg1.2.1 hl rfl
    refine ⟨q, ?_, ?_⟩
    · have := grewBy_trans hg1 hg
      have e : ((frameBytes f).drop i).take (k + 1) = [b] ++
          ((frameBytes f).drop (i + 1)).take k := by
        obtain ⟨hlt, hb⟩ := List.getElem?_eq_some_iff.mp hb
        rw [List.drop_eq_getElem_cons hlt, hb]; rfl
      rw [e]; exact this
    · have h2 := h1.trans hst
      rw [Nat.add_comm 1 k] at h2
      refine h2.to ?_
      simp only [State.setTxe, State.setPipe]
      rw [show i + 1 + k = i + (k + 1) by omega]

/-- Nothing is noted in the polled regime. -/
theorem notePut_polled (p : PipeId) (u : Bool) (h : s.polled = true) : s.notePut p u = s := by
  unfold State.notePut; rw [h]; rfl

/-- What the running agent has left to do plays no part in the note of who puts. -/
theorem notePut_setTodo (p : PipeId) (u : Bool) (l : List Micro) (s : State) :
    (s.setTodo l).notePut p u = (s.notePut p u).setTodo l := by
  unfold State.notePut
  by_cases h : (s.polled || s.locked) = true
  · rw [if_pos h, if_pos (by exact h)]
  · rw [if_neg h, if_neg (by exact h)]; cases p <;> rfl

/-- `TXLOCK` plays no part in the note of who puts. -/
theorem notePut_setTxlock (p : PipeId) (u : Bool) (n : Nat) (s : State) :
    (s.setTxlock n).notePut p u = (s.notePut p u).setTxlock n := by
  unfold State.notePut
  by_cases h : (s.polled || s.locked) = true
  · rw [if_pos h, if_pos (by exact h)]
  · rw [if_neg h, if_neg (by exact h)]; cases p <;> rfl

/-- An emission begins where its agent may put (R29, R146). -/
theorem emitBegin_step {f : Frame} {l : List Micro} (hi : s.txf.inited = true)
    (hm : s.mayPut .txf true = true) (hl : s.me.todo = .emitBegin f :: l) :
    Steps 1 s ((((s.notePut .txf true).setTodo l)).setTxe (some ⟨f, 0⟩)) := by
  refine Steps.one hl ?_
  simp only [micro, emitBeginPart]
  rw [if_neg (by simp [hi]), if_pos (by exact hm), notePut_setTodo]

/-- `TXF` may be put on in the polled regime. -/
theorem canEmit_mayPutNow {n : Nat} (hp : s.polled = true) (hc : s.canEmit n) :
    s.mayPutNow .txf = true := by
  obtain ⟨c1, _, _, c4, _⟩ := hc
  unfold State.mayPut at c4
  unfold State.mayPutNow State.mayPut
  rw [hp] at *
  show (true && s.txf.inited && _) = true
  rw [c1]
  exact c4

/-- A whole FR_PUT (R145). -/
theorem emission_polled {f : Frame} {l : List Micro} (hp : s.polled = true) (hc : s.canEmit 5)
    (hl : s.me.todo = emission f s ++ l) :
    ∃ q, s.txf.grewBy s.build.capacity false (frameBytes f) q
      ∧ Steps 7 s ((((s.setPipe .txf q).setTxe none).setTodo l).respond (.flag true)) := by
  have hm := canEmit_mayPutNow hp hc
  obtain ⟨c1, c2, c3, c4, c5⟩ := hc
  have hl' : s.me.todo = .emitBegin f :: .emit :: l := by
    rw [hl]; simp [emission, threaded_of_polled hp]
  have h0 := emitBegin_step c1 c4 hl'
  rw [notePut_polled _ _ hp] at h0
  obtain ⟨q, hg, hst⟩ := emit_run 5 0 f ((s.setTodo (.emit :: l)).setTxe (some ⟨f, 0⟩)) l
    (by omega) c3 hm c2 rfl rfl
  refine ⟨q, by simpa [frameBytes_def] using hg, ?_⟩
  refine (h0.trans (hst.trans (Steps.one (m := .emit) (l := l) rfl
      (t := ((((s.setPipe .txf q).setTxe none).setTodo l).respond (.flag true))) ?_))).to rfl
  simp only [micro, emitPart]
  rfl

/-- An emission changes `TXF` and what its agent carries. -/
theorem onlyPipe_emit (q e l r l' r') (s : State) : onlyPipe .txf s
    (((((((s.setTodo l).respond r).setPipe .txf q)).setTxe e).setTodo l').respond r') :=
  ⟨⟨rfl, rfl, fun p => by cases p <;> rfl, fun _ => rfl, ⟨rfl, rfl, rfl, rfl⟩,
    ⟨⟨rfl, rfl⟩, rfl, rfl⟩, ⟨rfl, rfl, rfl, rfl, rfl⟩, rfl, rfl⟩, rfl⟩

/-- FR_PUT on a pipe that fills up (R145, R232). -/
theorem emission_stops {f : Frame} {l : List Micro} {k : Nat} (hp : s.polled = true)
    (hc : s.canEmit k) (hk : k < 5) (hf : s.txf.count + k = s.build.capacity)
    (hl : s.me.todo = emission f s ++ l) :
    ∃ q, s.txf.grewBy s.build.capacity false ((frameBytes f).take k) q
      ∧ Steps (k + 2) s ((((s.setPipe .txf q).setTxe none).setTodo l).respond
          (.fail .capacityFull)) := by
  have hm := canEmit_mayPutNow hp hc
  obtain ⟨c1, c2, c3, c4, c5⟩ := hc
  have hl' : s.me.todo = .emitBegin f :: .emit :: l := by
    rw [hl]; simp [emission, threaded_of_polled hp]
  have h0 := emitBegin_step c1 c4 hl'
  rw [notePut_polled _ _ hp] at h0
  obtain ⟨q, hg, hst⟩ := emit_run k 0 f ((s.setTodo (.emit :: l)).setTxe (some ⟨f, 0⟩)) l
    (by omega) c3 hm c2 rfl rfl
  rw [Nat.zero_add] at hst
  refine ⟨q, by simpa using hg, ?_⟩
  have hb : ∃ b, (frameBytes f)[k]? = some b :=
      ⟨_, List.getElem?_eq_getElem (by rw [frameBytes_def]; simp; omega)⟩
  obtain ⟨b, hb⟩ := hb
  rw [Nat.add_comm]
  have h2 : ∀ t, t.me.todo = .emit :: l → t.me.txe = some ⟨f, k⟩ → t.mayPutNow .txf = true
      → t.txf.count = t.build.capacity
      → Steps 1 t (((t.setTodo l).setTxe none).respond (.fail .capacityFull)) := by
    intro t h1 h2 h3 h4
    refine Steps.one h1 ?_
    simp only [micro, emitPart]
    rw [show (t.setTodo l).me.txe = some ⟨f, k⟩ from h2]
    simp only [hb]
    have : pipePut .txf b (t.setTodo l) = .ok (false, t.setTodo l) := by
      rw [pipePut_eq (by exact h3)]
      exact if_pos h4
    rw [this]
    rfl
  refine ((h0.trans hst).trans (h2 _ rfl rfl ?_ ?_)).to rfl |> (cast (by congr 1; omega))
  · show (s.polled && q.inited && _) = true
    have hi : q.inited = true := hg.2.2.2.2.1.trans c1
    rw [hp, hi]; exact (mayPutNow_iff hm).2.2
  · show q.count = s.build.capacity
    rw [grewBy_count hg]
    have : (frameBytes f).length = 5 := rfl
    simp [this]
    show s.txf.count + _ = _
    omega

/-- PIPE_PUT_B puts one byte (R124). -/
theorem grewBy_putB {C : Nat} {p : Pipe} (h : p.wf C) (hc : p.count < C) (hs : 0 < p.space)
    (b : Byte) : p.grewBy C true [b] (p.putB C b) :=
  ⟨(Pipe.stored_congr rfl rfl rfl).trans (Pipe.stored_store h hc b), Pipe.wf_congr rfl rfl rfl rfl
      (Pipe.wf_store h hc b), rfl, rfl, rfl, by simp [Pipe.putB]; omega⟩

/-- Puts of FR_PUT_B (R146). -/
theorem emitB_run : ∀ (k : Nat) (i : Nat) (f : Frame) (s : State) (l : List Micro), i + k ≤ 5
    → s.txf.count + k ≤ s.build.capacity → k ≤ s.txf.space →
    s.txf.inited = true → s.lockFree .txf = true → s.txf.wf s.build.capacity
        → s.me.todo = .emitB :: l → s.me.txe = some ⟨f, i⟩ →
    ∃ q j, j ≤ 7 * k ∧ s.txf.grewBy s.build.capacity true (((frameBytes f).drop i).take k) q
      ∧ Steps j s ((s.setPipe .txf q).setTxe (some ⟨f, i + k⟩))
  | 0, i, f, s, l, hi, hk, hsp, hm, hlk, hw, hl, ht => by
    refine ⟨s.txf, 0, by omega, grewBy_refl hw, (Steps.refl s).to ?_⟩
    rw [Nat.add_zero, ← ht]; rfl
  | k + 1, i, f, s, l, hi, hk, hsp, hm, hlk, hw, hl, ht => by
    have hb : ∃ b, (frameBytes f)[i]? = some b :=
        ⟨_, List.getElem?_eq_getElem (by rw [frameBytes_def]; simp; omega)⟩
    obtain ⟨b, hb⟩ := hb
    let q1 : Pipe := s.txf.putB s.build.capacity b
    have hg1 : s.txf.grewBy s.build.capacity true [b] q1 := grewBy_putB hw
        (by omega) (by omega) _
    let u : State := s.setTodo (putBParts .txf b s ++ (.emitCount :: .emitB :: l))
    have h1 : Steps 1 s u := by
      refine Steps.one hl ?_
      simp only [micro, emitBPart]
      rw [show (s.setTodo l).me.txe = some ⟨f, i⟩ from ht]
      simp only [hb]
      simp [State.push, u, State.setTodo, putBParts]
      rfl
    obtain ⟨j, hj, h2⟩ := putB_steps (s := u) (p := .txf) (b := b)
        (l := .emitCount :: .emitB :: l) rfl hm hlk (by show 0 < s.txf.space; omega)
    have h3 := h2.trans (Steps.one (m := .emitCount) (l := .emitB :: l) rfl
        (t := ((s.setPipe .txf q1).setTxe (some ⟨f, i + 1⟩))) (by
      simp only [micro, emitCountPart]
      have : ((u.at .txf ((u.pipe .txf).putB u.build.capacity b)
          (.emitCount :: .emitB :: l)).setTodo (.emitB :: l)).me.txe = some ⟨f, i⟩ := ht
      rw [this]
      simp only [State.setTxe, State.setTodo, State.at, u, State.setPipe, q1]
      rw [hl]; rfl))
    obtain ⟨q, j', hj', hg, hst⟩ := emitB_run k (i + 1) f
      ((s.setPipe .txf q1).setTxe (some ⟨f, i + 1⟩)) l (by omega)
      (by show s.txf.count + 1 + k ≤ s.build.capacity; omega) (by show k ≤ s.txf.space - 1; omega)
      hm hlk hg1.2.1 hl rfl
    refine ⟨q, 1 + (j + 1 + j'), by omega, ?_, ?_⟩
    · have := grewBy_trans hg1 hg
      have e : ((frameBytes f).drop i).take (k + 1) = [b] ++
          ((frameBytes f).drop (i + 1)).take k := by
        obtain ⟨hlt, hb⟩ := List.getElem?_eq_some_iff.mp hb
        rw [List.drop_eq_getElem_cons hlt, hb]; rfl
      rw [e]; exact this
    · have h4 := h1.trans (h3.trans hst)
      refine h4.to ?_
      simp only [State.setTxe, State.setPipe]
      rw [show i + 1 + k = i + (k + 1) by omega]

/-- Whether a pipe's lock is free depends on the parameters and the pipe. -/
theorem lockFree_congr {t : State} {p : PipeId} (hl : t.locked = s.locked)
    (hp : t.pipe p = s.pipe p) : t.lockFree p = s.lockFree p := by
  unfold State.lockFree; rw [hl, hp]

/-- The beginning of FR_PUT_B, and its first puts (R146). -/
theorem emitB_begin {f : Frame} {l : List Micro} {k : Nat} (hk : k ≤ 5) (hp : s.threaded = true)
    (hc : s.canEmit k) (hl : s.me.todo = emission f s ++ l) :
    ∃ q j, j ≤ 37 ∧ s.txf.grewBy s.build.capacity true ((frameBytes f).take k) q
      ∧ Steps j s (((((s.notePut .txf true).setTxlock (s.txlock - 1)).setPipe .txf q).setTodo
        (.emitB :: l)).setTxe (some ⟨f, k⟩)) := by
  obtain ⟨c1, c2, c3, c4, c5⟩ := hc
  obtain ⟨c5, c6, c7⟩ := c5 hp
  have hl' : s.me.todo = .semWait .txlock :: .emitBegin f :: .emitB :: l := by
    rw [hl]; simp [emission, hp]
  have h0 := (semWait_steps (x := .txlock) (show 0 < semValue .txlock s from c5) hl').trans
    (emitBegin_step (f := f) (l := .emitB :: l) (by exact c1) (by exact c4) rfl)
  have e : ((((setSem .txlock (semValue .txlock s - 1) s).setTodo
      (.emitBegin f :: .emitB :: l)).notePut .txf true).setTodo (.emitB :: l)).setTxe (some ⟨f, 0⟩)
      = (((s.notePut .txf true).setTxlock (s.txlock - 1)).setTodo (.emitB :: l)).setTxe
        (some ⟨f, 0⟩) := by
    rw [notePut_setTodo, show setSem .txlock (semValue .txlock s - 1) s
      = s.setTxlock (s.txlock - 1) from rfl, notePut_setTxlock]
    rfl
  rw [e] at h0
  obtain ⟨q, j, hj, hg, hst⟩ := emitB_run k 0 f
    ((((s.notePut .txf true).setTxlock (s.txlock - 1)).setTodo (.emitB :: l)).setTxe (some ⟨f, 0⟩))
    l (by omega) (by simpa using c3) (by simpa using c6) (by simpa using c1)
    ((lockFree_congr (by simp) (by simp)).trans c7) (by simpa using c2) rfl rfl
  refine ⟨q, 1 + 1 + j, by omega, by simpa using hg, (h0.trans hst).to ?_⟩
  rw [Nat.zero_add]
  rfl

/-- A whole FR_PUT_B (R146). -/
theorem emission_threaded {f : Frame} {l : List Micro} (hp : s.threaded = true) (hc : s.canEmit 5)
    (hl : s.me.todo = emission f s ++ l) :
    ∃ q k, k ≤ 41 ∧ s.txf.grewBy s.build.capacity true (frameBytes f) q
      ∧ Steps k s (((((s.notePut .txf true).setPipe .txf q).setTxe none).setTodo l).respond
        .done) := by
  obtain ⟨q, j, hj, hg, hst⟩ := emitB_begin (by omega) hp hc hl
  have c5 := (hc.2.2.2.2 hp).1
  refine ⟨q, j + (1 + (1 + 1)), by omega, by simpa [frameBytes_def] using hg, ?_⟩
  refine (hst.trans ((Steps.one (m := .emitB) (l := l) rfl
    (t := (((((s.notePut .txf true).setTxlock (s.txlock - 1)).setPipe .txf q).setTxe
      (some ⟨f, 5⟩)).setTodo (.semSignal .txlock :: .emitEnd :: l))) ?_).trans
    ((Steps.one (m := .semSignal .txlock) (l := .emitEnd :: l) rfl rfl).trans
    (Steps.one (m := .emitEnd) (l := l) rfl rfl)))).to ?_
  · simp only [micro, emitBPart]
    rfl
  · have : s.txlock - 1 + 1 = s.txlock := Nat.sub_add_cancel c5
    have e : (s.notePut .txf true).setTxlock s.txlock = s.notePut .txf true := by
      unfold State.notePut; split <;> rfl
    rw [← e]
    simp only [setSem, semValue, State.setTxlock, State.setTodo, State.setTxe, State.setPipe,
      State.respond, this]

/-- FR_PUT_B on a pipe that fills up: after `k` bytes the next one waits for a free slot, and the sender
holds `TXLOCK` (R146, R272). -/
theorem emission_waits {f : Frame} {l : List Micro} {k : Nat} (hk : k < 5)
    (hp : s.threaded = true) (hc : s.canEmit k) (hf : s.txf.space = k)
    (hl : s.me.todo = emission f s ++ l) :
    ∃ q j b r, j ≤ 38 ∧ s.txf.grewBy s.build.capacity true ((frameBytes f).take k) q
      ∧ q.space = 0
      ∧ Steps j s (((((s.notePut .txf true).setTxlock (s.txlock - 1)).setPipe .txf q).setTodo
        (.semWait (.space .txf) :: r)).setTxe (some ⟨f, k⟩))
      ∧ putBParts .txf b s ++ (.emitCount :: .emitB :: l) = .semWait (.space .txf) :: r := by
  obtain ⟨q, j, hj, hg, hst⟩ := emitB_begin (by omega) hp hc hl
  have hb : ∃ b, (frameBytes f)[k]? = some b :=
    ⟨_, List.getElem?_eq_getElem (by rw [frameBytes_def]; simp; omega)⟩
  obtain ⟨b, hb⟩ := hb
  have hr : ∃ r, putBParts .txf b s ++ (.emitCount :: .emitB :: l) = .semWait (.space .txf) :: r := by
    unfold putBParts; split <;> exact ⟨_, rfl⟩
  obtain ⟨r, hr⟩ := hr
  refine ⟨q, j + 1, b, r, by omega, hg, ?_, (hst.trans (Steps.one (m := .emitB) (l := l) rfl
    ?_)), hr⟩
  · have h1 := hg.2.2.2.2.2
    have h2 : ((frameBytes f).take k).length = k := by
      rw [List.length_take, frameBytes_def]; simp; omega
    simp only [if_true, h2] at h1
    omega
  · simp only [micro, emitBPart]
    show (match (frameBytes f)[k]? with
      | none => _
      | some b => _) = _
    rw [hb]
    simp only
    rw [putBParts_congr (s := s) (by simp), List.append_cons] at *
    rw [← hr]
    simp [State.push, State.setTodo, State.setTxe]

end Sys2Proof.Machine
end

