-- ==== Sys2Proof/Laws/Memory.lean ====
section
/-! SUPPORT. The laws of flash memory: a read after a write, what a write leaves alone, and that every
memory operation keeps the canonical form. -/

namespace Sys2Proof.Machine.Memory

variable {fill : Byte}

theorem wfAbove_mono {lo lo' : Nat} (h : lo' ≤ lo) :
    ∀ {m : List Host.Cell}, wfAbove fill lo m = true → wfAbove fill lo' m = true
  | [], _ => rfl
  | (a, v) :: m, hm => by
    simp only [wfAbove, Bool.and_eq_true, decide_eq_true_eq] at hm ⊢
    exact ⟨⟨by omega, hm.1.2⟩, hm.2⟩

theorem read_below {lo x : Nat} (h : x < lo) :
    ∀ {m : List Host.Cell}, wfAbove fill lo m = true → read fill m x = fill
  | [], _ => rfl
  | (a, v) :: m, hm => by
    simp only [wfAbove, Bool.and_eq_true, decide_eq_true_eq] at hm
    have hx : x ≠ a := by omega
    simp only [read, hx, if_false]
    exact read_below (lo := a + 1) (by omega) hm.2

theorem read_write_of_wf {x : Nat} {v : Byte} :
    ∀ {lo : Nat} {m : List Host.Cell}, wfAbove fill lo m = true →
      ∀ y, read fill (write fill m x v) y = if y = x then v else read fill m y
  | lo, [], _, y => by
    unfold write; split
    · rename_i h; subst h; simp [read]
    · simp [read]
  | lo, (a, w) :: m, hm, y => by
    simp only [wfAbove, Bool.and_eq_true, decide_eq_true_eq] at hm
    obtain ⟨⟨_, _⟩, hr⟩ := hm
    unfold write
    by_cases h1 : x < a
    · simp only [h1, if_true]
      split
      · rename_i hv; subst hv
        by_cases hy : y = x
        · have : y ≠ a := by omega
          simp only [read, hy ▸ this, if_false, hy, if_true]
          exact read_below (lo := a + 1) (by omega) hr
        · simp [hy]
      · by_cases hy : y = x <;> simp [read, hy]
    · by_cases h2 : x = a
      · subst h2
        simp only [Nat.lt_irrefl, if_false, if_true]
        split
        · rename_i hv; subst hv
          by_cases hy : y = x
          · subst hy; simp only [if_true]
            exact read_below (lo := y + 1) (by omega) hr
          · simp [read, hy]
        · by_cases hy : y = x <;> simp [read, hy]
      · simp only [h1, if_false, h2]
        by_cases hy : y = a
        · have : y ≠ x := by omega
          simp [read, hy, Ne.symm h2]
        · simp only [read, hy, if_false]
          exact read_write_of_wf hr y

/-- A read after a write: the byte written at its address, every other byte as before. -/
theorem read_write {m : List Host.Cell} (h : wf fill m = true) (x : Nat) (v : Byte) (y : Nat) :
    read fill (write fill m x v) y = if y = x then v else read fill m y :=
  read_write_of_wf h y

theorem wfAbove_write {x : Nat} {v : Byte} :
    ∀ {lo : Nat} {m : List Host.Cell}, wfAbove fill lo m = true → lo ≤ x →
      wfAbove fill lo (write fill m x v) = true
  | lo, [], _, hx => by
    unfold write; split
    · rfl
    · rename_i hv; simp [wfAbove, hx, hv]
  | lo, (a, w) :: m, hm, hx => by
    have hm' := hm
    simp only [wfAbove, Bool.and_eq_true, decide_eq_true_eq] at hm
    obtain ⟨⟨hlo, hw⟩, hr⟩ := hm
    unfold write
    by_cases h1 : x < a
    · simp only [h1, if_true]
      split
      · exact hm'
      · rename_i hv
        simp only [wfAbove, Bool.and_eq_true, decide_eq_true_eq]
        exact ⟨⟨hx, hv⟩, ⟨by omega, hw⟩, hr⟩
    · by_cases h2 : x = a
      · subst h2
        simp only [Nat.lt_irrefl, if_false, if_true]
        split
        · exact wfAbove_mono (by omega) hr
        · rename_i hv
          simp only [wfAbove, Bool.and_eq_true, decide_eq_true_eq]
          exact ⟨⟨hx, hv⟩, hr⟩
      · simp only [h1, if_false, h2, wfAbove, Bool.and_eq_true, decide_eq_true_eq]
        exact ⟨⟨hlo, hw⟩, wfAbove_write hr (by omega)⟩

/-- Writing a byte keeps the canonical form. -/
theorem wf_write {m : List Host.Cell} (h : wf fill m = true) (x : Nat) (v : Byte) :
    wf fill (write fill m x v) = true :=
  wfAbove_write h (Nat.zero_le x)

/-- Writing a list of bytes keeps the canonical form. -/
theorem wf_writeList : ∀ {l : List Byte} {m : List Host.Cell} {x : Nat},
    wf fill m = true → wf fill (writeList fill m x l) = true
  | [], _, _, h => h
  | v :: l, m, x, h => wf_writeList (l := l) (m := write fill m x v) (x := x + 1) (wf_write h x v)

/-- A read after writing a list: the bytes of the list at their addresses, the others as before. -/
theorem read_writeList : ∀ {l : List Byte} {m : List Host.Cell} {x : Nat}, wf fill m = true →
    ∀ y, read fill (writeList fill m x l) y =
      if x ≤ y ∧ y < x + l.length then l.getD (y - x) 0#8 else read fill m y
  | [], m, x, _, y => by
    have : ¬ (x ≤ y ∧ y < x) := by omega
    simp [writeList, this]
  | v :: l, m, x, h, y => by
    rw [writeList, read_writeList (wf_write h x v) y, read_write h]
    by_cases h1 : y = x
    · subst h1; simp
    · by_cases h2 : x + 1 ≤ y ∧ y < x + 1 + l.length
      · have h3 : x ≤ y ∧ y < x + (l.length + 1) := by omega
        have h4 : y - x = (y - (x + 1)) + 1 := by omega
        simp only [h2, and_self, if_true, List.length_cons, h3, h4, List.getD_cons_succ]
      · have h3 : ¬ (x ≤ y ∧ y < x + (l.length + 1)) := by omega
        simp only [h2, if_false, h1, List.length_cons, h3]

theorem wfAbove_filter {f : Host.Cell → Bool} :
    ∀ {lo : Nat} {m : List Host.Cell}, wfAbove fill lo m = true →
      wfAbove fill lo (m.filter f) = true
  | _, [], _ => rfl
  | lo, (a, w) :: m, hm => by
    simp only [wfAbove, Bool.and_eq_true, decide_eq_true_eq] at hm
    obtain ⟨⟨hlo, hw⟩, hr⟩ := hm
    simp only [List.filter_cons]
    split
    · simp only [wfAbove, Bool.and_eq_true, decide_eq_true_eq]
      exact ⟨⟨hlo, hw⟩, wfAbove_filter hr⟩
    · exact wfAbove_mono (by omega) (wfAbove_filter hr)

/-- Filling a range keeps the canonical form. -/
theorem wf_fillRange {m : List Host.Cell} (h : wf fill m = true) (lo hi : Nat) :
    wf fill (fillRange lo hi m) = true :=
  wfAbove_filter h

/-- A read after filling a range: the filler inside, as before outside. -/
theorem read_fillRange (lo hi : Nat) : ∀ (m : List Host.Cell) (y : Nat),
    read fill (fillRange lo hi m) y = if lo ≤ y ∧ y < hi then fill else read fill m y
  | [], y => by simp [fillRange, read]
  | (a, w) :: m, y => by
    have ih := read_fillRange lo hi m y
    unfold fillRange at ih ⊢
    simp only [List.filter_cons]
    by_cases h : a < lo ∨ hi ≤ a
    · simp only [h, decide_true, if_true, read, ih]
      by_cases hy : y = a
      · have : ¬ (lo ≤ y ∧ y < hi) := by omega
        simp [this]
      · simp [hy]
    · simp only [h, decide_false, read, Bool.false_eq_true, if_false, ih]
      by_cases hy : y = a
      · have : lo ≤ y ∧ y < hi := by omega
        simp [this]
      · simp [hy]

theorem mem_write {x : Nat} {v : Byte} {c : Host.Cell} :
    ∀ {m : List Host.Cell}, c ∈ write fill m x v → c.1 = x ∨ c ∈ m
  | [], h => by
    unfold write at h; split at h
    · simp at h
    · simp at h; exact .inl (by simp [h])
  | (a, w) :: m, h => by
    unfold write at h
    split at h
    · split at h
      · exact .inr h
      · rcases List.mem_cons.mp h with rfl | h
        · exact .inl rfl
        · exact .inr h
    · split at h
      · split at h
        · exact .inr (List.mem_cons_of_mem _ h)
        · rcases List.mem_cons.mp h with rfl | h
          · exact .inl rfl
          · exact .inr (List.mem_cons_of_mem _ h)
      · rcases List.mem_cons.mp h with rfl | h
        · exact .inr List.mem_cons_self
        · rcases mem_write h with h | h
          · exact .inl h
          · exact .inr (List.mem_cons_of_mem _ h)

/-- Every entry after writing a list is an old one or lies where the list was written. -/
theorem mem_writeList {c : Host.Cell} : ∀ {l : List Byte} {m : List Host.Cell} {x : Nat},
    c ∈ writeList fill m x l → (x ≤ c.1 ∧ c.1 < x + l.length) ∨ c ∈ m
  | [], _, _, h => .inr h
  | v :: l, m, x, h => by
    rcases mem_writeList (l := l) h with h | h
    · exact .inl (by simp only [List.length_cons]; omega)
    · rcases mem_write h with h | h
      · exact .inl (by simp only [List.length_cons]; omega)
      · exact .inr h

theorem mem_fillRange {lo hi : Nat} {m : List Host.Cell} {c : Host.Cell}
    (h : c ∈ fillRange lo hi m) : c ∈ m :=
  List.mem_of_mem_filter h

theorem eq_of_read_above {lo : Nat} : ∀ {m n : List Host.Cell}, wfAbove fill lo m = true →
    wfAbove fill lo n = true → (∀ x, read fill m x = read fill n x) → m = n
  | [], [], _, _, _ => rfl
  | [], (a, v) :: n, _, hn, h => by
    simp only [wfAbove, Bool.and_eq_true, decide_eq_true_eq] at hn
    have := h a
    simp [read] at this
    exact absurd this.symm hn.1.2
  | (a, v) :: m, [], hm, _, h => by
    simp only [wfAbove, Bool.and_eq_true, decide_eq_true_eq] at hm
    have := h a
    simp [read] at this
    exact absurd this hm.1.2
  | (a, v) :: m, (b, w) :: n, hm, hn, h => by
    have hm' := hm; have hn' := hn
    simp only [wfAbove, Bool.and_eq_true, decide_eq_true_eq] at hm hn
    obtain ⟨⟨_, hv⟩, hmr⟩ := hm
    obtain ⟨⟨_, hw⟩, hnr⟩ := hn
    have hab : a = b := by
      rcases Nat.lt_trichotomy a b with hlt | heq | hgt
      · have := h a
        have hne : a ≠ b := by omega
        simp only [read, if_true, hne, if_false] at this
        rw [read_below (lo := b + 1) (by omega) hnr] at this
        exact absurd this hv
      · exact heq
      · have := h b
        have hne : b ≠ a := by omega
        simp only [read, if_true, hne, if_false] at this
        rw [read_below (lo := a + 1) (by omega) hmr] at this
        exact absurd this.symm hw
    subst hab
    have hvw : v = w := by simpa [read] using h a
    subst hvw
    congr 1
    refine eq_of_read_above hmr hnr (fun x => ?_)
    by_cases hx : x = a
    · subst hx
      rw [read_below (lo := x + 1) (by omega) hmr, read_below (lo := x + 1) (by omega) hnr]
    · have := h x
      simpa [read, hx] using this

/-- Two memories in canonical form that read the same are the same list. -/
theorem eq_of_read {m n : List Host.Cell} (hm : wf fill m = true) (hn : wf fill n = true)
    (h : ∀ x, read fill m x = read fill n x) : m = n :=
  eq_of_read_above hm hn h

end Sys2Proof.Machine.Memory

namespace Sys2Proof.Machine

/-- The memory of the reset state is in canonical form. -/
theorem reset_memory_wf : Memory.wf State.reset.build.erasedByte State.reset.flash = true := rfl

/-- Tearing keeps the canonical form. -/
theorem tear_wf {fill : Byte} {ix : Nat} : ∀ {l : List Nat} {m : List Host.Cell},
    Memory.wf fill m = true → Memory.wf fill (tear fill ix l m) = true
  | [], _, h => h
  | a :: l, m, h => tear_wf (l := l) (m := Memory.write fill m a (Config.tornByte ix a))
      (Memory.wf_write h a _)

/-- Tearing writes only the bytes it is given. -/
theorem tear_read {fill : Byte} {ix a : Nat} : ∀ {l : List Nat} {m : List Host.Cell},
    Memory.wf fill m = true → a ∉ l → Memory.read fill (tear fill ix l m) a = Memory.read fill m a
  | [], _, _, _ => rfl
  | b :: l, m, h, ha => by
    rw [List.mem_cons, not_or] at ha
    refine (tear_read (l := l) (Memory.wf_write h b (Config.tornByte ix b)) ha.2).trans ?_
    rw [Memory.read_write h, if_neg ha.1]

/-- Tearing lists only the bytes it is given and those listed before. -/
theorem mem_tear {fill : Byte} {ix : Nat} {c : Host.Cell} : ∀ {l : List Nat} {m : List Host.Cell},
    c ∈ tear fill ix l m → c.1 ∈ l ∨ c ∈ m
  | [], _, h => .inr h
  | b :: l, m, h => by
    rcases mem_tear (l := l) h with h | h
    · exact .inl (List.mem_cons_of_mem _ h)
    · rcases Memory.mem_write h with h | h
      · exact .inl (h ▸ List.mem_cons_self)
      · exact .inr h

end Sys2Proof.Machine
end

