-- ==== Sys2Proof/Laws/Invariants.lean ====
section
/-! SUPPORT. What the parameters give, and what parts and operations keep: parameters, flash, pipes. -/

namespace Sys2Proof.Machine

/-- What R11 gives of the parameters. -/
theorem build_facts {b : Build} (h : b.ok = true) : b.sectorBase % 8 = 0 ∧ b.sectorBytes % 8 = 0
   ∧ b.flashStart.toNat % 8 = 0 ∧ b.sectorBase ≤ b.flashStart.toNat ∧ 0 < b.regionLen
       ∧ b.regionLen % 8 = 0
   ∧ b.flashStart.toNat + b.regionLen ≤ b.sectorBase + b.sectorBytes
       ∧ b.sectorBase + b.sectorBytes ≤ 2^24 ∧ 1 ≤ b.capacity := by
  unfold Build.ok at h
  simp only [Bool.and_eq_true, decide_eq_true_eq] at h
  obtain ⟨⟨⟨⟨⟨⟨⟨h1, h2⟩, h3⟩, h4⟩, h5⟩, h6⟩, h7⟩, h8⟩ := h
  refine ⟨?_, h5, h4, Nat.sub_le _ _, h2, h3, h7, h8, h1⟩
  have hd : 8 ∣ b.sectorBytes := Nat.dvd_of_mod_eq_zero h5
  have : b.sectorBytes ∣ b.sectorBase := Nat.dvd_sub_mod _
  exact Nat.mod_eq_zero_of_dvd (hd.trans this)

/-- Writing a semaphore keeps the parameters. -/
theorem setSem_build (x n) (s : State) : (setSem x n s).build = s.build := by
  rcases x with p | p | p | _ <;> first | rfl | (cases p <;> rfl)

/-- The parameters are those of before. -/
theorem Change.build {m s t} (h : Change m s t) : t.build = s.build := by
  cases h with
  | sem x n l hm => exact setSem_build x n s
  | exec d o r u l hm hc hd hr hu =>
    obtain ⟨f, rfl, _⟩ := sequencerStep_ok hu; rfl
  | put p => cases p <;> rfl
  | get p => cases p <;> rfl
  | init p => cases p <;> rfl
  | users p => cases p <;> rfl
  | _ => rfl

/-- An atomic operation keeps the parameters. -/
theorem Atomic.build {i s t} (h : Atomic i s t) : t.build = s.build := by
  cases h with
  | put p => cases p <;> rfl
  | get p => cases p <;> rfl
  | init p => cases p <;> rfl
  | _ => rfl

/-- Beginning an operation keeps the parameters. -/
theorem Begun.build {i s t} (h : Begun i s t) : t.build = s.build := by
  cases h with
  | parts l v hk hf hb hp hv =>
    rcases hv with rfl | ⟨p, u, rfl⟩
    · rfl
    · cases p <;> rfl
  | _ => rfl

/-- Flash, the environment's answers and the sequencer are as before, or the command in flight has been executed
with the first answer (R184, R187). -/
def FlashStepOf (s t : State) : Prop :=
  (t.flash = s.flash ∧ t.draws = s.draws) ∨
    ∃ d o r u, s.seq.complete = false ∧ s.seq.inflight = some d ∧ s.draws = o :: r
      ∧ sequencerStep d o (s.setDraws r) = .ok u ∧ t.flash = u.flash ∧ t.draws = r

/-- Writing a semaphore keeps flash and the answers. -/
theorem setSem_flash (x n) (s : State) : (setSem x n s).flash = s.flash
    ∧ (setSem x n s).draws = s.draws := by
  rcases x with p | p | p | _ <;> first | exact ⟨rfl, rfl⟩ | (cases p <;> exact ⟨rfl, rfl⟩)

/-- A part either leaves flash and the answers alone or executes the command in flight. -/
theorem Change.flash {m s t} (h : Change m s t) : FlashStepOf s t := by
  cases h with
  | sem x n l hm => exact .inl (setSem_flash x n s)
  | exec d o r u l hm hc hd hr hu =>
    refine .inr ⟨d, o, r, u, hc, hd, hr, hu, rfl, ?_⟩
    obtain ⟨f, rfl, _⟩ := sequencerStep_ok hu; rfl
  | put p => cases p <;> exact .inl ⟨rfl, rfl⟩
  | get p => cases p <;> exact .inl ⟨rfl, rfl⟩
  | init p => cases p <;> exact .inl ⟨rfl, rfl⟩
  | users p => cases p <;> exact .inl ⟨rfl, rfl⟩
  | _ => exact .inl ⟨rfl, rfl⟩

/-- An atomic operation leaves flash and the answers alone. -/
theorem Atomic.flash {i s t} (h : Atomic i s t) : t.flash = s.flash ∧ t.draws = s.draws := by
  cases h with
  | put p => cases p <;> exact ⟨rfl, rfl⟩
  | get p => cases p <;> exact ⟨rfl, rfl⟩
  | init p => cases p <;> exact ⟨rfl, rfl⟩
  | _ => exact ⟨rfl, rfl⟩

/-- Beginning an operation leaves flash and the answers alone. -/
theorem Begun.flash {i s t} (h : Begun i s t) : t.flash = s.flash ∧ t.draws = s.draws := by
  cases h with
  | parts l v hk hf hb hp hv =>
    rcases hv with rfl | ⟨p, u, rfl⟩
    · exact ⟨rfl, rfl⟩
    · cases p <;> exact ⟨rfl, rfl⟩
  | _ => exact ⟨rfl, rfl⟩

/-- Executing a command keeps the flash canonical and inside the sector (R31). -/
theorem sequencerStep_wf {d o} {s t : State} (hb : s.build.ok = true) (hs : s.flashWf)
    (h : sequencerStep d o s = .ok t) : t.flashWf := by
  obtain ⟨f, rfl, hf⟩ := sequencerStep_ok h
  unfold State.flashWf at *
  show Memory.wf s.build.erasedByte f = true ∧ ∀ c ∈ f, s.inSector c.1 = true
  rcases hf with rfl | ⟨_, _, rfl⟩ | ⟨ho, hp, _, rfl⟩
  · exact hs
  · exact ⟨Memory.wf_fillRange hs.1 _ _, fun c hc => hs.2 c (Memory.mem_fillRange hc)⟩
  · refine ⟨Memory.wf_writeList hs.1, fun c hc => ?_⟩
    rcases Memory.mem_writeList hc with hc | hc
    · have hm : malformed d s = false := by
        unfold outcomeOf at ho
        split at ho
        · cases ho
        · simp_all
      unfold malformed at hm
      split at hm
      · cases hm
      · rename_i hin
        have hne : d.opcode ≠ Config.opcEraseSector := by rw [hp]; decide
        simp only [if_neg hne, if_pos hp] at hm
        have hm : d.addr.toNat % 8 = 0 := by simpa using hm
        unfold State.inSector at hin ⊢
        simp only [Bool.and_eq_true, decide_eq_true_eq, Bool.not_eq_false] at hin ⊢
        obtain ⟨e1, e2, _⟩ := build_facts hb
        have : (phraseBytes d.data).length = 8 := rfl
        rw [this] at hc
        omega
    · exact hs.2 c hc

/-- A program command that has a meaning writes inside the sector (R10, R188). -/
theorem phrase_inSector {d : Descriptor} {s : State} (hb : s.build.ok = true)
    (hm : malformed d s = false) (hd : d.opcode ≠ Config.opcEraseSector) {k : Nat} (hk : k < 8) :
    s.inSector (d.addr.toNat + k) = true := by
  unfold malformed at hm
  split at hm
  · cases hm
  · rename_i hin
    split at hm
    · have hm : d.addr.toNat % 8 = 0 := by simpa using hm
      unfold State.inSector at hin ⊢
      simp only [Bool.and_eq_true, decide_eq_true_eq, Bool.not_eq_false] at hin ⊢
      obtain ⟨e1, e2, _⟩ := build_facts hb
      omega
    · cases hm

/-- What a restart may tear lies in the sector. -/
theorem atRisk_inSector {s : State} (hb : s.build.ok = true) {a : Nat} (ha : a ∈ s.atRisk) :
    s.inSector a = true := by
  unfold State.atRisk at ha
  split at ha
  · cases ha
  · split at ha
    · rename_i d _
      unfold commandChanges at ha
      split at ha
      · cases ha
      · rename_i hm
        split at ha
        · exact (List.mem_filter.mp ha).2
        · rename_i hd
          obtain ⟨k, hk, hka⟩ := List.mem_filterMap.mp ha
          split at hka
          · cases hka
          · cases hka
            exact phrase_inSector hb (by simpa using hm) hd (List.mem_range.mp hk)
    · cases ha

/-- A restart with no command in flight keeps flash (R45). -/
theorem restart_flash {s : State} (h : s.seq.complete = true) : s.restart.flash = s.flash := by
  unfold State.restart State.atRisk
  rw [if_pos h]; rfl

/-- A byte never leaves the codec in `Validate` (R142). -/
theorem takeByte_rests (b : Byte) (c : Codec) : (c.takeByte b).1.state ≠ .validate := by
  unfold Codec.takeByte Codec.validateStep
  split <;> (try split) <;> simp

/-- Writing a semaphore keeps the codec and the sequencer. -/
theorem setSem_fr (x n) (s : State) : (setSem x n s).fr = s.fr ∧ (setSem x n s).seq = s.seq := by
  rcases x with p | p | p | _ <;> first | exact ⟨rfl, rfl⟩ | (cases p <;> exact ⟨rfl, rfl⟩)

/-- The semaphores play no part in R22 (a) to (c). -/
theorem wf_sem {C} {p : Pipe} (h : p.wf C) (a b c : Nat) :
    ({p with space := a, items := b, lock := c} : Pipe).wf C := h

/-- PIPE_INIT leaves a pipe that meets R22. -/
theorem wf_init {C} {p : Pipe} (h : p.wf C) (hc : 1 ≤ C) (s : State) : (p.init s).wf C := by
  obtain ⟨⟨a, _⟩, _⟩ := h
  exact ⟨⟨a, hc, hc⟩, Nat.zero_le _, by simp [Pipe.init]⟩

/-- A pipe right after reset meets R22. -/
theorem wf_reset {C} (hc : 1 ≤ C) : (Pipe.reset C).wf C :=
  ⟨⟨by simp [Pipe.reset], hc, hc⟩, Nat.zero_le _, by simp [Pipe.reset]⟩

/-- Both pipes meet R22 (a) to (c). -/
def State.pipesWf (C : Nat) (s : State) : Prop := s.rxf.wf C ∧ s.txf.wf C

/-- Either pipe does. -/
theorem pipesWf_pipe {C} {s : State} (h : s.pipesWf C) (p : PipeId) : (s.pipe p).wf C := by
  cases p; exact h.1; exact h.2

/-- Replacing a pipe by one that does. -/
theorem pipesWf_set {C} {s : State} (h : s.pipesWf C) (p : PipeId) {q : Pipe} (hq : q.wf C) :
    (s.setPipe p q).pipesWf C := by
  cases p
  · exact ⟨hq, h.2⟩
  · exact ⟨h.1, hq⟩

/-- Writing a semaphore. -/
theorem pipesWf_sem {C} {s : State} (h : s.pipesWf C) (x n) : (setSem x n s).pipesWf C := by
  rcases x with p | p | p | _
  · exact pipesWf_set h p (wf_sem (pipesWf_pipe h p) _ _ _)
  · exact pipesWf_set h p (wf_sem (pipesWf_pipe h p) _ _ _)
  · exact pipesWf_set h p (wf_sem (pipesWf_pipe h p) _ _ _)
  · exact h

/-- A pipe that is not full has room. -/
theorem lt_of_not_full {C} {p : Pipe} (h : p.wf C) (hf : p.full C = false) : p.count < C := by
  unfold Pipe.full at hf
  have := h.2.1
  simp at hf
  omega

/-- Writing a semaphore keeps the parameters and what the agents carry. -/
theorem setSem_carried (x n) (s : State) : (setSem x n s).build = s.build
    ∧ (setSem x n s).me = s.me ∧ (setSem x n s).parked = s.parked := by
  rcases x with p | p | p | _ <;>
      first | exact ⟨rfl, rfl, rfl⟩ | (cases p <;> exact ⟨rfl, rfl, rfl⟩)

/-- A part of the running agent leaves the other agents alone. -/
theorem Change.parked {m s t} (h : Change m s t) : t.parked = s.parked := by
  cases h with
  | sem x n => exact (setSem_carried x n _).2.2
  | put p => cases p <;> rfl
  | get p => cases p <;> rfl
  | init p => cases p <;> rfl
  | users p => cases p <;> rfl
  | exec d o r u l hm hc hd hr hu => obtain ⟨f, rfl, _⟩ := sequencerStep_ok hu; rfl
  | _ => rfl

/-- An atomic operation leaves what the agents have to do alone. -/
theorem Atomic.carried {i s t} (h : Atomic i s t) : t.parked = s.parked ∧ t.me.todo = s.me.todo
    ∧ t.build = s.build := by
  cases h with
  | put p => cases p <;> exact ⟨rfl, rfl, rfl⟩
  | get p => cases p <;> exact ⟨rfl, rfl, rfl⟩
  | init p => cases p <;> exact ⟨rfl, rfl, rfl⟩
  | _ => exact ⟨rfl, rfl, rfl⟩

/-- Beginning an operation leaves the other agents alone. -/
theorem Begun.carried {i s t} (h : Begun i s t) : t.parked = s.parked ∧ t.build = s.build := by
  cases h with
  | parts l v hk hf hb hp hv =>
    rcases hv with rfl | ⟨p, u, rfl⟩
    · exact ⟨rfl, rfl⟩
    · cases p <;> exact ⟨rfl, rfl⟩
  | _ => exact ⟨rfl, rfl⟩

/-- The regime is a parameter. -/
theorem polled_congr {s t : State} (h : t.build = s.build) : t.polled = s.polled := by
  unfold State.polled; rw [h]

/-- What a lookup finds is in the list. -/
theorem lookup_mem {a : Agent} {l : List (Agent × Local)} {x : Local} (h : l.lookup a = some x) :
    (a, x) ∈ l := by
  induction l with
  | nil => cases h
  | cons y l ih =>
    obtain ⟨b, z⟩ := y
    rw [List.lookup_cons] at h
    split at h
    · rename_i he; simp at he; cases h; simp [he]
    · simp [ih h]

/-- Where every agent has returned, every agent may ask. -/
theorem returned_canAsk {s : State} (h : s.allReturned) : s.canAsk = true := by
  unfold State.canAsk; rw [h.1, h.2.1]; rfl

/-- A change of agent keeps that every agent has returned. -/
theorem switchTo_returned {s : State} (h : s.allReturned) (a : Agent) :
    (s.switchTo a).allReturned := by
  obtain ⟨h1, h2, h3⟩ := h
  unfold State.switchTo
  split
  · exact ⟨h1, h2, h3⟩
  · refine ⟨h1, ?_, ?_⟩
    · show ((s.parked.lookup a).getD Local.idle).todo = []
      cases hl : s.parked.lookup a with
      | none => rfl
      | some y => exact h3 _ (lookup_mem hl)
    · intro y hy
      have hy : y ∈ (s.who, s.me) :: s.parked.filter _ := hy
      rcases List.mem_cons.mp hy with rfl | hy
      · exact h2
      · exact h3 y (List.mem_of_mem_filter hy)

/-- Writing a semaphore keeps every register that is no semaphore. -/
theorem setSem_fields (x n) (s : State) : (setSem x n s).alloc = s.alloc
    ∧ (setSem x n s).fr = s.fr ∧ (setSem x n s).nvNumber = s.nvNumber
    ∧ (setSem x n s).nvMode = s.nvMode
   ∧ (setSem x n s).protoMode = s.protoMode ∧ (setSem x n s).rtc = s.rtc
       ∧ (setSem x n s).cmd = s.cmd ∧ (setSem x n s).seq = s.seq ∧ (setSem x n s).ws = s.ws
       ∧ (setSem x n s).flash = s.flash ∧ (setSem x n s).build = s.build := by
  rcases x with p | p | p | _ <;>
      first | exact ⟨rfl, rfl, rfl, rfl, rfl, rfl, rfl, rfl, rfl, rfl, rfl⟩ | (cases p <;> exact ⟨rfl, rfl, rfl, rfl, rfl, rfl, rfl, rfl, rfl, rfl, rfl⟩)

end Sys2Proof.Machine
end

