-- ==== Sys2Proof/Laws/Operands.lean ====
section
/-! SUPPORT. The operand forms and their inverses: addresses, byte order, the command byte. -/

namespace Sys2Proof.Machine

/-- An address is put together again from its three descriptor bytes. -/
theorem addr_bytes (a : Addr) : addrOf (byteOf a 2) (byteOf a 1) (byteOf a 0) = a := by
  unfold addrOf byteOf
  ext i hi
  simp only [BitVec.getElem_append, BitVec.getElem_extractLsb']
  split
  · rename_i h; simp [BitVec.getLsbD_eq_getElem hi]
  · split
    · simp only [Nat.mul_one]; rw [show 8 + (i - 8) = i by omega]; simp [BitVec.getLsbD_eq_getElem hi]
    · rw [show 8 * 2 + (i - 8 - 8) = i by omega]; simp [BitVec.getLsbD_eq_getElem hi]

/-- The three bytes an address was put together from. -/
theorem byteOf_addrOf (a b c : Byte) :
    byteOf (addrOf a b c) 2 = a ∧ byteOf (addrOf a b c) 1 = b ∧ byteOf (addrOf a b c) 0 = c := by
  unfold addrOf byteOf
  refine ⟨?_, ?_, ?_⟩ <;> ext i hi <;>
    simp only [BitVec.getElem_extractLsb', BitVec.getLsbD_append]
  · rw [if_neg (by omega), if_neg (by omega), show 8 * 2 + i - 8 - 8 = i by omega]
    simp [BitVec.getLsbD_eq_getElem hi]
  · rw [if_neg (by omega), if_pos (by omega), show 8 * 1 + i - 8 = i by omega]
    simp [BitVec.getLsbD_eq_getElem hi]
  · rw [if_pos (by omega), show 8 * 0 + i = i by omega]
    simp [BitVec.getLsbD_eq_getElem hi]

/-- A half-word is put together again from its bytes. -/
theorem le16_bytes (v : BitVec 16) : le16 (byteOf v 0) (byteOf v 1) = v := by
  unfold le16 byteOf
  ext i hi
  simp only [BitVec.getElem_or, BitVec.getElem_setWidth, BitVec.getElem_shiftLeft,
    BitVec.getLsbD_extractLsb']
  by_cases h : i < 8
  · simp [h, BitVec.getLsbD_eq_getElem hi]
  · have h1 : i - 8 < 8 := by omega
    have h2 : 8 + (i - 8) = i := by omega
    simp [h, h1, h2, BitVec.getLsbD_eq_getElem hi]

/-- A word is put together again from its bytes. -/
theorem le32_bytes (v : BitVec 32) :
    le32 (byteOf v 0) (byteOf v 1) (byteOf v 2) (byteOf v 3) = v := by
  unfold le32 byteOf
  ext i hi
  simp only [BitVec.getElem_or, BitVec.getElem_setWidth, BitVec.getElem_shiftLeft,
    BitVec.getLsbD_extractLsb']
  by_cases h : i < 8
  · have h1 : i < 16 := by omega
    have h2 : i < 24 := by omega
    simp [h, h1, h2, BitVec.getLsbD_eq_getElem hi]
  · by_cases h1 : i < 16
    · have a : i - 8 < 8 := by omega
      have b : 8 + (i - 8) = i := by omega
      have c : i < 24 := by omega
      simp [h, h1, a, b, c, BitVec.getLsbD_eq_getElem hi]
    · have a0 : ¬ (i - 8 < 8) := by omega
      by_cases h2 : i < 24
      · have a : i - 16 < 8 := by omega
        have b : 16 + (i - 16) = i := by omega
        simp [h, h1, h2, a0, a, b, BitVec.getLsbD_eq_getElem hi]
      · have a1 : ¬ (i - 16 < 8) := by omega
        have a : i - 24 < 8 := by omega
        have b : 24 + (i - 24) = i := by omega
        simp [h, h1, h2, a0, a1, a, b, BitVec.getLsbD_eq_getElem hi]

/-- The code of a command byte does not depend on its flag. -/
theorem codeOf_commandByte (ack : Bool) (code : Byte) : codeOf (commandByte ack code) = codeOf code := by
  unfold codeOf commandByte
  cases ack
  · simp
  · simp only [if_true]; rw [BitVec.and_or_distrib_right]; simp

/-- The flag of a command byte whose code leaves bit 7 clear. -/
theorem ackOf_commandByte (ack : Bool) {code : Byte} (h : code.getLsbD 7 = false) :
    ackOf (commandByte ack code) = ack := by
  unfold ackOf commandByte
  rw [BitVec.getLsbD_or, h]
  cases ack <;> rfl

/-- A command byte is put together again from its flag and its code. -/
theorem commandByte_of (c : Byte) : commandByte (ackOf c) (codeOf c) = c := by
  unfold commandByte ackOf codeOf
  revert c
  decide
end Sys2Proof.Machine
end

