-- ==== Sys2Proof/Laws/Merge.lean ====
section
/-! SUPPORT. The allocator and the Merge of the write path (R161, R167 to R170). -/

namespace Sys2Proof.Machine

variable {s : State}

/-- A run of the map is free iff it is aligned and its entries are (R161). -/
theorem mapFree_iff (m : List Bool) (n p : Nat) : mapFree m n p = true ↔ p % n = 0 ∧ ∀ k, k < n
    → m[p + k]? = some false := by
  unfold mapFree
  simp only [Bool.and_eq_true, decide_eq_true_eq, List.all_eq_true, List.mem_range,
      Bool.not_eq_true']
  refine and_congr_right fun _ => forall_congr' fun k => forall_congr' fun _ => ?_
  rw [List.getD_eq_getElem?_getD]
  cases m[p + k]? <;> simp

/-- The allocator takes the lowest aligned free run (R161). -/
theorem findFree_some {m : List Bool} {n p : Nat} (hn : 0 < n) (h0 : p % n = 0) (h1 : ∀ k, k < n
    → m[p + k]? = some false)
    (h2 : ∀ r, r < p → r % n = 0 → ∃ k, k < n ∧ m[r + k]? ≠ some false) :
        findFree m n = some p := by
  unfold findFree
  rw [List.find?_range_eq_some]
  have hl : p + (n - 1) < m.length := by
    have := h1 (n - 1) (by omega)
    exact (List.getElem?_eq_some_iff.mp this).1
  refine ⟨(mapFree_iff _ _ _).mpr ⟨h0, h1⟩, List.mem_range.mpr (by omega), fun j hj => ?_⟩
  cases hm : mapFree m n j
  · rfl
  · obtain ⟨a, b⟩ := (mapFree_iff _ _ _).mp hm
    obtain ⟨k, hk, hk'⟩ := h2 j hj a
    exact absurd (b k hk) hk'

/-- Where there is none it takes none. -/
theorem findFree_none {m : List Bool} {n : Nat}
    (h2 : ∀ r, r % n = 0 → ∃ k, k < n ∧ m[r + k]? ≠ some false) : findFree m n = none := by
  unfold findFree
  rw [List.find?_eq_none]
  intro j _ hm
  obtain ⟨a, b⟩ := (mapFree_iff _ _ _).mp hm
  obtain ⟨k, hk, hk'⟩ := h2 j a
  exact hk' (b k hk)

/-- An access that R166 lets pass. -/
theorem storeCheck_pass {a : Addr} {n : Nat} (h : s.inRegion a.toNat n)
    (hf : s.storeFree = true) : storeCheck a n s = .pass := by
  obtain ⟨h1, h2, h3⟩ := h
  unfold storeCheck
  rw [if_neg (by omega), if_neg (by simpa using h3), if_neg (by simp [hf])]

/-- The bytes of two halves put together. -/
theorem byteOf_or_shift {n k : Nat} (lo : BitVec k) (hi : BitVec k) (hk : k = 8 * n)
    (hn : 2 * k ≤ 64) (i : Nat) (hi' : i < 2 * n) :
   byteOf (lo.setWidth (2 * k) ||| (hi.setWidth (2 * k) <<< k)) i =
       if i < n then byteOf lo i else byteOf hi (i - n) := by
  unfold byteOf
  split
  · ext j hj
    simp only [BitVec.getElem_extractLsb', BitVec.getLsbD_or, BitVec.getLsbD_setWidth,
        BitVec.getLsbD_shiftLeft]
    have h1 : 8 * i + j < 2 * k := by omega
    have h2 : 8 * i + j < k := by omega
    simp [h1, h2]
  · ext j hj
    simp only [BitVec.getElem_extractLsb', BitVec.getLsbD_or, BitVec.getLsbD_setWidth,
        BitVec.getLsbD_shiftLeft]
    have h1 : 8 * i + j < 2 * k := by omega
    have h2 : ¬ (8 * i + j < k) := by omega
    have h3 : 8 * i + j - k = 8 * (i - n) + j := by omega
    have h4 : 8 * (i - n) + j < 2 * k := by omega
    simp [h1, h2, h3, h4]
    intro h; exact absurd (BitVec.lt_of_getLsbD h) (by omega)

/-- The bytes of a half-word (R14). -/
theorem byteOf_le16 (a b : Byte) : byteOf (le16 a b) 0 = a ∧ byteOf (le16 a b) 1 = b := by
  have h0 := byteOf_or_shift (n := 1) a b rfl (by omega) 0 (by omega)
  have h1 := byteOf_or_shift (n := 1) a b rfl (by omega) 1 (by omega)
  have e : ∀ x : Byte, byteOf x 0 = x := fun x => by unfold byteOf; simp
  simp [e] at h0 h1
  exact ⟨h0, h1⟩

/-- The bytes of a word (R14). -/
theorem byteOf_le32 (a b c d : Byte) : byteOf (le32 a b c d) 0 = a ∧ byteOf (le32 a b c d) 1 = b
    ∧ byteOf (le32 a b c d) 2 = c ∧ byteOf (le32 a b c d) 3 = d := by
  have e : le32 a b c d = (le16 a b).setWidth 32 ||| ((le16 c d).setWidth 32 <<< 16) := by
    unfold le32 le16
    ext i hi
    simp only [BitVec.getElem_or, BitVec.getElem_setWidth, BitVec.getElem_shiftLeft,
        BitVec.getLsbD_or, BitVec.getLsbD_setWidth, BitVec.getLsbD_shiftLeft]
    by_cases h : i < 8
    · have h1 : i < 16 := by omega
      have h2 : i < 24 := by omega
      simp [h, h1, h2]
    · by_cases h1 : i < 16
      · have h2 : i < 24 := by omega
        have h3 : i - 8 < 16 := by omega
        simp [h, h1, h2, h3]
      · by_cases h2 : i < 24
        · have a1 : i - 16 < 8 := by omega
          have a2 : i - 16 < 16 := by omega
          have q1 : b.getLsbD (i - 8) = false := BitVec.getLsbD_of_ge _ _ (by omega)
          have q0 : a.getLsbD i = false := BitVec.getLsbD_of_ge _ _ (by omega)
          simp [h, h1, h2, a1, a2, q1, q0]
        · have a1 : ¬ (i - 16 < 8) := by omega
          have a2 : i - 16 < 16 := by omega
          have a3 : i - 16 - 8 = i - 24 := by omega
          have q1 : b.getLsbD (i - 8) = false := BitVec.getLsbD_of_ge _ _ (by omega)
          have q2 : c.getLsbD (i - 16) = false := BitVec.getLsbD_of_ge _ _ (by omega)
          have q0 : a.getLsbD i = false := BitVec.getLsbD_of_ge _ _ (by omega)
          have a4 : i - 24 < 16 := by omega
          simp [h, h1, h2, a1, a2, a3, q1, q2, q0, a4]
  obtain ⟨p1, p2⟩ := byteOf_le16 a b
  obtain ⟨p3, p4⟩ := byteOf_le16 c d
  have k := byteOf_or_shift (n := 2) (le16 a b) (le16 c d) rfl (by omega)
  simp only [Nat.reduceMul] at k
  rw [e]
  refine ⟨?_, ?_, ?_, ?_⟩
  · rw [k 0 (by omega)]; simp [p1]
  · rw [k 1 (by omega)]; simp [p2]
  · rw [k 2 (by omega)]; simp [p3]
  · rw [k 3 (by omega)]; simp [p4]

/-- The image of the data region with `l` at `a`, which Merge must give (R167). -/
def State.image (a : Nat) (l : List Byte) (s : State) : List Byte :=
  (List.range s.build.regionLen).map (fun i => s.byteAfter a l (s.regionBase + i))

/-- It has the region's length. -/
theorem image_length (a l) (s : State) : (s.image a l).length = s.build.regionLen :=
    by simp [State.image]

/-- Its bytes, with a default. -/
theorem image_getD (a l) (s : State) {i : Nat} (h : i < s.build.regionLen) :
    (s.image a l).getD i 0#8 = s.byteAfter a l (s.regionBase + i) := by
  simp [State.image, h]

/-- A list with eight bytes replaced. -/
theorem getElem_replace8 (r : List Byte) (j : Nat) (new : List Byte) (hn : new.length = 8)
    (hj : j + 8 ≤ r.length) (i : Nat) :
   (replace8 r j new)[i]? = if j ≤ i ∧ i < j + 8 then new[i - j]? else r[i]? := by
  unfold replace8
  rw [List.append_assoc, List.getElem?_append]
  by_cases h : i < (r.take j).length
  · have h' : i < j := by simp at h; omega
    rw [if_pos h, if_neg (by omega), List.getElem?_take_of_lt h']
  · have hlj : (r.take j).length = j := by simp; omega
    rw [if_neg h, hlj, List.getElem?_append, hn]
    rw [hlj] at h
    by_cases h2 : i - j < 8
    · rw [if_pos h2, if_pos (by omega)]
    · rw [if_neg h2, if_neg (by omega), List.getElem?_drop]; congr 1; omega

/-- Clearing an address's low bits. -/
theorem and_not_low (a : Addr) : (a &&& ~~~7#24).toNat = a.toNat - a.toNat % 8
    ∧ (a &&& ~~~3#24).toNat = a.toNat - a.toNat % 4
    ∧ (a &&& ~~~1#24).toNat = a.toNat - a.toNat % 2 := by
  have h7 : a &&& ~~~7#24 = (a >>> 3) <<< 3 := by
    ext i hi; interval_cases i <;> simp
  have h3 : a &&& ~~~3#24 = (a >>> 2) <<< 2 := by
    ext i hi; interval_cases i <;> simp
  have h1 : a &&& ~~~1#24 = (a >>> 1) <<< 1 := by
    ext i hi; interval_cases i <;> simp
  have := a.isLt
  rw [h7, h3, h1]
  simp only [BitVec.toNat_shiftLeft, BitVec.toNat_ushiftRight, Nat.shiftLeft_eq,
      Nat.shiftRight_eq_div_pow]
  refine ⟨?_, ?_, ?_⟩ <;> omega

/-- Flipping one of an address's low bits. -/
theorem xor_twoPow (a : Addr) (m : Nat) (hm : m < 3) : (a.getLsbD m = false
    → (a ^^^ BitVec.twoPow 24 m).toNat = a.toNat + 2 ^ m)
   ∧ (a.getLsbD m = true → (a ^^^ BitVec.twoPow 24 m).toNat + 2 ^ m = a.toNat) := by
  have key : ∀ b : Addr, b.getLsbD m = false
      → (b ^^^ BitVec.twoPow 24 m).toNat = b.toNat + 2 ^ m := by
    intro b hb
    have h0 : b &&& BitVec.twoPow 24 m = 0#24 := by rw [BitVec.and_twoPow, hb]; rfl
    have h1 : b ^^^ BitVec.twoPow 24 m = b ||| BitVec.twoPow 24 m := by
      ext i hi
      have := congrArg (fun x => x.getLsbD i) h0
      simp only [BitVec.getLsbD_and, BitVec.getLsbD_zero, ← BitVec.getLsbD_eq_getElem hi,
          BitVec.getLsbD_xor, BitVec.getLsbD_or] at *
      cases h : b.getLsbD i <;> simp_all
    rw [h1, ← BitVec.add_eq_or_of_and_eq_zero _ _ h0, BitVec.toNat_add, BitVec.toNat_twoPow]
    have h2 : b.toNat.testBit m = false := hb
    rw [Nat.testBit_eq_decide_div_mod_eq] at h2
    have := b.isLt
    interval_cases m <;> simp at h2 ⊢ <;> omega
  refine ⟨key a, fun h => ?_⟩
  have := key (a ^^^ BitVec.twoPow 24 m) (by simp [h]; omega)
  rw [BitVec.xor_assoc, BitVec.xor_self, BitVec.xor_zero] at this
  exact this.symm

/-- A wider write whose other bytes are those in flash writes the same. -/
theorem byteAfter_widen {a b : Nat} {l m : List Byte} (h : ∀ i, i < m.length
    → m.getD i 0#8 = s.byteAfter a l (b + i))
    (h1 : b ≤ a) (h2 : a + l.length ≤ b + m.length) (x : Nat) :
        s.byteAfter b m x = s.byteAfter a l x := by
  by_cases hx : b ≤ x ∧ x < b + m.length
  · have := h (x - b) (by omega)
    rw [show b + (x - b) = x by omega] at this
    rw [← this]; unfold State.byteAfter; rw [if_pos hx]
  · unfold State.byteAfter; rw [if_neg hx, if_neg (by omega)]

/-- The first `n` bytes of a value, least significant first. -/
def leBytes {w : Nat} (v : BitVec w) (n : Nat) : List Byte := (List.range n).map (byteOf v)

/-- Writes of the same bytes give one image. -/
theorem image_congr {a b : Nat} {l m : List Byte}
    (h : ∀ x, s.byteAfter a l x = s.byteAfter b m x) : s.image a l = s.image b m := by
  unfold State.image; simp only [h]

/-- The bytes of the data region. -/
theorem region_get (i : Nat) : s.region[i]? = if i < s.build.regionLen then some
    (s.flashByte (s.regionBase + i)) else none := by
  unfold State.region State.flashBytes
  by_cases h : i < s.build.regionLen <;> simp [h]

/-- The bytes of the image. -/
theorem image_get (a l) (i : Nat) : (s.image a l)[i]? = if i < s.build.regionLen then some
    (s.byteAfter a l (s.regionBase + i)) else none := by
  unfold State.image
  by_cases h : i < s.build.regionLen <;> simp [h]

/-- NV_WRITE32's Merge (R170). -/
theorem merge32_ok {a : Addr} (w : BitVec 32) (hok : s.build.ok = true) (h : s.inRegion a.toNat 4) :
    merge32 a w s = s.image a.toNat [byteOf w 0, byteOf w 1, byteOf w 2, byteOf w 3] := by
  obtain ⟨-, -, b1, -, b2, b3, -, -, -⟩ := build_facts hok
  change s.regionBase % 8 = 0 at b1
  obtain ⟨h1, h2, h3⟩ := h
  obtain ⟨x1, x2⟩ := xor_twoPow a 2 (by omega)
  rw [show BitVec.twoPow 24 2 = 4#24 from rfl] at x1 x2
  apply List.ext_getElem?
  intro i
  have ho : ∀ y, byteOf (s.flash32 y) 0 = s.flashByte y
      ∧ byteOf (s.flash32 y) 1 = s.flashByte (y + 1)
      ∧ byteOf (s.flash32 y) 2 = s.flashByte (y + 2)
      ∧ byteOf (s.flash32 y) 3 = s.flashByte (y + 3) := fun y => byteOf_le32 _ _ _ _
  have hdef : merge32 a w s = replace8 s.region ((a &&& ~~~7#24).toNat - s.regionBase)
      (bytesLe64
      (if a.getLsbD 2 = false then w.setWidth 64 |||
      ((s.flash32 (a ^^^ 4#24).toNat).setWidth 64 <<< 32) else
      (s.flash32 (a ^^^ 4#24).toNat).setWidth 64 ||| (w.setWidth 64 <<< 32))) := rfl
  rw [hdef, (and_not_low a).1]
  have hbit : a.getLsbD 2 = decide (a.toNat / 4 % 2 = 1) := by
    show a.toNat.testBit 2 = _
    rw [Nat.testBit_eq_decide_div_mod_eq]
  have hlr : (s.region).length = s.build.regionLen := by simp [State.region, State.flashBytes]
  rw [getElem_replace8 _ _ _ rfl (by rw [hlr]; omega), image_get, region_get]
  have sub : s.regionBase + (i - (a.toNat - a.toNat % 8 - s.regionBase)) = s.regionBase +
      (i - (a.toNat - a.toNat % 8 - s.regionBase)) := rfl
  by_cases hi : a.toNat - a.toNat % 8 - s.regionBase ≤ i
      ∧ i < a.toNat - a.toNat % 8 - s.regionBase + 8
  · rw [if_pos hi, if_pos (show i < s.build.regionLen by omega)]
    obtain ⟨n, hn⟩ : ∃ n, i = (a.toNat - a.toNat % 8 - s.regionBase) + n :=
        ⟨i - (a.toNat - a.toNat % 8 - s.regionBase), by omega⟩
    have hn8 : n < 8 := by omega
    have e1 : s.regionBase + i = a.toNat - a.toNat % 8 + n := by omega
    rw [e1, hn, Nat.add_sub_cancel_left]
    have kk := fun lo hi => byteOf_or_shift (n := 4) (k := 32) lo hi rfl (by omega)
    simp only [Nat.reduceMul] at kk
    by_cases hb : a.getLsbD 2 = false
    · have hx : (a ^^^ 4#24).toNat = a.toNat + 4 := x1 hb
      have h8 : a.toNat % 8 = 0 := by rw [hbit] at hb; simp at hb; omega
      simp only [hb, if_true]
      have hy := ho (a ^^^ 4#24).toNat
      rw [hx] at hy
      have hA : ∀ j, s.byteAfter a.toNat [byteOf w 0, byteOf w 1, byteOf w 2, byteOf w 3]
          (a.toNat - a.toNat % 8 + j) = if j < 4 then
          [byteOf w 0, byteOf w 1, byteOf w 2, byteOf w 3].getD j 0#8 else s.flashByte
          (a.toNat + j) := by
        intro j
        rw [h8, Nat.sub_zero]
        unfold State.byteAfter
        by_cases hj : j < 4
        · rw [if_pos ⟨by omega, by simp; omega⟩, if_pos hj, Nat.add_sub_cancel_left]
        · rw [if_neg (by simp; omega), if_neg hj]
      rw [hA]
      rw [hx]
      unfold bytesLe64
      rw [kk _ _ 0 (by omega), kk _ _ 1 (by omega), kk _ _ 2 (by omega), kk _ _ 3 (by omega),
        kk _ _ 4 (by omega), kk _ _ 5 (by omega), kk _ _ 6 (by omega), kk _ _ 7 (by omega)]
      interval_cases n <;> simp [hy]
    · have hb : a.getLsbD 2 = true := by simpa using hb
      have hx := x2 hb
      have h8 : a.toNat % 8 = 4 := by rw [hbit] at hb; simp at hb; omega
      simp only [hb, Bool.true_eq_false, if_false]
      have hy := ho (a ^^^ 4#24).toNat
      have hx' : (a ^^^ 4#24).toNat = a.toNat - 4 := by omega
      rw [hx'] at hy
      have hA : ∀ j, s.byteAfter a.toNat [byteOf w 0, byteOf w 1, byteOf w 2, byteOf w 3]
          (a.toNat - a.toNat % 8 + j) = if 4 ≤ j
          ∧ j < 8 then [byteOf w 0, byteOf w 1, byteOf w 2, byteOf w 3].getD
          (j - 4) 0#8 else s.flashByte (a.toNat - 4 + j) := by
        intro j
        rw [h8]
        unfold State.byteAfter
        by_cases hj : 4 ≤ j ∧ j < 8
        · rw [if_pos ⟨by omega, by simp; omega⟩, if_pos hj]; congr 1; omega
        · rw [if_neg (by simp; omega), if_neg hj]
      rw [hA]
      rw [hx']
      unfold bytesLe64
      rw [kk _ _ 0 (by omega), kk _ _ 1 (by omega), kk _ _ 2 (by omega), kk _ _ 3 (by omega),
        kk _ _ 4 (by omega), kk _ _ 5 (by omega), kk _ _ 6 (by omega), kk _ _ 7 (by omega)]
      interval_cases n <;> simp [hy]
  · rw [if_neg hi]
    by_cases hlt : i < s.build.regionLen
    · rw [if_pos hlt, if_pos hlt]
      unfold State.byteAfter
      rw [if_neg (by simp; omega)]
    · rw [if_neg hlt, if_neg hlt]

/-- NV_WRITE16's Merge (R169). -/
theorem merge16_ok {a : Addr} (w : BitVec 16) (hok : s.build.ok = true) (h : s.inRegion a.toNat 2) :
    merge16 a w s = s.image a.toNat [byteOf w 0, byteOf w 1] := by
  obtain ⟨-, -, b1, -, b2, b3, -, -, -⟩ := build_facts hok
  change s.regionBase % 8 = 0 at b1
  obtain ⟨h1, h2, h3⟩ := h
  obtain ⟨x1, x2⟩ := xor_twoPow a 1 (by omega)
  rw [show BitVec.twoPow 24 1 = 2#24 from rfl] at x1 x2
  have ho : ∀ y, byteOf (s.flash16 y) 0 = s.flashByte y
      ∧ byteOf (s.flash16 y) 1 = s.flashByte (y + 1) := fun y => byteOf_le16 _ _
  have hm := (and_not_low a).2.1
  have hr : s.inRegion (a &&& ~~~3#24).toNat 4 := by rw [hm]; exact ⟨by omega, by omega, by omega⟩
  have hbit : a.getLsbD 1 = decide (a.toNat / 2 % 2 = 1) := by
    show a.toNat.testBit 1 = _
    rw [Nat.testBit_eq_decide_div_mod_eq]
  unfold merge16
  have kk := fun lo hi => byteOf_or_shift (n := 2) (k := 16) lo hi rfl (by omega)
  simp only [Nat.reduceMul] at kk
  by_cases hb : a.getLsbD 1 = false
  · have hx : (a ^^^ 2#24).toNat = a.toNat + 2 := x1 hb
    have h8 : a.toNat % 4 = 0 := by rw [hbit] at hb; simp at hb; omega
    simp only [hb, if_true]
    have hy := ho (a ^^^ 2#24).toNat
    rw [hx] at hy ⊢
    rw [merge32_ok _ hok hr, hm]
    apply image_congr
    apply byteAfter_widen
    · rw [h8, Nat.sub_zero]
      intro i hi
      rw [kk _ _ 0 (by omega), kk _ _ 1 (by omega), kk _ _ 2 (by omega), kk _ _ 3 (by omega)]
      have hi : i < 4 := hi
      unfold State.byteAfter
      interval_cases i <;> simp [hy]
    · omega
    · simp; omega
  · have hb : a.getLsbD 1 = true := by simpa using hb
    have hx := x2 hb
    have h8 : a.toNat % 4 = 2 := by rw [hbit] at hb; simp at hb; omega
    simp only [hb, Bool.true_eq_false, if_false]
    have hy := ho (a ^^^ 2#24).toNat
    have hx' : (a ^^^ 2#24).toNat = a.toNat - 2 := by omega
    rw [hx'] at hy ⊢
    rw [merge32_ok _ hok hr, hm]
    apply image_congr
    apply byteAfter_widen
    · rw [h8]
      intro i hi
      rw [kk _ _ 0 (by omega), kk _ _ 1 (by omega), kk _ _ 2 (by omega), kk _ _ 3 (by omega)]
      have hi : i < 4 := hi
      have hge : 2 ≤ a.toNat := by omega
      have e3 : ∀ j, a.toNat - 2 + j - a.toNat = j - 2 := fun j => by omega
      unfold State.byteAfter
      interval_cases i <;> simp [hy] <;>
          first | omega | (rw [if_pos (by omega)]; simp [show a.toNat - 2 + 2 - a.toNat = 0 by omega, show a.toNat - 2 + 3 - a.toNat = 1 by omega]) | (intro hh; omega)
    · omega
    · simp; omega

/-- NV_WRITE8's Merge (R168). -/
theorem merge8_ok {a : Addr} (b : Byte) (hok : s.build.ok = true) (h : s.inRegion a.toNat 1) :
    merge8 a b s = s.image a.toNat [b] := by
  obtain ⟨-, -, b1, -, b2, b3, -, -, -⟩ := build_facts hok
  change s.regionBase % 8 = 0 at b1
  obtain ⟨h1, h2, h3⟩ := h
  obtain ⟨x1, x2⟩ := xor_twoPow a 0 (by omega)
  rw [show BitVec.twoPow 24 0 = 1#24 from rfl] at x1 x2
  have hm := (and_not_low a).2.2
  have hr : s.inRegion (a &&& ~~~1#24).toNat 2 := by rw [hm]; exact ⟨by omega, by omega, by omega⟩
  have hbit : a.getLsbD 0 = decide (a.toNat % 2 = 1) := by
    show a.toNat.testBit 0 = _
    rw [Nat.testBit_eq_decide_div_mod_eq]; simp
  unfold merge8
  by_cases hb : a.getLsbD 0 = false
  · have hx := x1 hb
    have h8 : a.toNat % 2 = 0 := by rw [hbit] at hb; simp at hb; omega
    simp only [hb, if_true]
    rw [hx, merge16_ok _ hok hr, hm, (byteOf_le16 _ _).1, (byteOf_le16 _ _).2]
    apply image_congr
    apply byteAfter_widen
    · rw [h8, Nat.sub_zero]
      intro i hi
      have hi : i < 2 := hi
      unfold State.byteAfter
      interval_cases i <;> simp
    · omega
    · simp; omega
  · have hb : a.getLsbD 0 = true := by simpa using hb
    have hx := x2 hb
    have h8 : a.toNat % 2 = 1 := by rw [hbit] at hb; simp at hb; omega
    simp only [hb, Bool.true_eq_false, if_false]
    have hx' : (a ^^^ 1#24).toNat = a.toNat - 1 := by omega
    rw [hx', merge16_ok _ hok hr, hm, (byteOf_le16 _ _).1, (byteOf_le16 _ _).2]
    apply image_congr
    apply byteAfter_widen
    · rw [h8]
      intro i hi
      have hi : i < 2 := hi
      have e : a.toNat - 1 + 1 = a.toNat := by omega
      unfold State.byteAfter
      interval_cases i
      · simp; intro hh; omega
      · rw [if_pos ⟨by omega, by simp; omega⟩, e]; simp
    · omega
    · simp; omega

end Sys2Proof.Machine
end

