-- ==== Sys2Proof/Laws/Store.lean ====
section
/-! SUPPORT. The write path, row after row, and what it leaves (R171 to R175). -/

namespace Sys2Proof.Machine

variable {s : State}

/-- The state with the parts of the store and of the sequencer replaced. -/
def State.wp (s : State) (m : List Host.Cell) (c : Descriptor) (q : Sequencer) (w : WritePath)
    (d : List SeqOutcome) (n : Nat) (l : List Micro) : State :=
  { s with flash := m, cmd := c, seq := q, ws := w, draws := d, freeIx := n, me := { s.me with todo := l } }

/-- A state is itself with its own store. -/
theorem wp_self (s : State) : s = s.wp s.flash s.cmd s.seq s.ws s.draws s.freeIx s.me.todo := rfl

/-- The descriptor of the write path's erase (R171). -/
def eraseDesc (s : State) (n : Nat) : Descriptor :=
    ⟨Config.opcEraseSector, s.build.flashStart, Config.eraseData n⟩

/-- The data region begins inside the sector (R11). -/
theorem flashStart_inSector (hok : s.build.ok = true) : s.inSector s.build.flashStart.toNat =
    true := by
  obtain ⟨-, -, -, b4, b5, -, b7, -, -⟩ := build_facts hok
  unfold State.inSector; simp; omega

/-- The write path's erase descriptor has a meaning. -/
theorem erase_wellformed (hok : s.build.ok = true) (d : Phrase) : malformed
    ⟨Config.opcEraseSector, s.build.flashStart, d⟩ s = false := by
  unfold malformed
  rw [show (Descriptor.mk Config.opcEraseSector s.build.flashStart d).addr =
      s.build.flashStart from rfl, flashStart_inSector hok]
  rfl

/-- The flash after a command that is not malformed. -/
def cmdFlash (d : Descriptor) (o : SeqOutcome) (s : State) : List Host.Cell :=
  if o = .ok then
    if d.opcode = Config.opcEraseSector then Memory.fillRange s.build.sectorBase
        (s.build.sectorBase + s.build.sectorBytes) s.flash
    else if d.opcode = Config.opcProgramPhrase then Memory.writeList s.build.erasedByte s.flash
        d.addr.toNat (phraseBytes d.data)
    else s.flash
  else s.flash

/-- The state after the sequencer's turn. -/
def State.after (d : Descriptor) (o : SeqOutcome) (l : List SeqOutcome) (s : State) : State :=
  ((s.setDraws l).setFlash (cmdFlash d o s)).setSeq s.cmd ⟨true, o.setsAccerr, o.setsFpviol, none⟩

/-- The sequencer's turn on a descriptor that has a meaning (R187). -/
theorem sequencerTurn_eq {d o l} (hc : s.seq.complete = false) (hi : s.seq.inflight = some d)
    (hd : s.draws = o :: l) (hm : malformed d s = false)
    (he : o = .ok → d.opcode = Config.opcProgramPhrase → s.erasedAt d.addr.toNat) :
        sequencerTurn s = some (.ok (s.after d o l)) := by
  unfold sequencerTurn
  rw [if_neg (by simp [hc]), hi, hd]
  simp only [sequencerStep, outcomeOf]
  rw [show malformed d (s.setDraws l) = false from hm]
  simp only [Bool.false_eq_true, if_false]
  unfold State.after cmdFlash commandEffect
  by_cases ho : o = .ok
  · simp only [ho, if_true]
    by_cases h1 : d.opcode = Config.opcEraseSector
    · simp only [h1, if_true]; rfl
    · simp only [h1, if_false]
      by_cases h2 : d.opcode = Config.opcProgramPhrase
      · simp only [h2, if_true]
        unfold programPhrase
        have : phraseErased d.addr.toNat (s.setDraws l) = true := by
          unfold phraseErased
          simp only [List.all_eq_true, List.mem_range, decide_eq_true_eq]
          exact he ho h2
        rw [this]; rfl
      · simp only [h2, if_false]; rfl
  · simp only [ho, if_false]; rfl

/-- What flash holds after an erase with this outcome. -/
def erased (o : SeqOutcome) (m : List Host.Cell) (s : State) : List Host.Cell :=
  if o = .ok then Memory.fillRange s.build.sectorBase
      (s.build.sectorBase + s.build.sectorBytes) m else m

/-- A violation is reported iff the outcome is not `ok` (R183, R187). -/
theorem violation_iff (o : SeqOutcome) (i : Option Descriptor) :
    (Sequencer.mk true o.setsAccerr o.setsFpviol i).violation = decide (o ≠ .ok) := by
  cases o <;> rfl

/-- The write path from its erase to the row after it (R171). -/
theorem erase_phase {m c q w d n l} {o : SeqOutcome} (hok : s.build.ok = true)
    (hq : q.complete = true) (hw : w.state = .eraseLaunch) :
    Steps 3 (s.wp m c q w (o :: d) n (.store :: l))
      (s.wp (erased o m s) (eraseDesc s n) ⟨true, o.setsAccerr, o.setsFpviol, none⟩
        (if o = .ok then
            { w with k := 0, state := (if w.job = .erase then .done else .programLaunch) } else
            { w with result := false, failedAt := .erase, state := .failed }) d (n + 1)
            (.store :: l)) := by
  have h1 : Steps 1 (s.wp m c q w (o :: d) n (.store :: l))
      (s.wp m (eraseDesc s n) ⟨false, false, false, some (eraseDesc s n)⟩
      { w with state := .eraseWait } (o :: d) (n + 1) (.store :: l)) := by
    refine Steps.one (m := .store) rfl ?_
    simp only [micro, storePart]
    rw [show ((s.wp m c q w (o :: d) n (.store :: l)).setTodo l).ws.state = .eraseLaunch from hw]
    simp only
    rw [if_pos (by exact hq)]
    rfl
  have hm : ∀ t : State, t.build = s.build → malformed (eraseDesc s n) t = false := by
    intro t ht
    have := erase_wellformed (s := t) (by rw [ht]; exact hok) (Config.eraseData n)
    rw [ht] at this; exact this
  have h2 : Steps 1 (s.wp m (eraseDesc s n) ⟨false, false, false, some (eraseDesc s n)⟩
      { w with state := .eraseWait } (o :: d) (n + 1) (.store :: l))
     (s.wp (erased o m s) (eraseDesc s n) ⟨true, o.setsAccerr, o.setsFpviol, none⟩
         { w with state := .eraseWait } d (n + 1) (.store :: l)) := by
    refine Steps.one (m := .store) rfl ?_
    have hs := sequencerTurn_eq (s :=
        (s.wp m (eraseDesc s n) ⟨false, false, false, some (eraseDesc s n)⟩
        { w with state := .eraseWait } (o :: d) (n + 1) l)) (d := eraseDesc s n) (o := o)
        (l := d) rfl rfl rfl (hm _ rfl)
        (fun _ h => absurd h (show Config.opcEraseSector ≠ Config.opcProgramPhrase by decide))
    show storePart (s.wp m (eraseDesc s n) ⟨false, false, false, some (eraseDesc s n)⟩
        { w with state := .eraseWait } (o :: d) (n + 1) l) = _
    unfold storePart awaitSequencer
    rw [hs]
    by_cases ho : o = .ok
    · subst ho; rfl
    · simp only [erased, ho, if_false, State.after, cmdFlash]; rfl
  have h3 : Steps 1 (s.wp (erased o m s) (eraseDesc s n) ⟨true, o.setsAccerr, o.setsFpviol, none⟩
      { w with state := .eraseWait } d (n + 1) (.store :: l))
      (s.wp (erased o m s) (eraseDesc s n) ⟨true, o.setsAccerr, o.setsFpviol, none⟩
        (if o = .ok then
            { w with k := 0, state := (if w.job = .erase then .done else .programLaunch) } else
            { w with result := false, failedAt := .erase, state := .failed }) d (n + 1)
            (.store :: l)) := by
    refine Steps.one (m := .store) rfl ?_
    cases o <;> rfl
  exact (h1.trans (h2.trans h3)).to rfl

/-- The descriptor of the write path's program of phrase `k` (R171). -/
def progDesc (s : State) (snap : List Byte) (k : Nat) : Descriptor :=
  ⟨Config.opcProgramPhrase, s.build.flashStart + BitVec.ofNat 24 (8 * k), phraseAt snap (8 * k)⟩

/-- Its address does not wrap. -/
theorem progAddr (hok : s.build.ok = true) {k : Nat} (hk : k < s.build.regionLen / 8) :
    (s.build.flashStart + BitVec.ofNat 24 (8 * k)).toNat = s.regionBase + 8 * k := by
  obtain ⟨-, -, b3, b4, b5, b6, b7, b8, -⟩ := build_facts hok
  unfold State.regionBase
  rw [BitVec.toNat_add, BitVec.toNat_ofNat]
  have : 8 * k < s.build.regionLen := by omega
  rw [Nat.mod_eq_of_lt (show 8 * k < 2^24 by omega), Nat.mod_eq_of_lt (by omega)]

/-- It has a meaning. -/
theorem prog_wellformed (hok : s.build.ok = true) (snap : List Byte) {k : Nat}
    (hk : k < s.build.regionLen / 8) : malformed (progDesc s snap k) s = false := by
  have ha := progAddr hok hk
  obtain ⟨-, -, b3, b4, b5, b6, b7, b8, -⟩ := build_facts hok
  unfold malformed
  rw [show (progDesc s snap k).addr.toNat = _ from ha]
  have : s.inSector (s.regionBase + 8 * k) = true :=
      by unfold State.inSector State.regionBase; simp; omega
  rw [this]
  rw [if_neg (by simp), if_neg (show (progDesc s snap k).opcode ≠ Config.opcEraseSector by show Config.opcProgramPhrase ≠ _; decide),
      if_pos (show (progDesc s snap k).opcode = Config.opcProgramPhrase from rfl)]
  unfold State.regionBase
  simp; omega

/-- What flash holds after the program of phrase `k` with this outcome. -/
def programmed (o : SeqOutcome) (m : List Host.Cell) (snap : List Byte) (k : Nat) (s : State) :
    List Host.Cell :=
  if o = .ok then Memory.writeList s.build.erasedByte m (s.regionBase + 8 * k)
      (phraseBytes (phraseAt snap (8 * k))) else m

/-- The write path from the program of one phrase to the row after it (R171). -/
theorem program_phase {m c q w d n l} {o : SeqOutcome} (hok : s.build.ok = true)
    (hq : q.complete = true) (hw : w.state = .programLaunch) (hk : w.k < s.build.regionLen / 8)
     (he : o = .ok → ∀ i, i < 8 → Memory.read s.build.erasedByte m (s.regionBase + 8 * w.k + i) =
         s.build.erasedByte) :
    Steps 3 (s.wp m c q w (o :: d) n (.store :: l))
      (s.wp (programmed o m w.snap w.k s) (progDesc s w.snap w.k)
          ⟨true, o.setsAccerr, o.setsFpviol, none⟩
        (if o = .ok then
            { w with k := w.k + 1, state := (if w.k + 1 = s.build.regionLen / 8 then .done else .programLaunch) }
            else { w with result := false, failedAt := .program w.k, state := .failed }) d n (.store :: l)) := by
  have h1 : Steps 1 (s.wp m c q w (o :: d) n (.store :: l))
      (s.wp m (progDesc s w.snap w.k) ⟨false, false, false, some (progDesc s w.snap w.k)⟩
      { w with state := .programWait } (o :: d) n (.store :: l)) := by
    refine Steps.one (m := .store) rfl ?_
    simp only [micro, storePart]
    rw [show ((s.wp m c q w (o :: d) n (.store :: l)).setTodo l).ws.state = .programLaunch from hw]
    simp only
    rw [if_neg (by show ¬ q.complete = false; simp [hq]), if_pos (by exact hk)]
    rfl
  have hm : ∀ t : State, t.build = s.build → malformed (progDesc s w.snap w.k) t = false := by
    intro t ht
    have := prog_wellformed (s := t)
        (by rw [ht]; exact hok) w.snap (k := w.k) (by rw [ht]; exact hk)
    unfold progDesc at *
    rw [ht] at this; exact this
  have ha : (progDesc s w.snap w.k).addr.toNat = s.regionBase + 8 * w.k := progAddr hok hk
  have h2 : Steps 1 (s.wp m (progDesc s w.snap w.k)
      ⟨false, false, false, some (progDesc s w.snap w.k)⟩ { w with state := .programWait }
      (o :: d) n (.store :: l))
     (s.wp (programmed o m w.snap w.k s) (progDesc s w.snap w.k)
         ⟨true, o.setsAccerr, o.setsFpviol, none⟩ { w with state := .programWait } d n
         (.store :: l)) := by
    refine Steps.one (m := .store) rfl ?_
    have hs := sequencerTurn_eq (s :=
        (s.wp m (progDesc s w.snap w.k) ⟨false, false, false, some (progDesc s w.snap w.k)⟩
        { w with state := .programWait } (o :: d) n l)) (d := progDesc s w.snap w.k) (o := o)
        (l := d) rfl rfl rfl (hm _ rfl) (fun ho _ => by rw [ha]; exact he ho)
    show storePart (s.wp m (progDesc s w.snap w.k)
        ⟨false, false, false, some (progDesc s w.snap w.k)⟩ { w with state := .programWait }
        (o :: d) n l) = _
    unfold storePart awaitSequencer
    rw [hs]
    by_cases ho : o = .ok
    · subst ho
      simp only [programmed, State.after, cmdFlash]
      rw [ha, if_neg (show (progDesc s w.snap w.k).opcode ≠ Config.opcEraseSector
          by show Config.opcProgramPhrase ≠ _; decide),
      if_pos (show (progDesc s w.snap w.k).opcode = Config.opcProgramPhrase from rfl)]
      rfl
    · simp only [programmed, ho, if_false, State.after, cmdFlash]; rfl
  have h3 : Steps 1 (s.wp (programmed o m w.snap w.k s) (progDesc s w.snap w.k)
      ⟨true, o.setsAccerr, o.setsFpviol, none⟩ { w with state := .programWait } d n (.store :: l))
      (s.wp (programmed o m w.snap w.k s) (progDesc s w.snap w.k)
          ⟨true, o.setsAccerr, o.setsFpviol, none⟩
        (if o = .ok then
            { w with k := w.k + 1, state := (if w.k + 1 = s.build.regionLen / 8 then .done else .programLaunch) }
            else { w with result := false, failedAt := .program w.k, state := .failed }) d n (.store :: l)) := by
    refine Steps.one (m := .store) rfl ?_
    cases o <;> rfl
  exact (h1.trans (h2.trans h3)).to rfl

/-- Flash while programming: phrases below `k` hold the image, the rest of the sector is erased. -/
def progress (s : State) (img : List Byte) (k : Nat) (m : List Host.Cell) : Prop :=
  Memory.wf s.build.erasedByte m = true ∧ ∀ x, Memory.read s.build.erasedByte m x =
    if s.regionBase ≤ x ∧ x < s.regionBase + 8 * k then img.getD (x - s.regionBase) 0#8
    else if s.inSector x then s.build.erasedByte else s.flashByte x

/-- The bytes of a phrase of the image. -/
theorem phraseBytes_getD (l : List Byte) (j i : Nat) (h : i < 8) :
    (phraseBytes (phraseAt l j)).getD i 0#8 = l.getD (j + i) 0#8 := by
  unfold phraseBytes phraseAt
  interval_cases i <;> rfl

/-- Programming one more phrase. -/
theorem progress_step {img k m} (hok : s.build.ok = true) (hk : k < s.build.regionLen / 8)
    (h : progress s img k m) : progress s img (k + 1) (programmed .ok m img k s) := by
  obtain ⟨-, -, b3, b4, b5, b6, b7, b8, -⟩ := build_facts hok
  refine ⟨Memory.wf_writeList h.1, fun x => ?_⟩
  unfold programmed
  rw [if_pos rfl, Memory.read_writeList h.1, h.2]
  have hl : (phraseBytes (phraseAt img (8 * k))).length = 8 := rfl
  rw [hl]
  by_cases h1 : s.regionBase + 8 * k ≤ x ∧ x < s.regionBase + 8 * k + 8
  · rw [if_pos h1, if_pos (by omega), phraseBytes_getD _ _ _ (by omega)]
    congr 1; omega
  · rw [if_neg h1]
    by_cases h2 : s.regionBase ≤ x ∧ x < s.regionBase + 8 * k
    · rw [if_pos h2, if_pos (by omega)]
    · rw [if_neg h2, if_neg (show ¬ (s.regionBase ≤ x ∧ x < s.regionBase + 8 * (k + 1)) by omega)]

/-- The next phrase is still erased. -/
theorem progress_erased {img k m} (hok : s.build.ok = true) (hk : k < s.build.regionLen / 8)
    (h : progress s img k m) :
    ∀ i, i < 8 → Memory.read s.build.erasedByte m
        (s.regionBase + 8 * k + i) = s.build.erasedByte := by
  obtain ⟨-, -, b3, b4, b5, b6, b7, b8, -⟩ := build_facts hok
  intro i hi
  rw [h.2, if_neg (by omega), if_pos (by unfold State.inSector State.regionBase; simp; omega)]

/-- All the phrases that are left, every command answering `ok`. -/
theorem program_loop (hok : s.build.ok = true) : ∀ (j : Nat) {m c q w d n l}, 0 < j
    → q.complete = true → w.state = .programLaunch → w.k + j = s.build.regionLen / 8
    → progress s w.snap w.k m →
    ∃ m' c', progress s w.snap (s.build.regionLen / 8) m'
        ∧ Steps (3 * j) (s.wp m c q w (List.replicate j .ok ++ d) n (.store :: l))
      (s.wp m' c' ⟨true, false, false, none⟩
          { w with k := s.build.regionLen / 8, state := .done } d n (.store :: l))
  | 0, m, c, q, w, d, n, l, h0, _, _, _, _ => absurd h0 (by omega)
  | 1, m, c, q, w, d, n, l, h0, hq, hw, hk, hp => by
    refine ⟨programmed .ok m w.snap w.k s, progDesc s w.snap w.k, ?_,
        (program_phase (c := c) (q := q) (o := .ok) (d := d) (n := n) (l := l) hok hq hw
        (by omega) (fun _ => progress_erased hok (by omega) hp)).to ?_⟩
    · rw [← hk]; exact progress_step hok (by omega) hp
    · rw [if_pos rfl, if_pos hk, hk]; rfl
  | j + 2, m, c, q, w, d, n, l, h0, hq, hw, hk, hp => by
    have h1 := program_phase (c := c) (q := q) (o := .ok) (d := List.replicate (j + 1) .ok ++ d)
        (n := n) (l := l) hok hq hw (by omega) (fun _ => progress_erased hok (by omega) hp)
    rw [if_pos rfl, if_neg (by omega)] at h1
    obtain ⟨m', c', hp', h2⟩ := program_loop hok (j + 1) (m := programmed .ok m w.snap w.k s)
        (c := progDesc s w.snap w.k) (q := ⟨true, false, false, none⟩)
       (w := { w with k := w.k + 1, state := .programLaunch }) (d := d) (n := n) (l := l)
           (by omega) rfl rfl (by show w.k + 1 + (j + 1) = _; omega) (progress_step hok (by omega) hp)
    refine ⟨m', c', hp', ?_⟩
    have h3 := h1.trans h2
    rw [show 3 * (j + 2) = 3 + 3 * (j + 1) by omega]
    exact h3

/-- Some phrases, and one whose program meets a violation. -/
theorem program_fails (hok : s.build.ok = true) {o : SeqOutcome} (ho : o ≠ .ok) : ∀ (j : Nat)
    {m c q w d n l}, q.complete = true → w.state = .programLaunch
    → w.k + j < s.build.regionLen / 8 → progress s w.snap w.k m →
    ∃ m', progress s w.snap (w.k + j) m'
        ∧ Steps (3 * j + 3) (s.wp m c q w (List.replicate j .ok ++ o :: d) n (.store :: l))
      (s.wp m' (progDesc s w.snap (w.k + j)) ⟨true, o.setsAccerr, o.setsFpviol, none⟩
          { w with k := w.k + j, result := false, failedAt := .program (w.k + j), state := .failed } d n (.store :: l))
  | 0, m, c, q, w, d, n, l, hq, hw, hk, hp => by
    refine
        ⟨m,
        by simpa using hp, (program_phase (c := c) (q := q) (o := o) (d := d) (n := n) (l := l)
          hok hq hw (by omega) (fun h => absurd h ho)).to ?_⟩
    rw [if_neg ho, programmed, if_neg ho]; rfl
  | j + 1, m, c, q, w, d, n, l, hq, hw, hk, hp => by
    have h1 := program_phase (c := c) (q := q) (o := .ok) (d := List.replicate j .ok ++ o :: d)
        (n := n) (l := l) hok hq hw (by omega) (fun _ => progress_erased hok (by omega) hp)
    rw [if_pos rfl, if_neg (by omega)] at h1
    obtain ⟨m', hp', h2⟩ := program_fails hok ho j (m := programmed .ok m w.snap w.k s)
        (c := progDesc s w.snap w.k) (q := ⟨true, false, false, none⟩)
       (w := { w with k := w.k + 1, state := .programLaunch }) (d := d) (n := n) (l := l) rfl rfl
           (by show w.k + 1 + j < _; omega) (progress_step hok (by omega) hp)
    have e : w.k + 1 + j = w.k + (j + 1) := by omega
    refine ⟨m', ?_, ?_⟩
    · rw [← e]; exact hp'
    · have h3 := h1.trans h2
      rw [show 3 * (j + 1) + 3 = 3 + (3 * j + 3) by omega]
      refine h3.to ?_
      simp only [e]

/-- Right after the erase. -/
theorem progress_start (hok : s.build.ok = true) (hw : s.flashWf) (img : List Byte) :
    progress s img 0 (erased .ok s.flash s) := by
  unfold erased
  refine ⟨Memory.wf_fillRange hw.1 _ _, fun x => ?_⟩
  rw [if_pos rfl, Memory.read_fillRange, if_neg
      (show ¬ (s.regionBase ≤ x ∧ x < s.regionBase + 8 * 0) by omega)]
  unfold State.inSector State.flashByte
  by_cases h : s.build.sectorBase ≤ x ∧ x < s.build.sectorBase + s.build.sectorBytes
  · rw [if_pos h, if_pos (by simpa using h)]
  · rw [if_neg h, if_neg (by simpa using h)]

/-- A store operation under way, its parts replaced and its response given. -/
theorem store_done {m c q w d n l} (hw : w.state = .done) :
    Steps 1 (s.wp m c q w d n (.store :: l))
        ((s.wp m c q { w with result := true, state := .idle } d n l).respond (.flag true)) := by
  refine Steps.one (m := .store) rfl ?_
  simp only [micro, storePart]
  rw [show ((s.wp m c q w d n (.store :: l)).setTodo l).ws.state = .done from hw]
  rfl

/-- The last row of a failed store operation (R171). -/
theorem store_failed {m c q w d n l} (hw : w.state = .failed) :
    Steps 1 (s.wp m c q w d n (.store :: l)) ((s.wp m c q { w with state := .idle } d n l).respond
        (.fail (.flashSequencer w.failedAt q.accerr q.fpviol))) := by
  refine Steps.one (m := .store) rfl ?_
  simp only [micro, storePart]
  rw [show ((s.wp m c q w d n (.store :: l)).setTodo l).ws.state = .failed from hw]
  rfl

/-- The Merge row (R171). -/
theorem store_merge {m c q w d n l} {img : List Byte} (hw : w.state = .merge)
    (hm : mergeJob w.job (s.setFlash m) = img) (hj : w.job ≠ .erase) :
    Steps 1 (s.wp m c q w d n (.store :: l))
        (s.wp m c q { w with snap := img, state := .eraseLaunch } d n (.store :: l)) := by
  refine Steps.one (m := .store) rfl ?_
  simp only [micro, storePart]
  rw [show ((s.wp m c q w d n (.store :: l)).setTodo l).ws.state = .merge from hw]
  have e : mergeJob w.job ((s.wp m c q w d n (.store :: l)).setTodo l) = img := by
    rw [← hm]
    unfold mergeJob
    cases h : w.job <;> first | rfl | exact absurd h hj
  simp only [show ((s.wp m c q w d n (.store :: l)).setTodo l).ws.job = w.job from rfl, e]
  rfl

/-- A write whose commands all answer ok. -/
theorem write_ok {a : Nat} {bytes : List Byte} {c q w d n l} (hok : s.build.ok = true)
    (hf : s.flashWf) (hq : q.complete = true)
    (hw : w.state = .merge) (hm : mergeJob w.job s = s.image a bytes) (hj : w.job ≠ .erase) :
    ∃ m' c' w', Steps (5 + 3 * (s.build.regionLen / 8))
        (s.wp s.flash c q w (List.replicate (s.build.regionLen / 8 + 1) .ok ++ d) n (.store :: l))
       ((s.wp m' c' ⟨true, false, false, none⟩ w' d (n + 1) l).respond (.flag true))
     ∧ w'.state = .idle ∧ w'.result = true
         ∧ progress s (s.image a bytes) (s.build.regionLen / 8) m' := by
  have hl : 0 < s.build.regionLen / 8 :=
      by obtain ⟨-, -, -, -, b5, b6, -, -, -⟩ := build_facts hok; omega
  have h1 := store_merge (m := s.flash) (c := c) (q := q)
      (d := List.replicate (s.build.regionLen / 8 + 1) .ok ++ d) (n := n) (l := l) hw
      (by exact hm) hj
  have h2 := erase_phase (m := s.flash) (c := c) (q := q)
      (w := { w with snap := s.image a bytes, state := .eraseLaunch }) (o := .ok)
      (d := List.replicate (s.build.regionLen / 8) .ok ++ d) (n := n) (l := l) hok hq rfl
  rw [if_pos rfl, if_neg (by exact hj)] at h2
  obtain ⟨m', c', hp, h3⟩ := program_loop hok (s.build.regionLen / 8) (m := erased .ok s.flash s)
      (c := eraseDesc s n) (q := ⟨true, false, false, none⟩)
    (w := { w with snap := s.image a bytes, k := 0, state := .programLaunch }) (d := d)
        (n := n + 1) (l := l) hl rfl rfl (Nat.zero_add _) (progress_start hok hf _)
  have h4 := store_done (s := s) (m := m') (c := c') (q := ⟨true, false, false, none⟩)
      (w := { w with snap := s.image a bytes, k := s.build.regionLen / 8, state := .done })
      (d := d) (n := n + 1) (l := l) rfl
  refine
      ⟨m', c',
      { w with snap := s.image a bytes, k := s.build.regionLen / 8, state := .idle, result := true }, ?_, rfl, rfl, hp⟩
  have h := h1.trans (h2.trans (h3.trans h4))
  rw [show 5 + 3 * (s.build.regionLen / 8) = 1 + (3 + (3 * (s.build.regionLen / 8) + 1)) by omega]
  exact h.to rfl

/-- A write whose erase meets a violation (R175). -/
theorem write_erase_fails {o : SeqOutcome} (ho : o ≠ .ok) {img c q w d n l}
    (hok : s.build.ok = true) (hq : q.complete = true)
    (hw : w.state = .merge) (hm : mergeJob w.job s = img) (hj : w.job ≠ .erase) :
    ∃ w', Steps 5 (s.wp s.flash c q w (o :: d) n (.store :: l))
       ((s.wp s.flash (eraseDesc s n) ⟨true, o.setsAccerr, o.setsFpviol, none⟩ w' d
           (n + 1) l).respond (.fail (.flashSequencer .erase o.setsAccerr o.setsFpviol)))
     ∧ w'.state = .idle ∧ w'.result = false := by
  have h1 := store_merge (m := s.flash) (c := c) (q := q) (d := o :: d) (n := n) (l := l) hw
      (by exact hm) hj
  have h2 := erase_phase (m := s.flash) (c := c) (q := q)
      (w := { w with snap := img, state := .eraseLaunch }) (o := o) (d := d) (n := n)
      (l := l) hok hq rfl
  rw [if_neg ho, erased, if_neg ho] at h2
  have h4 := store_failed (s := s) (m := s.flash) (c := eraseDesc s n)
      (q := ⟨true, o.setsAccerr, o.setsFpviol, none⟩)
      (w := { w with snap := img, result := false, failedAt := .erase, state := .failed })
      (d := d) (n := n + 1) (l := l) rfl
  exact ⟨{ w with snap := img, result := false, failedAt := .erase, state := .idle },
      (h1.trans (h2.trans h4)).to rfl, rfl, rfl⟩

/-- An erase that meets a violation (R173). -/
theorem erase_erase_fails {o : SeqOutcome} (ho : o ≠ .ok) {c q w d n l} (hok : s.build.ok = true)
    (hq : q.complete = true)
    (hw : w.state = .eraseLaunch) :
    ∃ w', Steps 4 (s.wp s.flash c q w (o :: d) n (.store :: l))
       ((s.wp s.flash (eraseDesc s n) ⟨true, o.setsAccerr, o.setsFpviol, none⟩ w' d
           (n + 1) l).respond (.fail (.flashSequencer .erase o.setsAccerr o.setsFpviol)))
     ∧ w'.state = .idle ∧ w'.result = false := by
  have h2 := erase_phase (m := s.flash) (c := c) (q := q) (w := w) (o := o) (d := d) (n := n)
      (l := l) hok hq hw
  rw [if_neg ho, erased, if_neg ho] at h2
  have h4 := store_failed (s := s) (m := s.flash) (c := eraseDesc s n)
      (q := ⟨true, o.setsAccerr, o.setsFpviol, none⟩)
      (w := { w with result := false, failedAt := .erase, state := .failed }) (d := d)
      (n := n + 1) (l := l) rfl
  exact ⟨{ w with result := false, failedAt := .erase, state := .idle }, (h2.trans h4).to rfl,
      rfl, rfl⟩

/-- An erase that answers `ok` (R173). -/
theorem erase_ok {c q w d n l} (hok : s.build.ok = true) (hq : q.complete = true)
    (hw : w.state = .eraseLaunch) (hj : w.job = .erase) :
    ∃ w', Steps 4 (s.wp s.flash c q w (.ok :: d) n (.store :: l))
       ((s.wp (erased .ok s.flash s) (eraseDesc s n) ⟨true, false, false, none⟩ w' d
           (n + 1) l).respond (.flag true))
     ∧ w'.state = .idle ∧ w'.result = true := by
  have h2 := erase_phase (m := s.flash) (c := c) (q := q) (w := w) (o := .ok) (d := d) (n := n)
      (l := l) hok hq hw
  rw [if_pos rfl, if_pos hj] at h2
  have h4 := store_done (s := s) (m := erased .ok s.flash s) (c := eraseDesc s n)
      (q := ⟨true, false, false, none⟩) (w := { w with k := 0, state := .done }) (d := d)
      (n := n + 1) (l := l) rfl
  exact ⟨{ w with k := 0, result := true, state := .idle }, (h2.trans h4).to rfl, rfl, rfl⟩

/-- A write whose program of phrase `k` meets a violation (R175). -/
theorem write_program_fails {o : SeqOutcome} (ho : o ≠ .ok) {a k : Nat} {bytes : List Byte}
    {c q w d n l} (hok : s.build.ok = true) (hf : s.flashWf) (hq : q.complete = true)
    (hw : w.state = .merge) (hm : mergeJob w.job s = s.image a bytes) (hj : w.job ≠ .erase)
        (hk : k < s.build.regionLen / 8) :
    ∃ m' w', Steps (8 + 3 * k) (s.wp s.flash c q w (List.replicate (k + 1) .ok ++ o :: d) n
        (.store :: l))
       ((s.wp m' (progDesc s (s.image a bytes) k) ⟨true, o.setsAccerr, o.setsFpviol, none⟩ w' d
           (n + 1) l).respond (.fail (.flashSequencer (.program k) o.setsAccerr o.setsFpviol)))
     ∧ w'.state = .idle ∧ w'.result = false ∧ progress s (s.image a bytes) k m' := by
  have h1 := store_merge (m := s.flash) (c := c) (q := q)
      (d := List.replicate (k + 1) .ok ++ o :: d) (n := n) (l := l) hw (by exact hm) hj
  have h2 := erase_phase (m := s.flash) (c := c) (q := q)
      (w := { w with snap := s.image a bytes, state := .eraseLaunch }) (o := .ok)
      (d := List.replicate k .ok ++ o :: d) (n := n) (l := l) hok hq rfl
  rw [if_pos rfl, if_neg (by exact hj)] at h2
  obtain ⟨m', hp, h3⟩ := program_fails hok ho k (m := erased .ok s.flash s) (c := eraseDesc s n)
      (q := ⟨true, false, false, none⟩)
    (w := { w with snap := s.image a bytes, k := 0, state := .programLaunch }) (d := d)
        (n := n + 1) (l := l) rfl rfl (by show 0 + k < _; omega) (progress_start hok hf _)
  simp only [Nat.zero_add] at h3 hp
  have h4 := store_failed (s := s) (m := m') (c := progDesc s (s.image a bytes) k)
      (q := ⟨true, o.setsAccerr, o.setsFpviol, none⟩)
      (w :=
      { w with snap := s.image a bytes, k := k, result := false, failedAt := .program k, state := .failed }) (d := d) (n := n + 1) (l := l) rfl
  refine
      ⟨m',
      { w with snap := s.image a bytes, k := k, result := false, failedAt := .program k, state := .idle }, ?_, rfl, rfl, hp⟩
  have h := h1.trans (h2.trans (h3.trans h4))
  rw [show 8 + 3 * k = 1 + (3 + (3 * k + 3 + 1)) by omega]
  exact h.to rfl

/-- The store operation of each writing instruction, and its Merge. -/
theorem storeJob_of {i : Instr} {a l} (h : storeTarget i = some (a, l)) : ∃ j, j.target = some
    (a, l.length) ∧ j ≠ .erase
    ∧ (∀ s, s.ready = true → exec i s = storeRun j s)
        ∧ (∀ s : State, s.build.ok = true → s.inRegion a.toNat l.length
        → mergeJob j s = s.image a.toNat l) := by
  cases i <;> simp only [storeTarget, Option.some.injEq, Prod.mk.injEq, reduceCtorEq] at h
  · obtain ⟨rfl, rfl⟩ := h
    exact
        ⟨.write8 _ _, rfl,
        by simp, fun s hr => by simp only [exec, execNvWrite8]; rw [issue_ready hr],
        fun s hok hi => merge8_ok _ hok hi⟩
  · obtain ⟨rfl, rfl⟩ := h
    exact
        ⟨.write16 _ _, rfl,
        by simp, fun s hr => by simp only [exec, execNvWrite16]; rw [issue_ready hr],
        fun s hok hi => merge16_ok _ hok hi⟩
  · obtain ⟨rfl, rfl⟩ := h
    exact
        ⟨.write32 _ _, rfl,
        by simp, fun s hr => by simp only [exec, execNvWrite32]; rw [issue_ready hr],
        fun s hok hi => merge32_ok _ hok hi⟩

/-- The store accepts a well-placed write. -/
theorem storeStart_write {j : StoreJob} {a n} (h : j.target = some (a, n))
    (hi : s.inRegion a.toNat n) (hf : s.storeFree = true) :
    storeStart j s = .accepted (accept j s) := by
  unfold storeStart; rw [h]; simp only [storeCheck_pass hi hf]

/-- The store accepts an erase. -/
theorem storeStart_erase (hf : s.storeFree = true) :
    storeStart .erase s = .accepted (accept .erase s) := by
  unfold storeStart; simp [StoreJob.target, hf]

/-- An accepted write. -/
theorem accept_wp {j : StoreJob} (h : j ≠ .erase) (l : List Micro) :
    (accept j s).setTodo l = s.wp s.flash s.cmd s.seq
    { s.ws with state := .merge, job := j } s.draws s.freeIx l := by
  unfold accept; rw [if_neg h]; rfl

/-- An accepted erase. -/
theorem accept_erase_wp (l : List Micro) : (accept .erase s).setTodo l = s.wp s.flash s.cmd s.seq
    { s.ws with state := .eraseLaunch, job := .erase } s.draws s.freeIx l := rfl

/-- The store is free. -/
theorem storeFree_iff (h : s.storeFree = true) : s.seq.complete = true ∧ s.ws.state = .idle := by
  unfold State.storeFree at h; simpa using h

/-- What flash holds in the end, said of the bytes (R167, R172). -/
theorem wrote_of_progress {a k m} {l : List Byte} (hok : s.build.ok = true)
    (hk : k ≤ s.build.regionLen / 8) (hp : progress s (s.image a l) k m) {t : State}
    (hm : t.flash = m) (hb : t.build = s.build) :
    storeWrote k a l s t := by
  intro x
  unfold State.flashByte
  rw [hb, hm, hp.2]
  by_cases h : s.regionBase ≤ x ∧ x < s.regionBase + 8 * k
  · rw [if_pos h, if_pos h, image_getD _ _ _ (show x - s.regionBase < s.build.regionLen by omega)]
    congr 1; omega
  · rw [if_neg h, if_neg h]; rfl

/-- An erased sector, said of the bytes. -/
theorem erased_wrote (hf : s.flashWf) {t : State} (hm : t.flash = erased .ok s.flash s)
    (hb : t.build = s.build) : storeWrote 0 0 [] s t := by
  intro x
  unfold State.flashByte
  rw [hb, hm]
  unfold erased
  rw [if_pos rfl, Memory.read_fillRange, if_neg
      (show ¬ (s.regionBase ≤ x ∧ x < s.regionBase + 8 * 0) by omega)]
  unfold State.inSector
  by_cases h : s.build.sectorBase ≤ x ∧ x < s.build.sectorBase + s.build.sectorBytes
  · rw [if_pos h, if_pos (by simpa using h)]
  · rw [if_neg h, if_neg (by simpa using h)]

end Sys2Proof.Machine
end

