-- ==== Sys2Proof/Laws/Sequencer.lean ====
section
/-! SUPPORT. The sequencer's operations (R182 to R187). -/

namespace Sys2Proof.Machine

variable {s : State}

/-- SEQ_WAIT with no command in flight (R183). -/
theorem seqWait_go {l : List Micro} (hl : s.me.todo = .seqWait :: l)
    (hc : s.seq.complete = true) : Steps 1 s
    ((s.setTodo l).respond (.flag (!s.seq.violation))) := by
  refine Steps.one hl ?_
  simp only [micro, seqWaitPart, awaitSequencer]
  rw [if_pos (by exact hc)]
  rfl

/-- A store operation changes flash, the store and the sequencer. -/
theorem onlyFlash_wp (m c q w d n l r) (s : State) : onlyFlash s ((s.wp m c q w d n l).respond r) :=
  ⟨⟨rfl, rfl, rfl, fun p => by cases p <;> rfl⟩, rfl, rfl, ⟨⟨rfl, rfl⟩, rfl, rfl⟩, ⟨rfl, rfl, rfl, rfl, rfl⟩, ⟨rfl, rfl⟩⟩

/-- What a command does to the bytes of flash (R184 to R186). -/
theorem after_wrote {d o} (hf : s.flashWf) {t : State} (hm : t.flash = cmdFlash d o s)
    (hb : t.build = s.build) (hk : malformed d s = false) : commandWrote d o s t := by
  intro x
  unfold State.flashByte
  rw [hb, hm]
  unfold cmdFlash
  by_cases ho : o = .ok
  · simp only [ho, ne_eq, not_true, if_false, if_true]
    by_cases h1 : d.opcode = Config.opcEraseSector
    · simp only [h1, if_true]
      rw [Memory.read_fillRange]
      unfold State.inSector
      by_cases h : s.build.sectorBase ≤ x ∧ x < s.build.sectorBase + s.build.sectorBytes
      · rw [if_pos h, if_pos (by simpa using h)]
      · rw [if_neg h, if_neg (by simpa using h)]
    · simp only [h1, if_false]
      have h2 : d.opcode = Config.opcProgramPhrase := by
        unfold malformed at hk
        split at hk
        · simp at hk
        · split at hk
          · assumption
          · simp at hk
      simp only [h2, if_true]
      rw [Memory.read_writeList hf.1]
      rfl
  · simp only [ho, ne_eq, not_false_eq_true, if_true, if_false]

/-- The status after a command (R187). -/
theorem status_after (o : SeqOutcome) : statusAfter o ⟨true, o.setsAccerr, o.setsFpviol, none⟩ := by
  refine ⟨rfl, rfl, ?_, ?_⟩ <;> cases o <;> simp [SeqOutcome.setsAccerr, SeqOutcome.setsFpviol]

/-- What a command does depends on the parameters and flash. -/
theorem cmdFlash_congr {s t : State} (hb : t.build = s.build) (hf : t.flash = s.flash) (d o) :
    cmdFlash d o t = cmdFlash d o s := by
  unfold cmdFlash; rw [hb, hf]

/-- The same of the state after it. -/
theorem after_congr {s t : State} (hb : t.build = s.build) (hf : t.flash = s.flash) (d o l) :
    t.after d o l =
    ((t.setDraws l).setFlash (cmdFlash d o s)).setSeq t.cmd
        ⟨true, o.setsAccerr, o.setsFpviol, none⟩ := by
  unfold State.after; rw [cmdFlash_congr hb hf]

/-- The same list reads the same. -/
theorem sameFlash_of {s t : State} (hb : t.build = s.build) (hf : t.flash = s.flash) :
    sameFlash s t := by
  intro x; unfold State.flashByte; rw [hb, hf]

/-- A descriptor given to an idle sequencer is launched and waited for (log 13). -/
theorem giveDescriptor_eq {d : Descriptor} (hr : s.ready = true)
    (hf : s.storeFree = true) : giveDescriptor d s = begin [.seqWait] (launch d s) := by
  obtain ⟨h1, h2⟩ := storeFree_iff hf
  unfold giveDescriptor
  rw [issue_ready hr, State.ready.mayAct hr]; unfold launchFromOutside; rw [h1, h2]; rfl

/-- The sequencer's turn on a descriptor without a meaning (log 14). -/
theorem sequencerTurn_bad {d o l} (hc : s.seq.complete = false) (hi : s.seq.inflight = some d)
    (hd : s.draws = o :: l) (hm : malformed d s = true) :
   sequencerTurn s = some (.ok ((s.setDraws l).setSeq s.cmd ⟨true, true, false, none⟩)) := by
  unfold sequencerTurn
  rw [if_neg (by simp [hc]), hi, hd]
  simp only [sequencerStep, outcomeOf]
  rw [show malformed d (s.setDraws l) = true from hm]
  rfl

/-- A program command answered `ok` on a phrase that is not erased is refused (R186; U8). -/
theorem sequencerTurn_unerased {d : Descriptor} {l : List SeqOutcome} (hc : s.seq.complete = false)
    (hi : s.seq.inflight = some d) (hd : s.draws = .ok :: l) (hm : malformed d s = false)
    (hp : d.opcode = Config.opcProgramPhrase) (he : ¬ s.erasedAt d.addr.toNat) :
    sequencerTurn s = some (.error .phraseNotErased) := by
  have hm' : malformed d (s.setDraws l) = false := hm
  have hn : phraseErased d.addr.toNat (s.setDraws l) = false := by
    rw [Bool.eq_false_iff]
    intro h
    refine he (fun k hk => ?_)
    exact of_decide_eq_true (List.all_eq_true.mp h k (List.mem_range.mpr hk))
  unfold sequencerTurn
  simp only [hc, hi, hd]
  simp [sequencerStep, outcomeOf, hm', commandEffect, hp, Config.opcProgramPhrase,
    Config.opcEraseSector, programPhrase, hn, Except.map]

end Sys2Proof.Machine
end

