-- ==== Sys2Proof/Laws/Dispatching.lean ====
section
/-! SUPPORT. DISPATCH: handlers, their store operations and their replies (R200 to R213). -/

namespace Sys2Proof.Machine

variable {s : State}

/-- The state with `TXF`, the note of who uses it, and what its agent carries replaced. -/
def State.tx (s : State) (u : Users) (q : Pipe) (e : Option Emission) (l : List Micro) (r : Response) :
    State :=
  { s with txUsers := u, txf := q, me := ⟨l, r, e, s.me.held⟩ }

theorem tx_self : s.tx s.txUsers s.txf s.me.txe s.me.todo s.me.resp = s := by
  cases s; rfl

/-- Noting who puts on `TXF` writes its note. -/
theorem notePut_eq (u : Bool) (s : State) :
    s.notePut .txf u = s.setUsers .txf (s.notePut .txf u).txUsers := by
  rcases notePut_set .txf u s with h | ⟨v, h⟩ <;> rw [h] <;> rfl

/-- Whether an agent may put depends on the parameters, the agent and the note of the pipe. -/
theorem mayPut_congr {s t : State} {p : PipeId} (hb : t.build = s.build) (hw : t.who = s.who)
    (hu : t.users p = s.users p) (u : Bool) : t.mayPut p u = s.mayPut p u := by
  unfold State.mayPut State.polled State.locked State.threaded; rw [hb, hw, hu]

/-- So does the note. -/
theorem notePut_congr {s t : State} (hb : t.build = s.build) (hw : t.who = s.who)
    (hu : t.txUsers = s.txUsers) (u : Bool) :
    (t.notePut .txf u).txUsers = (s.notePut .txf u).txUsers := by
  have hu' : t.users .txf = s.users .txf := hu
  have e1 : t.polled = s.polled := by unfold State.polled; rw [hb]
  have e2 : t.locked = s.locked := by unfold State.locked State.threaded; rw [hb]
  unfold State.notePut
  rw [e1, e2, hu', hw]
  split
  · exact hu
  · rfl

/-- A sender that has put may put again. -/
theorem producer_next {a : Agent} {p : Option Producer} (h : (Producer.next true a p).isSome = true) :
    Producer.next true a (Producer.next true a p) = Producer.next true a p := by
  rcases p with _ | (b | b | _)
  · simp [Producer.next]
  · by_cases hb : b = a
    · simp [Producer.next, hb]
    · simp [Producer.next, hb] at h
  · by_cases hb : b = a <;> simp [Producer.next, hb]
  · rfl

/-- A sender's note is final. -/
theorem notePut_again (h : s.mayPut .txf true = true) :
    (s.notePut .txf true).mayPut .txf true = true
      ∧ ((s.notePut .txf true).notePut .txf true).txUsers = (s.notePut .txf true).txUsers := by
  by_cases hp : s.polled || s.locked
  · have e : s.notePut .txf true = s := by unfold State.notePut; rw [if_pos hp]
    rw [e, e]; exact ⟨h, rfl⟩
  · simp only [Bool.or_eq_true, not_or, Bool.not_eq_true] at hp
    obtain ⟨hp, hl⟩ := hp
    unfold State.mayPut at h ⊢
    rw [State.notePut_polled, State.notePut_locked, State.notePut_who]
    simp only [hp, hl, Bool.false_eq_true, if_false, Bool.false_or] at h ⊢
    have e : (s.notePut .txf true).users .txf
        = { s.users .txf with producer := Producer.next true s.who (s.users .txf).producer } := by
      unfold State.notePut; rw [hp, hl]; rfl
    have h2 := producer_next h
    refine ⟨by rw [e]; simp only; rw [h2]; exact h, ?_⟩
    have e2 : ((s.notePut .txf true).notePut .txf true).users .txf
        = { (s.notePut .txf true).users .txf with
            producer := Producer.next true s.who ((s.notePut .txf true).users .txf).producer } := by
      rw [State.notePut.eq_1 .txf true (s.notePut .txf true)]
      rw [State.notePut_polled, State.notePut_locked, State.notePut_who, hp, hl]; rfl
    show ((s.notePut .txf true).notePut .txf true).users .txf = (s.notePut .txf true).users .txf
    rw [e2, e]
    simp only
    rw [h2]

/-- A whole emission, in either regime. -/
theorem emission_steps {f : Frame} {l : List Micro} (hc : s.canEmit 5)
    (hl : s.me.todo = emission f s ++ l) :
    ∃ q k r, k ≤ 41 ∧ s.txf.grewBy s.build.capacity s.threaded (frameBytes f) q
      ∧ Steps k s (s.tx (s.notePut .txf true).txUsers q none l r) ∧ (∀ e, r ≠ .fail e) := by
  cases ht : s.threaded
  · have hp : s.polled = true := by
      unfold State.threaded at ht; unfold State.polled; cases h : s.build.regime <;> simp_all
    obtain ⟨q, hg, hst⟩ := emission_polled hp hc hl
    refine ⟨q, 7, .flag true, by omega, hg, hst.to ?_, by simp⟩
    rw [notePut_polled _ _ hp]; rfl
  · obtain ⟨q, k, hk, hg, hst⟩ := emission_threaded ht hc hl
    refine ⟨q, k, .done, hk, hg, hst.to ?_, by simp⟩
    rw [notePut_eq]; rfl

/-- The reply of R201. -/
def replyFrame (c : Byte) (a : Answer) : Frame :=
    ⟨commandByte a.success (codeOf c), a.r1, a.r2, a.r3⟩

/-- The parts of an emission depend on the regime. -/
theorem emission_congr {s t : State} (h : t.build = s.build) (f : Frame) :
    emission f t = emission f s := by
  unfold emission State.threaded; rw [h]

/-- Whether a frame can be emitted depends on the parameters, the agent, `TXF` and `TXLOCK`. -/
theorem canEmit_congr {s t : State} (hb : t.build = s.build) (hw : t.who = s.who)
    (hx : t.txf = s.txf) (hl : t.txlock = s.txlock) (hu : t.txUsers = s.txUsers) {n : Nat}
    (h : s.canEmit n) : t.canEmit n := by
  obtain ⟨c1, c2, c3, c4, c5⟩ := h
  refine ⟨hx ▸ c1, by rw [hb, hx]; exact c2, by rw [hb, hx]; exact c3,
    (mayPut_congr (p := .txf) hb hw hu true).trans c4, fun ht => ?_⟩
  have e1 : t.threaded = s.threaded := by unfold State.threaded; rw [hb]
  obtain ⟨d1, d2, d3⟩ := c5 (e1 ▸ ht)
  refine ⟨hl ▸ d1, hx ▸ d2, (lockFree_congr (p := .txf) (s := s) ?_ hx).trans d3⟩
  unfold State.locked; rw [e1, hb]

/-- Whether an agent may send frames depends on the parameters and the agent. -/
theorem maySend_congr {s t : State} (hb : t.build = s.build) (hw : t.who = s.who) :
    t.maySend = s.maySend := by
  unfold State.maySend State.threaded; rw [hb, hw]

/-- The same of a reply. -/
theorem canReply_congr {s t : State} (hb : t.build = s.build) (hw : t.who = s.who)
    (hx : t.txf = s.txf) (hl : t.txlock = s.txlock) (hu : t.txUsers = s.txUsers) {c : Byte}
    (h : s.canReply c) : t.canReply c :=
  ⟨(maySend_congr hb hw).trans h.1, fun ha => canEmit_congr hb hw hx hl hu (h.2 ha)⟩

/-- DISPATCH returns after its reply (R201). -/
theorem replied_steps {a : Answer} {l : List Micro} (hl : s.me.todo = .replied a :: l)
    (hr : ∀ e, s.me.resp ≠ .fail e) :
    Steps 1 s ((s.setTodo l).respond (.dispatched a.success a.err false)) := by
  refine Steps.one hl ?_
  simp only [micro, repliedPart]
  split
  · rename_i e he; exact absurd he (hr e)
  all_goals rfl

/-- What a reply leaves of `TXF`, of the note of who uses it, and of the emission (R201). -/
def replyLeft (c : Byte) (a : Answer) (s : State) (u : Users) (q : Pipe) (e : Option Emission) : Prop :=
  if ackOf c then s.txf.grewBy s.build.capacity s.threaded (frameBytes (replyFrame c a)) q
    ∧ u = (s.notePut .txf true).txUsers ∧ e = none
  else q = s.txf ∧ u = s.txUsers ∧ e = s.me.txe

/-- The reply, if one is due (R201). -/
theorem reply_steps {c : Byte} {a : Answer} {l : List Micro} (hc : s.canReply c)
    (hl : s.me.todo = .reply c a :: l) :
    ∃ u q e k, k ≤ 43 ∧ Steps k s (s.tx u q e l (.dispatched a.success a.err false))
      ∧ replyLeft c a s u q e := by
  unfold replyLeft
  cases ha : ackOf c
  · refine ⟨s.txUsers, s.txf, s.me.txe, 1, by omega, Steps.one hl ?_, by simp⟩
    simp only [micro, replyPart, ha, Bool.false_eq_true, if_false]
    rfl
  · have hce := hc.2 ha
    have h1 : Steps 1 s (s.setTodo (emission (replyFrame c a) s ++ .replied a :: l)) := by
      refine Steps.one hl ?_
      simp only [micro, replyPart, ha, if_true]
      simp only [State.push, State.setTodo, State.respond, List.append_assoc]
      rw [emission_congr (s := s) (by rfl)]
      rfl
    obtain ⟨q, k, r, hk, hg, hst, hr⟩ := emission_steps
        (s := s.setTodo (emission (replyFrame c a) s ++ .replied a :: l)) (f := replyFrame c a)
        (l := .replied a :: l) hce (by rw [emission_congr (s := s) rfl]; rfl)
    have h3 := replied_steps (s :=
        (s.setTodo (emission (replyFrame c a) s ++ .replied a :: l)).tx
          (s.notePut .txf true).txUsers q none (.replied a :: l) r)
      (a := a) (l := l) rfl hr
    rw [notePut_setTodo, State.setTodo_txUsers] at hst
    refine ⟨(s.notePut .txf true).txUsers, q, none, 1 + (k + 1), by omega,
      h1.trans (hst.trans (h3.to ?_)), by simp; exact hg⟩
    simp only [State.tx, State.setUsers, State.setPipe, State.setTxe, State.setTodo, State.respond]

/-- What a reply leaves depends on the parameters, the agent, `TXF` and its note. -/
theorem replyLeft_congr {c : Byte} {a : Answer} {s t : State} {u q e} (hb : t.build = s.build)
    (hw : t.who = s.who) (hx : t.txf = s.txf) (hu : t.txUsers = s.txUsers)
    (he : t.me.txe = s.me.txe) (h : replyLeft c a t u q e) : replyLeft c a s u q e := by
  have e1 : t.threaded = s.threaded := by unfold State.threaded; rw [hb]
  unfold replyLeft at *
  rw [hb, e1, hx, hu, he, notePut_congr hb hw hu] at h
  exact h

/-- A command frame, and the dispatch of one, begin with the handler. -/
theorem isCommand_begin {code ack p1 p2 p3 i} {mk : Bool → Byte → Byte → Byte → Byte → Instr}
    (hi : isCommand code mk ack p1 p2 p3 i) (hr : s.ready = true) (hm : s.maySend = true)
    (hmk : ∀ chk, exec (mk ack p1 p2 p3 chk) s = frameRun
        ⟨commandByte ack code, p1, p2, p3⟩ chk s) :
    exec i s = begin [.handle ⟨commandByte ack code, p1, p2, p3⟩] s := by
  rcases hi with rfl | rfl
  · rw [hmk]; unfold frameRun; rw [issue_ready hr, hm, if_pos rfl]; rfl
  · simp only [exec, execDispatch]; rw [issue_ready hr, hm]; rfl

/-- The state a handler starts in. -/
def State.fresh (s : State) : State := (s.setTodo []).respond .pending

/-- The handler is the first part. -/
theorem handle_first {f : Frame} {u : State} (h : handlePart f s.fresh = .go u) : Steps 1
    ((s.setTodo [.handle f]).respond .pending) u := by
  refine Steps.one (m := .handle f) (l := []) rfl ?_
  exact h

/-- A handler that has its result at once. -/
theorem answer_run {f : Frame} {a : Answer} {t : State} (hh : handler f s.fresh = .answer a t)
    (ht : t.me.todo = []) (hc : t.canReply f.command) (hn : 64 ≤ s.turn) :
    ∃ u q e, begin [.handle f] s = .next (t.tx u q e [] (.dispatched a.success a.err false))
      ∧ replyLeft f.command a t u q e := by
  have h1 : Steps 1 ((s.setTodo [.handle f]).respond .pending) (t.setTodo [.reply f.command a]) :=
      by
    refine handle_first ?_
    unfold handlePart; rw [hh]
    simp only [State.push, ht]; rfl
  obtain ⟨u, q, e, k, hk, hst, hq⟩ := reply_steps (s := t.setTodo [.reply f.command a])
      (c := f.command) (a := a) (l := []) (canReply_congr (s := t) rfl rfl rfl rfl rfl hc) rfl
  refine ⟨u, q, e, ?_, replyLeft_congr (s := t) (t := t.setTodo [.reply f.command a]) rfl rfl rfl rfl
    rfl hq⟩
  unfold begin
  exact ((h1.trans hst).to rfl).run (by omega) rfl

/-- A handler that changes no register of the frame condition. -/
theorem dispatched_of {c : Byte} {ok : Bool} {er : Option ErrorKind} {r1 r2 r3 : Byte} {u q e}
    {t : State}
    (hx : t.txf = s.txf) (hu : t.txUsers = s.txUsers) (hb : t.build = s.build)
    (hte : t.me.txe = s.me.txe) (h1 : t.rxf = s.rxf) (h1' : t.rxUsers = s.rxUsers)
    (h2 : t.txlock = s.txlock) (h3 : t.fr = s.fr) (h4 : t.alloc = s.alloc)
    (h5 : sameHandles s t) (h6 : sameAgents s t) (h7 : t.me.held = s.me.held)
    (hq : replyLeft c ⟨ok, r1, r2, r3, er⟩ t u q e) :
    dispatched c ok er r1 r2 r3 s (t.tx u q e [] (.dispatched ok er false)) := by
  refine ⟨⟨rfl, rfl⟩, ?_, h1, h1', h2, h3, h4, h5, h6, h7⟩
  have hq := replyLeft_congr hb h6.2.1 hx hu hte hq
  unfold repliedWith
  unfold replyLeft at hq
  cases ha : ackOf c
  · rw [ha] at hq
    simp only [Bool.false_eq_true, if_false] at hq ⊢
    exact hq
  · rw [ha] at hq
    simp only [if_true] at hq ⊢
    exact hq

/-- A handler that answers at once and changes no state. -/
theorem plain_answer {f : Frame} {ok er r1 r2 r3}
    (hh : handler f s.fresh = .answer ⟨ok, r1, r2, r3, er⟩ s.fresh) (hc : s.canReply f.command)
    (hn : 64 ≤ s.turn) :
    ∃ t, begin [.handle f] s = .next t ∧ dispatched f.command ok er r1 r2 r3 s t
        ∧ storeUntouched s t ∧ handlersUntouched s t := by
  obtain ⟨u, q, e, hrun, hq⟩ := answer_run hh rfl
    (canReply_congr (s := s) rfl rfl rfl rfl rfl hc) hn
  exact ⟨_, hrun, dispatched_of (t := s.fresh) rfl rfl rfl rfl rfl rfl rfl rfl rfl ⟨rfl, rfl⟩
      ⟨rfl, rfl, rfl, rfl, rfl⟩ rfl hq,
      ⟨by refine sameFlash_of ?_ ?_ <;> rfl, ⟨rfl, rfl, rfl⟩, rfl⟩, rfl, rfl, rfl⟩

/-- A code has seven bits (R95). -/
theorem code_lt (c : Byte) : (codeOf c).toNat < 128 := by
  unfold codeOf; rw [BitVec.toNat_and]; exact Nat.lt_of_le_of_lt Nat.and_le_right (by decide)

/-- The dispatcher's table (R200). -/
theorem handler_of (f : Frame) (s : State) :
    ((codeOf f.command).toNat = 0x04 → handler f s = hStartup f s)
        ∧ ((codeOf f.command).toNat = 0x07 → handler f s = hPgmbyte f s)
    ∧ ((codeOf f.command).toNat = 0x08 → handler f s = hRdbyte f s)
        ∧ ((codeOf f.command).toNat = 0x09 → handler f s = hVersion f s)
    ∧ ((codeOf f.command).toNat = 0x0A → handler f s = hProtocol f s)
        ∧ ((codeOf f.command).toNat = 0x0B → handler f s = hNumber f s)
    ∧ ((codeOf f.command).toNat = 0x0C → handler f s = hTime f s)
        ∧ ((codeOf f.command).toNat = 0x0D → handler f s = hMode f s) := by
  unfold handler
  refine ⟨?_, ?_, ?_, ?_, ?_, ?_, ?_, ?_⟩ <;> (intro h; rw [h]; rfl)

/-- Code 0x04 of the dispatcher's table (R200). -/
theorem handler_startup (ack : Bool) (p1 p2 p3 : Byte) (s : State) : handler
    ⟨commandByte ack 0x04#8, p1, p2, p3⟩ s = hStartup ⟨commandByte ack 0x04#8, p1, p2, p3⟩ s :=
    (handler_of _ s).1 (by dsimp only; cases ack <;> decide)

/-- Code 0x07 of the dispatcher's table (R200). -/
theorem handler_pgmbyte (ack : Bool) (p1 p2 p3 : Byte) (s : State) : handler
    ⟨commandByte ack 0x07#8, p1, p2, p3⟩ s = hPgmbyte ⟨commandByte ack 0x07#8, p1, p2, p3⟩ s :=
    (handler_of _ s).2.1 (by dsimp only; cases ack <;> decide)

/-- Code 0x08 of the dispatcher's table (R200). -/
theorem handler_rdbyte (ack : Bool) (p1 p2 p3 : Byte) (s : State) : handler
    ⟨commandByte ack 0x08#8, p1, p2, p3⟩ s = hRdbyte ⟨commandByte ack 0x08#8, p1, p2, p3⟩ s :=
    (handler_of _ s).2.2.1 (by dsimp only; cases ack <;> decide)

/-- Code 0x09 of the dispatcher's table (R200). -/
theorem handler_version (ack : Bool) (p1 p2 p3 : Byte) (s : State) : handler
    ⟨commandByte ack 0x09#8, p1, p2, p3⟩ s = hVersion ⟨commandByte ack 0x09#8, p1, p2, p3⟩ s :=
    (handler_of _ s).2.2.2.1 (by dsimp only; cases ack <;> decide)

/-- Code 0x0A of the dispatcher's table (R200). -/
theorem handler_protocol (ack : Bool) (p1 p2 p3 : Byte) (s : State) : handler
    ⟨commandByte ack 0x0A#8, p1, p2, p3⟩ s = hProtocol ⟨commandByte ack 0x0A#8, p1, p2, p3⟩ s :=
    (handler_of _ s).2.2.2.2.1 (by dsimp only; cases ack <;> decide)

/-- Code 0x0B of the dispatcher's table (R200). -/
theorem handler_number (ack : Bool) (p1 p2 p3 : Byte) (s : State) : handler
    ⟨commandByte ack 0x0B#8, p1, p2, p3⟩ s = hNumber ⟨commandByte ack 0x0B#8, p1, p2, p3⟩ s :=
    (handler_of _ s).2.2.2.2.2.1 (by dsimp only; cases ack <;> decide)

/-- Code 0x0C of the dispatcher's table (R200). -/
theorem handler_time (ack : Bool) (p1 p2 p3 : Byte) (s : State) : handler
    ⟨commandByte ack 0x0C#8, p1, p2, p3⟩ s = hTime ⟨commandByte ack 0x0C#8, p1, p2, p3⟩ s :=
    (handler_of _ s).2.2.2.2.2.2.1 (by dsimp only; cases ack <;> decide)

/-- Code 0x0D of the dispatcher's table (R200). -/
theorem handler_mode (ack : Bool) (p1 p2 p3 : Byte) (s : State) : handler
    ⟨commandByte ack 0x0D#8, p1, p2, p3⟩ s = hMode ⟨commandByte ack 0x0D#8, p1, p2, p3⟩ s :=
    (handler_of _ s).2.2.2.2.2.2.2 (by dsimp only; cases ack <;> decide)

/-- The addresses of CMD_PGMBYTE and CMD_RDBYTE do not wrap (R206, R207). -/
theorem region_addr (hok : s.build.ok = true) {p1 : Byte} (h : p1.toNat ≤ 7) :
    (s.build.flashStart + p1.setWidth 24).toNat = s.regionBase + p1.toNat := by
  obtain ⟨-, -, b3, b4, b5, b6, b7, b8, -⟩ := build_facts hok
  unfold State.regionBase
  rw [BitVec.toNat_add, BitVec.toNat_setWidth]
  rw [Nat.mod_eq_of_lt (show p1.toNat < 2^24 by omega), Nat.mod_eq_of_lt (by omega)]

/-- They lie in the data region. -/
theorem region_in (hok : s.build.ok = true) {p1 : Byte} (h : p1.toNat ≤ 7) : s.inRegion
    (s.build.flashStart + p1.setWidth 24).toNat 1 := by
  rw [region_addr hok h]
  obtain ⟨-, -, b3, b4, b5, b6, b7, b8, -⟩ := build_facts hok
  exact ⟨by omega, by omega, by omega⟩

/-- CMD_NUMBER and CMD_MODE after step 4 of start-up (R204, R263). -/
theorem withHandles_some {k : Addr → Addr → HandlerOut} {a b : Addr} (ha : s.nvNumber = some a)
    (hb : s.nvMode = some b) : withHandles k s = k a b := by
  unfold withHandles; rw [ha, hb]

/-- Selector 1 of CMD_NUMBER and CMD_MODE (R210, R212). -/
theorem getSet_get {a : Addr} {f : Frame} (h1 : f.p1 = 1#8)
    (hi : s.inRegion a.toNat 2) (hf : s.storeFree = true) :
    getSet16 a f s.fresh = .answer ⟨true, 1#8, s.flashByte a.toNat, s.flashByte (a.toNat + 1),
        none⟩ s.fresh := by
  unfold getSet16
  rw [if_pos h1]
  simp only
  unfold handlerRead
  have hcp : storeCheck a 2 s.fresh = .pass := storeCheck_pass hi hf
  rw [hcp]
  simp only
  unfold State.flash16
  rw [(byteOf_le16 _ _).1, (byteOf_le16 _ _).2, sameFlash_of (s := s) (t := s.fresh) rfl rfl,
      sameFlash_of (s := s) (t := s.fresh) rfl rfl]

/-- A handler that writes or erases, its store operation, and its reply. -/
theorem storing_run {f : Frame} {j : StoreJob} {u : State} {k : Nat} {r : Response}
    (hh : handler f s.fresh = .storing (accept j s.fresh))
    (hst : Steps k ((accept j s.fresh).setTodo [.store, .afterStore f])
        ((u.setTodo [.afterStore f]).respond r))
    (hc : u.canReply f.command) (hn : k + 46 ≤ s.turn) :
    ∃ v q e a, begin [.handle f] s = .next (u.tx v q e [] (.dispatched a.success a.err false))
      ∧ a = (match (r : Response) with | .fail e => failed f e | _ => ⟨true, f.p1, f.p2, f.p3, none⟩)
      ∧ replyLeft f.command a u v q e := by
  have h1 : Steps 1 ((s.setTodo [.handle f]).respond .pending)
      ((accept j s.fresh).setTodo [.store, .afterStore f]) := by
    refine handle_first ?_
    unfold handlePart; rw [hh]
    rfl
  obtain ⟨a, ha⟩ : ∃ a : Answer, a =
      (match (r : Response) with | .fail e => failed f e | _ => ⟨true, f.p1, f.p2, f.p3, none⟩)
      := ⟨_, rfl⟩
  have h2 : Steps 1 ((u.setTodo [.afterStore f]).respond r)
      ((u.setTodo [.reply f.command a]).respond r) := by
    refine Steps.one (m := .afterStore f) (l := []) rfl ?_
    simp only [micro, afterStorePart]
    have : (((u.setTodo [.afterStore f]).respond r).setTodo []).me.resp = r := rfl
    rw [this]
    subst ha
    cases r <;> rfl
  obtain ⟨v, q, e, k', hk, hst', hq⟩ := reply_steps (s := (u.setTodo [.reply f.command a]).respond r)
      (c := f.command) (a := a) (l := []) (canReply_congr (s := u) rfl rfl rfl rfl rfl hc) rfl
  refine ⟨v, q, e, a, ?_, ha, replyLeft_congr (s := u)
    (t := (u.setTodo [.reply f.command a]).respond r) rfl rfl rfl rfl rfl hq⟩
  unfold begin
  exact ((((h1.trans hst).trans h2).trans hst').to rfl).run (by omega) rfl

/-- A store operation and a reply leave the rest as it was. -/
theorem wrote_dispatch {c : Byte} {ok er r1 r2 r3 u q e} {m : List Host.Cell} {cm sq w d n l r}
    (hq : replyLeft c ⟨ok, r1, r2, r3, er⟩ ((s.wp m cm sq w d n l).respond r) u q e) :
    dispatched c ok er r1 r2 r3 s (((s.wp m cm sq w d n l).respond r).tx u q e []
      (.dispatched ok er false)) :=
  dispatched_of (t := (s.wp m cm sq w d n l).respond r) rfl rfl rfl rfl rfl rfl rfl rfl rfl ⟨rfl, rfl⟩
    ⟨rfl, rfl, rfl, rfl, rfl⟩ rfl hq

/-- A command whose handler writes, all commands answering ok. -/
theorem command_write {f : Frame} {j : StoreJob} {a : Addr} {l : List Byte} {d : List SeqOutcome}
    (hs : s.storeReady) (hc : s.canReply f.command)
    (hh : handler f s.fresh = .storing (accept j s.fresh)) (hje : j ≠ .erase)
        (hm : mergeJob j (s.respond .pending) = (s.respond .pending).image a.toNat l)
    (hd : s.draws = List.replicate (s.build.regionLen / 8 + 1) .ok ++ d)
        (hn : 64 + s.build.regionLen ≤ s.turn) :
    ∃ t, begin [.handle f] s = .next t ∧ dispatched f.command true none f.p1 f.p2 f.p3 s t
      ∧ storeWrote (s.build.regionLen / 8) a.toNat l s t
      ∧ storeEnded false false true t ∧ t.draws = d
      ∧ t.protoMode = s.protoMode ∧ t.rtc = s.rtc ∧ t.freeIx = s.freeIx + 1 := by
  obtain ⟨hr, hf, hfree⟩ := hs
  have hok := ready_ok hr
  obtain ⟨m', c', w', hst, hw1, hw2, hp⟩ := write_ok (s := s.respond .pending) (a := a.toNat)
      (bytes := l) (c := s.cmd) (q := s.seq) (w := { s.ws with state := .merge, job := j })
      (d := d) (n := s.freeIx) (l := [.afterStore f])
    hok hf (storeFree_iff hfree).1 rfl hm hje
  have e1 : (accept j s.fresh).setTodo [.store, .afterStore f] =
      (s.respond .pending).wp s.flash s.cmd s.seq { s.ws with state := .merge, job := j }
      (List.replicate (s.build.regionLen / 8 + 1) .ok ++ d) s.freeIx [.store, .afterStore f] := by
    rw [accept_wp hje, ← hd]; rfl
  obtain ⟨v, q, e, an, hrun, ha, hq⟩ := storing_run
      (u := (s.wp m' c' ⟨true, false, false, none⟩ w' d (s.freeIx + 1)
      [.afterStore f]).respond .pending) (r := .flag true) hh (by rw [e1]; exact hst.to rfl)
    (canReply_congr rfl rfl rfl rfl rfl hc) (by show 5 + 3 * (s.build.regionLen / 8) + 46 ≤ _; omega)
  subst ha
  refine ⟨_, hrun, wrote_dispatch (r1 := f.p1) (r2 := f.p2) (r3 := f.p3) hq, ?_, ⟨rfl, hw1, hw2⟩,
      rfl, rfl, rfl, rfl⟩
  exact wrote_of_progress hok (Nat.le_refl _) hp rfl rfl

/-- A command whose handler erases, the command answering `ok`. -/
theorem command_erase {f : Frame} {d : List SeqOutcome} (hs : s.storeReady)
    (hc : s.canReply f.command)
    (hh : handler f s.fresh = .storing (accept .erase s.fresh))
    (hd : s.draws = .ok :: d) (hn : 64 ≤ s.turn) :
    ∃ t, begin [.handle f] s = .next t ∧ dispatched f.command true none f.p1 f.p2 f.p3 s t
      ∧ storeWrote 0 0 [] s t
      ∧ storeEnded false false true t ∧ t.draws = d
      ∧ t.protoMode = s.protoMode ∧ t.rtc = s.rtc ∧ t.freeIx = s.freeIx + 1 := by
  obtain ⟨hr, hf, hfree⟩ := hs
  have hok := ready_ok hr
  obtain ⟨w', hst, hw1, hw2⟩ := erase_ok (s := s.respond .pending) (c := s.cmd) (q := s.seq)
      (w := { s.ws with state := .eraseLaunch, job := .erase }) (d := d) (n := s.freeIx)
      (l := [.afterStore f])
    hok (storeFree_iff hfree).1 rfl rfl
  have e1 : (accept .erase s.fresh).setTodo [.store, .afterStore f] =
      (s.respond .pending).wp s.flash s.cmd s.seq
      { s.ws with state := .eraseLaunch, job := .erase } (.ok :: d) s.freeIx
      [.store, .afterStore f] := by
    rw [accept_erase_wp, ← hd]; rfl
  obtain ⟨v, q, e, an, hrun, ha, hq⟩ := storing_run
      (u := (s.wp (erased .ok s.flash s) (eraseDesc s s.freeIx) ⟨true, false, false, none⟩ w' d
      (s.freeIx + 1) [.afterStore f]).respond .pending) (r := .flag true) hh
      (by rw [e1]; exact hst.to rfl)
    (canReply_congr rfl rfl rfl rfl rfl hc) (by omega)
  subst ha
  refine ⟨_, hrun, wrote_dispatch (r1 := f.p1) (r2 := f.p2) (r3 := f.p3) hq, ?_, ⟨rfl, hw1, hw2⟩,
      rfl, rfl, rfl, rfl⟩
  exact erased_wrote hf rfl rfl

/-- A command whose store operation meets a violation in its erase. -/
theorem command_fails {f : Frame} {j : StoreJob} {o : SeqOutcome} {d : List SeqOutcome}
    (hs : s.storeReady) (hc : s.canReply f.command)
    (hh : handler f s.fresh = .storing (accept j s.fresh))
    (hd : s.draws = o :: d) (ho : o ≠ .ok) (hn : 64 ≤ s.turn) :
    ∃ t, begin [.handle f] s = .next t
        ∧ dispatched f.command false
        (some (.flashSequencer .erase o.setsAccerr o.setsFpviol)) f.p1 f.p2 f.p3 s t
      ∧ sameFlash s t ∧ storeEnded o.setsAccerr o.setsFpviol false t ∧ t.draws = d
      ∧ t.protoMode = s.protoMode ∧ t.rtc = s.rtc ∧ t.freeIx = s.freeIx + 1 := by
  obtain ⟨hr, hf, hfree⟩ := hs
  have hok := ready_ok hr
  have key : ∃ w' k, k ≤ 5 ∧ Steps k ((accept j s.fresh).setTodo [.store, .afterStore f])
      ((((s.wp s.flash (eraseDesc s s.freeIx) ⟨true, o.setsAccerr, o.setsFpviol, none⟩ w' d
      (s.freeIx + 1) [.afterStore f]).respond .pending).setTodo [.afterStore f]).respond
      (.fail (.flashSequencer .erase o.setsAccerr o.setsFpviol)))
      ∧ w'.state = .idle ∧ w'.result = false := by
    by_cases hje : j = .erase
    · subst hje
      obtain ⟨w', hst, hw1, hw2⟩ := erase_erase_fails ho (s := s.respond .pending) (c := s.cmd)
          (q := s.seq) (w := { s.ws with state := .eraseLaunch, job := .erase }) (d := d)
          (n := s.freeIx) (l := [.afterStore f])
        hok (storeFree_iff hfree).1 rfl
      have e1 : (accept .erase s.fresh).setTodo [.store, .afterStore f] =
          (s.respond .pending).wp s.flash s.cmd s.seq
          { s.ws with state := .eraseLaunch, job := .erase } (o :: d) s.freeIx
          [.store, .afterStore f] := by
        rw [accept_erase_wp, ← hd]; rfl
      exact ⟨w', 4, by omega, by rw [e1]; exact hst.to rfl, hw1, hw2⟩
    · obtain ⟨w', hst, hw1, hw2⟩ := write_erase_fails ho (s := s.respond .pending) (c := s.cmd)
        (q := s.seq) (w := { s.ws with state := .merge, job := j }) (d := d) (n := s.freeIx)
        (l := [.afterStore f])
        hok (storeFree_iff hfree).1 rfl rfl hje
      have e1 : (accept j s.fresh).setTodo [.store, .afterStore f] =
          (s.respond .pending).wp s.flash s.cmd s.seq { s.ws with state := .merge, job := j }
          (o :: d) s.freeIx [.store, .afterStore f] := by
        rw [accept_wp hje, ← hd]; rfl
      exact ⟨w', 5, by omega, by rw [e1]; exact hst.to rfl, hw1, hw2⟩
  obtain ⟨w', k, hk, hst, hw1, hw2⟩ := key
  obtain ⟨v, q, e, an, hrun, ha, hq⟩ := storing_run
      (u := (s.wp s.flash (eraseDesc s s.freeIx) ⟨true, o.setsAccerr, o.setsFpviol, none⟩ w' d
      (s.freeIx + 1) [.afterStore f]).respond .pending) hh hst
    (canReply_congr rfl rfl rfl rfl rfl hc) (by omega)
  subst ha
  refine ⟨_, hrun, wrote_dispatch (r1 := f.p1) (r2 := f.p2) (r3 := f.p3) hq, ?_, ⟨rfl, hw1, hw2⟩,
      rfl, rfl, rfl, rfl⟩
  refine sameFlash_of ?_ ?_ <;> rfl

/-- Selector 2 of CMD_NUMBER and CMD_MODE. -/
theorem getSet_set {a : Addr} {f : Frame} (h1 : f.p1 = 2#8)
    (hi : s.inRegion a.toNat 2) (hf : s.storeFree = true) :
    getSet16 a f s.fresh = .storing (accept (.write16 a (le16 f.p2 f.p3)) s.fresh) := by
  unfold getSet16
  rw [if_neg (by rw [h1]; decide), if_pos h1]
  unfold handlerStore
  rw [storeStart_write (s := s.fresh) rfl hi hf]

/-- CMD_PGMBYTE with an offset up to 7. -/
theorem pgm_write {ack p1 p2 p3} (h7 : p1.toNat ≤ 7) (hs : s.storeReady) : handler
    ⟨commandByte ack 0x07#8, p1, p2, p3⟩ s.fresh = .storing
    (accept (.write8 (s.build.flashStart + p1.setWidth 24) p3) s.fresh) := by
  rw [handler_pgmbyte]; unfold hPgmbyte; simp only
  rw [if_pos h7]; unfold handlerStore
  rw [storeStart_write (s := s.fresh) rfl (region_in (ready_ok hs.1) h7) hs.2.2]
  rfl

/-- CMD_PGMBYTE with offset 8. -/
theorem pgm_erase {ack p1 p2 p3} (h7 : p1.toNat = 8) (hs : s.storeReady) : handler
    ⟨commandByte ack 0x07#8, p1, p2, p3⟩ s.fresh = .storing (accept .erase s.fresh) := by
  rw [handler_pgmbyte]; unfold hPgmbyte; simp only
  rw [if_neg (by omega), if_pos h7]; unfold handlerStore
  rw [storeStart_erase (s := s.fresh) hs.2.2]

/-- Room that is left after a frame. -/
theorem canEmit_after {n : Nat} {f : Frame} {q : Pipe} {e l r} (hc : s.canEmit (5 + n))
    (hg : s.txf.grewBy s.build.capacity s.threaded (frameBytes f) q) :
    (s.tx (s.notePut .txf true).txUsers q e l r).canEmit n := by
  obtain ⟨c1, c2, c3, c4, c5⟩ := hc
  have h5 : (frameBytes f).length = 5 := rfl
  have hcnt := grewBy_count hg
  rw [h5] at hcnt
  obtain ⟨g1, g2, g3, g4, g5, g6⟩ := hg
  refine ⟨g5.trans c1, g2, ?_, ?_, fun ht => ?_⟩
  · show q.count + n ≤ s.build.capacity; omega
  · refine (mayPut_congr (s := s.notePut .txf true) (t := s.tx (s.notePut .txf true).txUsers q e l r)
      (p := .txf) ?_ ?_ rfl true).trans (notePut_again c4).1
    · exact (State.notePut_build s .txf true).symm
    · exact (State.notePut_who s .txf true).symm
  · have ht : s.threaded = true := ht
    obtain ⟨d1, d2, d3⟩ := c5 ht
    rw [ht] at g6
    simp only [if_true, h5] at g6
    refine ⟨d1, ?_, ?_⟩
    · show n ≤ q.space; omega
    · show (!s.locked || decide (0 < q.lock)) = true
      rw [g4]; exact d3

/-- Frames emitted one after another. -/
theorem send_all : ∀ (l : List Frame) (m : List Micro) (s : State) (n : Nat),
    (l ≠ [] → s.canEmit (5 * l.length + n)) →
    s.me.todo = (l.map (fun g => emission g s)).flatten ++ m → (∀ e, s.me.resp ≠ .fail e) →
    ∃ u q e r k, k ≤ 41 * l.length ∧ Steps k s (s.tx u q e m r)
      ∧ (l = [] → u = s.txUsers ∧ q = s.txf ∧ e = s.me.txe)
      ∧ (l ≠ [] → u = (s.notePut .txf true).txUsers ∧ e = none
        ∧ s.txf.grewBy s.build.capacity s.threaded (l.flatMap frameBytes) q
        ∧ (s.tx u q e m r).canEmit n)
  | [], m, s, n, hc, hl, hr => by
    refine ⟨s.txUsers, s.txf, s.me.txe, s.me.resp, 0, by omega, (Steps.refl s).to ?_, by simp,
      by simp⟩
    have hl : s.me.todo = m := by simpa using hl
    subst hl; exact tx_self.symm
  | f :: l, m, s, n, hc, hl, hr => by
    have hc := hc (by simp)
    rw [show 5 * (f :: l).length + n = 5 + (5 * l.length + n) by simp; omega] at hc
    have hc5 : s.canEmit 5 := by
      obtain ⟨c1, c2, c3, c4, c5⟩ := hc
      exact
        ⟨c1, c2, by omega, c4, fun ht => ⟨(c5 ht).1, by have := (c5 ht).2.1; omega, (c5 ht).2.2⟩⟩
    obtain ⟨q, k, r, hk, hg, hst, hrr⟩ := emission_steps (s := s) (f := f)
      (l := (l.map (fun g => emission g s)).flatten ++ m) hc5 (by rw [hl]; simp)
    have hce := canEmit_after (e := none) (l := (l.map (fun g => emission g s)).flatten ++ m)
      (r := r) hc hg
    obtain ⟨u', q', e', r', k', hk', hst', h1, h2⟩ := send_all l m
      (s.tx (s.notePut .txf true).txUsers q none ((l.map (fun g => emission g s)).flatten ++ m) r) n
      (fun _ => hce) (by
        show _ = (l.map (fun g => emission g _)).flatten ++ m
        congr 3) hrr
    refine ⟨u', q', e', r', k + k', by simp; omega, hst.trans hst', by simp, fun _ => ?_⟩
    by_cases hl0 : l = []
    · obtain ⟨rfl, rfl, rfl⟩ := h1 hl0
      subst hl0
      refine ⟨rfl, rfl, by simpa using hg, ?_⟩
      rw [List.length_nil, Nat.mul_zero, Nat.zero_add] at hce
      exact hce
    · obtain ⟨hu, he, g, c⟩ := h2 hl0
      refine ⟨hu.trans ?_, he, ?_, c⟩
      · refine (notePut_congr (s := s.notePut .txf true) (t := s.tx (s.notePut .txf true).txUsers q none
          ((l.map (fun g => emission g s)).flatten ++ m) r) ?_ ?_ rfl true).trans
          (notePut_again hc.2.2.2.1).2
        · exact (State.notePut_build s .txf true).symm
        · exact (State.notePut_who s .txf true).symm
      · have := grewBy_trans hg g
        simpa using this

/-- The same of a list of frames. -/
theorem emission_fun {s t : State} (h : t.build = s.build) : (fun g => emission g t) =
    (fun g => emission g s) :=
  funext fun g => emission_congr h g

@[simp] theorem tx_build (u q e l r) : (s.tx u q e l r).build = s.build := rfl

@[simp] theorem tx_who (u q e l r) : (s.tx u q e l r).who = s.who := rfl

@[simp] theorem tx_txf (u q e l r) : (s.tx u q e l r).txf = q := rfl

@[simp] theorem tx_txlock (u q e l r) : (s.tx u q e l r).txlock = s.txlock := rfl

@[simp] theorem fresh_build : s.fresh.build = s.build := rfl

@[simp] theorem fresh_who : s.fresh.who = s.who := rfl

@[simp] theorem fresh_txf : s.fresh.txf = s.txf := rfl

@[simp] theorem fresh_txlock : s.fresh.txlock = s.txlock := rfl

end Sys2Proof.Machine
end

