-- ==== Sys2Proof/Laws/Moves.lean ====
section
/-! SUPPORT. What one atomic part of a threaded build does to the semaphores' accounts, and the agents'
shares of them. -/

namespace Sys2Proof.Machine

variable {s t : State} {m : Micro} {x : Sem}

/-- What stands in a semaphore's account besides what the agents have taken. -/
def acc (x : Sem) (s : State) : Int :=
  match x with
  | .space p => ((s.pipe p).space : Int) + (s.pipe p).count
  | .items p => ((s.pipe p).items : Int) - (s.pipe p).count
  | .lock p => (s.pipe p).lock
  | .txlock => s.txlock

/-- What a semaphore's account adds up to (R24, R25). -/
def total (x : Sem) (s : State) : Int :=
  match x with
  | .space _ => s.build.capacity
  | .items _ => 0
  | .lock _ | .txlock => 1

/-- A semaphore's account adds up where these two are the same. -/
theorem adds_iff : s.adds x ↔ acc x s + s.owes x = total x s := by
  unfold State.adds acc total
  cases x <;> simp only
  omega

/-- The account depends on the pipes and `TXLOCK` only. -/
theorem acc_congr (h1 : t.rxf = s.rxf) (h2 : t.txf = s.txf)
    (h3 : t.txlock = s.txlock) (x : Sem) : acc x t = acc x s := by
  have hp : ∀ p, t.pipe p = s.pipe p := by intro p; cases p; exact h1; exact h2
  unfold acc
  cases x <;> simp only [hp, h3]

/-- The byte a part takes is there. -/
def Micro.hasByte (s : State) (m : Micro) : Prop :=
  ∀ p, m = .pipeTake p ∨ (m = .codecTake ∧ p = .rxf) → (s.pipe p).count ≠ 0

/-- What a part that is none of START_UP's does to the accounts: what it moves it no longer owes, and it
leaves parts to be done that take before they give. -/
structure Moves (m : Micro) (s t : State) : Prop where
  bal : ∀ x, (x ≠ .txlock → m.hasByte s) → acc x t + t.me.owes x = acc x s + s.me.owes x + m.owes x
  todo : ∃ k, t.me.todo = k ++ s.me.todo ∧ (∀ x, settled x k) ∧ (∀ y ∈ k, y.starts = false)
    ∧ (m ≠ .emitB → ∀ p b, .pipeStore p b ∉ k)

/-- A part that moves nothing. -/
theorem Moves.plain {k : List Micro} (h : ∀ x, acc x t = acc x s) (hh : t.me.held = s.me.held)
    (ht : t.me.todo = k ++ s.me.todo) (hk : replaces m k) : Moves m s t := by
  refine ⟨fun x _ => ?_, k, ht, fun x => (hk.1 x).2, hk.2⟩
  have := (hk.1 x).1
  rw [h]
  unfold Local.owes
  rw [ht, hh, owed_append, this]
  omega

/-- A part that owes nothing may leave nothing. -/
theorem replaces_nil (h : m.free) : replaces m [] :=
  ⟨fun x => ⟨by simp [h.1 x], trivial⟩, by simp, fun _ => by simp⟩

/-- A part that owes nothing may leave parts that balance. -/
theorem replaces_bal {k} (h : m.free) (hk : balanced k)
    (hs : ∀ p b, .pipeStore p b ∉ k := by simp) : replaces m k :=
  ⟨fun x => ⟨by rw [(hk.1 x).1, h.1 x], (hk.1 x).2⟩, hk.2, fun _ => hs⟩

/-- A part that no account counts. -/
theorem micro_free (m : Micro) (h1 : ∀ x, m.gives x = 0 := by intro; rfl)
    (h2 : ∀ p, m.grows p = 0 := by intro; rfl) (h3 : m.sends = 0 := by rfl)
        (h4 : m.starts = false := by rfl) : m.free := free_of h1 h2 h3 h4

/-- The sequencer's turn leaves the pipes and the agents alone. -/
theorem sequencerTurn_same {u : State} (hu : sequencerTurn s = some (.ok u)) : u.rxf = s.rxf
    ∧ u.txf = s.txf ∧ u.txlock = s.txlock ∧ u.me = s.me := by
  obtain ⟨_, d, o, r, _, _, e⟩ := sequencerTurn_ok hu
  obtain ⟨f, rfl, _⟩ := sequencerStep_ok e
  exact ⟨rfl, rfl, rfl, rfl⟩

/-- Writing a semaphore moves its own account only. -/
theorem acc_sem (y x : Sem) (n : Nat) : acc x (setSem y n s)
    = acc x s + if y = x then (n : Int) - semValue y s else 0 := by
  rcases y with (_ | _) | (_ | _) | (_ | _) | _
      <;> rcases x with (_ | _) | (_ | _) | (_ | _) | _
          <;> simp [acc, setSem, semValue, State.pipe, State.setPipe, State.setTxlock] <;> omega

/-- Storing a byte does to the accounts what PIPE_PUT_B's line 3 owes. -/
theorem acc_pipe_store (p b) (x : Sem)
    : acc x (s.setPipe p ((s.pipe p).store s.build.capacity b)) = acc x s +
        (Micro.pipeStore p b).owes x := by
  cases p <;> rcases x with (_ | _) | (_ | _) | (_ | _) | _
      <;> simp [acc, State.pipe, State.setPipe, Pipe.store, Micro.owes, Micro.gives, Micro.grows, Micro.sends] <;> omega

/-- Removing a byte does to the accounts what PIPE_GET_B's line 3 owes. -/
theorem acc_pipe_drop (p) (x : Sem) (hc : x ≠ .txlock → (s.pipe p).count ≠ 0)
    : acc x (s.setPipe p ((s.pipe p).drop s.build.capacity)) = acc x s +
        (Micro.pipeTake p).owes x := by
  have : x ≠ .txlock → 1 ≤ (s.pipe p).count := fun h => by have := hc h; omega
  cases p <;> rcases x with (_ | _) | (_ | _) | (_ | _) | _
      <;> simp [acc, State.pipe, State.setPipe, Pipe.drop, Micro.owes, Micro.gives, Micro.grows, Micro.sends] at * <;> omega

/-- A part that leaves nothing to be done. -/
theorem Moves.done (h : ∀ x, (x ≠ .txlock → m.hasByte s) → acc x t = acc x s + m.owes x)
    (hh : t.me.held = s.me.held) (ht : t.me.todo = s.me.todo) : Moves m s t := by
  refine ⟨fun x hx => ?_, [], by simpa using ht, fun x => trivial, by simp, fun _ => by simp⟩
  rw [h x hx]; unfold Local.owes; rw [ht, hh]; omega

/-- What one part of a threaded build does to the accounts. -/
theorem micro_moves (hth : s.threaded = true) (hst : m.starts = false)
    (hd : m = .hold → s.me.held = false)
    (h : micro m s = .go t) : Moves m s t := by
  have hp : s.polled = false := polled_of_threaded hth
  have same : ∀ {k : List Micro} {v : State}, v.rxf = s.rxf → v.txf = s.txf → v.txlock = s.txlock →
      v.me.held = s.me.held → v.me.todo = k ++ s.me.todo → replaces m k → Moves m s v :=
    fun h1 h2 h3 h4 h5 h6 => .plain (acc_congr h1 h2 h3) h4 h5 h6
  cases m with
  | semWait y =>
    simp only [micro] at h
    split at h
    · cases h
    · rename_i hv
      cases h
      refine .done (fun x _ => ?_) (by rw [setSem_me]) (by rw [setSem_me])
      rw [acc_sem]
      by_cases hx : y = x
      · subst hx; rcases y with _ | _ | _ | _ <;> simp
          [Micro.owes, Micro.gives, Micro.grows, Micro.sends] <;> omega
      · rcases y with _ | _ | _ | _ <;> rcases x with _ | _ | _ | _ <;> simp_all
          [Micro.owes, Micro.gives, Micro.grows, Micro.sends]
  | semSignal y =>
    simp only [micro] at h
    cases h
    refine .done (fun x _ => ?_) (by rw [setSem_me]) (by rw [setSem_me])
    rw [acc_sem]
    by_cases hx : y = x
    · subst hx; rcases y with _ | _ | _ | _ <;> simp
        [Micro.owes, Micro.gives, Micro.grows, Micro.sends]
    · rcases y with _ | _ | _ | _ <;> rcases x with _ | _ | _ | _ <;> simp_all
        [Micro.owes, Micro.gives, Micro.grows, Micro.sends]
  | hold =>
    cases h
    refine ⟨fun x _ => ?_, [], rfl, fun _ => trivial, by simp, fun _ => by simp⟩
    have hd := hd rfl
    have : acc x ((s.setHeld true).respond .done) = acc x s := acc_congr rfl rfl rfl x
    rw [this]
    rcases x with _ | _ | _ | _
        <;> simp [Local.owes, hd, Micro.owes, Micro.gives, Micro.grows, Micro.sends]
    omega
  | pipeStore p b =>
    obtain ⟨_, rfl⟩ := pipeStoreAs_ok (MicroOut.of_go h)
    exact .done (fun x _ => acc_pipe_store p b x) (by simp) (by simp)
  | pipeTake p =>
    have h := MicroOut.of_go h
    cases hd : pipeDropAs p s with
    | error e => rw [hd] at h; cases h
    | ok r =>
      rw [hd] at h
      obtain ⟨_, rfl⟩ := pipeDropAs_ok hd
      cases h
      exact .done (fun x hx => (acc_congr (by simp) (by simp) (by simp) x).trans
        (acc_pipe_drop p x (fun h => hx h p (.inl rfl)))) (by simp) (by simp)
  | ret r => cases h; exact same rfl rfl rfl rfl rfl (replaces_nil (micro_free _))
  | codecTake =>
    have h := MicroOut.of_go h
    cases hd : pipeDropAs .rxf s with
    | error e => rw [hd] at h; cases h
    | ok r =>
      rw [hd] at h
      obtain ⟨_, rfl⟩ := pipeDropAs_ok hd
      cases h
      refine .done (fun x hx => (acc_congr (by simp [codecTakeByte]) (by simp [codecTakeByte])
        (by simp [codecTakeByte]) x).trans
          ((acc_pipe_drop .rxf x (fun h => hx h .rxf (.inr ⟨rfl, rfl⟩))).trans ?_))
        (by simp [codecTakeByte]) (by simp [codecTakeByte])
      rcases x with (_ | _) | (_ | _) | (_ | _) | _ <;> rfl
  | frGetPass =>
    simp only [micro, frGetPassPart] at h
    split at h
    · cases h; exact same rfl rfl rfl rfl rfl (replaces_nil (micro_free _))
    · split at h
      · cases h
      · rename_i u hu
        have := (frStep_ok hu).1
        rw [hp] at this; cases this
  | frGetAgain =>
    simp only [micro, frGetAgainPart] at h
    have hb : replaces .frGetAgain (frStepParts s ++ [.frGetAgain]) :=
      replaces_bal (micro_free _) (balanced_append (frStepParts_balanced s)
        (balanced_one (micro_free _))) (fun p b => by
          simpa [frStepParts] using
            (getBParts_stores (by simp) : .pipeStore p b ∉ getBParts .rxf .codecTake s))
    split at h
    · cases h; exact same rfl rfl rfl rfl rfl (replaces_nil (micro_free _))
    all_goals (cases h; exact same rfl rfl rfl rfl rfl hb)
  | emitBegin f =>
    obtain ⟨_, rfl⟩ := emitBeginPart_go h
    exact same (by simp) (by simp) (by simp) (by simp) (by simp) (replaces_nil (micro_free _))
  | emit =>
    simp only [micro, emitPart] at h
    split at h
    · cases h
    · split at h
      · cases h; exact same rfl rfl rfl rfl rfl (replaces_nil (micro_free _))
      · split at h
        · cases h
        · rename_i hq
          have := (pipePut_ok hq).1
          rw [hp] at this; cases this
        · rename_i hq
          have := (pipePut_ok hq).1
          rw [hp] at this; cases this
  | emitB =>
    simp only [micro, emitBPart] at h
    split at h
    · cases h
    · split at h
      · cases h
        refine same rfl rfl rfl rfl rfl ⟨fun x => ?_, by simp [Micro.starts],
          fun h => absurd rfl h⟩
        rcases x with (_ | _) | (_ | _) | (_ | _) | _ <;>
          simp [settled, Micro.owes, Micro.gives, Micro.grows, Micro.sends]
      · rename_i b _
        cases h
        have hb := putBParts_balanced .txf b s
        refine same (k := putBParts .txf b s ++ [.emitCount, .emitB]) rfl rfl rfl rfl rfl ⟨fun x =>
            ⟨?_, settled_append (hb.1 x).2 ?_⟩, ?_, fun h => absurd rfl h⟩
        · rw [owed_append, (hb.1 x).1]
          rcases x with (_ | _) | (_ | _) | (_ | _) | _ <;>
            simp [settled, Micro.owes, Micro.gives, Micro.grows, Micro.sends]
        · rcases x with (_ | _) | (_ | _) | (_ | _) | _ <;>
            simp [settled, Micro.owes, Micro.gives, Micro.grows, Micro.sends]
        · intro y hy
          rcases List.mem_append.mp hy with hy | hy
          · exact hb.2 y hy
          · simp at hy; rcases hy with rfl | rfl <;> rfl
  | emitCount =>
    simp only [micro, emitCountPart] at h
    split at h
    · cases h
    · cases h; exact same rfl rfl rfl rfl rfl (replaces_nil (micro_free _))
  | emitEnd => cases h; exact same rfl rfl rfl rfl rfl (replaces_nil (micro_free _))
  | store =>
    have hb : replaces .store [.store] := replaces_bal (micro_free _) (balanced_one (micro_free _))
    simp only [micro, storePart] at h
    split at h
    · cases h
    · cases h; exact same rfl rfl rfl rfl rfl hb
    · split at h
      · cases h; exact same rfl rfl rfl rfl rfl hb
      · cases h
    · rcases awaitSequencer_go h with ⟨hc, hk⟩ | ⟨u, hu, rfl⟩
      · split at hk <;> (cases hk; exact same rfl rfl rfl rfl rfl hb)
      · obtain ⟨a, b, c, d⟩ := sequencerTurn_same hu
        exact same a b c (by simp [d]) (by simp [d]) hb
    · split at h
      · cases h
      · split at h
        · cases h; exact same rfl rfl rfl rfl rfl hb
        · cases h
    · rcases awaitSequencer_go h with ⟨hc, hk⟩ | ⟨u, hu, rfl⟩
      · split at hk <;> (cases hk; exact same rfl rfl rfl rfl rfl hb)
      · obtain ⟨a, b, c, d⟩ := sequencerTurn_same hu
        exact same a b c (by simp [d]) (by simp [d]) hb
    · cases h; exact same rfl rfl rfl rfl rfl (replaces_nil (micro_free _))
    · cases h; exact same rfl rfl rfl rfl rfl (replaces_nil (micro_free _))
  | seqWait =>
    have hb : replaces .seqWait [.seqWait] := replaces_bal (micro_free _)
        (balanced_one (micro_free _))
    simp only [micro, seqWaitPart] at h
    rcases awaitSequencer_go h with ⟨_, hk⟩ | ⟨u, hu, rfl⟩
    · cases hk; exact same rfl rfl rfl rfl rfl (replaces_nil (micro_free _))
    · obtain ⟨a, b, c, d⟩ := sequencerTurn_same hu
      exact same a b c (by simp [d]) (by simp [d]) hb
  | seqExec =>
    simp only [micro, seqExecPart] at h
    split at h
    · cases h
    · cases h
    · rename_i u hu
      cases h
      obtain ⟨a, b, c, d⟩ := sequencerTurn_same hu
      exact same a b c (by simp [d]) (by simp [d]) (replaces_nil (micro_free _))
  | handle f =>
    have hb : ∀ a, replaces (.handle f) [.reply f.command a] :=
        fun a => replaces_bal (micro_free _) (balanced_one (micro_free _))
    simp only [micro, handlePart] at h
    have hc := handler_case f s
    generalize handler f s = y at h hc
    cases hc with
    | answer a => cases h; exact same rfl rfl rfl rfl rfl (hb a)
    | proto a m => cases h; exact same rfl rfl rfl rfl rfl (hb a)
    | rtc a r => cases h; exact same rfl rfl rfl rfl rfl (hb a)
    | storing j hj =>
      cases h
      refine same rfl rfl rfl rfl rfl (replaces_bal (micro_free _)
        (balanced_free (l := [.store, .afterStore f]) fun y hy => ?_))
      simp at hy
      rcases hy with rfl | rfl <;> exact micro_free _
    | sending l a =>
      cases h
      refine same rfl rfl rfl rfl rfl (replaces_bal (micro_free _) (balanced_append ?_
        (balanced_one (micro_free _))) (fun p b hm => ?_))
      rotate_left
      · rcases List.mem_append.mp hm with hm | hm
        · obtain ⟨z, hz, hm⟩ := List.mem_flatten.mp hm
          obtain ⟨g, _, rfl⟩ := List.mem_map.mp hz
          exact emission_stores hm
        · simp at hm
      induction l with
      | nil => exact balanced_free (by simp)
      | cons g l ih => exact balanced_append (emission_balanced g _) ih
    | refused r => cases h
  | afterStore f =>
    simp only [micro, afterStorePart] at h
    split at h <;> (cases h; exact same rfl rfl rfl rfl rfl (replaces_bal (micro_free _)
        (balanced_one (micro_free _))))
  | reply c a =>
    simp only [micro, replyPart] at h
    split at h
    · cases h
      exact same rfl rfl rfl rfl rfl (replaces_bal (micro_free _)
          (balanced_append (emission_balanced _ _) (balanced_one (micro_free _)))
        (fun p b => by simpa using emission_stores))
    · cases h; exact same rfl rfl rfl rfl rfl (replaces_nil (micro_free _))
  | replied a =>
    simp only [micro, repliedPart] at h
    split at h <;> (cases h; exact same rfl rfl rfl rfl rfl (replaces_nil (micro_free _)))
  | startPipe p => cases hst
  | startCodec => cases hst
  | startMap => cases hst
  | startNumber => cases hst
  | startMode => cases hst
  | loop =>
    obtain ⟨_, rfl⟩ := loopPart_go h
    refine same (by simp) (by simp) (by simp) (by simp) ?_ (replaces_bal (micro_free _)
      (balanced_append (frGetParts_balanced s) (balanced_one (micro_free .loopDispatch)))
      (fun p b => by simpa using frGetParts_stores))
    rw [State.push_me_todo, State.noteStep_me]
  | loopDispatch =>
    simp only [micro, loopDispatchPart] at h
    split at h
    · cases h
      refine same rfl rfl rfl rfl rfl (replaces_bal (micro_free _) (balanced_free fun y hy => ?_))
      simp at hy
      rcases hy with rfl | rfl <;> exact micro_free _
    all_goals (
      cases h
      exact same rfl rfl rfl rfl rfl (replaces_bal (micro_free _) (balanced_one (micro_free _))))
  | halted => cases h
/-- No agent that is well placed in its parts owes less than nothing. -/
theorem local_nonneg {l : Local} (h : l.wf) (x) : 0 ≤ l.owes x := by
  unfold Local.owes
  have := settled_nonneg (h.1 x)
  split <;> omega

theorem parked_nonneg {l : List (Agent × Local)} (h : ∀ y ∈ l, y.2.wf) (x) :
    (0 : Int) ≤ (l.map (fun y => y.2.owes x)).sum := by
  induction l with
  | nil => simp
  | cons a l ih =>
    have h1 := local_nonneg (h a List.mem_cons_self) x
    have h2 := ih (fun y hy => h y (List.mem_cons_of_mem _ hy))
    simp only [List.map_cons, List.sum_cons]
    omega

/-- One of the parked agents' share of an account. -/
theorem parked_le {l : List (Agent × Local)} (h : ∀ y ∈ l, y.2.wf) {y : Agent × Local} (hy : y ∈ l)
    (x) : y.2.owes x ≤ (l.map (fun y => y.2.owes x)).sum := by
  induction l with
  | nil => cases hy
  | cons a l ih =>
    have h1 := local_nonneg (h a List.mem_cons_self) x
    have h2 := parked_nonneg (fun y hy => h y (List.mem_cons_of_mem _ hy)) x
    simp only [List.map_cons, List.sum_cons]
    rcases List.mem_cons.mp hy with rfl | hy
    · omega
    · have := ih (fun y hy => h y (List.mem_cons_of_mem _ hy)) hy
      omega

theorem lookup_none {a : Agent} {l : List (Agent × Local)} (h : l.lookup a = none) :
    a ∉ l.map (·.1) := by
  induction l with
  | nil => simp
  | cons y l ih =>
    obtain ⟨b, z⟩ := y
    rw [List.lookup_cons] at h
    split at h
    · cases h
    · rename_i he
      simp at he
      simp only [List.map_cons, List.mem_cons, not_or]
      exact ⟨he, ih h⟩

/-- The parked agents' share of an account, one agent apart from the others. -/
theorem sum_filter {a : Agent} {x : Sem} {l : List (Agent × Local)} (h : (l.map (·.1)).Nodup) :
    (l.map (fun y => y.2.owes x)).sum = ((l.lookup a).getD Local.idle).owes x
      + ((l.filter (fun y => decide (y.1 ≠ a))).map (fun y => y.2.owes x)).sum := by
  induction l with
  | nil => simp [Local.idle, Local.owes]
  | cons y l ih =>
    obtain ⟨b, z⟩ := y
    simp only [List.map_cons, List.nodup_cons] at h
    rw [List.lookup_cons]
    by_cases hb : a = b
    · subst hb
      have : (l.filter (fun y => decide (y.1 ≠ a))) = l := by
        rw [List.filter_eq_self]
        intro y hy
        have : y.1 ≠ a := fun he => h.1 (he ▸ List.mem_map_of_mem hy)
        simpa using this
      simp only [BEq.rfl, Option.getD_some, List.map_cons, List.sum_cons]
      rw [List.filter_cons_of_neg (by simp), this]
    · have : (a == b) = false := by simpa using hb
      rw [this]
      simp only [List.map_cons, List.sum_cons]
      rw [List.filter_cons_of_pos (by simpa using fun h => hb h.symm), List.map_cons, List.sum_cons,
        ih h.2]
      dsimp only
      omega

end Sys2Proof.Machine
end

