-- ==== Sys2Proof/Laws/PerInstr.lean ====
section
/-! SUPPORT. The shape of every instruction's encoding: the row of the opcode table it belongs to. -/

namespace Sys2Proof.Laws.EncodedShape

open Sys2Proof Sys2Proof.Machine

/-- The `OPSEL` byte of an operation (R104), the command code of a frame (R98), the opcode of a
descriptor (R100). -/
def selector : Instr → Byte
  | .pipeInit _ => 0x00#8
  | .pipePut _ _ => 0x01#8
  | .pipeGet _ => 0x02#8
  | .pipePutB _ _ => 0x03#8
  | .pipeGetB _ => 0x04#8
  | .semWait _ => 0x05#8
  | .semSignal _ => 0x06#8
  | .codecInit => 0x08#8
  | .frStep => 0x09#8
  | .frGet => 0x0A#8
  | .frPut _ _ _ _ => 0x0B#8
  | .frPutB _ _ _ _ => 0x0C#8
  | .nvInit => 0x10#8
  | .nvAlloc _ => 0x11#8
  | .nvRead8 _ => 0x12#8
  | .nvRead16 _ => 0x13#8
  | .nvRead32 _ => 0x14#8
  | .nvWrite8 _ _ => 0x15#8
  | .nvWrite16 _ _ => 0x16#8
  | .nvWrite32 _ _ => 0x17#8
  | .nvErase => 0x18#8
  | .seqLaunch _ => 0x1A#8
  | .seqWait => 0x1B#8
  | .seqExec => 0x1C#8
  | .dispatch _ _ _ _ => 0x1E#8
  | .cmdStartup _ _ _ _ _ => 0x04#8
  | .cmdPgmbyte _ _ _ _ _ => 0x07#8
  | .cmdRdbyte _ _ _ _ _ => 0x08#8
  | .cmdVersion _ _ _ _ _ => 0x09#8
  | .cmdProtocol _ _ _ _ _ => 0x0A#8
  | .cmdNumber _ _ _ _ _ => 0x0B#8
  | .cmdTime _ _ _ _ _ => 0x0C#8
  | .cmdMode _ _ _ _ _ => 0x0D#8
  | .fcmdPgm8 _ _ => 0x07#8
  | .fcmdErsscr _ _ => 0x09#8

/-- Bytes that belong to the row of `i`: an operation's first byte is its `OPSEL` and its ports are at
most twelve; a frame has five bytes, and its first carries the code below the flag; a descriptor has
twelve bytes, its opcode first. -/
def inRow (i : Instr) : Format × List Byte → Prop
  | (.op, l) => l.head? = some (selector i) ∧ l.length ≤ 13
  | (.frame, l) => l.head?.map codeOf = some (selector i) ∧ l.length = 5
  | (.fccob, l) => l.head? = some (selector i) ∧ l.length = 12

/-- An instruction's encoding belongs to its row of the opcode table (R90). -/
def Statement (i : Instr) : Prop := inRow i (encode i)

theorem frame_head (ack : Bool) {code : Byte} (h : codeOf code = code) :
    codeOf (commandByte ack code) = code := by
  rw [codeOf_commandByte, h]

theorem pipeInit (p : PipeId) : Statement (.pipeInit p) :=
  ⟨rfl, by simp⟩

theorem pipePut (p : PipeId) (b : Byte) : Statement (.pipePut p b) :=
  ⟨rfl, by simp⟩

theorem pipeGet (p : PipeId) : Statement (.pipeGet p) :=
  ⟨rfl, by simp⟩

theorem pipePutB (p : PipeId) (b : Byte) : Statement (.pipePutB p b) :=
  ⟨rfl, by simp⟩

theorem pipeGetB (p : PipeId) : Statement (.pipeGetB p) :=
  ⟨rfl, by simp⟩

theorem semWait (x : Sem) : Statement (.semWait x) :=
  ⟨rfl, by simp⟩

theorem semSignal (x : Sem) : Statement (.semSignal x) :=
  ⟨rfl, by simp⟩

theorem codecInit : Statement .codecInit :=
  ⟨rfl, by simp⟩

theorem frStep : Statement .frStep :=
  ⟨rfl, by simp⟩

theorem frGet : Statement .frGet :=
  ⟨rfl, by simp⟩

theorem frPut (c p1 p2 p3 : Byte) : Statement (.frPut c p1 p2 p3) :=
  ⟨rfl, by simp⟩

theorem frPutB (c p1 p2 p3 : Byte) : Statement (.frPutB c p1 p2 p3) :=
  ⟨rfl, by simp⟩

theorem nvInit : Statement .nvInit :=
  ⟨rfl, by simp⟩

theorem nvAlloc (size : Byte) : Statement (.nvAlloc size) :=
  ⟨rfl, by simp⟩

theorem nvRead8 (a : Addr) : Statement (.nvRead8 a) :=
  ⟨rfl, by simp [addrBytes]⟩

theorem nvRead16 (a : Addr) : Statement (.nvRead16 a) :=
  ⟨rfl, by simp [addrBytes]⟩

theorem nvRead32 (a : Addr) : Statement (.nvRead32 a) :=
  ⟨rfl, by simp [addrBytes]⟩

theorem nvWrite8 (a : Addr) (v : Byte) : Statement (.nvWrite8 a v) :=
  ⟨rfl, by simp [addrBytes]⟩

theorem nvWrite16 (a : Addr) (v : BitVec 16) : Statement (.nvWrite16 a v) :=
  ⟨rfl, by simp [addrBytes]⟩

theorem nvWrite32 (a : Addr) (v : BitVec 32) : Statement (.nvWrite32 a v) :=
  ⟨rfl, by simp [addrBytes]⟩

theorem nvErase : Statement .nvErase :=
  ⟨rfl, by simp⟩

theorem seqLaunch (d : Descriptor) : Statement (.seqLaunch d) :=
  ⟨rfl, by simp [addrBytes, encodeDescriptor, phraseBytes]⟩

theorem seqWait : Statement .seqWait :=
  ⟨rfl, by simp⟩

theorem seqExec : Statement .seqExec :=
  ⟨rfl, by simp⟩

theorem dispatch (c p1 p2 p3 : Byte) : Statement (.dispatch c p1 p2 p3) :=
  ⟨rfl, by simp⟩

theorem cmdStartup (ack : Bool) (p1 p2 p3 chk : Byte) : Statement (.cmdStartup ack p1 p2 p3 chk) :=
  ⟨congrArg some (frame_head ack (by decide)), rfl⟩

theorem cmdPgmbyte (ack : Bool) (p1 p2 p3 chk : Byte) : Statement (.cmdPgmbyte ack p1 p2 p3 chk) :=
  ⟨congrArg some (frame_head ack (by decide)), rfl⟩

theorem cmdRdbyte (ack : Bool) (p1 p2 p3 chk : Byte) : Statement (.cmdRdbyte ack p1 p2 p3 chk) :=
  ⟨congrArg some (frame_head ack (by decide)), rfl⟩

theorem cmdVersion (ack : Bool) (p1 p2 p3 chk : Byte) : Statement (.cmdVersion ack p1 p2 p3 chk) :=
  ⟨congrArg some (frame_head ack (by decide)), rfl⟩

theorem cmdProtocol (ack : Bool) (p1 p2 p3 chk : Byte) : Statement (.cmdProtocol ack p1 p2 p3 chk) :=
  ⟨congrArg some (frame_head ack (by decide)), rfl⟩

theorem cmdNumber (ack : Bool) (p1 p2 p3 chk : Byte) : Statement (.cmdNumber ack p1 p2 p3 chk) :=
  ⟨congrArg some (frame_head ack (by decide)), rfl⟩

theorem cmdTime (ack : Bool) (p1 p2 p3 chk : Byte) : Statement (.cmdTime ack p1 p2 p3 chk) :=
  ⟨congrArg some (frame_head ack (by decide)), rfl⟩

theorem cmdMode (ack : Bool) (p1 p2 p3 chk : Byte) : Statement (.cmdMode ack p1 p2 p3 chk) :=
  ⟨congrArg some (frame_head ack (by decide)), rfl⟩

theorem fcmdPgm8 (a : Addr) (d : Phrase) : Statement (.fcmdPgm8 a d) :=
  ⟨rfl, rfl⟩

theorem fcmdErsscr (a : Addr) (d : Phrase) : Statement (.fcmdErsscr a d) :=
  ⟨rfl, rfl⟩

end Sys2Proof.Laws.EncodedShape
end

