-- ==== Sys2Proof/Laws/StartUp.lean ====
section
/-! SUPPORT. The pieces of START_UP (R263). -/

namespace Sys2Proof.Machine

/-- A map without a used entry. -/
theorem all_free (n k : Nat) : (List.replicate n false)[k]? =
    if k < n then some false else none := by
  by_cases h : k < n <;> simp [h]

/-- The entries of the map after an allocation. -/
theorem mark_get (m : List Bool) (n p i : Nat) (h : ∀ k, p ≤ k → k < p + n → k < m.length) :
    (markUsed m n p)[i]? = if p ≤ i ∧ i < p + n then some true else m[i]? := by
  unfold markUsed
  rw [List.getElem?_mapIdx]
  by_cases hi : p ≤ i ∧ i < p + n
  · rw [if_pos hi]
    have := h i hi.1 hi.2
    simp [this, hi]
  · rw [if_neg hi]
    cases m[i]? with
    | none => rfl
    | some b => simp; intro a b; omega

/-- The protocol loop on an empty `RXF` has no step that matters: it waits, noted as the codec's user in the
threaded regime. -/
theorem loop_end (v : State) (hl : v.me.todo = [.loop]) (hc : v.rxf.count = 0)
    (hi : v.rxf.items = 0) (hs : v.rxUsers.consumer = none) :
    ∃ u l r, ∀ n, run n v = .next v
      ∨ run n v = .next (((v.setUsers .rxf u).setTodo l).respond r) := by
  cases hth : v.threaded
  · have hp : v.polled = true := by
      unfold State.threaded at hth; unfold State.polled; cases h : v.build.regime <;> simp_all
    refine ⟨v.rxUsers, [], .pending, fun n => .inl (run_wait (m := .loop) (l := []) hl ?_ n)⟩
    simp [micro, loopPart, hp, hc]
  · obtain ⟨k, hk⟩ : ∃ k, getBParts .rxf .codecTake v = .semWait (.items .rxf) :: k := by
      unfold getBParts; split <;> exact ⟨_, rfl⟩
    refine ⟨{ v.rxUsers with consumer := some v.who },
      .semWait (.items .rxf) :: (k ++ [.frGetAgain, .loopDispatch]), v.me.resp, fun n => ?_⟩
    cases n with
    | zero => exact .inl rfl
    | succ n =>
      right
      have hp : v.polled = false := polled_of_threaded hth
      have h1 : micro .loop (v.setTodo []) = .go
          (((v.setUsers .rxf { v.rxUsers with consumer := some v.who }).setTodo
            (.semWait (.items .rxf) :: (k ++ [.frGetAgain, .loopDispatch]))).respond v.me.resp) := by
        have hp' : (v.setTodo []).polled = false := hp
        have ht' : (v.setTodo []).threaded = true := hth
        have hm : (v.setTodo []).mayStep = true := by
          unfold State.mayStep State.soleConsumer
          rw [hp']
          simp only [State.setTodo_users]
          rw [show v.users .rxf = v.rxUsers from rfl, hs]
          rfl
        have hg : getBParts .rxf .codecTake (v.setTodo []) = getBParts .rxf .codecTake v := rfl
        simp only [micro, loopPart, hp', Bool.false_and, Bool.false_eq_true, if_false, hm, if_true]
        simp only [State.push, frGetParts, ht', if_true, frStepParts, hg, hk, State.noteStep, hp']
        simp [State.setTodo, State.respond, State.setUsers, State.users]
      rw [run_go (m := .loop) (l := []) hl h1]
      exact run_wait (m := .semWait (.items .rxf)) rfl
        (by simp only [micro, semValue]; exact if_pos hi) n

end Sys2Proof.Machine
end

