-- ==== Sys2Proof/Tests/Slice0.lean ====
section
/-! SUPPORT. The model's own tests: ill-formed terms, one word written out from the spec's tables for every
constructor, one-step tests whose expected values are those of spec/95_test_vectors.md (the vector or the
rule is named in each comment), and a witness for the premises of every statement. -/

namespace Sys2Proof.Tests

open Sys2Proof Sys2Proof.Machine

/-! ### Small states -/

/-- An instance with pipes of eight bytes, a data region of `len` bytes and a sector of 32. -/
def small (r : Regime) (multi : Bool) (len : Nat) : Build where
  capacity := 8
  regionLen := len
  flashStart := 0x080000#24
  sectorBytes := 32
  erasedByte := 0xFF#8
  verHi := 1#8
  verLo := 0#8
  regime := r
  multiAccess := multi

/-- A pipe that holds the bytes `l` from slot `first` on. -/
def holding (first : Nat) (l : List Byte) : Pipe where
  buf := (List.range 8).map (fun i => l.getD ((i + 8 - first) % 8) 0#8)
  startIx := first
  endIx := (first + l.length) % 8
  count := l.length
  space := 8 - l.length
  items := l.length
  lock := 1
  inited := true

/-- After reset, with these two pipes. -/
def start (b : Build) (rx tx : Pipe) : State :=
  { State.afterReset b [] with rxf := rx, txf := tx }

/-- Polled, both pipes empty. -/
def pol : State := start (small .polled false 8) (holding 0 []) (holding 0 [])

/-- Threaded without locks, both pipes empty. -/
def thr : State := start (small .threaded false 8) (holding 0 []) (holding 0 [])

/-- Threaded with locks, both pipes empty. -/
def mul : State := start (small .threaded true 8) (holding 0 []) (holding 0 [])

/-- `s` with these bytes in `RXF`. -/
def withRx (first : Nat) (l : List Byte) (s : State) : State := { s with rxf := holding first l }

/-- `s` with these bytes in `TXF`. -/
def withTx (first : Nat) (l : List Byte) (s : State) : State := { s with txf := holding first l }

/-- `s` with another running agent. -/
def as (a : Agent) (s : State) : State := { s with who := a }

/-- Polled, with this flash and these answers to flash commands. -/
def nv (m : List Host.Cell) (d : List SeqOutcome) : State := { pol with flash := m, draws := d }

/-- The phrase `A2 0D 01 00 11 22 33 44` of V32 to V46. -/
def phrase1 : List Host.Cell :=
  [(0x080000, 0xA2#8), (0x080001, 0x0D#8), (0x080002, 0x01#8), (0x080003, 0x00#8),
    (0x080004, 0x11#8), (0x080005, 0x22#8), (0x080006, 0x33#8), (0x080007, 0x44#8)]

/-- The phrase `A2 0D FF AB FF FF FF FF` of V60 to V77, with the two variables at `B` and `B + 2`. -/
def cmdState (d : List SeqOutcome) : State :=
  { pol with
    flash := [(0x080000, 0xA2#8), (0x080001, 0x0D#8), (0x080003, 0xAB#8)]
    draws := d
    nvNumber := some 0x080000#24
    nvMode := some 0x080002#24 }

/-- A command in flight, and these answers to come. -/
def flying (who : Agent) (x : Descriptor) (m : List Host.Cell) (d : List SeqOutcome) : State :=
  { nv m d with cmd := x, seq := ⟨false, false, false, some x⟩, who := who }

/-- A program descriptor of `A2 0D FF FF FF FF FF FF`. -/
def pgm (a : Addr) : Descriptor :=
  ⟨Config.opcProgramPhrase, a, ⟨0xA2#8, 0x0D#8, 0xFF#8, 0xFF#8, 0xFF#8, 0xFF#8, 0xFF#8, 0xFF#8⟩⟩

/-- An erase descriptor. -/
def ers (a : Addr) : Descriptor :=
  ⟨Config.opcEraseSector, a, ⟨0#8, 0#8, 0#8, 0#8, 0#8, 0#8, 0#8, 0#8⟩⟩

/-- What a next state shows. -/
def seen {α : Type} (o : Host.Outcome State Fault Refusal) (f : State → α) : Option α :=
  match o with
  | .next t => some (f t)
  | .fault _ => none
  | .refused _ => none

/-- An operation's response and the registers of a pipe. -/
def pipeView (p : PipeId) (t : State) : Response × Nat × Nat × Nat :=
  (t.me.resp, (t.pipe p).startIx, (t.pipe p).endIx, (t.pipe p).count)

/-- A command's response and the bytes in `TXF`. -/
def replyView (t : State) : Response × List Byte := (t.me.resp, t.txf.stored 8)

/-- A store operation's response, flash and the answers left. -/
def storeView (t : State) : Response × List Host.Cell × List SeqOutcome :=
  (t.me.resp, t.flash, t.draws)

/-! ### Well-formedness: each check refuses an ill-formed term -/

theorem test_wf_cmdStartup :
    WellFormed (.cmdStartup true 1#8 2#8 3#8 0x84#8) = true
      ∧ WellFormed (.cmdStartup true 1#8 2#8 3#8 0x04#8) = false := by decide

theorem test_wf_cmdPgmbyte :
    WellFormed (.cmdPgmbyte true 1#8 2#8 3#8 0x87#8) = true
      ∧ WellFormed (.cmdPgmbyte true 1#8 2#8 3#8 0x07#8) = false := by decide

theorem test_wf_cmdRdbyte :
    WellFormed (.cmdRdbyte true 1#8 2#8 3#8 0x88#8) = true
      ∧ WellFormed (.cmdRdbyte true 1#8 2#8 3#8 0x08#8) = false := by decide

theorem test_wf_cmdVersion :
    WellFormed (.cmdVersion true 1#8 2#8 3#8 0x89#8) = true
      ∧ WellFormed (.cmdVersion true 1#8 2#8 3#8 0x09#8) = false := by decide

theorem test_wf_cmdProtocol :
    WellFormed (.cmdProtocol true 1#8 2#8 3#8 0x8A#8) = true
      ∧ WellFormed (.cmdProtocol true 1#8 2#8 3#8 0x0A#8) = false := by decide

theorem test_wf_cmdNumber :
    WellFormed (.cmdNumber true 1#8 2#8 3#8 0x8B#8) = true
      ∧ WellFormed (.cmdNumber true 1#8 2#8 3#8 0x0B#8) = false := by decide

theorem test_wf_cmdTime :
    WellFormed (.cmdTime true 1#8 2#8 3#8 0x8C#8) = true
      ∧ WellFormed (.cmdTime true 1#8 2#8 3#8 0x0C#8) = false := by decide

theorem test_wf_cmdMode :
    WellFormed (.cmdMode true 1#8 2#8 3#8 0x8D#8) = true
      ∧ WellFormed (.cmdMode true 1#8 2#8 3#8 0x0D#8) = false := by decide

theorem test_wf_fcmdPgm8 :
    WellFormed (.fcmdPgm8 0x080008#24 ⟨0#8, 0#8, 0#8, 0#8, 0#8, 0#8, 0#8, 0#8⟩) = true
      ∧ WellFormed (.fcmdPgm8 0x080004#24 ⟨0#8, 0#8, 0#8, 0#8, 0#8, 0#8, 0#8, 0#8⟩) = false := by
  decide

/-! ### Decoding: the words of R91, R98, R100 and R104, written out -/

theorem test_decode_pipeInit : decode .op [0x00#8, 0x01#8] = .ok (.pipeInit .txf) := rfl

theorem test_decode_pipePut : decode .op [0x01#8, 0x00#8, 0x04#8] = .ok (.pipePut .rxf 4#8) := rfl

theorem test_decode_pipeGet : decode .op [0x02#8, 0x01#8] = .ok (.pipeGet .txf) := rfl

theorem test_decode_pipePutB :
    decode .op [0x03#8, 0x01#8, 0x77#8] = .ok (.pipePutB .txf 0x77#8) := rfl

theorem test_decode_pipeGetB : decode .op [0x04#8, 0x00#8] = .ok (.pipeGetB .rxf) := rfl

theorem test_decode_semWait : decode .op [0x05#8, 0x03#8] = .ok (.semWait (.space .txf)) := rfl

theorem test_decode_semSignal : decode .op [0x06#8, 0x06#8] = .ok (.semSignal .txlock) := rfl

theorem test_decode_codecInit : decode .op [0x08#8] = .ok (.codecInit) := rfl

theorem test_decode_frStep : decode .op [0x09#8] = .ok (.frStep) := rfl

theorem test_decode_frGet : decode .op [0x0A#8] = .ok (.frGet) := rfl

theorem test_decode_frPut :
    decode .op [0x0B#8, 0x8B#8, 0x01#8, 0xA2#8, 0x0D#8] = .ok (.frPut 0x8B#8 1#8 0xA2#8 0x0D#8) :=
  rfl

theorem test_decode_frPutB :
    decode .op [0x0C#8, 0x04#8, 0x01#8, 0x02#8, 0x03#8] = .ok (.frPutB 4#8 1#8 2#8 3#8) := rfl

theorem test_decode_nvInit : decode .op [0x10#8] = .ok (.nvInit) := rfl

theorem test_decode_nvAlloc : decode .op [0x11#8, 0x02#8] = .ok (.nvAlloc 2#8) := rfl

theorem test_decode_nvRead8 :
    decode .op [0x12#8, 0x08#8, 0x00#8, 0x01#8] = .ok (.nvRead8 0x080001#24) := rfl

theorem test_decode_nvRead16 :
    decode .op [0x13#8, 0x08#8, 0x00#8, 0x02#8] = .ok (.nvRead16 0x080002#24) := rfl

theorem test_decode_nvRead32 :
    decode .op [0x14#8, 0x08#8, 0x00#8, 0x04#8] = .ok (.nvRead32 0x080004#24) := rfl

theorem test_decode_nvWrite8 :
    decode .op [0x15#8, 0x08#8, 0x00#8, 0x03#8, 0xAB#8] = .ok (.nvWrite8 0x080003#24 0xAB#8) :=
  rfl

theorem test_decode_nvWrite16 :
    decode .op [0x16#8, 0x08#8, 0x00#8, 0x00#8, 0xEF#8, 0xBE#8]
      = .ok (.nvWrite16 0x080000#24 0xBEEF#16) := rfl

theorem test_decode_nvWrite32 :
    decode .op [0x17#8, 0x08#8, 0x00#8, 0x00#8, 0x0D#8, 0xF0#8, 0xFE#8, 0xCA#8]
      = .ok (.nvWrite32 0x080000#24 0xCAFEF00D#32) := rfl

theorem test_decode_nvErase : decode .op [0x18#8] = .ok (.nvErase) := rfl

theorem test_decode_seqLaunch :
    decode .op [0x1A#8, 0x07#8, 0x08#8, 0x00#8, 0x00#8, 0xA2#8, 0x0D#8, 0xFF#8, 0xFF#8, 0xFF#8,
      0xFF#8, 0xFF#8, 0xFF#8] = .ok (.seqLaunch (pgm 0x080000#24)) := rfl

theorem test_decode_seqWait : decode .op [0x1B#8] = .ok (.seqWait) := rfl

theorem test_decode_seqExec : decode .op [0x1C#8] = .ok (.seqExec) := rfl

theorem test_decode_dispatch :
    decode .op [0x1E#8, 0x8B#8, 0x01#8, 0x00#8, 0x00#8] = .ok (.dispatch 0x8B#8 1#8 0#8 0#8) :=
  rfl

theorem test_decode_cmdStartup :
    decode .frame [0x04#8, 0x00#8, 0x00#8, 0x00#8, 0x04#8]
      = .ok (.cmdStartup false 0#8 0#8 0#8 4#8) := rfl

theorem test_decode_cmdPgmbyte :
    decode .frame [0x87#8, 0x03#8, 0x00#8, 0xAB#8, 0x2F#8]
      = .ok (.cmdPgmbyte true 3#8 0#8 0xAB#8 0x2F#8) := rfl

theorem test_decode_cmdRdbyte :
    decode .frame [0x88#8, 0x00#8, 0x99#8, 0x77#8, 0x66#8]
      = .ok (.cmdRdbyte true 0#8 0x99#8 0x77#8 0x66#8) := rfl

theorem test_decode_cmdVersion :
    decode .frame [0x09#8, 0x76#8, 0x01#8, 0x00#8, 0x7E#8]
      = .ok (.cmdVersion false 0x76#8 1#8 0#8 0x7E#8) := rfl

theorem test_decode_cmdProtocol :
    decode .frame [0x8A#8, 0x02#8, 0x01#8, 0x00#8, 0x89#8]
      = .ok (.cmdProtocol true 2#8 1#8 0#8 0x89#8) := rfl

theorem test_decode_cmdNumber :
    decode .frame [0x8B#8, 0x02#8, 0x34#8, 0x12#8, 0xAF#8]
      = .ok (.cmdNumber true 2#8 0x34#8 0x12#8 0xAF#8) := rfl

theorem test_decode_cmdTime :
    decode .frame [0x0C#8, 0x0C#8, 0x1E#8, 0x00#8, 0x1E#8]
      = .ok (.cmdTime false 12#8 30#8 0#8 0x1E#8) := rfl

theorem test_decode_cmdMode :
    decode .frame [0x8D#8, 0x01#8, 0x00#8, 0x00#8, 0x8C#8]
      = .ok (.cmdMode true 1#8 0#8 0#8 0x8C#8) := rfl

theorem test_decode_fcmdPgm8 :
    decode .fccob [0x07#8, 0x08#8, 0x00#8, 0x08#8, 0x10#8, 0xEE#8, 0x12#8, 0x13#8, 0x14#8,
      0x15#8, 0x16#8, 0x17#8] = .ok (.fcmdPgm8 0x080008#24 ⟨0x10#8, 0xEE#8, 0x12#8, 0x13#8,
      0x14#8, 0x15#8, 0x16#8, 0x17#8⟩) := rfl

theorem test_decode_fcmdErsscr :
    decode .fccob [0x09#8, 0x08#8, 0x00#8, 0x00#8, 0x00#8, 0x01#8, 0x02#8, 0x03#8, 0x04#8,
      0x05#8, 0x06#8, 0x07#8] = .ok (.fcmdErsscr 0x080000#24 ⟨0#8, 1#8, 2#8, 3#8, 4#8, 5#8, 6#8,
      7#8⟩) := rfl

theorem test_decode_refuses :
    decode .op [0x07#8] = .error (.reservedOpsel 7#8)
      ∧ decode .op [0x00#8, 2#8] = .error (.reservedPipe 2#8)
      ∧ decode .op [0x05#8, 7#8] = .error (.reservedSem 7#8)
      ∧ decode .frame [3#8, 1#8, 2#8, 3#8, 3#8] = .error (.unknownCode ⟨3#8, 1#8, 2#8, 3#8⟩ 3#8)
      ∧ decode .frame [3#8] = .error .badLength
      ∧ decode .fccob (List.replicate 12 0#8) = .error (.reservedDescriptor 0#8) :=
  ⟨rfl, rfl, rfl, rfl, rfl, rfl⟩

theorem test_table_words :
    decodeTableWord 8 0x1C = some .seqExec
      ∧ decodeTableWord 40 0x8B0100008A = some (.cmdNumber true 1#8 0#8 0#8 0x8A#8)
      ∧ decodeTableWord 96 0x07080000A20DFFFFFFFFFFFF
          = some (.fcmdPgm8 0x080000#24 (pgm 0#24).data) := by decide

/-! ### One step: the vectors of 95_test_vectors.md -/

/-- R120: indices and count 0, the semaphores at their initial counts. -/
theorem test_pipeInit :
    seen (exec (.pipeInit .rxf) (withRx 3 [1#8, 2#8] thr)) (fun t => (pipeView .rxf t,
      t.rxf.space, t.rxf.items, t.rxf.buf.getD 3 0#8)) = some ((.done, 0, 0, 0), 8, 0, 1#8) := by
  decide

/-- V1. -/
theorem test_pipePut :
    seen (exec (.pipePut .rxf 4#8) (as .rxHandler pol)) (fun t => (pipeView .rxf t,
      t.rxf.buf.getD 0 0#8)) = some ((.flag true, 0, 1, 1), 4#8) := by decide

/-- V6, with eight slots: `end` wraps from 7 to 0. -/
theorem test_pipePut_wraps :
    seen (exec (.pipePut .txf 2#8) (withTx 6 [1#8] pol)) (fun t => (pipeView .txf t,
      t.txf.buf.getD 7 0#8)) = some ((.flag true, 6, 0, 2), 2#8) := by decide

/-- V2: the slot keeps the byte. -/
theorem test_pipeGet :
    seen (exec (.pipeGet .rxf) (withRx 0 [4#8] pol)) (fun t => (pipeView .rxf t, t.rxf.buf.getD
      0 0#8)) = some ((.byte 4#8, 1, 1, 0), 4#8) := by decide

/-- V3. -/
theorem test_pipeGet_empty :
    seen (exec (.pipeGet .rxf) (withRx 1 [] pol)) (pipeView .rxf)
      = some (.fail .capacityEmpty, 1, 1, 0) := by decide

/-- V10, the put. -/
theorem test_pipePutB :
    seen (exec (.pipePutB .rxf 9#8) mul) (fun t => (pipeView .rxf t, t.rxf.space, t.rxf.items,
      t.rxf.lock)) = some ((.done, 0, 1, 1), 7, 1, 1) := by decide

/-- V9, the put of thread A. -/
theorem test_pipePutB_blocks :
    seen (exec (.pipePutB .rxf 0x77#8) (withRx 0 [1#8, 2#8, 3#8, 4#8, 5#8, 6#8, 7#8, 8#8] thr))
      (fun t => (pipeView .rxf t, t.rxf.space, t.rxf.items)) = some ((.pending, 0, 0, 8), 0, 8) := by
  decide

/-- V10, the get. -/
theorem test_pipeGetB :
    seen (exec (.pipeGetB .rxf) (withRx 0 [9#8] thr)) (fun t => (pipeView .rxf t, t.rxf.space,
      t.rxf.items)) = some ((.byte 9#8, 1, 1, 0), 8, 0) := by decide

/-- R126. -/
theorem test_semWait :
    seen (exec (.semWait .txlock) thr) (fun t => (t.me.resp, t.txlock)) = some (.done, 0) := by
  decide

/-- R127, after a wait of the same caller. -/
theorem test_semSignal :
    seen (exec (.semSignal .txlock) { thr with txlock := 0, me := ⟨[], .done, none, true⟩ })
      (fun t => (t.me.resp, t.txlock, t.me.held)) = some (.done, 1, false) := by decide

/-- R127, U13: the pairs of a pipe's semaphores belong to the pipe's operations. -/
theorem test_sem_of_a_pipe :
    exec (.semWait (.items .rxf)) (withRx 0 [1#8] thr) = .refused .outsideThePairs
      ∧ exec (.semSignal (.lock .rxf)) mul = .refused .outsideThePairs
      ∧ exec (.semSignal .txlock) thr = .refused .outsideThePairs := ⟨rfl, rfl, rfl⟩

/-- R129, R268, R274, R280: operations outside an agent's role. -/
theorem test_roles :
    exec (.pipePut .rxf 4#8) pol = .refused .secondProducer
      ∧ exec (.pipeGet .rxf) (as .rxHandler pol) = .refused .secondConsumer
      ∧ exec (.frPut 9#8 0#8 0#8 0#8) (as .txHandler pol) = .refused .roleForbids
      ∧ exec (.dispatch 9#8 0#8 0#8 0#8) (as .rxHandler pol) = .refused .roleForbids
      ∧ exec (.frPutB 9#8 0#8 0#8 0#8) (as .txThread mul) = .refused .roleForbids
      ∧ exec .frGet { mul with who := .thread 1, rxUsers := ⟨none, some .task⟩ }
          = .refused .secondConsumer := ⟨rfl, rfl, rfl, rfl, rfl, rfl⟩

/-- R140. -/
theorem test_codecInit :
    seen (exec (.codecInit) { pol with fr := ⟨1#8, 2#8, 3#8, 4#8, 5#8, .awaitP3⟩ }) (fun t =>
      t.fr) = some ⟨1#8, 2#8, 3#8, 4#8, 5#8, .awaitCommand⟩ := by decide

/-- V13, the last byte. -/
theorem test_frStep :
    seen (exec (.frStep) { withRx 0 [0x8A#8] pol with fr := ⟨0x8B#8, 1#8, 0#8, 0#8, 0#8,
      .awaitChecksum⟩ }) (fun t => (t.me.resp, t.fr)) = some (.frame ⟨0x8B#8, 1#8, 0#8, 0#8⟩,
      ⟨0x8B#8, 1#8, 0#8, 0#8, 0x8A#8, .awaitCommand⟩) := by decide

/-- V14, byte 9. -/
theorem test_frStep_shifts :
    seen (exec (.frStep) { withRx 0 [0#8] pol with fr := ⟨0xFF#8, 9#8, 0x76#8, 1#8, 1#8,
      .awaitChecksum⟩ }) (fun t => (t.me.resp, t.fr)) = some (.noFrame, ⟨9#8, 0x76#8, 1#8, 0#8,
      0#8, .awaitChecksum⟩) := by decide

/-- V21, the first FR_GET. -/
theorem test_frGet :
    seen (exec (.frGet) (withRx 0 [4#8, 0#8, 0#8, 0#8, 4#8, 9#8, 0x76#8] pol)) (pipeView .rxf)
      = some (.frame ⟨4#8, 0#8, 0#8, 0#8⟩, 5, 7, 2) := by decide

/-- V21, the second FR_GET. -/
theorem test_frGet_none :
    seen (exec (.frGet) { withRx 5 [9#8, 0x76#8] pol with fr := ⟨4#8, 0#8, 0#8, 0#8, 4#8,
      .awaitCommand⟩ }) (fun t => (t.me.resp, t.fr)) = some (.noFrame, ⟨9#8, 0x76#8, 0#8, 0#8,
      4#8, .awaitP2⟩) := by decide

/-- V22. -/
theorem test_frPut :
    seen (exec (.frPut 0x8B#8 1#8 0xA2#8 0x0D#8) pol) replyView
      = some (.flag true, [0x8B#8, 0x01#8, 0xA2#8, 0x0D#8, 0x25#8]) := by decide

/-- V23: three bytes fit. -/
theorem test_frPut_full :
    seen (exec (.frPut 0x8B#8 1#8 0xA2#8 0x0D#8) (withTx 0 [0#8, 0#8, 0#8, 0#8, 0#8] pol))
      replyView = some (.fail .capacityFull, [0x00#8, 0x00#8, 0x00#8, 0x00#8, 0x00#8, 0x8B#8,
      0x01#8, 0xA2#8]) := by decide

/-- V24, one of the frames. -/
theorem test_frPutB :
    seen (exec (.frPutB 9#8 0x76#8 1#8 0#8) mul) (fun t => (replyView t, t.txlock, t.txf.lock,
      t.txf.space, t.txf.items)) = some ((.done, [0x09#8, 0x76#8, 0x01#8, 0x00#8, 0x7E#8]), 1, 1,
      3, 5) := by decide

/-- R160. -/
theorem test_nvInit :
    seen (exec (.nvInit) { pol with alloc := List.replicate 8 true }) (fun t => (t.me.resp,
      t.alloc)) = some (.done, List.replicate 8 false) := by decide

/-- V28: size 4 skips position 0. -/
theorem test_nvAlloc :
    seen (exec (.nvAlloc 4#8) { pol with alloc := [true, false, false, false, false, false,
      false, false] }) (fun t => (t.me.resp, t.alloc)) = some (.addr 0x080004#24, [true, false,
      false, false, true, true, true, true]) := by decide

/-- V29: four bytes are free and none of the runs is aligned. -/
theorem test_nvAlloc_exhausted :
    seen (exec (.nvAlloc 4#8) { pol with alloc := [true, true, true, false, true, true, false,
      false] }) (fun t => t.me.resp) = some (.fail (.allocationExhausted 4#8)) := by decide

/-- P4: the start-up code's two allocations, one by one, are the variables of R204. -/
theorem test_startHandle :
    (match step { pol with queue := [.startHandle 64, .startHandle 64] } with
      | .next u => seen (step u) (fun t => (t.me.resp, t.nvNumber, t.nvMode))
      | .fault _ => none
      | .refused _ => none)
      = some (.addr 0x080002#24, some 0x080000#24, some 0x080002#24) := by decide

/-- R41: the handles are never changed. -/
theorem test_startUp_again :
    step { cmdState [] with queue := [.startUp 64] } = .refused .handleSet
      ∧ step { cmdState [] with queue := [.startHandle 64] } = .refused .handleSet := ⟨rfl, rfl⟩

/-- V32. -/
theorem test_nvRead8 :
    seen (exec (.nvRead8 0x080001#24) (nv phrase1 [])) (fun t => t.me.resp)
      = some (.value 0x0D#32) := by decide

/-- V33. -/
theorem test_nvRead16 :
    seen (exec (.nvRead16 0x080006#24) (nv phrase1 [])) (fun t => t.me.resp)
      = some (.value 0x4433#32) := by decide

/-- V34. -/
theorem test_nvRead32 :
    seen (exec (.nvRead32 0x080004#24) (nv phrase1 [])) (fun t => t.me.resp)
      = some (.value 0x44332211#32) := by decide

/-- V35: range before alignment. -/
theorem test_nvRead_operands :
    (seen (exec (.nvRead16 0x080007#24) (nv phrase1 [])) (fun t => t.me.resp), seen (exec
      (.nvRead8 0x07FFFF#24) (nv phrase1 [])) (fun t => t.me.resp), seen (exec (.nvRead32
      0x080002#24) (nv phrase1 [])) (fun t => t.me.resp)) = (some (.fail (.parameterInvalid
      .address)), some (.fail (.parameterInvalid .address)), some (.fail (.parameterInvalid
      .alignment))) := by decide

/-- V37. -/
theorem test_nvWrite8 :
    seen (exec (.nvWrite8 0x080006#24 0x5A#8) (nv phrase1 [.ok, .ok])) storeView
      = some (.flag true, [(0x080000, 0xA2#8), (0x080001, 0x0D#8), (0x080002, 0x01#8),
          (0x080003, 0x00#8), (0x080004, 0x11#8), (0x080005, 0x22#8), (0x080006, 0x5A#8),
          (0x080007, 0x44#8)], []) := by decide

/-- V44. -/
theorem test_nvWrite8_program_fails :
    seen (exec (.nvWrite8 0x080006#24 0x5A#8) (nv phrase1 [.ok, .accerr])) storeView
      = some (.fail (.flashSequencer (.program 0) true false), [], []) := by decide

/-- V39. -/
theorem test_nvWrite16 :
    seen (exec (.nvWrite16 0x080006#24 0xBEEF#16) (nv phrase1 [.ok, .ok])) storeView
      = some (.flag true, [(0x080000, 0xA2#8), (0x080001, 0x0D#8), (0x080002, 0x01#8),
          (0x080003, 0x00#8), (0x080004, 0x11#8), (0x080005, 0x22#8), (0x080006, 0xEF#8),
          (0x080007, 0xBE#8)], []) := by decide

/-- V40. -/
theorem test_nvWrite32 :
    seen (exec (.nvWrite32 0x080000#24 0xCAFEF00D#32) (nv phrase1 [.ok, .ok])) storeView
      = some (.flag true, [(0x080000, 0x0D#8), (0x080001, 0xF0#8), (0x080002, 0xFE#8),
          (0x080003, 0xCA#8), (0x080004, 0x11#8), (0x080005, 0x22#8), (0x080006, 0x33#8),
          (0x080007, 0x44#8)], []) := by decide

/-- V45 and V47: the other phrase survives, the rest of the sector does not. -/
theorem test_nvWrite32_two_phrases :
    seen (exec (.nvWrite32 0x080008#24 0x13121110#32) { nv (phrase1 ++ [(0x080010, 0x99#8)])
      [.ok, .ok, .ok] with build := small .polled false 16 }) storeView = some (.flag true,
      phrase1 ++ [(0x080008, 0x10#8), (0x080009, 0x11#8), (0x08000A, 0x12#8), (0x08000B, 0x13#8)],
      []) := by decide

/-- V46. -/
theorem test_nvErase :
    seen (exec (.nvErase) (nv phrase1 [.ok])) storeView = some (.flag true, [], []) := by decide

/-- V46, the draw `both`. -/
theorem test_nvErase_fails :
    seen (exec (.nvErase) (nv phrase1 [.both])) storeView
      = some (.fail (.flashSequencer .erase true true), phrase1, []) := by decide

/-- V48: flash not yet changed. -/
theorem test_seqLaunch :
    seen (exec (.seqLaunch (ers 0x080000#24)) (nv phrase1 [])) (fun t => (t.cmd, t.seq, t.flash))
      = some (ers 0x080000#24, ⟨false, false, false, some (ers 0x080000#24)⟩, phrase1) := by
  decide

/-- V52. -/
theorem test_seqWait :
    seen (exec (.seqWait) pol) (fun t => t.me.resp) = some (.flag true) := by decide

/-- V49. -/
theorem test_seqWait_violation :
    seen (exec (.seqWait) { pol with seq := ⟨true, true, false, none⟩ }) (fun t => t.me.resp)
      = some (.flag false) := by decide

/-- V50. -/
theorem test_seqExec :
    seen (exec (.seqExec) (flying .sequencer (pgm 0x080000#24) [] [.ok])) (fun t => (t.flash,
      t.seq)) = some ([(0x080000, 0xA2#8), (0x080001, 0x0D#8)], ⟨true, false, false, none⟩) := by
  decide

/-- V49. -/
theorem test_seqExec_violation :
    seen (exec (.seqExec) (flying .sequencer (ers 0x080000#24) phrase1 [.fpviol])) (fun t =>
      (t.flash, t.seq)) = some (phrase1, ⟨true, false, true, none⟩) := by decide

/-- V60. -/
theorem test_dispatch :
    seen (exec (.dispatch 0x8B#8 1#8 0#8 0#8) (cmdState [])) replyView
      = some (.dispatched true none false, [0x8B#8, 0x01#8, 0xA2#8, 0x0D#8, 0x25#8]) := by decide

/-- V91. -/
theorem test_dispatch_unknown :
    seen (exec (.dispatch 0x83#8 1#8 2#8 3#8) pol) replyView
      = some (.dispatched false (some (.unknownCommand 3#8)) false, [0x03#8, 0x01#8, 0x02#8,
          0x03#8, 0x03#8]) := by decide

/-- R203, last row. -/
theorem test_cmdStartup_checksum :
    seen (exec (.cmdStartup true 0#8 0#8 0#8 0x85#8) pol) replyView = some (.noFrame, []) := by
  decide

/-- V71. -/
theorem test_cmdPgmbyte :
    seen (exec (.cmdPgmbyte true 7#8 0x55#8 1#8 0xD4#8) (cmdState [.ok, .ok])) (fun t =>
      (replyView t, t.flash)) = some ((.dispatched true none false, [0x87#8, 0x07#8, 0x55#8,
      0x01#8, 0xD4#8]), [(0x080000, 0xA2#8), (0x080001, 0x0D#8), (0x080003, 0xAB#8), (0x080007,
      0x01#8)]) := by decide

/-- V72. -/
theorem test_cmdPgmbyte_erase :
    seen (exec (.cmdPgmbyte true 8#8 0#8 0xFF#8 0x70#8) (cmdState [.ok])) (fun t => (replyView
      t, t.flash)) = some ((.dispatched true none false, [0x87#8, 0x08#8, 0x00#8, 0xFF#8,
      0x70#8]), []) := by decide

/-- V77. -/
theorem test_cmdRdbyte :
    seen (exec (.cmdRdbyte true 0#8 0x99#8 0x77#8 0x66#8) (cmdState [])) replyView
      = some (.dispatched true none false, [0x88#8, 0x00#8, 0x99#8, 0xA2#8, 0xB3#8]) := by decide

/-- V76. -/
theorem test_cmdRdbyte_offset :
    seen (exec (.cmdRdbyte true 8#8 0#8 0#8 0x80#8) (cmdState [])) replyView
      = some (.dispatched false (some (.parameterInvalid .offset)) false, [0x08#8, 0x08#8,
          0x00#8, 0x00#8, 0x00#8]) := by decide

/-- V79. -/
theorem test_cmdVersion :
    seen (exec (.cmdVersion true 0#8 0#8 0#8 0x89#8) pol) replyView
      = some (.dispatched true none false, [0x89#8, 0x76#8, 0x01#8, 0x00#8, 0xFE#8]) := by decide

/-- V82. -/
theorem test_cmdProtocol_set :
    seen (exec (.cmdProtocol true 2#8 1#8 0#8 0x89#8) pol) (fun t => (replyView t, t.protoMode))
      = some ((.dispatched true none false, [0x8A#8, 0x02#8, 0x01#8, 0x00#8, 0x89#8]), 1#1) := by
  decide

/-- V83. -/
theorem test_cmdProtocol_value :
    seen (exec (.cmdProtocol true 2#8 2#8 0#8 0x8A#8) pol) (fun t => (replyView t, t.protoMode))
      = some ((.dispatched false (some (.parameterInvalid .value)) false, [0x0A#8, 0x02#8,
          0x02#8, 0x00#8, 0x0A#8]), 0#1) := by decide

/-- V62. -/
theorem test_cmdNumber_set :
    seen (exec (.cmdNumber true 2#8 0x34#8 0x12#8 0xAF#8) (cmdState [.ok, .ok])) (fun t =>
      (replyView t, t.flash)) = some ((.dispatched true none false, [0x8B#8, 0x02#8, 0x34#8,
      0x12#8, 0xAF#8]), [(0x080000, 0x34#8), (0x080001, 0x12#8), (0x080003, 0xAB#8)]) := by decide

/-- V64. -/
theorem test_cmdNumber_fails :
    seen (exec (.cmdNumber true 2#8 0x34#8 0x12#8 0xAF#8) (cmdState [.ok, .fpviol])) (fun t =>
      (replyView t, t.flash)) = some ((.dispatched false (some (.flashSequencer (.program 0) false
      true)) false, [0x0B#8, 0x02#8, 0x34#8, 0x12#8, 0x2F#8]), []) := by decide

/-- R263, R267: before start-up has allocated the variables, whatever the selector. -/
theorem test_cmdNumber_unset :
    exec (.cmdNumber true 3#8 0#8 0#8 0x88#8) pol = .refused .handleUnset
      ∧ exec (.dispatch 0x8D#8 1#8 0#8 0#8) pol = .refused .handleUnset := ⟨rfl, rfl⟩

/-- R263: no blocking form on `TXF`, and none of its lines, before its PIPE_INIT. -/
theorem test_dispatch_before_pipeInit :
    exec (.dispatch 0x89#8 0#8 0#8 0#8) { thr with txf := { holding 0 [] with inited := false } }
      = .refused .pipeNotInitialised := rfl

/-- V85. -/
theorem test_cmdTime :
    seen (exec (.cmdTime true 23#8 59#8 59#8 0x9B#8) pol) (fun t => (replyView t, t.rtc))
      = some ((.dispatched true none false, [0x8C#8, 0x17#8, 0x3B#8, 0x3B#8, 0x9B#8]), ⟨23#8,
          59#8, 59#8⟩) := by decide

/-- V86. -/
theorem test_cmdTime_hours :
    seen (exec (.cmdTime true 24#8 0#8 0#8 0x94#8) pol) (fun t => (replyView t, t.rtc))
      = some ((.dispatched false (some (.parameterInvalid .time)) false, [0x0C#8, 0x18#8,
          0x00#8, 0x00#8, 0x14#8]), ⟨0#8, 0#8, 0#8⟩) := by decide

/-- V66. -/
theorem test_cmdMode_get :
    seen (exec (.cmdMode true 1#8 0#8 0#8 0x8C#8) (cmdState [])) replyView
      = some (.dispatched true none false, [0x8D#8, 0x01#8, 0xFF#8, 0xAB#8, 0xD8#8]) := by decide

/-- V67. -/
theorem test_cmdMode_set :
    seen (exec (.cmdMode true 2#8 1#8 0#8 0x8E#8) { cmdState [.ok, .ok] with flash :=
      [(0x080000, 0xA2#8), (0x080001, 0x0D#8)] }) (fun t => (replyView t, t.flash)) = some
      ((.dispatched true none false, [0x8D#8, 0x02#8, 0x01#8, 0x00#8, 0x8E#8]), [(0x080000,
      0xA2#8), (0x080001, 0x0D#8), (0x080002, 0x01#8), (0x080003, 0x00#8)]) := by decide

/-- V50. -/
theorem test_fcmdPgm8 :
    seen (exec (.fcmdPgm8 0x080000#24 (pgm 0#24).data) (nv [] [.ok])) storeView
      = some (.flag true, [(0x080000, 0xA2#8), (0x080001, 0x0D#8)], []) := by decide

/-- V51, R186. -/
theorem test_fcmdPgm8_not_erased :
    exec (.fcmdPgm8 0x080000#24 (pgm 0#24).data) (nv phrase1 [.ok]) = .refused .phraseNotErased :=
  rfl

/-- V48. -/
theorem test_fcmdErsscr :
    seen (exec (.fcmdErsscr 0x080000#24 (ers 0#24).data) (nv phrase1 [.ok])) storeView
      = some (.flag true, [], []) := by decide

/-- V93: a frame whose code has no row. -/
theorem test_unknown_frame :
    seen (runBytes .frame [0x80#8, 0x00#8, 0x00#8, 0x00#8, 0x80#8] pol) replyView
      = some (.dispatched false (some (.unknownCommand 0#8)) false, [0x00#8, 0x00#8, 0x00#8,
          0x00#8, 0x00#8]) := by decide

/-- V96: two bytes of the reply fit. -/
theorem test_reply_lost :
    seen (exec (.dispatch 0x89#8 0x76#8 1#8 0#8) (withTx 0 [0#8, 0#8, 0#8, 0#8, 0#8, 0#8] pol))
      replyView = some (.dispatched true none true, [0x00#8, 0x00#8, 0x00#8, 0x00#8, 0x00#8,
      0x00#8, 0x89#8, 0x76#8]) := by decide

/-- How a word of the opcode table comes to run (log 27). -/
theorem test_fetch_word :
    seen (step (State.reset.withFetchWord 8 0x10)) (fun t => t.me.resp) = some .done
      ∧ seen (step (pol.withFetchWord 40 0x8900000089)) replyView
          = some (.dispatched true none false, [0x89#8, 0x76#8, 0x01#8, 0x00#8, 0xFE#8]) := by
  decide

/-! ### Witnesses: states that meet the premises of the statements, clause by clause -/

/-- A request of `who` as the next event. -/
def asked (who : Agent) (f : Format) (bytes : List Byte) (s : State) : State :=
  { s with queue := [.request who f bytes 64] }

theorem witness_EncodeInvertsDecode :
    (Format.frame ≠ .op
       ∧ decode .frame [0x8B#8, 0x01#8, 0x00#8, 0x00#8, 0x8A#8]
           = .ok (.cmdNumber true 1#8 0#8 0#8 0x8A#8))
      ∧ (Format.fccob ≠ .op
           ∧ decode .fccob [0x09#8, 0x08#8, 0x00#8, 0x00#8, 0x00#8, 0x01#8, 0x02#8, 0x03#8,
               0x04#8, 0x05#8, 0x06#8, 0x07#8] = .ok (.fcmdErsscr 0x080000#24 ⟨0#8, 1#8, 2#8,
               3#8, 4#8, 5#8, 6#8, 7#8⟩)) := ⟨⟨by decide, rfl⟩, by decide, rfl⟩

theorem witness_ReservedOpselRefused :
    (0x07#8).toNat ∉ [0x00, 0x01, 0x02, 0x03, 0x04, 0x05, 0x06, 0x08, 0x09, 0x0A, 0x0B, 0x0C,
      0x10, 0x11, 0x12, 0x13, 0x14, 0x15, 0x16, 0x17, 0x18, 0x1A, 0x1B, 0x1C, 0x1E]
      ∧ (0x1F#8).toNat ∉ [0x00, 0x01, 0x02, 0x03, 0x04, 0x05, 0x06, 0x08, 0x09, 0x0A, 0x0B,
          0x0C, 0x10, 0x11, 0x12, 0x13, 0x14, 0x15, 0x16, 0x17, 0x18, 0x1A, 0x1B, 0x1C, 0x1E]
      ∧ (asked .task .op [0x1F#8] pol).queue = [.request .task .op [0x1F#8] 64] := by decide

theorem witness_StepRunsDecodedInstruction :
    (asked .task .op [0x11#8, 2#8] pol).queue = [.request .task .op [0x11#8, 2#8] 64]
      ∧ decode .op [0x11#8, 2#8] = .ok (.nvAlloc 2#8) := ⟨rfl, rfl⟩

theorem witness_RestartLeavesResetValues :
    (({ nv phrase1 [] with queue := [.restart] } : State).queue = [.restart]
       ∧ (nv phrase1 []).seq.complete = true)
      ∧ ((flying .task (pgm 0x080000#24) [] []).flashWf
           ∧ 0x080002 ∉ (flying .task (pgm 0x080000#24) [] []).atRisk
           ∧ 0x080001 ∈ (flying .task (pgm 0x080000#24) [] []).atRisk) := by
  dsimp only [State.flashWf]
  decide

theorem witness_RegistersAreWrittenOnlyByTheirOperations_handles :
    seen (step (asked .task .op [0x11#8, 2#8] (cmdState []))) (fun t => (t.me.resp, t.nvNumber,
        t.nvMode)) = some (.addr 0x080000#24, some 0x080000#24, some 0x080002#24) := by decide

theorem witness_StartUpLeavesTheListedState :
    (Build.reference.ok = true ∧ 6 ≤ 6) ∧ (small .threaded true 16).ok = true := by decide

theorem witness_StepKeepsFlashCanonical :
    (asked .sequencer .op [0x1C#8] (flying .sequencer (pgm 0x080000#24) [] [.ok])).flashInv
      ∧ seen (step (asked .sequencer .op [0x1C#8] (flying .sequencer (pgm 0x080000#24) []
          [.ok]))) (fun t => t.flash) = some [(0x080000, 0xA2#8), (0x080001, 0x0D#8)] := by
  dsimp only [State.flashInv, State.flashWf]
  decide

theorem witness_StepKeepsRestingStates :
    (asked .task .op [9#8] (withRx 0 [4#8] pol)).restInv
      ∧ seen (step (asked .task .op [9#8] (withRx 0 [4#8] pol))) (fun t => t.fr.state)
          = some .awaitP1 := by
  dsimp only [State.restInv, State.codecRests, State.sequencerWf]
  decide

theorem witness_ResetMeetsTheInvariants :
    (small .threaded true 8).ok = true ∧ (small .threaded true 8).regime = .threaded := by decide

theorem witness_StepKeepsPipes :
    (asked .rxHandler .op [1#8, 0#8, 4#8] (withRx 7 [] pol)).polledPipesWf
      ∧ seen (step (asked .rxHandler .op [1#8, 0#8, 4#8] (withRx 7 [] pol))) (pipeView .rxf)
          = some (.flag true, 7, 0, 1) := by
  dsimp only [State.polledPipesWf, Pipe.wf, Pipe.inBounds, State.polledParts]
  decide

/-- Thread 0 is inside FR_PUT_B, holds `TXLOCK`, and has put no byte yet. -/
def sending : State :=
  { mul with
    txlock := 0
    parked := [(.thread 0, ⟨[.emitB], .pending, some ⟨⟨9#8, 0x76#8, 1#8, 0#8⟩, 0⟩, false⟩)] }

/-- The threaded invariants hold of `sending`, whatever is asked for next. -/
theorem sending_wf : sending.threadedPipesWf := by
  refine ⟨rfl, by decide, by dsimp only [State.agentsWf]; decide, ⟨fun _ => trivial, trivial⟩, ?_,
    ?_, ?_⟩
  · intro y hy
    obtain rfl : y = _ := List.mem_singleton.mp hy
    refine ⟨fun x => ⟨?_, trivial⟩, ⟨fun _ h => (nomatch h), trivial⟩⟩
    rcases x with p | p | p | _ <;> simp [owed, Micro.owes, Micro.gives, Micro.grows, Micro.sends]
  · intro x
    rcases x with p | p | p | _ <;> try cases p
    all_goals (dsimp only [State.adds]; decide)
  · intro p
    cases p <;> (dsimp only [Pipe.inBounds]; decide)

theorem witness_StepKeepsPipes_threaded :
    (asked .task .op [3#8, 0#8, 4#8] sending).threadedPipesWf
      ∧ ((asked .task .op [3#8, 0#8, 4#8] sending).initAhead →
          (asked .task .op [3#8, 0#8, 4#8] sending).nobodyInside)
      ∧ seen (step (asked .task .op [3#8, 0#8, 4#8] sending)) (pipeView .rxf)
          = some (.done, 0, 1, 1) := by
  refine ⟨sending_wf, fun h => absurd h ?_, by decide⟩
  rintro (⟨who, f, bytes, turn, q, p, he, hd⟩ | ⟨turn, q, he⟩ | ⟨p, hm⟩ | ⟨y, hy, p, hm⟩)
  · cases he; cases hd
  · cases he
  · cases hm
  · obtain rfl : y = _ := List.mem_singleton.mp hy
    exact absurd hm (by simp)

theorem witness_StepKeepsPipes_init :
    (asked .task .op [0#8, 0#8] mul).nobodyInside
      ∧ seen (step (asked .task .op [0#8, 0#8] mul)) (pipeView .rxf) = some (.done, 0, 0, 0) :=
  ⟨fun _ _ => ⟨fun _ h => (by cases h), fun _ h => (by cases h)⟩, by decide⟩

theorem witness_FlashIsWrittenOnlyBySequencer :
    (nv phrase1 [.ok]).flashWf
      ∧ seen (step (asked .task .op [0x12#8, 8#8, 0#8, 0#8] (nv phrase1 [.ok]))) (fun t =>
          (t.me.resp, t.draws)) = some (.value 0xA2#32, (nv phrase1 [.ok]).draws) := by
  dsimp only [State.flashWf]
  decide

theorem witness_StepKeepsParameters :
    seen (step (asked .task .op [0x10#8] pol)) (fun t => t.me.resp) = some .done := by decide

theorem witness_RegistersAreWrittenOnlyByTheirOperations :
    seen (exec (.pipePut .rxf 1#8) (as .rxHandler pol)) (fun t => t.rxf.count) = some 1
      ∧ (∀ n, Instr.pipePut .rxf 1#8 ≠ .nvAlloc n) ∧ Instr.pipePut .rxf 1#8 ≠ .nvInit
      ∧ Instr.pipePut .rxf 1#8 ≠ .codecInit ∧ Instr.pipePut .rxf 1#8 ≠ .frStep
      ∧ Instr.pipePut .rxf 1#8 ≠ .frGet ∧ dispatches (.pipePut .rxf 1#8) = false
      ∧ reachesSequencer (.pipePut .rxf 1#8) = false :=
  ⟨by decide, fun n h => Instr.noConfusion h, by decide, by decide, by decide, by decide, rfl,
    rfl⟩

theorem witness_AgentsKeepTheirRoles :
    seen (exec .seqExec (flying .sequencer (pgm 0x080000#24) [] [.ok])) (fun t => t.me.resp)
        = some .done
      ∧ seen (exec (.pipePut .rxf 1#8) (as .rxHandler pol)) (fun t => t.me.resp)
          = some (.flag true)
      ∧ seen (exec (.pipeGet .txf) (as .txHandler pol)) (fun t => t.me.resp)
          = some (.fail .capacityEmpty)
      ∧ seen (exec (.pipePutB .rxf 1#8) (as .rxThread mul)) (fun t => t.me.resp) = some .done
      ∧ seen (exec .nvInit (as .txThread thr)) (fun t => t.me.resp) = some .done := by decide

theorem witness_PipeInitEmptiesThePipe :
    (pol.ready = true ∧ pipeHasWaiters .rxf pol = false)
      ∧ (mul.ready = true ∧ pipeHasWaiters .txf mul = false) := by decide

/-- A thread waits for space in the full `RXF`. -/
def waiting : State :=
  { withRx 0 [1#8, 2#8, 3#8, 4#8, 5#8, 6#8, 7#8, 8#8] thr with
    parked := [(.thread 0, ⟨[.semWait (.space .rxf)], .pending, none, false⟩)] }

theorem witness_PipeInitEmptiesThePipe_refused :
    waiting.ready = true ∧ pipeHasWaiters .rxf waiting = true := by decide

theorem witness_PipePutStoresTheByte :
    (as .rxHandler (withRx 7 [] pol)).canAsk = true
      ∧ (as .rxHandler (withRx 7 [] pol)).mayPutNow .rxf = true
      ∧ (withRx 7 [] pol).rxf.count ≠ (withRx 7 [] pol).build.capacity
      ∧ pol.canAsk = true ∧ pol.mayPutNow .txf = true := by decide

theorem witness_PipeGetRemovesTheOldestByte :
    (withRx 7 [5#8] pol).canAsk = true ∧ (withRx 7 [5#8] pol).mayGetNow .rxf = true
      ∧ (withRx 7 [5#8] pol).rxf.count ≠ 0
      ∧ (withRx 7 [5#8] pol).rxf.buf[(withRx 7 [5#8] pol).rxf.startIx]? = some 5#8 := by decide

/-- Polled, `TXF` full. -/
def full : State := withTx 3 [1#8, 2#8, 3#8, 4#8, 5#8, 6#8, 7#8, 8#8] pol

theorem witness_FailedPutAndGetChangeNothing :
    full.canAsk = true ∧ (full.mayPutNow .txf = true ∧ full.txf.count = full.build.capacity)
      ∧ (full.mayGetNow .rxf = true ∧ full.rxf.count = 0) := by decide

theorem witness_PutsAndGetsAreFifo :
    (withRx 7 [] pol).allReturned ∧ (withRx 7 [] pol).rxf.wf 8
      ∧ (trace [.pipePut .rxf 1#8, .pipePut .rxf 2#8, .pipeGet .rxf, .pipeGet .rxf, .pipeGet
          .rxf] (withRx 7 [] pol)).map (fun r => r.1) = some [.flag true, .flag true, .byte 1#8,
          .byte 2#8, .fail .capacityEmpty] := by
  dsimp only [Pipe.wf, Pipe.inBounds, State.allReturned]
  decide

theorem witness_PipePutBStoresTheByte :
    thr.ready = true ∧ thr.mayPutB .txf = true ∧ thr.lockFree .txf = true
      ∧ 0 < thr.txf.space ∧ 6 ≤ ({ thr with turn := 6 } : State).turn := by decide

theorem witness_PipeGetBRemovesTheOldestByte :
    (withRx 7 [5#8] thr).ready = true ∧ (withRx 7 [5#8] thr).mayGetB .rxf = true
      ∧ (withRx 7 [5#8] thr).lockFree .rxf = true ∧ 0 < (withRx 7 [5#8] thr).rxf.items
      ∧ (withRx 7 [5#8] thr).rxf.buf[(withRx 7 [5#8] thr).rxf.startIx]? = some 5#8
      ∧ 6 ≤ (withRx 7 [5#8] thr).turn := by decide

theorem witness_PipePutBStoresTheByte_locked :
    mul.ready = true ∧ mul.mayPutB .txf = true ∧ mul.lockFree .txf = true
      ∧ 0 < mul.txf.space ∧ 6 ≤ ({ mul with turn := 6 } : State).turn := by decide

theorem witness_PipeGetBRemovesTheOldestByte_locked :
    (withRx 7 [5#8] mul).ready = true ∧ (withRx 7 [5#8] mul).mayGetB .rxf = true
      ∧ (withRx 7 [5#8] mul).lockFree .rxf = true ∧ 0 < (withRx 7 [5#8] mul).rxf.items
      ∧ (withRx 7 [5#8] mul).rxf.buf[(withRx 7 [5#8] mul).rxf.startIx]? = some 5#8
      ∧ 6 ≤ (withRx 7 [5#8] mul).turn := by decide

/-- `TXLOCK` is taken; nothing else is under way. -/
def locked : State := { thr with txlock := 0 }

theorem witness_BlockedCallerHasNoStep :
    (locked.ready = true ∧ locked.threaded = true ∧ locked.maySend = true ∧ locked.txlock = 0
       ∧ locked.txf.inited = true)
      ∧ (waiting.ready = true ∧ waiting.mayPutB .rxf = true ∧ waiting.rxf.space = 0)
      ∧ (waiting.mayGetB .txf = true ∧ waiting.txf.items = 0)
      ∧ ((flying .task (pgm 0x080000#24) [] []).ready = true
           ∧ (flying .task (pgm 0x080000#24) [] []).seq.complete = false
           ∧ (flying .task (pgm 0x080000#24) [] []).draws = []) := by decide

theorem witness_BlockedCallerHasNoStep_inside :
    ((withTx 6 [1#8, 2#8, 3#8, 4#8] mul).ready = true
       ∧ (withTx 6 [1#8, 2#8, 3#8, 4#8] mul).threaded = true
       ∧ (withTx 6 [1#8, 2#8, 3#8, 4#8] mul).maySend = true
       ∧ (withTx 6 [1#8, 2#8, 3#8, 4#8] mul).canEmit 4
       ∧ (withTx 6 [1#8, 2#8, 3#8, 4#8] mul).txf.space = 4
       ∧ 64 ≤ (withTx 6 [1#8, 2#8, 3#8, 4#8] mul).turn)
      ∧ ((withTx 6 [1#8, 2#8, 3#8, 4#8, 5#8, 6#8, 7#8, 8#8] thr).canEmit 0
           ∧ (withTx 6 [1#8, 2#8, 3#8, 4#8, 5#8, 6#8, 7#8, 8#8] thr).txf.space = 0) := by
  dsimp only [State.canEmit, Pipe.wf, Pipe.inBounds]
  decide

theorem witness_SendersDoNotInterleave :
    (asked .task .op [0x0C#8, 4#8, 1#8, 2#8, 3#8] sending).threadedPipesWf
      ∧ (asked .task .op [0x0C#8, 4#8, 1#8, 2#8, 3#8] sending).queue
          = [.request .task .op [0x0C#8, 4#8, 1#8, 2#8, 3#8] 64]
      ∧ sparesTxf .op [0x0C#8, 4#8, 1#8, 2#8, 3#8]
      ∧ (∃ y ∈ ((sending.take [] 64).switchTo .task).parked, 0 < y.2.owes .txlock)
      ∧ (∀ m ∈ ((sending.take [] 64).switchTo .task).me.todo,
          (∀ v, m ≠ .pipeStore .txf v) ∧ m ≠ .startPipe .txf)
      ∧ seen (step (asked .task .op [0x0C#8, 4#8, 1#8, 2#8, 3#8] sending)) (fun t => t.me.resp)
          = some .pending :=
  ⟨sending_wf, rfl, ⟨fun h => (by cases h), fun _ h => (by cases h)⟩, by decide,
    fun _ h => (by cases h), by decide⟩

/-- A thread holds `TXLOCK`, taken with SEM_WAIT. -/
def owing : State := { thr with txlock := 0, me := ⟨[], .done, none, true⟩ }

theorem witness_SemaphoresCountUnits :
    (thr.canAsk = true ∧ thr.threaded = true ∧ thr.maySend = true ∧ 0 < thr.txlock ∧ 2 ≤ thr.turn
       ∧ thr.me.held = false)
      ∧ (owing.canAsk = true ∧ owing.threaded = true ∧ owing.me.held = true
           ∧ owing.who ≠ .sequencer)
      ∧ (mul.canAsk = true ∧ mul.threaded = true ∧ mul.semExists (.lock .rxf) = true) := by decide

theorem witness_CodecInitAwaitsACommand : pol.ready = true ∧ State.reset.ready = true := by decide

/-- The codec awaits the checksum of `8B 01 00 00`, and these bytes are in `RXF`. -/
def awaiting (s : State) (l : List Byte) : State :=
  { withRx 7 l s with fr := ⟨0x8B#8, 1#8, 0#8, 0#8, 0#8, .awaitChecksum⟩ }

theorem witness_FrStepTakesOneByte :
    (pol.ready = true ∧ pol.mayGetNow .rxf = true ∧ pol.codecRests ∧ pol.rxf.count = 0)
      ∧ ((awaiting pol [0x8A#8]).ready = true ∧ (awaiting pol [0x8A#8]).mayGetNow .rxf = true
           ∧ (awaiting pol [0x8A#8]).codecRests ∧ (awaiting pol [0x8A#8]).rxf.count ≠ 0
           ∧ (awaiting pol [0x8A#8]).rxf.buf[(awaiting pol [0x8A#8]).rxf.startIx]? = some 0x8A#8) := by
  dsimp only [State.codecRests]
  decide

theorem witness_FrStepTakesOneByte_threaded :
    (thr.ready = true ∧ thr.mayStepB = true ∧ thr.codecRests ∧ thr.rxf.items = 0)
      ∧ ((awaiting mul [0x8B#8]).ready = true ∧ (awaiting mul [0x8B#8]).mayStepB = true
           ∧ (awaiting mul [0x8B#8]).codecRests ∧ (awaiting mul [0x8B#8]).lockFree .rxf = true
           ∧ 0 < (awaiting mul [0x8B#8]).rxf.items
           ∧ (awaiting mul [0x8B#8]).rxf.buf[(awaiting mul [0x8B#8]).rxf.startIx]? = some 0x8B#8
           ∧ 6 ≤ (awaiting mul [0x8B#8]).turn) := by
  dsimp only [State.codecRests]
  decide

theorem witness_FrGetFeedsTheCodec :
    ((withRx 5 [4#8, 0#8, 0#8, 0#8, 4#8, 9#8, 0x76#8] pol).ready = true
       ∧ (withRx 5 [4#8, 0#8, 0#8, 0#8, 4#8, 9#8, 0x76#8] pol).mayGetNow .rxf = true
       ∧ (withRx 5 [4#8, 0#8, 0#8, 0#8, 4#8, 9#8, 0x76#8] pol).codecRests
       ∧ (withRx 5 [4#8, 0#8, 0#8, 0#8, 4#8, 9#8, 0x76#8] pol).rxf.wf 8
       ∧ (withRx 5 [4#8, 0#8, 0#8, 0#8, 4#8, 9#8, 0x76#8] pol).rxf.count < (withRx 5 [4#8, 0#8,
           0#8, 0#8, 4#8, 9#8, 0x76#8] pol).turn)
      ∧ (pol.ready = true ∧ pol.mayGetNow .rxf = true ∧ pol.codecRests ∧ pol.rxf.wf 8
           ∧ pol.rxf.count < ({ pol with turn := 1 } : State).turn) := by
  dsimp only [State.codecRests, Pipe.wf, Pipe.inBounds]
  decide

theorem witness_FrGetThreadedFeedsTheCodec :
    (withRx 5 [4#8, 0#8, 0#8, 0#8, 4#8, 9#8, 0x76#8] mul).ready = true
      ∧ (withRx 5 [4#8, 0#8, 0#8, 0#8, 4#8, 9#8, 0x76#8] mul).mayStepB = true
      ∧ (withRx 5 [4#8, 0#8, 0#8, 0#8, 4#8, 9#8, 0x76#8] mul).codecRests
      ∧ (withRx 5 [4#8, 0#8, 0#8, 0#8, 4#8, 9#8, 0x76#8] mul).rxf.wf 8
      ∧ (withRx 5 [4#8, 0#8, 0#8, 0#8, 4#8, 9#8, 0x76#8] mul).rxf.items
          = (withRx 5 [4#8, 0#8, 0#8, 0#8, 4#8, 9#8, 0x76#8] mul).rxf.count
      ∧ (withRx 5 [4#8, 0#8, 0#8, 0#8, 4#8, 9#8, 0x76#8] mul).lockFree .rxf = true
      ∧ 8 * (withRx 5 [4#8, 0#8, 0#8, 0#8, 4#8, 9#8, 0x76#8] mul).rxf.count + 8 ≤ (withRx 5
          [4#8, 0#8, 0#8, 0#8, 4#8, 9#8, 0x76#8] mul).turn
      ∧ ((withRx 5 [4#8, 0#8, 0#8, 0#8, 4#8, 9#8, 0x76#8] mul).fr.feed ((withRx 5 [4#8, 0#8,
          0#8, 0#8, 4#8, 9#8, 0x76#8] mul).rxf.stored 8)).2.1.isSome = true := by
  dsimp only [State.codecRests, Pipe.wf, Pipe.inBounds]
  decide

theorem witness_FrGetThreadedFeedsTheCodec_blocked :
    (withRx 5 [4#8] mul).ready = true ∧ (withRx 5 [4#8] mul).mayStepB = true
      ∧ (withRx 5 [4#8] mul).codecRests ∧ (withRx 5 [4#8] mul).rxf.wf 8
      ∧ (withRx 5 [4#8] mul).rxf.items = (withRx 5 [4#8] mul).rxf.count
      ∧ (withRx 5 [4#8] mul).lockFree .rxf = true
      ∧ 8 * (withRx 5 [4#8] mul).rxf.count + 8 ≤ (withRx 5 [4#8] mul).turn
      ∧ ((withRx 5 [4#8] mul).fr.feed ((withRx 5 [4#8] mul).rxf.stored 8)).2.1.isSome = false := by
  dsimp only [State.codecRests, Pipe.wf, Pipe.inBounds]
  decide

theorem witness_FiveStepsEmitTheFrame :
    (withRx 5 [0x8B#8, 1#8, 0#8, 0#8, 0x8A#8, 4#8] pol).allReturned
      ∧ (withRx 5 [0x8B#8, 1#8, 0#8, 0#8, 0x8A#8, 4#8] pol).polled = true
      ∧ (withRx 5 [0x8B#8, 1#8, 0#8, 0#8, 0x8A#8, 4#8] pol).rxf.inited = true
      ∧ (withRx 5 [0x8B#8, 1#8, 0#8, 0#8, 0x8A#8, 4#8] pol).fr.state = .awaitCommand
      ∧ (withRx 5 [0x8B#8, 1#8, 0#8, 0#8, 0x8A#8, 4#8] pol).rxf.wf 8
      ∧ (withRx 5 [0x8B#8, 1#8, 0#8, 0#8, 0x8A#8, 4#8] pol).rxf.stored 8
          = frameBytes ⟨0x8B#8, 1#8, 0#8, 0#8⟩ ++ [4#8] := by
  dsimp only [Pipe.wf, Pipe.inBounds, State.allReturned]
  decide

theorem witness_ResyncEmitsTheFirstPassingWindow :
    (0 < [0x8A#8].length ∧ passes ([0x8B#8, 1#8, 0#8, 0#8] ++ [0x8A#8]) 0)
      ∧ (1 < [0#8, 0x8A#8].length
           ∧ (∀ k, k < 1 → ¬ passes ([0x55#8, 0x8B#8, 1#8, 0#8] ++ [0#8, 0x8A#8]) k)
           ∧ passes ([0x55#8, 0x8B#8, 1#8, 0#8] ++ [0#8, 0x8A#8]) 1)
      ∧ (∀ k, k < [9#8, 7#8].length → ¬ passes ([0x55#8, 0x8B#8, 1#8, 0#8] ++ [9#8, 7#8]) k)
      ∧ (⟨0x55#8, 0x8B#8, 1#8, 0#8, 0#8, .awaitChecksum⟩ : Codec).state = .awaitChecksum := by
  dsimp only [passes]
  decide

theorem witness_LoopedBackFrameIsReturned :
    pol.allReturned ∧ pol.polled = true ∧ 5 ≤ pol.build.capacity ∧ 7 ≤ pol.turn
      ∧ pol.fr.state = .awaitCommand
      ∧ ∀ p, (pol.pipe p).inited = true ∧ (pol.pipe p).wf pol.build.capacity
      ∧ (pol.pipe p).count = 0 := by
  refine ⟨by dsimp only [State.allReturned]; decide, by decide, by decide, by decide, by decide,
    fun p => ?_⟩
  dsimp only [Pipe.wf, Pipe.inBounds]
  cases p <;> decide

theorem witness_FrPutEmitsTheFrame :
    (withTx 6 [1#8, 2#8, 3#8] pol).ready = true ∧ (withTx 6 [1#8, 2#8, 3#8] pol).polled = true
      ∧ (withTx 6 [1#8, 2#8, 3#8] pol).canEmit 5 ∧ 7 ≤ (withTx 6 [1#8, 2#8, 3#8] pol).turn := by
  dsimp only [State.canEmit, Pipe.wf, Pipe.inBounds]
  decide

theorem witness_FrPutEmitsTheFrame_full :
    (full.ready = true ∧ full.polled = true ∧ full.canEmit 0 ∧ 7 ≤ full.turn
       ∧ full.txf.count + 0 = full.build.capacity)
      ∧ ((withTx 6 [1#8, 2#8, 3#8, 4#8] pol).ready = true
           ∧ (withTx 6 [1#8, 2#8, 3#8, 4#8] pol).polled = true
           ∧ (withTx 6 [1#8, 2#8, 3#8, 4#8] pol).canEmit 4
           ∧ 7 ≤ (withTx 6 [1#8, 2#8, 3#8, 4#8] pol).turn
           ∧ (withTx 6 [1#8, 2#8, 3#8, 4#8] pol).txf.count + 4
               = (withTx 6 [1#8, 2#8, 3#8, 4#8] pol).build.capacity) := by
  dsimp only [State.canEmit, Pipe.wf, Pipe.inBounds]
  decide

theorem witness_FrPutBEmitsTheFrame :
    ((withTx 6 [1#8, 2#8, 3#8] thr).ready = true ∧ (withTx 6 [1#8, 2#8, 3#8] thr).maySend = true
       ∧ (withTx 6 [1#8, 2#8, 3#8] thr).threaded = true
       ∧ (withTx 6 [1#8, 2#8, 3#8] thr).canEmit 5 ∧ 64 ≤ (withTx 6 [1#8, 2#8, 3#8] thr).turn)
      ∧ ((withTx 6 [1#8, 2#8, 3#8] mul).ready = true
           ∧ (withTx 6 [1#8, 2#8, 3#8] mul).maySend = true
           ∧ (withTx 6 [1#8, 2#8, 3#8] mul).threaded = true
           ∧ (withTx 6 [1#8, 2#8, 3#8] mul).canEmit 5 ∧ 64 ≤ (withTx 6 [1#8, 2#8, 3#8] mul).turn) := by
  dsimp only [State.canEmit, Pipe.wf, Pipe.inBounds]
  decide

theorem witness_NvInitFreesTheMap : pol.ready = true ∧ thr.ready = true := by decide

/-- The map of V28 before its size-4 request. -/
def map1 : State := { pol with alloc := [true, false, false, false, false, false, false, false] }

/-- A map without a free entry. -/
def mapFull : State := { pol with alloc := List.replicate 8 true }

theorem witness_NvAllocTakesTheLowestFreeRun :
    (map1.ready = true ∧ (4#8 = 1#8 ∨ 4#8 = 2#8 ∨ 4#8 = 4#8) ∧ 4 % (4#8).toNat = 0
       ∧ (∀ k, k < (4#8).toNat → map1.alloc[4 + k]? = some false)
       ∧ ∀ r, r < 4 → r % (4#8).toNat = 0 → ∃ k, k < (4#8).toNat
       ∧ map1.alloc[r + k]? ≠ some false)
      ∧ (pol.ready = true ∧ (1#8 = 1#8 ∨ 1#8 = 2#8 ∨ 1#8 = 4#8) ∧ 0 % (1#8).toNat = 0
           ∧ (∀ k, k < (1#8).toNat → pol.alloc[0 + k]? = some false)
           ∧ ∀ r, r < 0 → r % (1#8).toNat = 0 → ∃ k, k < (1#8).toNat
           ∧ pol.alloc[r + k]? ≠ some false) := by decide

theorem witness_NvAllocFailsWithoutARun :
    (pol.ready = true ∧ ¬ (3#8 = 1#8 ∨ 3#8 = 2#8 ∨ 3#8 = 4#8)) ∧ mapFull.ready = true
      ∧ (2#8 = 1#8 ∨ 2#8 = 2#8 ∨ 2#8 = 4#8) ∧ ∀ r, r % (2#8).toNat = 0 → ∃ k, k < (2#8).toNat
      ∧ mapFull.alloc[r + k]? ≠ some false := by
  refine ⟨by decide, by decide, by decide, fun r _ => ⟨0, by decide, ?_⟩⟩
  show (List.replicate 8 true)[r + 0]? ≠ some false
  rw [List.getElem?_replicate]; split <;> simp

theorem witness_NvReadsReturnFlash :
    (nv phrase1 []).ready = true ∧ (nv phrase1 []).storeFree = true
      ∧ (nv phrase1 []).inRegion (0x080007#24).toNat 1
      ∧ (nv phrase1 []).inRegion (0x080006#24).toNat 2
      ∧ (nv phrase1 []).inRegion (0x080004#24).toNat 4 := by
  dsimp only [State.inRegion]
  decide

theorem witness_StoreOperandsAreChecked :
    pol.ready = true
      ∧ (Instr.nvRead8 0x07FFFF#24 = .nvRead8 0x07FFFF#24 ∧ (0x07FFFF#24).toNat < pol.regionBase)
      ∧ (storeTarget (.nvWrite32 0x080005#24 0#32) = some (0x080005#24, [0#8, 0#8, 0#8, 0#8])
           ∧ pol.regionBase + pol.build.regionLen < (0x080005#24).toNat + 4)
      ∧ (pol.regionBase ≤ (0x080002#24).toNat
           ∧ (0x080002#24).toNat + 4 ≤ pol.regionBase + pol.build.regionLen
           ∧ (0x080002#24).toNat % 4 ≠ 0)
      ∧ ((flying .task (pgm 0x080000#24) [] []).ready = true
           ∧ (flying .task (pgm 0x080000#24) [] []).inRegion (0x080004#24).toNat 4
           ∧ (flying .task (pgm 0x080000#24) [] []).storeFree = false) := by
  dsimp only [State.inRegion]
  decide

theorem witness_StoreWriteReplacesItsBytes :
    ((storeTarget (.nvWrite8 0x080007#24 5#8) = some (0x080007#24, [5#8])
        ∧ (nv phrase1 [.ok, .ok, .both]).inRegion (0x080007#24).toNat 1)
       ∧ (storeTarget (.nvWrite16 0x080006#24 0xBEEF#16) = some (0x080006#24, [0xEF#8, 0xBE#8])
            ∧ (nv phrase1 [.ok, .ok, .both]).inRegion (0x080006#24).toNat 2)
       ∧ (storeTarget (.nvWrite32 0x080004#24 0xCAFEF00D#32)
            = some (0x080004#24, [0x0D#8, 0xF0#8, 0xFE#8, 0xCA#8])
            ∧ (nv phrase1 [.ok, .ok, .both]).inRegion (0x080004#24).toNat 4))
      ∧ (nv phrase1 [.ok, .ok, .both]).storeReady
      ∧ (nv phrase1 [.ok, .ok, .both]).draws
          = List.replicate ((nv phrase1 [.ok, .ok, .both]).build.regionLen / 8 + 1) .ok ++
              [.both]
      ∧ 64 + (nv phrase1 [.ok, .ok, .both]).build.regionLen ≤ (nv phrase1 [.ok, .ok, .both]).turn := by
  dsimp only [State.storeReady, State.inRegion, State.flashWf]
  decide

theorem witness_NvEraseErasesTheSector :
    (nv phrase1 [.ok]).storeReady ∧ (nv phrase1 [.ok]).draws = .ok :: []
      ∧ 8 ≤ (nv phrase1 [.ok]).turn := by
  dsimp only [State.storeReady, State.flashWf]
  decide

theorem witness_FailedEraseChangesNoByte :
    (storeTarget (.nvWrite16 0x080006#24 0#16) = some (0x080006#24, [0#8, 0#8])
       ∧ (nv phrase1 [.fpviol]).inRegion (0x080006#24).toNat 2)
      ∧ (nv phrase1 [.fpviol]).storeReady ∧ (nv phrase1 [.fpviol]).draws = .fpviol :: []
      ∧ SeqOutcome.fpviol ≠ .ok ∧ 8 ≤ (nv phrase1 [.fpviol]).turn := by
  dsimp only [State.storeReady, State.inRegion, State.flashWf]
  decide

/-- A data region of two phrases, as in V45. -/
def two (d : List SeqOutcome) : State := { nv phrase1 d with build := small .polled false 16 }

theorem witness_FailedProgramLosesTheTail :
    (storeTarget (.nvWrite8 0x080009#24 0xEE#8) = some (0x080009#24, [0xEE#8])
       ∧ (two [.ok, .accerr]).storeReady ∧ (two [.ok, .accerr]).inRegion (0x080009#24).toNat 1)
      ∧ 0 < (two [.ok, .accerr]).build.regionLen / 8
      ∧ (two [.ok, .accerr]).draws = List.replicate (0 + 1) .ok ++ .accerr :: []
      ∧ SeqOutcome.accerr ≠ .ok
      ∧ 64 + (two [.ok, .accerr]).build.regionLen ≤ (two [.ok, .accerr]).turn := by
  dsimp only [State.storeReady, State.inRegion, State.flashWf]
  decide

theorem witness_FailedProgramLosesTheTail_last :
    (storeTarget (.nvWrite8 0x080009#24 0xEE#8) = some (0x080009#24, [0xEE#8])
       ∧ (two [.ok, .ok, .fpviol]).storeReady
       ∧ (two [.ok, .ok, .fpviol]).inRegion (0x080009#24).toNat 1)
      ∧ 1 < (two [.ok, .ok, .fpviol]).build.regionLen / 8
      ∧ (two [.ok, .ok, .fpviol]).draws = List.replicate (1 + 1) .ok ++ .fpviol :: []
      ∧ SeqOutcome.fpviol ≠ .ok
      ∧ 64 + (two [.ok, .ok, .fpviol]).build.regionLen ≤ (two [.ok, .ok, .fpviol]).turn := by
  dsimp only [State.storeReady, State.inRegion, State.flashWf]
  decide

theorem witness_SeqLaunchStartsTheCommand :
    ((flying .task (pgm 0x080000#24) [] []).ready = true
       ∧ (flying .task (pgm 0x080000#24) [] []).seq.complete = false)
      ∧ (pol.ready = true ∧ pol.seq.complete = true ∧ pol.ws.state = .idle)
      ∧ (({ pol with ws := { pol.ws with state := .merge } } : State).ready = true
           ∧ ({ pol with ws := { pol.ws with state := .merge } } : State).seq.complete = true
           ∧ ({ pol with ws := { pol.ws with state := .merge } } : State).ws.state ≠ .idle) := by
  decide

theorem witness_SeqWaitReportsTheStatus :
    pol.ready = true ∧ pol.seq.complete = true ∧ 1 ≤ pol.turn := by decide

theorem witness_SeqExecCompletesTheCommand :
    ((flying .sequencer (pgm 0x080018#24) [] [.ok]).canAsk = true
       ∧ (flying .sequencer (pgm 0x080018#24) [] [.ok]).who = .sequencer
       ∧ (flying .sequencer (pgm 0x080018#24) [] [.ok]).flashWf
       ∧ (flying .sequencer (pgm 0x080018#24) [] [.ok]).seq.complete = false
       ∧ (flying .sequencer (pgm 0x080018#24) [] [.ok]).seq.inflight = some (pgm 0x080018#24)
       ∧ (flying .sequencer (pgm 0x080018#24) [] [.ok]).draws = .ok :: []
       ∧ malformed (pgm 0x080018#24) (flying .sequencer (pgm 0x080018#24) [] [.ok]) = false
       ∧ (.ok = SeqOutcome.ok → (pgm 0x080018#24).opcode = Config.opcProgramPhrase → (flying
           .sequencer (pgm 0x080018#24) [] [.ok]).erasedAt (pgm 0x080018#24).addr.toNat)
       ∧ 1 ≤ (flying .sequencer (pgm 0x080018#24) [] [.ok]).turn)
      ∧ ((flying .sequencer (ers 0x08001F#24) phrase1 [.both]).canAsk = true
           ∧ (flying .sequencer (ers 0x08001F#24) phrase1 [.both]).who = .sequencer
           ∧ (flying .sequencer (ers 0x08001F#24) phrase1 [.both]).flashWf
           ∧ (flying .sequencer (ers 0x08001F#24) phrase1 [.both]).seq.complete = false
           ∧ (flying .sequencer (ers 0x08001F#24) phrase1 [.both]).seq.inflight
               = some (ers 0x08001F#24)
           ∧ (flying .sequencer (ers 0x08001F#24) phrase1 [.both]).draws = .both :: []
           ∧ malformed (ers 0x08001F#24) (flying .sequencer (ers 0x08001F#24) phrase1 [.both])
               = false
           ∧ (.both = SeqOutcome.ok → (ers 0x08001F#24).opcode = Config.opcProgramPhrase →
               (flying .sequencer (ers 0x08001F#24) phrase1 [.both]).erasedAt (ers
               0x08001F#24).addr.toNat)
           ∧ 1 ≤ (flying .sequencer (ers 0x08001F#24) phrase1 [.both]).turn) := by
  dsimp only [State.flashWf, State.erasedAt]
  decide

/-- V50's program on a phrase that is not erased. -/
theorem witness_SeqExecCompletesTheCommand_refused :
    (flying .sequencer (pgm 0x080000#24) phrase1 [.ok]).canAsk = true
      ∧ (flying .sequencer (pgm 0x080000#24) phrase1 [.ok]).flashWf
      ∧ malformed (pgm 0x080000#24) (flying .sequencer (pgm 0x080000#24) phrase1 [.ok]) = false
      ∧ ¬ (flying .sequencer (pgm 0x080000#24) phrase1 [.ok]).erasedAt
          (pgm 0x080000#24).addr.toNat := by
  dsimp only [State.flashWf, State.erasedAt]
  decide

theorem witness_FlashCommandsRunToCompletion_refused :
    (nv phrase1 [.ok]).ready = true ∧ (nv phrase1 [.ok]).storeFree = true
      ∧ (nv phrase1 [.ok]).flashWf ∧ (nv phrase1 [.ok]).draws = .ok :: []
      ∧ malformed (pgm 0x080000#24) (nv phrase1 [.ok]) = false
      ∧ ¬ (nv phrase1 [.ok]).erasedAt (pgm 0x080000#24).addr.toNat := by
  dsimp only [State.flashWf, State.erasedAt]
  decide

theorem witness_FlashCommandsRunToCompletion :
    ((pgm 0#24).opcode = Config.opcProgramPhrase ∧ (ers 0#24).opcode = Config.opcEraseSector)
      ∧ ((nv [] [.ok]).ready = true
           ∧ (nv [] [.ok]).storeFree = true ∧ (nv [] [.ok]).flashWf
           ∧ (nv [] [.ok]).draws = .ok :: [] ∧ 2 ≤ (nv [] [.ok]).turn
           ∧ malformed (pgm 0x080018#24) (nv [] [.ok]) = false
           ∧ (SeqOutcome.ok = .ok → (pgm 0x080018#24).opcode = Config.opcProgramPhrase → (nv []
               [.ok]).erasedAt (pgm 0x080018#24).addr.toNat))
      ∧ ((nv phrase1 [.ok]).ready = true
           ∧ (nv phrase1 [.ok]).storeFree = true ∧ (nv phrase1 [.ok]).flashWf
           ∧ (nv phrase1 [.ok]).draws = .ok :: [] ∧ 2 ≤ (nv phrase1 [.ok]).turn
           ∧ malformed (ers 0x080000#24) (nv phrase1 [.ok]) = false
           ∧ (SeqOutcome.ok = .ok → (ers 0x080000#24).opcode = Config.opcProgramPhrase → (nv
               phrase1 [.ok]).erasedAt (ers 0x080000#24).addr.toNat))
      ∧ ((nv phrase1 [.ok]).ready = true
           ∧ (nv phrase1 [.ok]).storeFree = true ∧ (nv phrase1 [.ok]).flashWf
           ∧ (nv phrase1 [.ok]).draws = .ok :: [] ∧ 2 ≤ (nv phrase1 [.ok]).turn
           ∧ malformed (pgm 0x080004#24) (nv phrase1 [.ok]) = true)
      ∧ ((nv phrase1 [.ok]).ready = true
           ∧ (nv phrase1 [.ok]).storeFree = true ∧ (nv phrase1 [.ok]).flashWf
           ∧ (nv phrase1 [.ok]).draws = .ok :: [] ∧ 2 ≤ (nv phrase1 [.ok]).turn
           ∧ malformed (ers 0x080020#24) (nv phrase1 [.ok]) = true) := by
  dsimp only [State.flashWf, State.erasedAt]
  decide

theorem witness_UnknownCommandIsAFailure :
    ((codeOf 0x83#8).toNat ∉ [0x04, 0x07, 0x08, 0x09, 0x0A, 0x0B, 0x0C, 0x0D]
       ∧ (codeOf 0x0E#8).toNat ∉ [0x04, 0x07, 0x08, 0x09, 0x0A, 0x0B, 0x0C, 0x0D])
      ∧ pol.ready = true ∧ pol.canReply 0x83#8 ∧ 64 ≤ pol.turn := by
  dsimp only [State.canReply, Pipe.wf, Pipe.inBounds, State.canEmit]
  decide

theorem witness_CmdVersionReportsTheVersion :
    isCommand 0x09#8 .cmdVersion true 1#8 0#8 0#8 (.dispatch (commandByte true 0x09#8) 1#8 0#8
      0#8)
      ∧ pol.ready = true ∧ pol.canReply (commandByte true 0x09#8) ∧ 64 ≤ pol.turn := by
  dsimp only [State.canReply, Pipe.wf, Pipe.inBounds, State.canEmit, isCommand]
  decide

theorem witness_CmdProtocolGetsAndSetsTheMode_1 :
    isCommand 0x0A#8 .cmdProtocol true 1#8 0#8 0#8 (.dispatch (commandByte true 0x0A#8) 1#8 0#8
      0#8)
      ∧ pol.ready = true ∧ pol.canReply (commandByte true 0x0A#8) ∧ 64 ≤ pol.turn := by
  dsimp only [State.canReply, Pipe.wf, Pipe.inBounds, State.canEmit, isCommand]
  decide

theorem witness_CmdProtocolGetsAndSetsTheMode_2 :
    isCommand 0x0A#8 .cmdProtocol true 2#8 1#8 0#8 (.dispatch (commandByte true 0x0A#8) 2#8 1#8
      0#8)
      ∧ mul.ready = true ∧ mul.canReply (commandByte true 0x0A#8) ∧ 64 ≤ mul.turn
      ∧ (1#8).toNat ≤ 1 := by
  dsimp only [State.canReply, Pipe.wf, Pipe.inBounds, State.canEmit, isCommand]
  decide

theorem witness_CmdRdbyteReportsTheByte :
    isCommand 0x08#8 .cmdRdbyte true 7#8 0#8 0#8 (.dispatch (commandByte true 0x08#8) 7#8 0#8 0#8)
      ∧ (cmdState []).ready = true ∧ (cmdState []).canReply (commandByte true 0x08#8)
      ∧ 64 ≤ (cmdState []).turn ∧ (7#8).toNat ≤ 7 ∧ (cmdState []).storeFree = true := by
  dsimp only [State.canReply, Pipe.wf, Pipe.inBounds, State.canEmit, isCommand]
  decide

theorem witness_CmdNumberAndModeReportTheirVariable_1 :
    isCommand 0x0B#8 .cmdNumber true 1#8 0#8 0#8 (.dispatch (commandByte true 0x0B#8) 1#8 0#8 0#8)
      ∧ (cmdState []).ready = true ∧ (cmdState []).canReply (commandByte true 0x0B#8)
      ∧ 64 ≤ (cmdState []).turn ∧ (cmdState []).nvNumber = some 0x080000#24
      ∧ (cmdState []).nvMode = some 0x080002#24
      ∧ (cmdState []).inRegion (0x080000#24).toNat 2 ∧ (cmdState []).storeFree = true := by
  dsimp only [State.inRegion, State.canReply, Pipe.wf, Pipe.inBounds, State.canEmit, isCommand]
  decide

theorem witness_CmdNumberAndModeReportTheirVariable_2 :
    isCommand 0x0D#8 .cmdMode true 1#8 0#8 0#8 (.dispatch (commandByte true 0x0D#8) 1#8 0#8 0#8)
      ∧ (cmdState []).ready = true ∧ (cmdState []).canReply (commandByte true 0x0D#8)
      ∧ (cmdState []).nvNumber = some 0x080000#24 ∧ (cmdState []).nvMode = some 0x080002#24
      ∧ (cmdState []).inRegion (0x080002#24).toNat 2 := by
  dsimp only [State.inRegion, State.canReply, Pipe.wf, Pipe.inBounds, State.canEmit, isCommand]
  decide

theorem witness_CmdNumberAndModeReportTheirVariable_3 :
    isCommand 0x0D#8 .cmdMode true 1#8 0#8 0#8 (.dispatch (commandByte true 0x0D#8) 1#8 0#8 0#8)
      ∧ State.reset.ready = true ∧ State.reset.maySend = true ∧ 1 ≤ State.reset.turn
      ∧ State.reset.nvMode = none := by
  dsimp only [isCommand]
  decide

theorem witness_CmdNumberAndModeSetTheirVariable_1 :
    isCommand 0x0B#8 .cmdNumber true 2#8 0x34#8 0x12#8 (.dispatch (commandByte true 0x0B#8) 2#8
      0x34#8 0x12#8)
      ∧ (cmdState [.ok, .ok]).storeReady
      ∧ (cmdState [.ok, .ok]).canReply (commandByte true 0x0B#8)
      ∧ 64 + (cmdState [.ok, .ok]).build.regionLen ≤ (cmdState [.ok, .ok]).turn
      ∧ (cmdState [.ok, .ok]).nvNumber = some 0x080000#24
      ∧ (cmdState [.ok, .ok]).nvMode = some 0x080002#24
      ∧ (cmdState [.ok, .ok]).inRegion (0x080000#24).toNat 2
      ∧ (cmdState [.ok, .ok]).draws
          = List.replicate ((cmdState [.ok, .ok]).build.regionLen / 8 + 1) .ok ++ [] := by
  dsimp only [State.storeReady, State.inRegion, State.canReply, Pipe.wf, Pipe.inBounds,
    State.flashWf, State.canEmit, isCommand]
  decide

theorem witness_CmdNumberAndModeSetTheirVariable_2 :
    isCommand 0x0D#8 .cmdMode true 2#8 1#8 0#8 (.dispatch (commandByte true 0x0D#8) 2#8 1#8 0#8)
      ∧ (cmdState [.ok, .ok]).storeReady
      ∧ (cmdState [.ok, .ok]).canReply (commandByte true 0x0D#8)
      ∧ (cmdState [.ok, .ok]).nvMode = some 0x080002#24
      ∧ (cmdState [.ok, .ok]).inRegion (0x080002#24).toNat 2 := by
  dsimp only [State.storeReady, State.inRegion, State.canReply, Pipe.wf, Pipe.inBounds,
    State.flashWf, State.canEmit, isCommand]
  decide

theorem witness_CmdTimeSetsTheClock :
    isCommand 0x0C#8 .cmdTime true 23#8 59#8 59#8 (.dispatch (commandByte true 0x0C#8) 23#8 59#8
      59#8)
      ∧ pol.ready = true ∧ pol.canReply (commandByte true 0x0C#8) ∧ 64 ≤ pol.turn
      ∧ (23#8).toNat ≤ 23 ∧ (59#8).toNat ≤ 59 := by
  dsimp only [State.canReply, Pipe.wf, Pipe.inBounds, State.canEmit, isCommand]
  decide

theorem witness_CmdPgmbyteWritesOrErases_1 :
    isCommand 0x07#8 .cmdPgmbyte true 7#8 0#8 0xAB#8 (.dispatch (commandByte true 0x07#8) 7#8
      0#8 0xAB#8)
      ∧ (cmdState [.ok, .ok]).storeReady
      ∧ (cmdState [.ok, .ok]).canReply (commandByte true 0x07#8)
      ∧ 64 + (cmdState [.ok, .ok]).build.regionLen ≤ (cmdState [.ok, .ok]).turn ∧ (7#8).toNat ≤ 7
      ∧ (cmdState [.ok, .ok]).draws
          = List.replicate ((cmdState [.ok, .ok]).build.regionLen / 8 + 1) .ok ++ [] := by
  dsimp only [State.storeReady, State.canReply, Pipe.wf, Pipe.inBounds, State.flashWf,
    State.canEmit, isCommand]
  decide

theorem witness_CmdPgmbyteWritesOrErases_2 :
    isCommand 0x07#8 .cmdPgmbyte true 8#8 0#8 0#8 (.dispatch (commandByte true 0x07#8) 8#8 0#8
      0#8)
      ∧ (cmdState [.ok]).storeReady ∧ (cmdState [.ok]).canReply (commandByte true 0x07#8)
      ∧ 64 + (cmdState [.ok]).build.regionLen ≤ (cmdState [.ok]).turn ∧ (8#8).toNat = 8
      ∧ (cmdState [.ok]).draws = .ok :: [] := by
  dsimp only [State.storeReady, State.canReply, Pipe.wf, Pipe.inBounds, State.flashWf,
    State.canEmit, isCommand]
  decide

/-- The frames CMD_STARTUP emits, its reply among them, in the state where its free value is the first. -/
noncomputable def startupFrames : List Frame :=
  (Config.hStartup 0 0#8 0#8 0#8).frames
    ++ [⟨commandByte (Config.hStartup 0 0#8 0#8 0#8).success 0x04#8,
      (Config.hStartup 0 0#8 0#8 0#8).r1, (Config.hStartup 0 0#8 0#8 0#8).r2,
      (Config.hStartup 0 0#8 0#8 0#8).r3⟩]

/-- A polled instance whose `TXF` has room for them, whatever they are. -/
noncomputable def roomy : State :=
  { pol with
    build := { small .polled false 8 with capacity := 5 * startupFrames.length + 1 }
    txf := { holding 0 [] with buf := List.replicate (5 * startupFrames.length + 1) 0#8 }
    turn := 64 * (startupFrames.length + 1) }

theorem witness_CmdStartupRunsTheOpenHandler :
    isCommand 0x04#8 .cmdStartup true 0#8 0#8 0#8 (.dispatch (commandByte true 0x04#8) 0#8 0#8
      0#8)
      ∧ roomy.ready = true ∧ roomy.maySend = true
      ∧ startupFrames
          = (Config.hStartup roomy.freeIx 0#8 0#8 0#8).frames ++ [⟨commandByte
              (Config.hStartup roomy.freeIx 0#8 0#8 0#8).success 0x04#8, (Config.hStartup
              roomy.freeIx 0#8 0#8 0#8).r1, (Config.hStartup roomy.freeIx 0#8 0#8 0#8).r2,
              (Config.hStartup roomy.freeIx 0#8 0#8 0#8).r3⟩]
      ∧ startupFrames ≠ [] ∧ roomy.canEmit (5 * startupFrames.length)
      ∧ 64 * (startupFrames.length + 1) ≤ roomy.turn := by
  refine ⟨.inr rfl, ?_, rfl, rfl, by simp [startupFrames], ?_, Nat.le_refl _⟩
  · simp [roomy, State.ready, State.canAsk, State.mayAct, Build.ok, small, pol, start,
      State.afterReset, Local.idle, Build.sectorBase]
  · refine ⟨rfl, ⟨⟨?_, ?_, ?_⟩, ?_, ?_⟩, ?_, rfl, fun h => ?_⟩
    all_goals simp_all [roomy, holding, small, pol, start, State.threaded]

theorem witness_ReservedParametersFail_1 :
    (isCommand 0x07#8 .cmdPgmbyte true 9#8 0#8 0#8 (.dispatch (commandByte true 0x07#8) 9#8 0#8
       0#8)
       ∧ pol.ready = true ∧ pol.canReply (commandByte true 0x07#8) ∧ 64 ≤ pol.turn
       ∧ 8 < (9#8).toNat) := by
  dsimp only [State.canReply, Pipe.wf, Pipe.inBounds, State.canEmit, isCommand]
  decide

theorem witness_ReservedParametersFail_2 :
    (isCommand 0x08#8 .cmdRdbyte true 8#8 0#8 0#8 (.dispatch (commandByte true 0x08#8) 8#8 0#8
       0#8)
       ∧ pol.ready = true ∧ pol.canReply (commandByte true 0x08#8) ∧ 64 ≤ pol.turn
       ∧ 7 < (8#8).toNat) := by
  dsimp only [State.canReply, Pipe.wf, Pipe.inBounds, State.canEmit, isCommand]
  decide

theorem witness_ReservedParametersFail_3 :
    (isCommand 0x0C#8 .cmdTime true 24#8 0#8 0#8 (.dispatch (commandByte true 0x0C#8) 24#8 0#8
       0#8)
       ∧ pol.ready = true ∧ pol.canReply (commandByte true 0x0C#8) ∧ 64 ≤ pol.turn
       ∧ (23 < (24#8).toNat ∨ 59 < (0#8).toNat)) := by
  dsimp only [State.canReply, Pipe.wf, Pipe.inBounds, State.canEmit, isCommand]
  decide

theorem witness_ReservedParametersFail_4 :
    (isCommand 0x0C#8 .cmdTime true 0#8 60#8 0#8 (.dispatch (commandByte true 0x0C#8) 0#8 60#8
       0#8)
       ∧ pol.ready = true ∧ pol.canReply (commandByte true 0x0C#8) ∧ 64 ≤ pol.turn
       ∧ 59 < (60#8).toNat) := by
  dsimp only [State.canReply, Pipe.wf, Pipe.inBounds, State.canEmit, isCommand]
  decide

theorem witness_ReservedParametersFail_5 :
    (isCommand 0x0B#8 .cmdNumber true 0#8 0#8 0#8 (.dispatch (commandByte true 0x0B#8) 0#8 0#8
       0#8)
       ∧ (cmdState []).ready = true ∧ (cmdState []).canReply (commandByte true 0x0B#8) ∧ 64 ≤ (cmdState []).turn
       ∧ (cmdState []).nvNumber ≠ none ∧ (cmdState []).nvMode ≠ none
       ∧ (0#8 ≠ 1#8 ∧ 0#8 ≠ 2#8)) := by
  dsimp only [State.canReply, Pipe.wf, Pipe.inBounds, State.canEmit, isCommand]
  decide

theorem witness_ReservedParametersFail_6 :
    (isCommand 0x0D#8 .cmdMode true 3#8 0#8 0#8 (.dispatch (commandByte true 0x0D#8) 3#8 0#8 0#8)
       ∧ (cmdState []).ready = true ∧ (cmdState []).canReply (commandByte true 0x0D#8) ∧ 64 ≤ (cmdState []).turn
       ∧ (cmdState []).nvNumber ≠ none ∧ (cmdState []).nvMode ≠ none
       ∧ (3#8 ≠ 1#8 ∧ 3#8 ≠ 2#8)) := by
  dsimp only [State.canReply, Pipe.wf, Pipe.inBounds, State.canEmit, isCommand]
  decide

theorem witness_ReservedParametersFail_7 :
    (isCommand 0x0A#8 .cmdProtocol true 3#8 2#8 0#8 (.dispatch (commandByte true 0x0A#8) 3#8
       2#8 0#8)
       ∧ pol.ready = true ∧ pol.canReply (commandByte true 0x0A#8) ∧ 64 ≤ pol.turn
       ∧ (3#8 ≠ 1#8 ∧ 3#8 ≠ 2#8)) := by
  dsimp only [State.canReply, Pipe.wf, Pipe.inBounds, State.canEmit, isCommand]
  decide

theorem witness_ReservedParametersFail_8 :
    (isCommand 0x0A#8 .cmdProtocol true 2#8 2#8 0#8 (.dispatch (commandByte true 0x0A#8) 2#8
       2#8 0#8)
       ∧ pol.ready = true ∧ pol.canReply (commandByte true 0x0A#8) ∧ 64 ≤ pol.turn
       ∧ 1 < (2#8).toNat) := by
  dsimp only [State.canReply, Pipe.wf, Pipe.inBounds, State.canEmit, isCommand]
  decide

theorem witness_FailedStoreWriteIsReported_1 :
    isCommand 0x07#8 .cmdPgmbyte true 8#8 0#8 0#8 (.dispatch (commandByte true 0x07#8) 8#8 0#8
      0#8)
      ∧ (cmdState [.accerr]).storeReady ∧ (cmdState [.accerr]).canReply (commandByte true 0x07#8)
      ∧ 64 + (cmdState [.accerr]).build.regionLen ≤ (cmdState [.accerr]).turn ∧ (8#8).toNat = 8
      ∧ (cmdState [.accerr]).draws = .accerr :: [] ∧ SeqOutcome.accerr ≠ .ok := by
  dsimp only [State.storeReady, State.canReply, Pipe.wf, Pipe.inBounds, State.flashWf,
    State.canEmit, isCommand]
  decide

theorem witness_FailedStoreWriteIsReported_2 :
    isCommand 0x0B#8 .cmdNumber true 2#8 1#8 0#8 (.dispatch (commandByte true 0x0B#8) 2#8 1#8 0#8)
      ∧ (cmdState [.accerr]).storeReady ∧ (cmdState [.accerr]).canReply (commandByte true 0x0B#8)
      ∧ (cmdState [.accerr]).nvNumber = some 0x080000#24
      ∧ (cmdState [.accerr]).nvMode = some 0x080002#24
      ∧ (cmdState [.accerr]).inRegion (0x080000#24).toNat 2 := by
  dsimp only [State.storeReady, State.inRegion, State.canReply, Pipe.wf, Pipe.inBounds,
    State.flashWf, State.canEmit, isCommand]
  decide

theorem witness_FailedStoreWriteIsReported_3 :
    isCommand 0x0D#8 .cmdMode true 2#8 1#8 0#8 (.dispatch (commandByte true 0x0D#8) 2#8 1#8 0#8)
      ∧ (cmdState [.accerr]).storeReady ∧ (cmdState [.accerr]).canReply (commandByte true 0x0D#8)
      ∧ (cmdState [.accerr]).nvMode = some 0x080002#24
      ∧ (cmdState [.accerr]).inRegion (0x080002#24).toNat 2 := by
  dsimp only [State.storeReady, State.inRegion, State.canReply, Pipe.wf, Pipe.inBounds,
    State.flashWf, State.canEmit, isCommand]
  decide

theorem witness_FailedStoreWriteIsReported_4 :
    isCommand 0x0B#8 .cmdNumber true 2#8 0x34#8 0x12#8 (.dispatch (commandByte true 0x0B#8) 2#8
      0x34#8 0x12#8)
      ∧ (cmdState [.ok, .fpviol]).storeReady
      ∧ (cmdState [.ok, .fpviol]).canReply (commandByte true 0x0B#8)
      ∧ (cmdState [.ok, .fpviol]).nvNumber = some 0x080000#24
      ∧ (cmdState [.ok, .fpviol]).nvMode = some 0x080002#24
      ∧ (cmdState [.ok, .fpviol]).inRegion (0x080000#24).toNat 2
      ∧ 64 + (cmdState [.ok, .fpviol]).build.regionLen ≤ (cmdState [.ok, .fpviol]).turn
      ∧ 0 < (cmdState [.ok, .fpviol]).build.regionLen / 8
      ∧ (cmdState [.ok, .fpviol]).draws = List.replicate (0 + 1) .ok ++ .fpviol :: []
      ∧ SeqOutcome.fpviol ≠ .ok := by
  dsimp only [State.storeReady, State.inRegion, State.canReply, Pipe.wf, Pipe.inBounds,
    State.flashWf, State.canEmit, isCommand]
  decide

theorem witness_WrongChecksumChangesNothing :
    pol.ready = true ∧ pol.maySend = true
      ∧ 0x7F#8 ≠ checksum (commandByte false 0x09#8) 0x76#8 1#8 0#8 := by decide

theorem witness_ReplyThatDoesNotFitIsReported :
    (full.ready = true ∧ full.polled = true ∧ full.canEmit 0 ∧ 64 ≤ full.turn
       ∧ full.txf.count + 0 = full.build.capacity ∧ ackOf 0x89#8 = true)
      ∧ (match handler ⟨0x88#8, 9#8, 2#8, 3#8⟩ ((full.setTodo []).respond .pending) with
          | .answer a u => some (a, u.protoMode)
          | .storing _ => none
          | .sending _ _ _ => none
          | .refused _ => none)
          = some (⟨false, 9#8, 2#8, 3#8, some (.parameterInvalid .offset)⟩, 0#1)
      ∧ (codeOf 0x83#8).toNat ∉ [0x04, 0x07, 0x08, 0x09, 0x0A, 0x0B, 0x0C, 0x0D] := by
  dsimp only [State.canEmit, Pipe.wf, Pipe.inBounds]
  decide

/-- `TXF` with room for the open handler's frames and for one byte of the reply. -/
def cramped : State :=
  { pol with
    build := { small .polled false 8 with
      capacity := 5 * (Config.hStartup 0 0#8 0#8 0#8).frames.length + 1 }
    txf := { holding 0 [] with
      buf := List.replicate (5 * (Config.hStartup 0 0#8 0#8 0#8).frames.length + 1) 0#8 }
    turn := 64 * ((Config.hStartup 0 0#8 0#8 0#8).frames.length + 1) }

theorem witness_ReplyThatDoesNotFitIsReported_frames :
    cramped.ready = true ∧ cramped.polled = true ∧ ackOf 0x84#8 = true
      ∧ cramped.canEmit (5 * (Config.hStartup 0 0#8 0#8 0#8).frames.length + 1)
      ∧ cramped.txf.count + 5 * (Config.hStartup 0 0#8 0#8 0#8).frames.length + 1
          = cramped.build.capacity
      ∧ 64 * ((Config.hStartup 0 0#8 0#8 0#8).frames.length + 1) ≤ cramped.turn
      ∧ ∃ a u, handler ⟨0x84#8, 0#8, 0#8, 0#8⟩ ((cramped.setTodo []).respond .pending)
          = .sending (Config.hStartup 0 0#8 0#8 0#8).frames a u := by
  refine ⟨?_, rfl, by decide, ?_, ?_, Nat.le_refl _, ⟨_, _, rfl⟩⟩
  · simp [cramped, State.ready, State.canAsk, State.mayAct, Build.ok, small, pol, start,
      State.afterReset, Local.idle, Build.sectorBase]
  · refine ⟨rfl, ⟨⟨?_, ?_, ?_⟩, ?_, ?_⟩, ?_, rfl, fun h => ?_⟩
    all_goals simp_all [cramped, holding, small, pol, start, State.threaded]
  · simp [cramped, holding, small]

theorem witness_ReplyThatDoesNotFitIsReported_four :
    (withTx 6 [1#8, 2#8, 3#8, 4#8] pol).ready = true
      ∧ (withTx 6 [1#8, 2#8, 3#8, 4#8] pol).polled = true
      ∧ (withTx 6 [1#8, 2#8, 3#8, 4#8] pol).canEmit 4
      ∧ 64 ≤ (withTx 6 [1#8, 2#8, 3#8, 4#8] pol).turn
      ∧ (withTx 6 [1#8, 2#8, 3#8, 4#8] pol).txf.count + 4
          = (withTx 6 [1#8, 2#8, 3#8, 4#8] pol).build.capacity := by
  dsimp only [State.canEmit, Pipe.wf, Pipe.inBounds]
  decide

end Sys2Proof.Tests
end

section
/-! The flash invariant over a step (R11, R31): only the sequencer's command and a restart write flash, and both
keep it canonical and inside the modelled sector. -/

namespace Sys2Proof.Machine

variable {s t : State}

/-- The flash invariant speaks of the parameters and the flash content alone. -/
theorem flashInv_congr (hb : t.build = s.build) (hf : t.flash = s.flash) (h : s.flashInv) :
    t.flashInv := by
  unfold State.flashInv State.flashWf State.inSector at *
  rw [hb, hf]
  exact h

/-- Whether the sequencer rests or executes its command, the flash invariant stays (R185, R186). -/
theorem FlashStepOf.keeps_flashInv (h : FlashStepOf s t) (hb : t.build = s.build)
    (hs : s.flashInv) : t.flashInv := by
  rcases h with ⟨hf, _⟩ | ⟨d, o, r, u, _, _, _, hu, hf, _⟩
  · exact flashInv_congr hb hf hs
  · have hub : u.build = s.build := by
      obtain ⟨_, rfl, _⟩ := sequencerStep_ok hu
      rfl
    have hui : u.flashInv := ⟨hub ▸ hs.1, sequencerStep_wf (s := s.setDraws r) hs.1 hs.2 hu⟩
    exact flashInv_congr (hb.trans hub.symm) hf hui

/-- A restart tears only bytes inside the sector, and leaves the list canonical (R45, R261; U27). -/
theorem restart_keeps_flashInv (hs : s.flashInv) : s.restart.flashInv := by
  obtain ⟨hok, hwf, hin⟩ := hs
  refine ⟨hok, tear_wf hwf, fun c hc => ?_⟩
  rcases mem_tear hc with hrisk | hold
  · exact atRisk_inSector hok hrisk
  · exact hin c hold

/-- Settles O8: every kind of change a step is made of keeps the flash invariant. -/
theorem stepKeepsFlashCanonical : Obligations.StepKeepsFlashCanonical := by
  unfold Obligations.StepKeepsFlashCanonical
  intro s t hs h
  exact step_keeps (P := State.flashInv)
    (atomic := fun _ _ _ hs ha => flashInv_congr ha.build ha.flash.1 hs)
    (begun := fun _ _ _ hs _ _ hb => flashInv_congr hb.build hb.flash.1 hs)
    (part := fun _ _ _ _ hs _ hm =>
      (micro_change hm).flash.keeps_flashInv (micro_change hm).build hs)
    (startUp := fun _ _ hs _ _ => hs)
    (switch := fun _ _ _ _ hs => flashInv_congr (by simp) (by simp) hs)
    (restart := fun _ _ => restart_keeps_flashInv hs)
    hs h

end Sys2Proof.Machine
end

section
/-! Blocked callers (R15, R126, R272): which part each blocking form stands at, that it has no step there, and what
the forms leave unchanged. -/

namespace Sys2Proof.Machine

variable {s t : State} {p : PipeId}

/-! ### What a blocking form begins with, where its agent may ask for it -/

theorem exec_semWait_txlock (hr : s.ready = true) (ht : s.threaded = true)
    (hm : s.maySend = true) : exec (.semWait .txlock) s = begin [.semWait .txlock, .hold] s := by
  simp [exec, execSemWait, issue_ready hr, State.semExists, ht, hm]

theorem exec_frPutB (c p1 p2 p3 : Byte) (hr : s.ready = true) (ht : s.threaded = true)
    (hm : s.maySend = true) (hi : s.txf.inited = true) :
    exec (.frPutB c p1 p2 p3) s = begin (emission ⟨c, p1, p2, p3⟩ s) s := by
  simp [exec, execFrPutB, issue_ready hr, ht, hm, hi]

theorem exec_pipePutB (b : Byte) (hr : s.ready = true) (hm : s.mayPutB p = true) :
    exec (.pipePutB p b) s
      = begin (putBParts p b s ++ [.ret .done]) (s.notePut p (putsUnderLock p s)) := by
  obtain ⟨ht, hi, hp⟩ := mayPutB_iff hm
  simp [exec, execPipePutB, issue_ready hr, State.ready.mayAct hr, ht, hi, hp]

theorem exec_pipeGetB (hr : s.ready = true) (hm : s.mayGetB p = true) :
    exec (.pipeGetB p) s = begin (getBParts p (.pipeTake p) s) (s.noteGet p) := by
  obtain ⟨ht, hi, hg⟩ := mayGetB_iff hm
  simp [exec, execPipeGetB, issue_ready hr, State.ready.mayAct hr, ht, hi, hg]

theorem exec_seqWait (hr : s.ready = true) : exec .seqWait s = begin [.seqWait] s := by
  simp [exec, execSeqWait, issue_ready hr, State.ready.mayAct hr]

/-- FR_PUT_B's parts (R146). -/
theorem emission_of_threaded (f : Frame) (h : s.threaded = true) :
    emission f s = [.semWait .txlock, .emitBegin f, .emitB] := by
  simp [emission, h]

/-- PIPE_PUT_B begins at line 1, on `space`, with or without the lock (R124). -/
theorem putBParts_head (p : PipeId) (b : Byte) (s : State) :
    ∃ r, putBParts p b s = .semWait (.space p) :: r := by
  unfold putBParts
  split <;> exact ⟨_, rfl⟩

/-- PIPE_GET_B begins at line 1, on `items`, with or without the lock (R125). -/
theorem getBParts_head (p : PipeId) (m : Micro) (s : State) :
    ∃ r, getBParts p m s = .semWait (.items p) :: r := by
  unfold getBParts
  split <;> exact ⟨_, rfl⟩

/-! ### Where a caller has no step -/

/-- SEM_WAIT at a count of 0 has no step (R126). -/
theorem micro_semWait_zero {x : Sem} (h : semValue x s = 0) : micro (.semWait x) s = .wait :=
  if_pos h

/-- SEQ_WAIT has no step while a command is in flight that the environment does not answer (R183, R272). -/
theorem micro_seqWait_unanswered (hc : s.seq.complete = false) (hd : s.draws = []) :
    micro .seqWait s = .wait := by
  simp [micro, seqWaitPart, awaitSequencer, sequencerTurn, hc, hd]

/-- An operation that begins with a SEM_WAIT at a count of 0 is blocked. -/
theorem begin_semWait_blocked {x : Sem} (l : List Micro) (h : semValue x s = 0) :
    ∃ t, begin (.semWait x :: l) s = .next t ∧ blocked s t :=
  begin_blocked (micro_semWait_zero (by
    rwa [semValue_setTodo, semValue_respond, semValue_setTodo]))

/-- A turn that reaches a part without a step ends there. -/
theorem run_of_steps_to_wait {k n : Nat} {m : Micro} {l : List Micro} (h : Steps k s t) (hn : k ≤ n)
    (hl : t.me.todo = m :: l) (hm : micro m (t.setTodo l) = .wait) : run n s = .next t := by
  rw [show n = (n - k) + k by omega, h, run_wait hl hm]

/-! ### FR_PUT_B inside its loop -/

/-- The state FR_PUT_B is blocked in after `k` of its bytes: `TXF` as it is then, `TXLOCK` taken, the emission at
`k`, and `r` still to do. -/
def insideLoop (f : Frame) (k : Nat) (q : Pipe) (r : List Micro) (s : State) : State :=
  (((((s.notePut .txf true).setTxlock (s.txlock - 1)).setPipe .txf q).setTodo r).setTxe
    (some ⟨f, k⟩))

/-- An emission under way differs from its beginning in `TXF`, its note and `TXLOCK`, and in what its agent
carries. -/
theorem onlyTxf_insideLoop (f : Frame) (k : Nat) (q : Pipe) (r : List Micro) (s : State) :
    onlyTxf s (insideLoop f k q r s) := by
  unfold insideLoop
  rcases notePut_set .txf true s with e | ⟨u, e⟩ <;> rw [e] <;>
  exact ⟨rfl, rfl, rfl, fun _ => rfl, ⟨rfl, rfl, rfl, rfl⟩, ⟨⟨rfl, rfl⟩, rfl, rfl⟩,
    ⟨rfl, rfl, rfl, rfl, rfl⟩, rfl, rfl⟩

/-- FR_PUT_B with room for `k` of its five bytes puts those and has no step at the next one's line 1, however long
its turn (R146, R272). -/
theorem run_emission_waits {f : Frame} {k n : Nat} {l : List Micro} (ht : s.threaded = true)
    (hc : s.canEmit k) (hk : k < 5) (hsp : s.txf.space = k) (hl : s.me.todo = emission f s ++ l)
    (hn : 38 ≤ n) :
    ∃ q r, run n s = .next (insideLoop f k q (.semWait (.space .txf) :: r) s)
      ∧ s.txf.grewBy s.build.capacity true ((frameBytes f).take k) q
      ∧ ∀ n, run n (insideLoop f k q (.semWait (.space .txf) :: r) s)
        = .next (insideLoop f k q (.semWait (.space .txf) :: r) s) := by
  obtain ⟨q, j, _, r, hj, hg, hq, hst, _⟩ := emission_waits hk ht hc hsp hl
  have hw : micro (.semWait (.space .txf))
      ((insideLoop f k q (.semWait (.space .txf) :: r) s).setTodo r) = .wait :=
    micro_semWait_zero hq
  exact ⟨q, r, run_of_steps_to_wait hst (by omega) rfl hw, hg, run_wait rfl hw⟩

/-- Settles O23, form by form: each stands at a SEM_WAIT whose count is 0, or at SEQ_WAIT without an answer. -/
theorem blockedCallerHasNoStep : Obligations.BlockedCallerHasNoStep := by
  unfold Obligations.BlockedCallerHasNoStep
  intro s hr
  refine ⟨fun ht hm hz => ⟨?semWait, fun hi c p1 p2 p3 => ?frPutB⟩, fun p b hm hz => ?putB,
    fun p hm hz => ?getB, fun hc hd => ?seqWait, fun f k ht hm hc hk hsp hn => ?inside⟩
  case semWait =>
    rw [exec_semWait_txlock hr ht hm]
    exact begin_semWait_blocked _ hz
  case frPutB =>
    rw [exec_frPutB c p1 p2 p3 hr ht hm hi, emission_of_threaded _ ht]
    exact begin_semWait_blocked _ hz
  case putB =>
    obtain ⟨r, hl⟩ := putBParts_head p b s
    rw [exec_pipePutB b hr hm, hl]
    exact begin_semWait_blocked _ (by simpa [semValue] using hz)
  case getB =>
    obtain ⟨r, hl⟩ := getBParts_head p (.pipeTake p) s
    rw [exec_pipeGetB hr hm, hl]
    exact begin_semWait_blocked _ (by simpa [semValue] using hz)
  case seqWait =>
    rw [exec_seqWait hr]
    exact begin_blocked (micro_seqWait_unanswered hc hd)
  case inside =>
    have ⟨hi, _, _, _, hfree⟩ := hc
    obtain ⟨q, r, hrun, hg, hw⟩ := run_emission_waits
      (s := (s.setTodo (emission f s)).respond .pending) (l := []) (n := s.turn) ht hc hk hsp
      (List.append_nil _).symm (by omega)
    refine ⟨_, (exec_frPutB _ _ _ _ hr ht hm hi).trans hrun, hg, Nat.sub_add_cancel (hfree ht).1,
      onlyTxf_insideLoop f k q _ _, rfl, List.cons_ne_nil _ _, ?_, hw⟩
    simp [insideLoop]

end Sys2Proof.Machine
end

section
/-! What holds between any two steps of the parameters, the codec's and the sequencer's registers, and of flash where
no answer is used (R27, R31, R36, R42, R45, R142, R184). -/

namespace Sys2Proof.Machine

variable {s t : State} {m : Micro}

/-! ### Parameters -/

/-- Settles O13: no kind of change a step is made of writes a parameter. -/
theorem stepKeepsParameters : Obligations.StepKeepsParameters := by
  unfold Obligations.StepKeepsParameters
  intro s t h
  exact step_keeps (P := fun u => u.build = s.build)
    (atomic := fun _ _ _ hs ha => ha.build.trans hs)
    (begun := fun _ _ _ hs _ _ hb => hb.build.trans hs)
    (part := fun _ _ _ _ hs _ hm => (micro_change hm).build.trans hs)
    (startUp := fun _ _ hs _ _ => hs)
    (switch := fun _ _ _ _ hs => by simpa using hs)
    (restart := fun _ _ => rfl)
    rfl h

/-! ### The codec's and the sequencer's registers -/

/-- The invariant speaks of `FR.state` and `SEQ.*` alone. -/
theorem restInv_congr (h : s.restInv) (hf : t.fr = s.fr) (hq : t.seq = s.seq) : t.restInv := by
  unfold State.restInv State.codecRests State.sequencerWf at *
  rw [hf, hq]
  exact h

/-- A byte given to the codec leaves it resting (R142). -/
theorem restInv_takeByte {b : Byte} {c : Codec} (h : s.restInv) (hf : t.fr = (c.takeByte b).1)
    (hq : t.seq = s.seq) : t.restInv :=
  ⟨by unfold State.codecRests; rw [hf]; exact takeByte_rests b c,
    by unfold State.sequencerWf; rw [hq]; exact h.2⟩

/-- CODEC_INIT leaves the codec resting (R140). -/
theorem restInv_codecInit (h : s.restInv) (hf : t.fr.state = .awaitCommand)
    (hq : t.seq = s.seq) : t.restInv :=
  ⟨by unfold State.codecRests; rw [hf]; simp, by unfold State.sequencerWf; rw [hq]; exact h.2⟩

/-- A launch sets the command and clears `SEQ.complete` together, completion does the reverse (R182, R187). -/
theorem restInv_setSeq (h : s.restInv) (hf : t.fr = s.fr)
    (hq : t.seq.complete = t.seq.inflight.isNone) : t.restInv :=
  ⟨by unfold State.codecRests; rw [hf]; exact h.1, hq⟩

theorem Change.keeps_restInv (h : Change m s t) (hs : s.restInv) : t.restInv := by
  cases h with
  | sem x n l _ => exact restInv_congr hs (setSem_fr x n s).1 (setSem_fr x n s).2
  | put p | get p | init p | users p => exact restInv_congr hs (by simp) (by simp)
  | step l => exact restInv_takeByte hs rfl (by simp)
  | codec b l => exact restInv_takeByte hs rfl rfl
  | codecInit l => exact restInv_codecInit hs rfl rfl
  | launch d w f l _ _ => exact restInv_setSeq hs rfl rfl
  | exec d o r u l _ _ _ _ hu =>
    obtain ⟨f, rfl, _⟩ := sequencerStep_ok hu
    exact restInv_setSeq hs rfl rfl
  | carry | map | handler | write => exact restInv_congr hs rfl rfl

theorem Atomic.keeps_restInv {i : Instr} (h : Atomic i s t) (hs : s.restInv) : t.restInv := by
  cases h with
  | put p | get p | init p => exact restInv_congr hs (by simp) (by simp)
  | step r => exact restInv_takeByte hs rfl (by simp)
  | codec b r => exact restInv_takeByte hs rfl rfl
  | codecInit r => exact restInv_codecInit hs rfl rfl
  | launch d r _ _ _ => exact restInv_setSeq hs rfl rfl
  | answer | signal | nvInit | alloc => exact restInv_congr hs rfl rfl

theorem Begun.keeps_restInv {i : Instr} (h : Begun i s t) (hs : s.restInv) : t.restInv := by
  cases h with
  | parts l v _ _ _ _ hv =>
    rcases hv with rfl | ⟨p, u, rfl⟩
    · exact restInv_congr hs rfl rfl
    · exact restInv_congr hs (by simp) (by simp)
  | launched d _ _ _ => exact restInv_setSeq hs rfl rfl
  | accepted j _ _ => exact restInv_congr hs rfl rfl

/-- Settles O10: every kind of change a step is made of leaves the codec resting and the sequencer consistent. -/
theorem stepKeepsRestingStates : Obligations.StepKeepsRestingStates := by
  unfold Obligations.StepKeepsRestingStates
  intro s t hs h
  exact step_keeps (P := State.restInv)
    (atomic := fun _ _ _ hs ha => ha.keeps_restInv hs)
    (begun := fun _ _ _ hs _ _ hb => hb.keeps_restInv hs)
    (part := fun s _ _ l hs _ hm => (micro_change hm).keeps_restInv (s := s.setTodo l) hs)
    (startUp := fun _ _ hs _ _ => hs)
    (switch := fun _ _ _ _ hs => restInv_congr hs (by simp) (by simp))
    (restart := fun _ _ => ⟨by simp [State.codecRests, State.restart, State.afterReset], rfl⟩)
    hs h

/-! ### Flash -/

/-- Flash and the coming answers are as before, or answers have been used. -/
def flashOrAnswered (s t : State) : Prop :=
  (t.flash = s.flash ∧ t.draws = s.draws) ∨ t.draws.length < s.draws.length

theorem flashOrAnswered_trans {u : State} (h : flashOrAnswered s t) (h' : flashOrAnswered t u) :
    flashOrAnswered s u := by
  unfold flashOrAnswered at *
  rcases h with ⟨hf, hd⟩ | h <;> rcases h' with ⟨hf', hd'⟩ | h'
  · exact .inl ⟨hf'.trans hf, hd'.trans hd⟩
  · exact .inr (hd ▸ h')
  · exact .inr (hd' ▸ h)
  · exact .inr (h'.trans h)

/-- The sequencer uses an answer for each command it executes (R184). -/
theorem FlashStepOf.flashOrAnswered (h : FlashStepOf s t) : flashOrAnswered s t := by
  rcases h with h | ⟨d, o, r, u, _, _, hr, _, _, ht⟩
  · exact .inl h
  · exact .inr (by rw [ht, hr]; exact Nat.lt_succ_self _)

/-- A step that is no restart changes flash only where it uses an answer. -/
theorem step_flashOrAnswered (h : step s = .next t) (hq : ∀ q, s.queue ≠ .restart :: q) :
    flashOrAnswered s t :=
  step_keeps (P := flashOrAnswered s)
    (atomic := fun _ _ _ hs ha => flashOrAnswered_trans hs (.inl ha.flash))
    (begun := fun _ _ _ hs _ _ hb => flashOrAnswered_trans hs (.inl hb.flash))
    (part := fun u _ _ l hs _ hm =>
      flashOrAnswered_trans (t := u.setTodo l) hs (micro_change hm).flash.flashOrAnswered)
    (startUp := fun _ _ hs _ _ => hs)
    (switch := fun _ _ _ _ hs => flashOrAnswered_trans hs (.inl ⟨by simp, by simp⟩))
    (restart := fun q h => absurd h (hq q))
    (.inl ⟨rfl, rfl⟩) h

/-- A byte reads as before where the parameters and the flash content are as before. -/
theorem flashByte_congr (hb : t.build = s.build) (hf : t.flash = s.flash) (a : Nat) :
    t.flashByte a = s.flashByte a := by
  unfold State.flashByte
  rw [hb, hf]

/-- A restart tears only the bytes at risk (R45; U27). -/
theorem restart_flashByte (hs : s.flashWf) {a : Nat} (ha : a ∉ s.atRisk) :
    s.restart.flashByte a = s.flashByte a :=
  tear_read hs.1 ha

theorem step_restart {q : List Event} (hq : s.queue = .restart :: q) :
    step s = .next (s.take q s.turn).restart := by
  unfold step
  rw [hq]
  rfl

/-- Settles O12: a restart tears the bytes at risk only; every other step leaves flash alone unless it uses an
answer. -/
theorem flashIsWrittenOnlyBySequencer : Obligations.FlashIsWrittenOnlyBySequencer := by
  unfold Obligations.FlashIsWrittenOnlyBySequencer
  intro s t hs h hd a
  by_cases hq : ∃ q, s.queue = .restart :: q
  · by_cases ha : a ∈ s.atRisk
    · exact .inr ⟨hq, ha⟩
    · obtain ⟨q, hq⟩ := hq
      rw [step_restart hq] at h
      cases h
      exact .inl (restart_flashByte (s := s.take q s.turn) hs ha)
  · have hkept : t.flash = s.flash := by
      rcases step_flashOrAnswered h (fun q hr => hq ⟨q, hr⟩) with ⟨hf, _⟩ | hlt
      · exact hf
      · rw [hd] at hlt
        exact absurd hlt (Nat.lt_irrefl _)
    exact .inl (flashByte_congr (stepKeepsParameters s t h) hkept a)

/-! ### Restart and reset -/

/-- Settles O6: the restarted state is the one after reset but for flash, of which it keeps what was not at risk. -/
theorem restartLeavesResetValues : Obligations.RestartLeavesResetValues := by
  unfold Obligations.RestartLeavesResetValues
  intro s q hq
  refine ⟨_, step_restart hq, fun hc => ?idle, fun hs a ha => ?torn, rfl, rfl, rfl, rfl, rfl, rfl,
    fun p => ?pipe, rfl, rfl, rfl, rfl, rfl, rfl⟩
  case idle => exact flashByte_congr rfl (restart_flash (s := s.take q s.turn) hc)
  case torn => exact restart_flashByte (s := s.take q s.turn) hs ha
  case pipe => cases p <;> exact ⟨rfl, rfl, rfl, rfl⟩

/-- Right after reset nobody has taken anything from a semaphore's account. -/
theorem afterReset_owes (b : Build) (flash : List Host.Cell) (x : Sem) :
    (State.afterReset b flash).owes x = 0 := by
  simp [State.owes, State.afterReset, Local.idle, Local.owes]

theorem afterReset_pipe (b : Build) (flash : List Host.Cell) (p : PipeId) :
    (State.afterReset b flash).pipe p = Pipe.reset b.capacity := by
  cases p <;> rfl

/-- An agent with nothing under way is well placed. -/
theorem idle_wf : Local.idle.wf := ⟨fun _ => trivial, trivial⟩

/-- A threaded build right after reset meets the invariants of its pipes (R22, R24, R25, R44). -/
theorem afterReset_threadedPipesWf {b : Build} (flash : List Host.Cell) (hc : 1 ≤ b.capacity)
    (hr : b.regime = .threaded) : (State.afterReset b flash).threadedPipesWf := by
  refine ⟨decide_eq_true hr, hc, by simp [State.agentsWf, State.afterReset], idle_wf,
    fun y hy => absurd hy List.not_mem_nil, fun x => adds_iff.mpr ?_, fun p => ?_⟩
  · have hb : (State.afterReset b flash).build = b := rfl
    have hl : (State.afterReset b flash).txlock = 1 := rfl
    rw [afterReset_owes]
    cases x <;> simp [acc, total, afterReset_pipe, Pipe.reset, hb, hl]
  · obtain ⟨hin, _, he⟩ := wf_reset hc
    rw [afterReset_pipe]
    exact ⟨hin, he⟩

/-- A polled build right after reset meets the invariants of its pipes (R22, R44). -/
theorem afterReset_polledPipesWf {b : Build} (flash : List Host.Cell) (hc : 1 ≤ b.capacity)
    (hr : b.regime = .polled) : (State.afterReset b flash).polledPipesWf :=
  ⟨decide_eq_true hr, hc, ⟨fun _ hm => absurd hm List.not_mem_nil,
    fun _ hx => absurd hx List.not_mem_nil⟩, wf_reset hc, wf_reset hc⟩

/-- Settles O9: the reset state is the polled build's right after reset, with the reference parameters and flash
unlisted. -/
theorem resetMeetsTheInvariants : Obligations.ResetMeetsTheInvariants := by
  unfold Obligations.ResetMeetsTheInvariants
  refine ⟨⟨by decide, reset_memory_wf, fun c hc => absurd hc List.not_mem_nil⟩,
    ⟨by simp [State.codecRests, State.reset, State.afterReset], rfl⟩,
    afterReset_polledPipesWf [] (by decide) rfl,
    fun b flash hb hr => afterReset_threadedPipesWf flash ?_ hr⟩
  obtain ⟨_, _, _, _, _, _, _, _, hc⟩ := build_facts hb
  exact hc

end Sys2Proof.Machine
end

section
/-! Which parts and operations may write which registers (R26, R30, R37, R41). -/

namespace Sys2Proof.Machine

variable {s t u : State} {m : Micro} {i : Instr} {K : Kind → Prop}

/-! ### What each kind of part may write -/

/-- The registers of the block outside pipes and semaphores, with the parameters. -/
def State.registers (s : State) :=
  (s.build, s.alloc, s.nvNumber, s.nvMode, s.fr, s.protoMode, s.rtc, s.cmd, s.seq, s.ws, s.flash)

/-- Those registers are as before, but for the ones that parts of the kinds in `K` may write: the codec's, a
handler's, and the sequencer's with flash. The allocation map and the handles are no such part's. -/
structure Keeps (K : Kind → Prop) (s t : State) : Prop where
  build : t.build = s.build
  alloc : t.alloc = s.alloc
  handles : sameHandles s t
  codec : ¬ K .codec → t.fr = s.fr
  handlers : ¬ K .handle → t.protoMode = s.protoMode ∧ t.rtc = s.rtc
  store : ¬ K .store → ¬ K .handle → sameSequencer s t ∧ t.flash = s.flash

/-- What writes none of those registers keeps them all. -/
theorem Keeps.of_registers (h : t.registers = s.registers) : Keeps K s t := by
  simp only [State.registers, Prod.mk.injEq] at h
  obtain ⟨hb, ha, hn, hm, hf, hp, hr, hc, hq, hw, hl⟩ := h
  exact ⟨hb, ha, ⟨hn, hm⟩, fun _ => hf, fun _ => ⟨hp, hr⟩, fun _ _ => ⟨⟨hc, hq, hw⟩, hl⟩⟩

theorem Keeps.trans (h : Keeps K s t) (h' : Keeps K t u) : Keeps K s u where
  build := h'.build.trans h.build
  alloc := h'.alloc.trans h.alloc
  handles := ⟨h'.handles.1.trans h.handles.1, h'.handles.2.trans h.handles.2⟩
  codec hK := (h'.codec hK).trans (h.codec hK)
  handlers hK :=
    ⟨(h'.handlers hK).1.trans (h.handlers hK).1, (h'.handlers hK).2.trans (h.handlers hK).2⟩
  store hK hK' := by
    obtain ⟨⟨hc, hq, hw⟩, hf⟩ := h.store hK hK'
    obtain ⟨⟨hc', hq', hw'⟩, hf'⟩ := h'.store hK hK'
    exact ⟨⟨hc'.trans hc, hq'.trans hq, hw'.trans hw⟩, hf'.trans hf⟩

/-- Only the codec's registers are written. -/
theorem Keeps.of_codec (hK : K .codec) {c : Codec} (h : t.registers = (s.setFr c).registers) :
    Keeps K s t := by
  have h' : Keeps K (s.setFr c) t := .of_registers h
  exact ⟨h'.build, h'.alloc, h'.handles, fun hn => absurd hK hn, h'.handlers, h'.store⟩

/-- Only the protocol mode and the clock are written. -/
theorem Keeps.of_handler (hK : K .handle) {b : BitVec 1} {r : Rtc}
    (h : t.registers = ((s.setProto b).setRtc r).registers) : Keeps K s t := by
  have h' : Keeps K ((s.setProto b).setRtc r) t := .of_registers h
  exact ⟨h'.build, h'.alloc, h'.handles, h'.codec, fun hn => absurd hK hn, h'.store⟩

/-- Only the sequencer's and the write path's registers and flash are written. -/
theorem Keeps.of_store (hK : K .store ∨ K .handle) {d : Descriptor} {q : Sequencer} {w : WritePath}
    {f : List Host.Cell}
    (h : t.registers = (((s.setSeq d q).setWs w).setFlash f).registers) : Keeps K s t := by
  have h' : Keeps K (((s.setSeq d q).setWs w).setFlash f) t := .of_registers h
  exact ⟨h'.build, h'.alloc, h'.handles, h'.codec, h'.handlers,
    fun h1 h2 => absurd hK (not_or.mpr ⟨h1, h2⟩)⟩

theorem registers_setPipe (p : PipeId) (q : Pipe) (s : State) :
    (s.setPipe p q).registers = s.registers := by
  cases p <;> rfl

theorem registers_setUsers (p : PipeId) (v : Users) (s : State) :
    (s.setUsers p v).registers = s.registers := by
  cases p <;> rfl

theorem registers_setSem (x : Sem) (n : Nat) (s : State) :
    (setSem x n s).registers = s.registers := by
  cases x with
  | space p | items p | lock p => exact registers_setPipe p _ s
  | txlock => rfl

/-- A part of an operation writes only the registers of its kind. -/
theorem Change.keeps (h : Change m s t) (hs : m.kind ≠ .start) (hm : K m.kind) : Keeps K s t := by
  cases h with
  | carry => exact .of_registers rfl
  | put p | get p => exact .of_registers (registers_setPipe p _ s)
  | users p => exact .of_registers (registers_setUsers p _ s)
  | sem x n => exact .of_registers (registers_setSem x n s)
  | step l _ hk =>
    have hK : K .codec := by rcases hk with rfl | ⟨rfl, _⟩ <;> exact hm
    exact .of_codec hK rfl
  | codec b l hk => exact .of_codec (by rw [hk] at hm; exact hm) rfl
  | init p l hk | codecInit l hk => exact absurd (by rw [hk]; rfl) hs
  | map a n d l hk => exact absurd (by rcases hk with rfl | rfl | rfl <;> rfl) hs
  | handler b r f l hk =>
    obtain ⟨f, rfl⟩ := hk
    exact .of_handler (b := b) (r := r) hm rfl
  | write w l hk =>
    have hK : K .store ∨ K .handle := by
      rcases hk with rfl | ⟨f, rfl⟩
      · exact .inl hm
      · exact .inr hm
    exact .of_store (d := s.cmd) (q := s.seq) (f := s.flash) hK rfl
  | launch d w f l hk =>
    exact .of_store (f := s.flash) (.inl (by rw [hk] at hm; exact hm)) rfl
  | exec d o r u l hk _ _ _ hu =>
    have hK : K .store := by rcases hk with rfl | rfl | rfl <;> exact hm
    obtain ⟨f, rfl, _⟩ := sequencerStep_ok hu
    exact .of_store (w := s.ws) (.inl hK) rfl

/-! ### What each operation may write -/

/-- The kinds of an operation's parts are closed under what one part leaves to the next. -/
theorem mayDo_leads {a b : Kind} (ha : mayDo i a) (h : a.leads b) : mayDo i b := by
  have hplain : mayDo i .plain := by cases i <;> simp [mayDo]
  rcases h with rfl | rfl | ⟨rfl, rfl⟩ | rfl
  · exact hplain
  · exact ha
  · cases i <;> simp_all [mayDo]
  · cases i <;> simp_all [mayDo]

/-- No operation has parts of START_UP. -/
theorem not_mayDo_start : ¬ mayDo i .start := by cases i <;> simp [mayDo]

/-- Only the two operations that step the codec have parts that do. -/
theorem not_mayDo_codec (h : i ≠ .frStep) (h' : i ≠ .frGet) : ¬ mayDo i .codec := by
  cases i <;> simp_all [mayDo]

/-- Only an operation that dispatches has a handler's part. -/
theorem not_mayDo_handle (h : dispatches i = false) : ¬ mayDo i .handle := by
  cases i <;> simp_all [mayDo, dispatches]

/-- Only an operation that may reach the sequencer has parts that do. -/
theorem not_mayDo_store (h : reachesSequencer i = false) :
    ¬ mayDo i .store ∧ ¬ mayDo i .handle := by
  cases i <;> simp_all [mayDo, reachesSequencer]

/-- An operation's parts, run in one turn, write only registers of the operation's kinds. -/
theorem run_keeps_registers {n : Nat} (hk : ∀ m ∈ s.me.todo, mayDo i m.kind)
    (h : run n s = .next t) : Keeps (mayDo i) s t := by
  refine (run_keeps (P := fun u => (∀ m ∈ u.me.todo, mayDo i m.kind) ∧ Keeps (mayDo i) s u)
    (fun u v m l ⟨hu, hsu⟩ hl hm => ?_) n s t ⟨hk, .of_registers rfl⟩ h).2
  have hmi : mayDo i m.kind := hu m (hl ▸ List.mem_cons_self)
  have hl' : ∀ y ∈ l, mayDo i y.kind := fun y hy => hu y (hl ▸ List.mem_cons_of_mem m hy)
  have hstart : m.kind ≠ .start := fun he => not_mayDo_start (he ▸ hmi)
  have hpart : Keeps (mayDo i) (u.setTodo l) v := (micro_change hm).keeps hstart hmi
  have htodo : Keeps (mayDo i) u (u.setTodo l) := .of_registers rfl
  refine ⟨fun y hy => ?_, (hsu.trans htodo).trans hpart⟩
  rcases micro_todo hm hy with hold | ⟨hlead, _⟩
  · exact hl' y hold
  · exact mayDo_leads hmi hlead

/-- An operation that begins its parts has written only registers of its kinds, and has only such parts. -/
theorem Begun.keeps (h : Begun i s u) :
    (∀ m ∈ u.me.todo, mayDo i m.kind) ∧ Keeps (mayDo i) s u := by
  cases h with
  | parts l v hk _ _ _ hv =>
    refine ⟨hk, .of_registers ?_⟩
    rcases hv with rfl | ⟨p, w, rfl⟩
    · rfl
    · exact registers_setUsers p w s
  | launched d _ _ hk => exact ⟨by simpa [Micro.kind] using hk,
    .of_store (w := s.ws) (f := s.flash) (.inl hk) rfl⟩
  | accepted j _ hk =>
    exact ⟨by simpa [Micro.kind] using hk, .of_store (d := s.cmd) (q := s.seq) (f := s.flash) (.inl hk) rfl⟩

/-- The registers that an operation may not write are as before: the five clauses on operations. -/
def writesOnlyItsOwn (i : Instr) (s t : State) : Prop :=
  (i ≠ .nvInit → (∀ n, i ≠ .nvAlloc n) → t.alloc = s.alloc)
    ∧ (i ≠ .codecInit → i ≠ .frStep → i ≠ .frGet → t.fr = s.fr)
    ∧ sameHandles s t
    ∧ (dispatches i = false → t.protoMode = s.protoMode ∧ t.rtc = s.rtc)
    ∧ (reachesSequencer i = false → sameSequencer s t ∧ sameFlash s t)

theorem Keeps.writesOnlyItsOwn (h : Keeps K s t)
    (hc : i ≠ .codecInit → i ≠ .frStep → i ≠ .frGet → ¬ K .codec)
    (hh : dispatches i = false → ¬ K .handle)
    (hs : reachesSequencer i = false → ¬ K .store ∧ ¬ K .handle) : writesOnlyItsOwn i s t := by
  refine ⟨fun _ _ => h.alloc, fun h1 h2 h3 => h.codec (hc h1 h2 h3), h.handles,
    fun hd => h.handlers (hh hd), fun hr => ?_⟩
  obtain ⟨hseq, hf⟩ := h.store (hs hr).1 (hs hr).2
  exact ⟨hseq, flashByte_congr h.build hf⟩

/-- What writes none of the registers writes only an operation's own. -/
theorem writesOnlyItsOwn_of_registers (h : t.registers = s.registers) : writesOnlyItsOwn i s t :=
  (Keeps.of_registers (K := fun _ => False) h).writesOnlyItsOwn (fun _ _ _ => id) (fun _ => id)
    (fun _ => ⟨id, id⟩)

/-- An operation of the codec may write the codec's registers. -/
theorem writesOnlyItsOwn_of_codec (hi : i = .codecInit ∨ i = .frStep) {c : Codec}
    (h : t.registers = (s.setFr c).registers) : writesOnlyItsOwn i s t :=
  (Keeps.of_codec (K := (· = .codec)) rfl h).writesOnlyItsOwn
    (fun h1 h2 _ => absurd hi (not_or.mpr ⟨h1, h2⟩)) (fun _ => by simp) (fun _ => by simp)

/-- An operation that may reach the sequencer may write its registers, the write path's and flash. -/
theorem writesOnlyItsOwn_of_store (hi : reachesSequencer i = true) {d : Descriptor} {q : Sequencer}
    {w : WritePath} {f : List Host.Cell}
    (h : t.registers = (((s.setSeq d q).setWs w).setFlash f).registers) : writesOnlyItsOwn i s t :=
  (Keeps.of_store (K := (· = .store)) (.inl rfl) h).writesOnlyItsOwn (fun _ _ _ => by simp)
    (fun _ => by simp) (fun hn => absurd (hi.symm.trans hn) (by simp))

/-- NV_INIT and NV_ALLOC may write the allocation map. -/
theorem writesOnlyItsOwn_of_alloc (hi : i = .nvInit ∨ ∃ n, i = .nvAlloc n) {a : List Bool}
    (h : t.registers = (s.setAlloc a).registers) : writesOnlyItsOwn i s t := by
  obtain ⟨_, hrest⟩ := writesOnlyItsOwn_of_registers (i := i) h
  refine ⟨fun h1 h2 => ?_, hrest⟩
  rcases hi with hi | ⟨n, hi⟩
  · exact absurd hi h1
  · exact absurd hi (h2 n)

theorem Atomic.writesOnlyItsOwn (h : Atomic i s t) : writesOnlyItsOwn i s t := by
  cases h with
  | answer | signal => exact writesOnlyItsOwn_of_registers rfl
  | init p =>
    exact writesOnlyItsOwn_of_registers ((registers_setUsers p _ _).trans (registers_setPipe p _ s))
  | put p | get p => exact writesOnlyItsOwn_of_registers (registers_setPipe p _ s)
  | codecInit r hi => exact writesOnlyItsOwn_of_codec (.inl hi) rfl
  | codec b r hi => exact writesOnlyItsOwn_of_codec (.inr hi) rfl
  | step r hi => exact writesOnlyItsOwn_of_codec (.inr hi) rfl
  | nvInit r hi => exact writesOnlyItsOwn_of_alloc (.inl hi) rfl
  | alloc n p r hi => exact writesOnlyItsOwn_of_alloc (.inr ⟨n, hi⟩) rfl
  | launch d r hi =>
    exact writesOnlyItsOwn_of_store (d := d) (q := ⟨false, false, false, some d⟩) (w := s.ws)
      (f := s.flash) (by rw [hi]; rfl) rfl

theorem exec_writesOnlyItsOwn (h : exec i s = .next t) : writesOnlyItsOwn i s t := by
  obtain ⟨_, _, ha | ⟨u, hb, hr⟩⟩ := exec_next h
  · exact ha.writesOnlyItsOwn
  · obtain ⟨hk, hsu⟩ := hb.keeps
    exact (hsu.trans (run_keeps_registers hk hr)).writesOnlyItsOwn
      (fun _ h2 h3 => not_mayDo_codec h2 h3) not_mayDo_handle not_mayDo_store

/-! ### The handles over a step -/

/-- A handle that is set is not written again (R41). -/
def keepsSetHandles (s t : State) : Prop :=
  (s.nvNumber ≠ none → t.nvNumber = s.nvNumber) ∧ (s.nvMode ≠ none → t.nvMode = s.nvMode)

theorem keepsSetHandles_of_same (h : sameHandles s t) : keepsSetHandles s t :=
  ⟨fun _ => h.1, fun _ => h.2⟩

theorem keepsSetHandles_trans (h : keepsSetHandles s t) (h' : keepsSetHandles t u) :
    keepsSetHandles s u :=
  ⟨fun hn => (h'.1 (h.1 hn ▸ hn)).trans (h.1 hn), fun hn => (h'.2 (h.2 hn ▸ hn)).trans (h.2 hn)⟩

/-- Only START_UP's allocations write a handle, and only one that is unset (R204). -/
theorem Change.keepsSetHandles (h : Change m s t) : keepsSetHandles s t := by
  cases h with
  | map a n d l _ hn hd => exact ⟨fun h => hn.resolve_right h, fun h => hd.resolve_right h⟩
  | put p | get p | users p | init p => exact keepsSetHandles_of_same ⟨by simp, by simp⟩
  | sem x n =>
    obtain ⟨_, _, hn, hd, _⟩ := setSem_fields x n s
    exact keepsSetHandles_of_same ⟨hn, hd⟩
  | exec d o r u l _ _ _ _ hu =>
    obtain ⟨f, rfl, _⟩ := sequencerStep_ok hu
    exact keepsSetHandles_of_same ⟨rfl, rfl⟩
  | carry | step | codec | codecInit | handler | write | launch =>
    exact keepsSetHandles_of_same ⟨rfl, rfl⟩

theorem Atomic.keepsSetHandles (h : Atomic i s t) : keepsSetHandles s t := by
  obtain ⟨_, _, hh, _⟩ := h.writesOnlyItsOwn
  exact keepsSetHandles_of_same hh

/-- A step that is no restart changes no set handle. -/
theorem step_keepsSetHandles (h : step s = .next t) (hq : ∀ q, s.queue ≠ .restart :: q) :
    keepsSetHandles s t :=
  step_keeps (P := Machine.keepsSetHandles s)
    (atomic := fun _ _ _ hs ha => keepsSetHandles_trans hs ha.keepsSetHandles)
    (begun := fun _ _ _ hs _ _ hb =>
      keepsSetHandles_trans hs (keepsSetHandles_of_same hb.keeps.2.handles))
    (part := fun u _ _ l hs _ hm =>
      keepsSetHandles_trans (t := u.setTodo l) hs (micro_change hm).keepsSetHandles)
    (startUp := fun _ _ hs _ _ => hs)
    (switch := fun _ _ _ _ hs => keepsSetHandles_trans hs (keepsSetHandles_of_same ⟨by simp, by simp⟩))
    (restart := fun q h => absurd h (hq q))
    (keepsSetHandles_of_same ⟨rfl, rfl⟩) h

/-- Settles O14: an operation's parts write only registers of their kinds, and the parts of START_UP only a handle
that is unset. -/
theorem registersAreWrittenOnlyByTheirOperations :
    Obligations.RegistersAreWrittenOnlyByTheirOperations := by
  unfold Obligations.RegistersAreWrittenOnlyByTheirOperations
  exact ⟨fun _ _ _ h => exec_writesOnlyItsOwn h, fun _ _ h hq => step_keepsSetHandles h hq⟩

end Sys2Proof.Machine
end

section
/-! The Byte Pipe's polled operations as a queue: first in, first out (R22, R23, R121 to R123). -/

namespace Sys2Proof.Machine

variable {s t : State} {p : PipeId}

/-- PIPE_PUT where it may be asked for and performed (R121). -/
theorem exec_pipePut {b : Byte} (hc : s.canAsk = true) (hm : s.mayPutNow p = true) :
    exec (.pipePut p b) s
      = if (s.pipe p).count = s.build.capacity then .next (s.respond (.fail .capacityFull))
        else .next ((s.setPipe p ((s.pipe p).store s.build.capacity b)).respond (.flag true)) := by
  simp only [exec, execPipePut, issue_canAsk hc, pipePut_eq hm]
  split <;> rfl

/-- PIPE_GET where it may be asked for and performed (R122). -/
theorem exec_pipeGet (hc : s.canAsk = true) (hm : s.mayGetNow p = true) :
    exec (.pipeGet p) s
      = if (s.pipe p).count = 0 then .next (s.respond (.fail .capacityEmpty))
        else .next ((s.setPipe p ((s.pipe p).drop s.build.capacity)).respond
          (.byte (s.pipe p).oldest)) := by
  simp only [exec, execPipeGet, issue_canAsk hc, pipeGet_eq hm]
  split <;> rfl

/-- Settles O19: PIPE_PUT's and PIPE_GET's failing case, from their equations. -/
theorem failedPutAndGetChangeNothing : Obligations.FailedPutAndGetChangeNothing := by
  unfold Obligations.FailedPutAndGetChangeNothing
  intro p s hc
  refine ⟨fun b hm hfull => ?_, fun hm hempty => ?_⟩
  · rw [exec_pipePut hc hm, if_pos hfull]
  · rw [exec_pipeGet hc hm, if_pos hempty]

/-- What a PIPE_PUT that answers has done (R121). -/
theorem exec_pipePut_next {b : Byte} (h : exec (.pipePut p b) s = .next t) :
    t = s.respond (.fail .capacityFull) ∨ ((s.pipe p).full s.build.capacity = false
      ∧ t = (s.setPipe p ((s.pipe p).store s.build.capacity b)).respond (.flag true)) := by
  simp only [exec, execPipePut] at h
  obtain ⟨_, _, h⟩ := issue_next h
  obtain ⟨u, hu, rfl⟩ := map_ok (settle_next h)
  obtain ⟨_, _, _, ⟨_, rfl⟩ | ⟨hf, rfl⟩⟩ := pipePut_ok hu
  · exact .inl rfl
  · exact .inr ⟨hf, rfl⟩

/-- What a PIPE_GET that answers has done (R122). -/
theorem exec_pipeGet_next (h : exec (.pipeGet p) s = .next t) :
    t = s.respond (.fail .capacityEmpty) ∨ ((s.pipe p).count ≠ 0
      ∧ t = (s.setPipe p ((s.pipe p).drop s.build.capacity)).respond (.byte (s.pipe p).oldest)) := by
  simp only [exec, execPipeGet] at h
  obtain ⟨_, _, h⟩ := issue_next h
  obtain ⟨u, hu, rfl⟩ := map_ok (settle_next h)
  obtain ⟨_, _, _, ⟨_, rfl⟩ | ⟨hc, rfl⟩⟩ := pipeGet_ok hu
  · exact .inl rfl
  · exact .inr ⟨hc, rfl⟩

/-- One put or get conserves the bytes of its pipe, in order, and leaves the pipe well-formed and every agent
returned. -/
theorem exec_put_or_get_fifo {i : Instr} (hi : (∃ b, i = .pipePut p b) ∨ i = .pipeGet p)
    (hr : s.allReturned) (hw : (s.pipe p).wf s.build.capacity) (h : exec i s = .next t) :
    t.allReturned ∧ t.build = s.build ∧ (t.pipe p).wf s.build.capacity
      ∧ (s.pipe p).stored s.build.capacity ++ bytesPut [i] [t.me.resp]
        = bytesGot [t.me.resp] ++ (t.pipe p).stored s.build.capacity := by
  obtain ⟨b, rfl⟩ | rfl := hi
  · obtain rfl | ⟨hf, rfl⟩ := exec_pipePut_next h
    · exact ⟨hr, rfl, by simpa using hw, by simp [bytesPut, bytesGot]⟩
    · have hlt := lt_of_not_full hw hf
      refine ⟨by simpa [State.allReturned] using hr, by simp, by simpa using Pipe.wf_store hw hlt b, ?_⟩
      simp [bytesPut, bytesGot, Pipe.stored_store hw hlt b]
  · obtain rfl | ⟨hc, rfl⟩ := exec_pipeGet_next h
    · exact ⟨hr, rfl, by simpa using hw, by simp [bytesPut, bytesGot]⟩
    · have hpos := Nat.pos_of_ne_zero hc
      have ⟨⟨_, hstart, _⟩, _⟩ := hw
      refine ⟨by simpa [State.allReturned] using hr, by simp, by simpa using Pipe.wf_drop hw hpos, ?_⟩
      simpa [bytesPut, bytesGot] using Pipe.stored_drop hpos hstart

/-- The bytes put, one operation apart from the others. -/
theorem bytesPut_cons (i : Instr) (l : List Instr) (x : Response) (r : List Response) :
    bytesPut (i :: l) (x :: r) = bytesPut [i] [x] ++ bytesPut l r := by
  by_cases h : ∃ p b, i = .pipePut p b ∧ x = .flag true
  · obtain ⟨p, b, rfl, rfl⟩ := h
    rfl
  · have skip : ∀ l r, bytesPut (i :: l) (x :: r) = bytesPut l r := fun l r => by
      rw [bytesPut]
      exact fun p b hi hx => h ⟨p, b, hi, hx⟩
    rw [skip, skip]
    rfl

/-- The bytes got, one operation apart from the others. -/
theorem bytesGot_cons (x : Response) (r : List Response) :
    bytesGot (x :: r) = bytesGot [x] ++ bytesGot r :=
  List.filterMap_append (l := [x])

/-- A run of operations that all answer: the first one, and the rest from the state it leaves. -/
theorem trace_cons {i : Instr} {l : List Instr} {r : List Response}
    (h : trace (i :: l) s = some (r, t)) :
    ∃ u r', exec i (s.switchTo (issuer i)) = .next u ∧ trace l u = some (r', t)
      ∧ r = u.me.resp :: r' := by
  unfold trace at h
  split at h
  · rename_i u hu
    obtain ⟨⟨r', t'⟩, hl, he⟩ := Option.map_eq_some_iff.mp h
    cases he
    exact ⟨u, r', hu, hl, rfl⟩
  · cases h
  · cases h

/-- Settles O20, by induction on the operations: each conserves the pipe's bytes in order. -/
theorem putsAndGetsAreFifo : Obligations.PutsAndGetsAreFifo := by
  unfold Obligations.PutsAndGetsAreFifo
  intro p l
  induction l with
  | nil =>
    intro s t r _ _ _ h
    cases h
    simp [bytesPut, bytesGot]
  | cons i l ih =>
    intro s t r hr hw hl h
    obtain ⟨u, r', hu, hrest, rfl⟩ := trace_cons h
    obtain ⟨hru, hbu, hwu, hfifo⟩ := exec_put_or_get_fifo (hl i List.mem_cons_self)
      (switchTo_returned hr (issuer i)) (by simpa using hw) hu
    simp only [State.switchTo_build, State.switchTo_pipe] at hbu hwu hfifo
    have hih := ih u t r' hru (hbu ▸ hwu) (fun j hj => hl j (List.mem_cons_of_mem i hj)) hrest
    rw [hbu] at hih
    rw [bytesPut_cons, bytesGot_cons, ← List.append_assoc, hfifo, List.append_assoc, hih,
      List.append_assoc]

end Sys2Proof.Machine
end

section
/-! The pipes' invariants over a step of a polled build (R22). -/

namespace Sys2Proof.Machine

variable {s t : State} {m : Micro} {p : PipeId}

/-- What keeps the parameters, the agents' parts and the pipes keeps the invariant. -/
theorem polledPipesWf_congr (hb : t.build = s.build) (hp : s.polledPipesWf → t.polledParts)
    (hw : s.pipesWf s.build.capacity → t.pipesWf s.build.capacity) (h : s.polledPipesWf) :
    t.polledPipesWf := by
  have ⟨hpol, hc, _, hrx, htx⟩ := h
  refine ⟨(polled_congr hb).trans hpol, hb ▸ hc, hp h, ?_⟩
  rw [hb]
  exact hw ⟨hrx, htx⟩

/-- Pipes that are as before meet R22 as before. -/
theorem pipesWf_of_pipe {C : Nat} (h : ∀ p, t.pipe p = s.pipe p) (hs : s.pipesWf C) :
    t.pipesWf C := by
  have hwf : ∀ p, (t.pipe p).wf C := fun p => by rw [h p]; exact pipesWf_pipe hs p
  exact ⟨hwf .rxf, hwf .txf⟩

/-- A put that finds room keeps both pipes' invariants. -/
theorem pipesWf_store {C : Nat} (hw : s.pipesWf C) (p : PipeId) (b : Byte)
    (hf : (s.pipe p).full C = false) : (s.setPipe p ((s.pipe p).store C b)).pipesWf C :=
  have hp := pipesWf_pipe hw p
  pipesWf_set hw p (Pipe.wf_store hp (lt_of_not_full hp hf) b)

/-- A get that finds a byte keeps both pipes' invariants. -/
theorem pipesWf_drop {C : Nat} (hw : s.pipesWf C) (p : PipeId) (hne : (s.pipe p).count ≠ 0) :
    (s.setPipe p ((s.pipe p).drop C)).pipesWf C :=
  pipesWf_set hw p (Pipe.wf_drop (pipesWf_pipe hw p) (Nat.pos_of_ne_zero hne))

/-- PIPE_INIT keeps both pipes' invariants. -/
theorem pipesWf_init (hc : 1 ≤ s.build.capacity) (hw : s.pipesWf s.build.capacity) (p : PipeId)
    (u : Users) :
    ((s.setPipe p ((s.pipe p).init s)).setUsers p u).pipesWf s.build.capacity :=
  pipesWf_of_pipe (fun q => by cases p <;> cases q <;> rfl)
    (pipesWf_set hw p (wf_init (pipesWf_pipe hw p) hc s))

/-- A part that no blocking form has keeps both pipes' invariants: a put finds room, a get a byte (R22). -/
theorem Change.pipesWf (h : Change m s t) (hm : m.threadedOnly = false)
    (hc : 1 ≤ s.build.capacity) (hw : s.pipesWf s.build.capacity) :
    t.pipesWf s.build.capacity := by
  cases h with
  | put p b l _ hf =>
    rcases hf with rfl | ⟨_, _, _, _, hf⟩
    · cases hm
    · exact pipesWf_store hw p b hf
  | get p l _ hk => subst hk; cases hm
  | step l _ hk =>
    rcases hk with rfl | ⟨_, _, hne⟩
    · cases hm
    · exact pipesWf_drop hw .rxf hne
  | init p l _ => exact pipesWf_init hc hw p _
  | sem x n l _ => exact pipesWf_sem hw x n
  | users p u l _ => exact pipesWf_of_pipe (fun q => by cases p <;> cases q <;> rfl) hw
  | exec d o r u l _ _ _ _ hu =>
    obtain ⟨f, rfl, _⟩ := sequencerStep_ok hu
    exact hw
  | carry | codec | codecInit | map | handler | write | launch => exact hw

theorem Atomic.pipesWf {i : Instr} (h : Atomic i s t)
    (hc : 1 ≤ s.build.capacity) (hw : s.pipesWf s.build.capacity) :
    t.pipesWf s.build.capacity := by
  cases h with
  | put p b r _ _ hf =>
    exact pipesWf_store hw p b hf
  | get p r _ _ hne =>
    exact pipesWf_drop hw p hne
  | step r _ _ hne => exact pipesWf_drop hw .rxf hne
  | init p => exact pipesWf_init hc hw p _
  | answer | signal | codecInit | codec | nvInit | alloc | launch => exact hw

theorem Begun.pipe {i : Instr} (h : Begun i s t) (p : PipeId) : t.pipe p = s.pipe p := by
  cases h with
  | parts l v _ _ _ _ hv =>
    rcases hv with rfl | ⟨q, u, rfl⟩
    · cases p <;> rfl
    · cases p <;> cases q <;> rfl
  | launched | accepted => cases p <;> rfl

/-- The parts an operation begins with are none of a blocking form in a polled build (R129). -/
theorem Begun.fits {i : Instr} (h : Begun i s t) (hs : s.polled = true) :
    ∀ m ∈ t.me.todo, m.threadedOnly = false := by
  cases h with
  | parts l v _ hf _ _ _ => exact fun m hm => hf m hm hs
  | launched | accepted => simp [Micro.threadedOnly]

/-- No part of START_UP is one of a blocking form. -/
theorem startParts_fit {l : List Micro} (h : l = startUpParts ∨ l = startHandleParts s) :
    ∀ m ∈ l, m.threadedOnly = false := by
  rcases h with rfl | rfl
  · simp [startUpParts, Micro.threadedOnly]
  · unfold startHandleParts
    split <;> simp [Micro.threadedOnly]

/-- What an agent carries once it runs was carried by the running or a parked agent, or is nothing. -/
theorem switchTo_me_cases (a : Agent) (s : State) :
    (s.switchTo a).me = s.me ∨ (∃ y ∈ s.parked, (s.switchTo a).me = y.2)
      ∨ (s.switchTo a).me = Local.idle := by
  unfold State.switchTo
  split
  · exact .inl rfl
  · cases hl : s.parked.lookup a with
    | none => exact .inr (.inr rfl)
    | some x => exact .inr (.inl ⟨_, lookup_mem hl, rfl⟩)

/-- What the parked agents carry after a change of agent they or the running agent carried before. -/
theorem mem_switchTo_parked {a : Agent} {y : Agent × Local} (h : y ∈ (s.switchTo a).parked) :
    y ∈ s.parked ∨ y = (s.who, s.me) := by
  unfold State.switchTo at h
  split at h
  · exact .inl h
  · rcases List.mem_cons.mp h with h | h
    · exact .inr h
    · exact .inl (List.mem_of_mem_filter h)

/-- A change of agent keeps what holds of everything any agent carries. -/
theorem switchTo_carried {Q : Local → Prop} (hidle : Q Local.idle) (hme : Q s.me)
    (hparked : ∀ y ∈ s.parked, Q y.2) (a : Agent) :
    Q (s.switchTo a).me ∧ ∀ y ∈ (s.switchTo a).parked, Q y.2 := by
  refine ⟨?_, fun y hy => ?_⟩
  · rcases switchTo_me_cases a s with h | ⟨y, hy, h⟩ | h
    · exact h ▸ hme
    · exact h ▸ hparked y hy
    · exact h ▸ hidle
  · rcases mem_switchTo_parked hy with h | rfl
    · exact hparked y h
    · exact hme

/-- Every step of a polled build keeps its pipes' invariants. -/
theorem step_keeps_polledPipesWf (hs : s.polledPipesWf) (h : step s = .next t) : t.polledPipesWf := by
  refine step_keeps (P := State.polledPipesWf)
    (atomic := fun i s t hs ha => ?atomic) (begun := fun i s u hs _ _ hb => ?begun)
    (part := fun s t m l hs hl hm => ?part) (startUp := fun s l hs _ hl => ?startUp)
    (switch := fun s q n a hs => ?switch) (restart := fun q _ => ?restart) hs h
  case atomic =>
    have ⟨_, hc, _⟩ := hs
    obtain ⟨hpk, htd, hb⟩ := ha.carried
    refine polledPipesWf_congr hb (fun ⟨_, _, hp, _⟩ => ?_) (ha.pipesWf hc) hs
    unfold State.polledParts at hp ⊢
    rw [hpk, htd]
    exact hp
  case begun =>
    obtain ⟨hpk, hb'⟩ := hb.carried
    refine polledPipesWf_congr hb' (fun ⟨hpol, _, hp, _⟩ => ⟨hb.fits hpol, ?_⟩)
      (pipesWf_of_pipe hb.pipe) hs
    rw [hpk]
    exact hp.2
  case part =>
    have ⟨hpol, hc, ⟨hme, hpk⟩, _, _⟩ := hs
    have hch := micro_change hm
    have hfit : m.threadedOnly = false := hme m (hl ▸ List.mem_cons_self)
    refine polledPipesWf_congr (s := s) hch.build (fun _ => ⟨fun y hy => ?_, ?_⟩) (hch.pipesWf hfit hc) hs
    · rcases micro_todo hm hy with hold | ⟨_, hf⟩
      · exact hme y (hl ▸ List.mem_cons_of_mem m hold)
      · exact hf (fun _ => hfit) hpol
    · rw [hch.parked]
      exact hpk
  case startUp =>
    exact polledPipesWf_congr (s := s) rfl (fun ⟨_, _, hp, _⟩ => ⟨startParts_fit hl, hp.2⟩) id hs
  case switch =>
    refine polledPipesWf_congr (by simp) (fun ⟨_, _, hp, _⟩ => ?_)
      (pipesWf_of_pipe (fun p => by simp)) hs
    exact switchTo_carried (Q := fun c => ∀ m ∈ c.todo, m.threadedOnly = false)
      (s := s.take q n) (fun m hm => absurd hm List.not_mem_nil) hp.1 hp.2 a
  case restart =>
    have ⟨hpol, hc, _⟩ := hs
    exact afterReset_polledPipesWf (s.take q s.turn).restart.flash hc (of_decide_eq_true hpol)

end Sys2Proof.Machine
end

section
/-! The pipes' invariants and the semaphores' accounts over a step of a threaded build (R22, R24, R25). -/

namespace Sys2Proof.Machine

variable {s t u : State} {m : Micro} {l : List Micro} {x : Sem} {p : PipeId} {i : Instr}

/-! ### Indices -/

/-- What a threaded build keeps of a pipe's registers at every moment (R22 (b), (c)). -/
def Pipe.indicesWf (capacity : Nat) (q : Pipe) : Prop :=
  q.inBounds capacity ∧ q.endIx = (q.startIx + q.count) % capacity

/-- Both pipes' registers are so. -/
def State.indicesWf (s : State) : Prop := ∀ p, (s.pipe p).indicesWf s.build.capacity

theorem indicesWf_congr (hs : s.indicesWf) (hb : t.build = s.build) (hr : t.rxf = s.rxf)
    (ht : t.txf = s.txf) : t.indicesWf := by
  intro p
  rw [hb]
  cases p
  · exact (congrArg (Pipe.indicesWf _) hr).mpr (hs .rxf)
  · exact (congrArg (Pipe.indicesWf _) ht).mpr (hs .txf)

theorem indicesWf_setPipe (hs : s.indicesWf) (p : PipeId) {q : Pipe}
    (hq : q.indicesWf s.build.capacity) : (s.setPipe p q).indicesWf := by
  intro r
  rw [State.setPipe_build]
  cases p <;> cases r
  · exact hq
  · exact hs .txf
  · exact hs .rxf
  · exact hq

/-- The semaphores play no part in it. -/
theorem indicesWf_setSem (hs : s.indicesWf) (x : Sem) (n : Nat) : (setSem x n s).indicesWf := by
  cases x with
  | space p | items p | lock p => exact indicesWf_setPipe hs p (hs p)
  | txlock => exact indicesWf_congr hs rfl rfl rfl

/-- Storing a byte moves `end` and the count together. -/
theorem indicesWf_store (hs : s.indicesWf) (hc : 1 ≤ s.build.capacity) (p : PipeId) (b : Byte) :
    (s.setPipe p ((s.pipe p).store s.build.capacity b)).indicesWf := by
  obtain ⟨⟨hl, hst, _⟩, he⟩ := hs p
  refine indicesWf_setPipe hs p ⟨⟨by simp [Pipe.store, hl], hst, Nat.mod_lt _ hc⟩, ?_⟩
  simp only [Pipe.store, he, Nat.mod_add_mod, Nat.add_assoc]

/-- Removing a byte that is there moves `start` and the count together. -/
theorem indicesWf_drop (hs : s.indicesWf) (hc : 1 ≤ s.build.capacity) (p : PipeId)
    (hne : (s.pipe p).count ≠ 0) :
    (s.setPipe p ((s.pipe p).drop s.build.capacity)).indicesWf := by
  obtain ⟨⟨hl, _, hen⟩, he⟩ := hs p
  refine indicesWf_setPipe hs p ⟨⟨hl, Nat.mod_lt _ hc, hen⟩, ?_⟩
  simp only [Pipe.drop, he, Nat.mod_add_mod]
  congr 1
  omega

/-- PIPE_INIT sets all indices to 0 (R120). -/
theorem indicesWf_init (hs : s.indicesWf) (hc : 1 ≤ s.build.capacity) (p : PipeId) (v : Users) :
    ((s.setPipe p ((s.pipe p).init s)).setUsers p v).indicesWf := by
  obtain ⟨⟨hl, _⟩, _⟩ := hs p
  have hinit : ((s.pipe p).init s).indicesWf s.build.capacity :=
    ⟨⟨hl, hc, hc⟩, by simp [Pipe.init]⟩
  exact indicesWf_congr (indicesWf_setPipe hs p hinit) (by simp) (by simp) (by simp)

/-- A part of a threaded build that takes a byte only where there is one keeps the indices. -/
theorem Change.indicesWf (h : Change m s t) (hth : s.threaded = true) (hb : m.hasByte s)
    (hc : 1 ≤ s.build.capacity) (hs : s.indicesWf) : t.indicesWf := by
  cases h with
  | put p b l => exact indicesWf_congr (indicesWf_store hs hc p b) rfl rfl rfl
  | get p l _ hk => exact indicesWf_congr (indicesWf_drop hs hc p (hb p (.inl hk))) rfl rfl rfl
  | step l _ hk =>
    rcases hk with hk | ⟨_, hp, _⟩
    · exact indicesWf_congr (indicesWf_drop hs hc .rxf (hb .rxf (.inr ⟨hk, rfl⟩))) rfl rfl rfl
    · exact absurd hp (not_polled_of_threaded hth)
  | init p l => exact indicesWf_congr (indicesWf_init hs hc p _) rfl rfl rfl
  | users p u l => exact indicesWf_congr hs (by simp) (by simp) (by simp)
  | sem x n l => exact indicesWf_congr (indicesWf_setSem hs x n) rfl rfl rfl
  | exec d o r u l _ _ _ _ hu =>
    obtain ⟨f, rfl, _⟩ := sequencerStep_ok hu
    exact indicesWf_congr hs rfl rfl rfl
  | carry | codec | codecInit | map | handler | write | launch =>
    exact indicesWf_congr hs rfl rfl rfl

/-! ### Accounts -/

theorem total_congr (h : t.build = s.build) (x : Sem) : total x t = total x s := by
  unfold total
  rw [h]

/-- A semaphore's account still adds up where the running agent alone has moved it. -/
theorem adds_of_moved (h : s.adds x) (hb : t.build = s.build) (hp : t.parked = s.parked)
    (hm : acc x t + t.me.owes x = acc x s + s.me.owes x) : t.adds x := by
  rw [adds_iff] at h ⊢
  rw [total_congr hb, ← h]
  unfold State.owes
  rw [hp]
  omega

/-- An agent owes what its first part owes and what the rest of its parts do. -/
theorem owes_cons {c : Local} (h : c.todo = m :: l) (x : Sem) :
    c.owes x = m.owes x + ({ c with todo := l } : Local).owes x := by
  simp only [Local.owes, h, owed_cons]
  omega

/-- While nobody is part-way through a put or get, each pipe semaphore's account stands at its total. -/
theorem acc_of_nobodyInside (h : s.adds x) (hn : s.nobodyInside) (hx : x ≠ .txlock) :
    acc x s = total x s := by
  obtain ⟨hme, hpk⟩ := hn x hx
  have hmine : s.me.owes x = 0 := by simp [Local.owes, owed_zero hme, hx]
  have hparked : (s.parked.map (fun y => y.2.owes x)).sum = 0 := by
    refine List.sum_eq_zero fun n hn => ?_
    obtain ⟨y, hy, rfl⟩ := List.mem_map.mp hn
    simp [Local.owes, owed_zero (hpk y hy), hx]
  rw [adds_iff] at h
  unfold State.owes at h
  omega

theorem setPipe_pipe_of_ne {q : PipeId} (h : q ≠ p) (r : Pipe) (s : State) :
    (s.setPipe p r).pipe q = s.pipe q := by
  cases p <;> cases q
  · exact absurd rfl h
  · rfl
  · rfl
  · exact absurd rfl h

/-- PIPE_INIT leaves accounts alone that stand at their totals (R120). -/
theorem acc_init (hth : s.threaded = true) (p : PipeId) (v : Users)
    (h : ∀ x, x ≠ .txlock → acc x s = total x s) (x : Sem) :
    acc x ((s.setPipe p ((s.pipe p).init s)).setUsers p v) = acc x s := by
  cases x with
  | txlock => cases p <;> rfl
  | space q | items q =>
    by_cases hq : q = p
    · subst hq
      rw [h _ (by simp)]
      simp [acc, total, Pipe.init, hth]
    · simp [acc, setPipe_pipe_of_ne hq]
  | lock q =>
    have hone := h (.lock q) (by simp)
    by_cases hq : q = p
    · subst hq
      simp only [acc, total] at hone
      simp [acc, Pipe.init, hone]
    · simp [acc, setPipe_pipe_of_ne hq]

/-! ### What a well placed agent may be about to do -/

/-- The running agent's part is one that the accounts bear: the parts still to do owe no less than nothing, and so
do the other agents'. -/
theorem owes_todo_le (hs : s.threadedPipesWf) (hl : s.me.todo = m :: l) (x : Sem) :
    m.owes x + (if x = .txlock ∧ s.me.held = true then 1 else 0) ≤ s.owes x := by
  obtain ⟨_, _, _, ⟨hset, _⟩, hpk, _⟩ := hs
  have hrest : 0 ≤ owed x l := settled_nonneg (settled_tail (hl ▸ hset x))
  have hothers := parked_nonneg hpk x
  have hmine : s.me.owes x
      = m.owes x + owed x l + (if x = .txlock ∧ s.me.held = true then 1 else 0) := by
    rw [Local.owes, hl, owed_cons]
  unfold State.owes
  omega

/-- The byte that line 3 of a PIPE_GET_B takes is there: `items` speaks for it (R125). -/
theorem hasByte_of_threadedPipesWf (hs : s.threadedPipesWf) (hl : s.me.todo = m :: l) :
    m.hasByte s := by
  intro p hp
  have hle := owes_todo_le hs hl (.items p)
  have hone : m.owes (.items p) = 1 := by
    rcases hp with rfl | ⟨rfl, rfl⟩ <;> simp [Micro.owes, Micro.gives, Micro.grows]
  obtain ⟨_, _, _, _, _, hadds, _⟩ := hs
  have hitems : ((s.pipe p).items : Int) + s.owes (.items p) = (s.pipe p).count := hadds (.items p)
  simp only [hone, reduceCtorEq, false_and, if_false] at hle
  omega

/-- The agent that notes that it holds `TXLOCK` did not hold it before (R25). -/
theorem not_held_of_hold (hs : s.threadedPipesWf) (hl : s.me.todo = .hold :: l) :
    s.me.held = false := by
  have hle := owes_todo_le hs hl .txlock
  obtain ⟨_, _, _, _, _, hadds, _⟩ := hs
  have hlock : (s.txlock : Int) + s.owes .txlock = 1 := hadds .txlock
  cases hh : s.me.held
  · rfl
  · simp [hh, Micro.owes, Micro.gives, Micro.sends] at hle
    omega

/-! ### A part of START_UP -/

/-- An allocation of step 4 writes the map and a handle, which no account counts (R204). -/
theorem startAlloc_keeps_accounts {old : Option Addr} {keep : Addr → State → State}
    (hk : ∀ a (v : State), (keep a v).rxf = v.rxf ∧ (keep a v).txf = v.txf
      ∧ (keep a v).txlock = v.txlock ∧ (keep a v).me = v.me) (h : startAlloc old keep s = .go t) :
    (∀ x, acc x t = acc x s) ∧ t.me.held = s.me.held
      ∧ (t.me.todo = s.me.todo ∨ t.me.todo = [.halted]) := by
  obtain ⟨_, ⟨p, _, rfl⟩ | ⟨e, rfl⟩⟩ := startAlloc_go h
  · obtain ⟨hr, ht, hx, hme⟩ := hk (s.build.flashStart + BitVec.ofNat 24 p)
      (s.setAlloc (markUsed s.alloc 2 p))
    exact ⟨acc_congr hr ht hx, by simp [hme], .inl (by simp [hme])⟩
  · exact ⟨acc_congr rfl rfl rfl, rfl, .inr rfl⟩

/-- A part of START_UP moves no account, PIPE_INIT because it comes only where each pipe's accounts stand at their
totals, and leaves its agent where it was or halted (R236, R263). -/
theorem micro_of_starts (hst : m.starts = true) (hth : s.threaded = true)
    (hinit : ∀ p, m = .startPipe p → ∀ x, x ≠ .txlock → acc x s = total x s)
    (h : micro m s = .go t) :
    (∀ x, acc x t = acc x s) ∧ t.me.held = s.me.held
      ∧ (t.me.todo = s.me.todo ∨ t.me.todo = [.halted]) := by
  cases m with
  | startPipe p =>
    obtain ⟨_, rfl⟩ := pipeInit_ok (MicroOut.of_go h)
    exact ⟨acc_init hth p _ (hinit p rfl), by simp, .inl (by simp)⟩
  | startCodec | startMap =>
    cases h
    exact ⟨acc_congr rfl rfl rfl, rfl, .inl rfl⟩
  | startNumber =>
    exact startAlloc_keeps_accounts (keep := State.setNumber) (fun _ _ => ⟨rfl, rfl, rfl, rfl⟩) h
  | startMode =>
    exact startAlloc_keeps_accounts (keep := State.setMode) (fun _ _ => ⟨rfl, rfl, rfl, rfl⟩) h
  | _ => cases hst

/-! ### One part -/

/-- Parts that hold none of START_UP's may come before any that hold none either. -/
theorem startsClean_append {k l : List Micro} (hk : ∀ y ∈ k, y.starts = false)
    (hl : ∀ y ∈ l, y.starts = false) (hc : startsClean l) : startsClean (k ++ l) := by
  induction k with
  | nil => exact hc
  | cons m k ih =>
    have hm : m.starts = false := hk m List.mem_cons_self
    have hk' : ∀ y ∈ k, y.starts = false := fun y hy => hk y (List.mem_cons_of_mem m hy)
    refine ⟨?_, ih hk'⟩
    rw [if_neg (by simp [hm])]
    exact fun y hy => (List.mem_append.mp hy).elim (hk' y) (hl y)

theorem startsClean_of_none {l : List Micro} (hl : ∀ y ∈ l, y.starts = false) : startsClean l := by
  simpa using startsClean_append hl (l := []) (by simp) trivial

/-- Parts that balance leave an agent well placed. -/
theorem local_wf_of_balanced {c : Local} (h : balanced c.todo) : c.wf :=
  ⟨fun x => (h.1 x).2, startsClean_of_none h.2⟩

/-- While START_UP's PIPE_INITs are still to do, no other agent is part-way through a put or get. -/
def State.startsAlone (s : State) : Prop :=
  (∃ p, .startPipe p ∈ s.me.todo) →
    ∀ y ∈ s.parked, ∀ m ∈ y.2.todo, ∀ x, x ≠ .txlock → m.owes x = 0

theorem Change.who (h : Change m s t) : t.who = s.who := by
  cases h with
  | put p | get p | init p | users p => simp
  | sem x n =>
    cases x with
    | space p | items p | lock p => cases p <;> rfl
    | txlock => rfl
  | exec d o r u l _ _ _ _ hu =>
    obtain ⟨f, rfl, _⟩ := sequencerStep_ok hu
    rfl
  | _ => rfl

/-- The invariant where the running agent alone has moved: its new parts are well placed, it has moved its accounts
by what it no longer owes, and the indices are right. -/
theorem threadedPipesWf_of_moved (hs : s.threadedPipesWf) (hb : t.build = s.build)
    (hw : t.who = s.who) (hp : t.parked = s.parked) (hme : t.me.wf) (hix : t.indicesWf)
    (hm : ∀ x, acc x t + t.me.owes x = acc x s + s.me.owes x) : t.threadedPipesWf := by
  obtain ⟨hth, hc, hag, _, hpk, hadds, _⟩ := hs
  refine ⟨?_, hb ▸ hc, ?_, hme, hp ▸ hpk, fun x => adds_of_moved (hadds x) hb hp (hm x), hix⟩
  · unfold State.threaded at *
    rwa [hb]
  · unfold State.agentsWf at *
    rwa [hw, hp]

/-- What a part leaves of its agent: it is well placed, has moved the accounts by what it no longer owes, and has no
new PIPE_INIT of START_UP to do. -/
structure PartKeeps (s t : State) : Prop where
  wf : t.me.wf
  moved : ∀ x, acc x t + t.me.owes x = acc x s + s.me.owes x
  starts : ∀ p, .startPipe p ∈ t.me.todo → .startPipe p ∈ s.me.todo

/-- No account counts a part of START_UP. -/
theorem owes_of_starts (h : m.starts = true) (x : Sem) : m.owes x = 0 := by
  cases m with
  | startPipe | startCodec | startMap | startNumber | startMode => cases x <;> rfl
  | _ => cases h

/-- Before a part of START_UP nobody is part-way through a put or get, if it is a PIPE_INIT. -/
theorem nobodyInside_of_startPipe (hs : s.threadedPipesWf) (ha : s.startsAlone)
    (hl : s.me.todo = .startPipe p :: l) : s.nobodyInside := by
  obtain ⟨_, _, _, ⟨_, hclean⟩, _⟩ := hs
  rw [hl] at hclean
  refine fun x hx => ⟨?_, fun y hy m hm => ha ⟨p, hl ▸ List.mem_cons_self⟩ y hy m hm x hx⟩
  rw [hl]
  exact List.forall_mem_cons.mpr ⟨owes_of_starts rfl x, fun m hm => hclean.1 m hm x⟩

theorem partKeeps_of_starts (hs : s.threadedPipesWf) (ha : s.startsAlone)
    (hl : s.me.todo = m :: l) (hst : m.starts = true) (h : micro m (s.setTodo l) = .go t) :
    PartKeeps s t := by
  have ⟨hth, _, _, ⟨hset, hclean⟩, _, hadds, _⟩ := hs
  rw [hl] at hclean
  obtain ⟨hfirst, hrest⟩ := hclean
  rw [if_pos hst] at hfirst
  have hacc : ∀ x, acc x (s.setTodo l) = acc x s := acc_congr rfl rfl rfl
  obtain ⟨hacc', hheld, htodo⟩ := micro_of_starts hst (s := s.setTodo l) hth (by
    rintro p rfl x hx
    exact (hacc x).trans
      (acc_of_nobodyInside (hadds x) (nobodyInside_of_startPipe hs ha hl) hx)) h
  have howes : ∀ x, t.me.owes x = s.me.owes x := by
    intro x
    have hzero : owed x t.me.todo = owed x s.me.todo := by
      rw [hl, owed_cons, owes_of_starts hst, owed_zero (fun m hm => hfirst m hm x)]
      rcases htodo with htodo | htodo <;> rw [htodo]
      · exact owed_zero (fun m hm => hfirst m hm x)
      · cases x <;> rfl
    have hheld : t.me.held = s.me.held := hheld
    rw [Local.owes, Local.owes, hzero, hheld]
  refine ⟨?_, fun x => by rw [howes, hacc', hacc], fun p hp => ?_⟩
  · rcases htodo with htodo | htodo
    · exact ⟨fun x => htodo ▸ settled_tail (hl ▸ hset x), htodo ▸ hrest⟩
    · exact local_wf_of_balanced (htodo ▸ balanced_one (micro_free .halted))
  · rcases htodo with htodo | htodo <;> rw [htodo] at hp
    · exact hl ▸ List.mem_cons_of_mem m hp
    · simp at hp

theorem partKeeps_of_not_starts (hs : s.threadedPipesWf) (hl : s.me.todo = m :: l)
    (hst : m.starts = false) (h : micro m (s.setTodo l) = .go t) : PartKeeps s t := by
  have ⟨hth, _, _, ⟨hset, hclean⟩, _⟩ := hs
  rw [hl] at hclean
  obtain ⟨hfirst, hrest⟩ := hclean
  rw [if_neg (by simp [hst])] at hfirst
  have hheld : m = .hold → (s.setTodo l).me.held = false := by
    rintro rfl
    exact not_held_of_hold (s := s) hs hl
  have hbyte : m.hasByte (s.setTodo l) := hasByte_of_threadedPipesWf (s := s) hs hl
  obtain ⟨hbal, k, htodo, hk, hks, _⟩ := micro_moves (s := s.setTodo l) hth hst hheld h
  have htodo : t.me.todo = k ++ l := htodo
  refine ⟨⟨fun x => ?_, ?_⟩, fun x => ?_, fun p hp => ?_⟩
  · rw [htodo]
    exact settled_append (hk x) (settled_tail (hl ▸ hset x))
  · rw [htodo]
    exact startsClean_append hks hfirst hrest
  · have hacc : acc x (s.setTodo l) = acc x s := acc_congr rfl rfl rfl x
    have howes : s.me.owes x = m.owes x + (s.setTodo l).me.owes x := owes_cons hl x
    have hb := hbal x (fun _ => hbyte)
    omega
  · rw [htodo] at hp
    rcases List.mem_append.mp hp with hp | hp
    · exact absurd (hks _ hp) (by simp [Micro.starts])
    · exact hl ▸ List.mem_cons_of_mem m hp

/-- What one atomic part of a threaded build keeps, during a turn: the pipes' invariant, and that START_UP's
PIPE_INITs are alone. -/
theorem micro_keeps_threadedPipesWf (hs : s.threadedPipesWf ∧ s.startsAlone)
    (hl : s.me.todo = m :: l) (h : micro m (s.setTodo l) = .go t) :
    t.threadedPipesWf ∧ t.startsAlone := by
  obtain ⟨hs, ha⟩ := hs
  have ⟨hth, hc, _, _, _, _, hix⟩ := hs
  have hch := micro_change h
  have hpk : t.parked = s.parked := hch.parked
  obtain ⟨hwf, hmoved, hstarts⟩ : PartKeeps s t := by
    cases hst : m.starts with
    | true => exact partKeeps_of_starts hs ha hl hst h
    | false => exact partKeeps_of_not_starts hs hl hst h
  have hbyte : m.hasByte (s.setTodo l) := hasByte_of_threadedPipesWf (s := s) hs hl
  have hixt : t.indicesWf :=
    hch.indicesWf hth hbyte hc (indicesWf_congr (s := s) hix rfl rfl rfl)
  refine ⟨threadedPipesWf_of_moved hs hch.build hch.who hpk hwf hixt hmoved, ?_⟩
  rintro ⟨p, hp⟩
  rw [hpk]
  exact ha ⟨p, hstarts p hp⟩

/-! ### Before a turn -/

/-- An atomic operation of a threaded build keeps the pipes' invariant; PIPE_INIT because nobody is part-way through
a put or get. -/
theorem Atomic.keeps_threadedPipesWf (h : Atomic i s t) (hs : s.threadedPipesWf)
    (hi : (∃ p, i = .pipeInit p) → s.nobodyInside) : t.threadedPipesWf := by
  have ⟨hth, hc, _, hme, _, hadds, hix⟩ := hs
  obtain ⟨hpk, htodo, hb⟩ := h.carried
  have hwf : t.me.wf := by
    unfold Local.wf
    rw [htodo]
    exact hme
  have hpol := not_polled_of_threaded hth
  have same : t.who = s.who → t.rxf = s.rxf → t.txf = s.txf → t.txlock = s.txlock →
      t.me.held = s.me.held → t.threadedPipesWf := fun hw hr ht hx hh =>
    threadedPipesWf_of_moved hs hb hw hpk hwf (indicesWf_congr hix hb hr ht)
      (fun x => by rw [acc_congr hr ht hx, Local.owes, Local.owes, htodo, hh])
  cases h with
  | put p b r _ hp | get p r _ hp | step r _ hp => exact absurd hp hpol
  | init p hip =>
    have hn := hi ⟨p, hip⟩
    refine threadedPipesWf_of_moved hs hb (by simp) hpk hwf
      (indicesWf_congr (indicesWf_init hix hc p ⟨none, none⟩) rfl rfl rfl) (fun x => ?_)
    have hacc := acc_init hth p ⟨none, none⟩ (fun x hx => acc_of_nobodyInside (hadds x) hn hx) x
    have hme : (((s.setPipe p ((s.pipe p).init s)).setUsers p ⟨none, none⟩).respond .done).me.owes x
        = s.me.owes x := by simp [Local.owes]
    rw [hme, ← hacc]
    congr 1
  | signal r _ _ hh =>
    refine threadedPipesWf_of_moved hs hb rfl hpk hwf (indicesWf_congr hix hb rfl rfl) (fun x => ?_)
    cases x <;> simp [acc, Local.owes, hh]
    omega
  | answer | codecInit | codec | nvInit | alloc | launch => exact same rfl rfl rfl rfl rfl

/-- The running agent takes up parts that take as much as they give: the pipes' invariant stays. -/
theorem takesUp_keeps_threadedPipesWf (hs : s.threadedPipesWf) (hl : s.me.todo = [])
    (hb : t.build = s.build) (hw : t.who = s.who) (hpk : t.parked = s.parked) (hr : t.rxf = s.rxf)
    (ht : t.txf = s.txf) (hx : t.txlock = s.txlock) (hh : t.me.held = s.me.held)
    (hwf : t.me.wf) (ho : ∀ x, owed x t.me.todo = 0) : t.threadedPipesWf := by
  have ⟨_, _, _, _, _, _, hix⟩ := hs
  refine threadedPipesWf_of_moved hs hb hw hpk hwf (indicesWf_congr hix hb hr ht) (fun x => ?_)
  rw [acc_congr hr ht hx, Local.owes, Local.owes, hh, ho, hl, owed_nil]

/-- The parts an operation begins with take as much as they give. -/
theorem Begun.balanced (h : Begun i s u) : balanced u.me.todo := by
  cases h with
  | parts l v _ _ hb _ _ => exact hb
  | launched => exact balanced_one (micro_free .seqWait)
  | accepted => exact balanced_one (micro_free .store)

theorem Begun.keeps_threadedPipesWf (h : Begun i s u) (hl : s.me.todo = [])
    (hs : s.threadedPipesWf) : u.threadedPipesWf ∧ u.startsAlone := by
  have hbal := h.balanced
  have howed : ∀ x, owed x u.me.todo = 0 := fun x => (hbal.1 x).1
  have hwf : u.me.wf := local_wf_of_balanced hbal
  refine ⟨?_, fun ⟨p, hp⟩ => absurd (hbal.2 _ hp) (by simp [Micro.starts])⟩
  cases h with
  | parts l v _ _ _ _ hv =>
    rcases hv with rfl | ⟨p, w, rfl⟩
    · exact takesUp_keeps_threadedPipesWf hs hl rfl rfl rfl rfl rfl rfl rfl hwf howed
    · exact takesUp_keeps_threadedPipesWf hs hl (by simp) (by simp) (by simp) (by simp) (by simp)
        (by simp) (by simp) hwf howed
  | launched | accepted =>
    exact takesUp_keeps_threadedPipesWf hs hl rfl rfl rfl rfl rfl rfl rfl hwf howed

/-- Parts that no account counts, among which START_UP's come first, leave an agent well placed. -/
theorem local_wf_of_uncounted {c : Local} (h : ∀ m ∈ c.todo, ∀ x, m.owes x = 0)
    (hc : startsClean c.todo) : c.wf := by
  refine ⟨fun x => ?_, hc⟩
  generalize c.todo = l at h
  induction l with
  | nil => trivial
  | cons m l ih =>
    exact ⟨(owed_zero (fun y hy => h y hy x)).ge, ih (fun y hy => h y (List.mem_cons_of_mem m hy))⟩

/-- No account counts START_UP's parts, nor the loop it goes on to. -/
theorem startParts_uncounted (h : l = startUpParts ∨ l = startHandleParts s) :
    (∀ m ∈ l, ∀ x, m.owes x = 0) ∧ startsClean l := by
  have hloop : ∀ x, Micro.loop.owes x = 0 := (micro_free .loop).1
  rcases h with rfl | rfl
  · have hall : ∀ m ∈ startUpParts, ∀ x, m.owes x = 0 := by
      simp [startUpParts, owes_of_starts (m := .startPipe _) rfl, owes_of_starts (m := .startCodec) rfl,
        owes_of_starts (m := .startMap) rfl, owes_of_starts (m := .startNumber) rfl,
        owes_of_starts (m := .startMode) rfl, hloop]
    refine ⟨hall, ?_⟩
    simp [startUpParts] at hall
    simp [startUpParts, startsClean, Micro.starts, hall]
  · unfold startHandleParts
    split <;> simp [startsClean, Micro.starts, owes_of_starts (m := .startNumber) rfl,
      owes_of_starts (m := .startMode) rfl]

/-- START_UP or one of its allocations is begun: the pipes' invariant stays. -/
theorem startUp_keeps_threadedPipesWf (hs : s.threadedPipesWf) (hl : s.me.todo = [])
    (h : l = startUpParts ∨ l = startHandleParts s) :
    ((s.setTodo l).respond .pending).threadedPipesWf := by
  obtain ⟨hall, hclean⟩ := startParts_uncounted h
  exact takesUp_keeps_threadedPipesWf hs hl rfl rfl rfl rfl rfl rfl rfl
    (local_wf_of_uncounted hall hclean) (fun x => owed_zero (fun m hm => hall m hm x))

/-! ### A change of agent -/

/-- A change of agent puts each agent in one place. -/
theorem switchTo_agentsWf (h : s.agentsWf) (a : Agent) : (s.switchTo a).agentsWf := by
  unfold State.switchTo
  split
  · exact h
  · rename_i hne
    obtain ⟨hwho, hpk⟩ := List.nodup_cons.mp h
    refine List.nodup_cons.mpr ⟨fun hm => ?_, List.nodup_cons.mpr ⟨fun hm => ?_, ?_⟩⟩
    · rcases List.mem_cons.mp hm with hm | hm
      · exact hne hm
      · obtain ⟨y, hy, hya⟩ := List.mem_map.mp hm
        exact (of_decide_eq_true (List.mem_filter.mp hy).2).1 hya
    · obtain ⟨y, hy, hyw⟩ := List.mem_map.mp hm
      exact (of_decide_eq_true (List.mem_filter.mp hy).2).2 hyw
    · exact hpk.sublist (List.filter_sublist.map _)

/-- A change of agent moves no agent's share of an account. -/
theorem switchTo_owes (h : s.agentsWf) (a : Agent) (x : Sem) :
    (s.switchTo a).owes x = s.owes x := by
  unfold State.switchTo
  split
  · rfl
  · obtain ⟨hwho, hpk⟩ := List.nodup_cons.mp h
    have hfilter : s.parked.filter (fun y => decide (y.1 ≠ a ∧ y.1 ≠ s.who))
        = s.parked.filter (fun y => decide (y.1 ≠ a)) := by
      refine List.filter_congr fun y hy => ?_
      have hyw : y.1 ≠ s.who := fun he => hwho (he ▸ List.mem_map_of_mem hy)
      simp [hyw]
    simp only [State.owes, hfilter, List.map_cons, List.sum_cons, sum_filter (a := a) (x := x) hpk]
    omega

/-- A change of agent keeps the pipes' invariant. -/
theorem switchTo_keeps_threadedPipesWf (hs : s.threadedPipesWf) (a : Agent) :
    (s.switchTo a).threadedPipesWf := by
  obtain ⟨hth, hc, hag, hme, hpk, hadds, hix⟩ := hs
  have hb : (s.switchTo a).build = s.build := by simp
  obtain ⟨hme', hpk'⟩ := switchTo_carried idle_wf hme hpk a
  refine ⟨?_, hb ▸ hc, switchTo_agentsWf hag a, hme', hpk', fun x => ?_,
    indicesWf_congr (s := s) hix hb (by simp) (by simp)⟩
  · unfold State.threaded at *
    rwa [hb]
  · have hx := hadds x
    rw [adds_iff] at hx ⊢
    have hacc : acc x (s.switchTo a) = acc x s := acc_congr (by simp) (by simp) (by simp) x
    rw [switchTo_owes hag, total_congr hb, hacc, hx]

/-- A change of agent lets nobody into a put or get. -/
theorem switchTo_nobodyInside (h : s.nobodyInside) (a : Agent) : (s.switchTo a).nobodyInside :=
  fun x hx => switchTo_carried (Q := fun c => ∀ m ∈ c.todo, m.owes x = 0)
    (fun _ hm => absurd hm List.not_mem_nil) (h x hx).1 (h x hx).2 a

/-- An agent that has one of START_UP's PIPE_INITs to do once it runs had it before. -/
theorem startPipe_of_switchTo {a : Agent} (h : .startPipe p ∈ (s.switchTo a).me.todo) :
    .startPipe p ∈ s.me.todo ∨ ∃ y ∈ s.parked, .startPipe p ∈ y.2.todo := by
  rcases switchTo_me_cases a s with he | ⟨y, hy, he⟩ | he <;> rw [he] at h
  · exact .inl h
  · exact .inr ⟨y, hy, h⟩
  · exact absurd h List.not_mem_nil

theorem startsAlone_of_nobodyInside (h : s.nobodyInside) (hp : t.parked = s.parked) :
    t.startsAlone :=
  fun _ y hy m hm x hx => (h x hx).2 y (hp ▸ hy) m hm

/-- The allocations of step 4, asked for alone, initialise no pipe (log 23). -/
theorem startPipe_not_mem_startHandleParts : .startPipe p ∉ startHandleParts s := by
  unfold startHandleParts
  split <;> simp

/-! ### A step -/

/-- Every step of a threaded build keeps its pipes' invariant, but for a PIPE_INIT while an agent is part-way through
a put or get (R279). -/
theorem step_keeps_threadedPipesWf (hs : s.threadedPipesWf) (hi : s.initAhead → s.nobodyInside)
    (h : step s = .next t) : t.threadedPipesWf := by
  have turn : ∀ {n u}, u.threadedPipesWf ∧ u.startsAlone → run n u = .next t → t.threadedPipesWf :=
    fun hu hr => (run_keeps (P := fun u => u.threadedPipesWf ∧ u.startsAlone)
      (fun _ _ _ _ hu hl hm => micro_keeps_threadedPipesWf hu hl hm) _ _ _ hu hr).1
  have switched : ∀ q n a, ((s.take q n).switchTo a).threadedPipesWf := fun q n a =>
    switchTo_keeps_threadedPipesWf (s := s.take q n) hs a
  cases step_case h with
  | none _ ht => exact ht ▸ hs
  | request who f bytes n q i v hq hv hdec _ hl h =>
    subst hv
    rcases h with ha | ⟨u, hb, hr⟩
    · refine ha.keeps_threadedPipesWf (switched q n who) fun ⟨p, hp⟩ => ?_
      have hdec : decode f bytes = .ok (.pipeInit p) := by
        rcases hdec with hdec | hdec
        · exact hp ▸ hdec
        · exact absurd (hp.symm.trans hdec) (by simp)
      exact switchTo_nobodyInside (s := s.take q n)
        (hi (.inl ⟨who, f, bytes, n, q, p, hq, hdec⟩)) who
    · exact turn (hb.keeps_threadedPipesWf hl (switched q n who)) hr
  | resume who n q hq h =>
    refine turn ⟨switched q n who, fun hp => ?_⟩ h
    obtain ⟨p, hp'⟩ := hp
    have hin : s.nobodyInside := by
      rcases startPipe_of_switchTo hp' with hme | ⟨y, hy, hy'⟩
      · exact hi (.inr (.inr (.inl ⟨p, hme⟩)))
      · exact hi (.inr (.inr (.inr ⟨y, hy, p, hy'⟩)))
    exact startsAlone_of_nobodyInside (switchTo_nobodyInside (s := s.take q n) hin who) rfl ⟨p, hp'⟩
  | startUp n q v hq hv hl _ _ h =>
    subst hv
    have hin := switchTo_nobodyInside (s := s.take q n) (hi (.inr (.inl ⟨n, q, hq⟩))) .task
    exact turn ⟨startUp_keeps_threadedPipesWf (switched q n .task) hl (.inl rfl),
      startsAlone_of_nobodyInside hin rfl⟩ h
  | startHandle n q v hq hv hl h =>
    subst hv
    exact turn ⟨startUp_keeps_threadedPipesWf (switched q n .task) hl (.inr rfl),
      fun ⟨_, hp⟩ => absurd hp startPipe_not_mem_startHandleParts⟩ h
  | restart q _ ht =>
    obtain ⟨hth, hc, _⟩ := hs
    subst ht
    exact afterReset_threadedPipesWf (s.take q s.turn).restart.flash hc (of_decide_eq_true hth)

/-- Settles O11: in a polled build each put finds room and each get a byte; in a threaded one each part moves the
accounts by what its agent no longer owes. -/
theorem stepKeepsPipes : Obligations.StepKeepsPipes := by
  unfold Obligations.StepKeepsPipes
  exact fun s t h => ⟨fun hs => step_keeps_polledPipesWf hs h,
    fun hs hi => step_keeps_threadedPipesWf hs hi h⟩

end Sys2Proof.Machine
end

section
/-! Who may put on `TXF` while `TXLOCK` is held (R76, R146): an agent that is locked out has no part of a frame's
loop to take, so its steps leave the end of `TXF` where it was. -/

namespace Sys2Proof.Machine

variable {s t u : State} {m : Micro} {l : List Micro} {i : Instr}

/-! ### The put side of `TXF` -/

/-- What a put writes of `TXF` and no other operation but PIPE_INIT does: the slots and the end. -/
def State.txfPutSide (s : State) := (s.txf.buf, s.txf.endIx)

/-- A part that by itself neither stores a byte in `TXF` nor initialises it. -/
def Micro.sparesTxf (m : Micro) : Prop := (∀ v, m ≠ .pipeStore .txf v) ∧ m ≠ .startPipe .txf

theorem txfPutSide_congr (h : t.txf = s.txf) : t.txfPutSide = s.txfPutSide := by
  unfold State.txfPutSide
  rw [h]

theorem Change.txfPutSide (h : Change m s t) (hth : s.threaded = true) (hm : m.sparesTxf) :
    t.txfPutSide = s.txfPutSide := by
  obtain ⟨hstore, hinit⟩ := hm
  cases h with
  | put p b l _ hf =>
    rcases hf with rfl | ⟨hp, _⟩
    · cases p
      · rfl
      · exact absurd rfl (hstore b)
    · exact absurd hp (not_polled_of_threaded hth)
  | init p l hp =>
    cases p
    · rfl
    · exact absurd hp hinit
  | sem x n =>
    cases x with
    | space p | items p | lock p => cases p <;> rfl
    | txlock => rfl
  | get p | users p => cases p <;> rfl
  | exec d o r v l _ _ _ _ hv =>
    obtain ⟨f, rfl, _⟩ := sequencerStep_ok hv
    rfl
  | _ => rfl

theorem Atomic.txfPutSide (h : Atomic i s t) (hth : s.threaded = true) (hi : i ≠ .pipeInit .txf) :
    t.txfPutSide = s.txfPutSide := by
  cases h with
  | put p b r _ hp => exact absurd hp (not_polled_of_threaded hth)
  | get p => cases p <;> rfl
  | init p hp =>
    cases p
    · rfl
    · exact absurd hp hi
  | _ => rfl

/-! ### An agent that is locked out -/

/-- The running agent of a threaded build is locked out of `TXF`: `TXLOCK` is taken, the agent has no share in it, and
none of its parts puts on `TXF` by itself. -/
structure State.lockedOut (s : State) : Prop where
  threaded : s.threaded = true
  settled : settled .txlock s.me.todo
  share : (s.txlock : Int) + s.me.owes .txlock ≤ 0
  spares : ∀ m ∈ s.me.todo, m.sparesTxf

/-- `TXLOCK` is one unit: while a parked agent has it, neither the semaphore nor the running agent does (R25). -/
theorem lockedOut_of_holder (hs : s.threadedPipesWf) (hy : ∃ y ∈ s.parked, 0 < y.2.owes .txlock)
    (hm : ∀ m ∈ s.me.todo, m.sparesTxf) : s.lockedOut := by
  obtain ⟨hth, _, _, ⟨hset, _⟩, hpk, hadds, _⟩ := hs
  obtain ⟨y, hy, hpos⟩ := hy
  refine ⟨hth, hset .txlock, ?_, hm⟩
  have hle := parked_le hpk hy .txlock
  have hone : (s.txlock : Int) + s.owes .txlock = 1 := hadds .txlock
  unfold State.owes at hone
  omega

/-- An agent that is locked out is not inside a frame's loop, nor about to note that it holds `TXLOCK` or to give it
back. -/
theorem State.lockedOut.owes_le (hs : s.lockedOut) (hl : s.me.todo = m :: l) :
    m.owes .txlock ≤ 0 := by
  have hrest : 0 ≤ owed .txlock l := settled_nonneg (settled_tail (hl ▸ hs.settled))
  have hshare := hs.share
  simp only [Local.owes, hl, owed_cons] at hshare
  split at hshare <;> omega

/-- What one part leaves of its agent's share in `TXLOCK`, where the part itself has none: no more than there was,
and no new part that puts on `TXF` by itself. -/
structure LeavesTxlock (m : Micro) (s t : State) : Prop where
  settled : settled .txlock t.me.todo
  share : (t.txlock : Int) + t.me.owes .txlock ≤ s.txlock + s.me.owes .txlock + m.owes .txlock
  spares : ∀ y ∈ t.me.todo, y ∈ s.me.todo ∨ y.sparesTxf

/-- A part of START_UP leaves `TXLOCK` alone, and its agent where it was or halted. -/
theorem micro_of_starts_txlock (hst : m.starts = true) (hth : s.threaded = true)
    (h : micro m s = .go t) : t.txlock = s.txlock ∧ t.me.held = s.me.held
      ∧ (t.me.todo = s.me.todo ∨ t.me.todo = [.halted]) := by
  by_cases hp : ∃ p, m = .startPipe p
  · obtain ⟨p, rfl⟩ := hp
    obtain ⟨_, rfl⟩ := pipeInit_ok (MicroOut.of_go h)
    exact ⟨by simp, by simp, .inl (by simp)⟩
  · obtain ⟨hacc, hheld, htodo⟩ := micro_of_starts hst hth (fun p hm => absurd ⟨p, hm⟩ hp) h
    have hlock : (t.txlock : Int) = s.txlock := hacc .txlock
    exact ⟨by omega, hheld, htodo⟩

theorem leavesTxlock_of_starts (hst : m.starts = true) (hth : s.threaded = true)
    (hset : settled .txlock s.me.todo) (h : micro m s = .go t) : LeavesTxlock m s t := by
  obtain ⟨hlock, hheld, htodo⟩ := micro_of_starts_txlock hst hth h
  have howed : owed .txlock t.me.todo ≤ owed .txlock s.me.todo := by
    rcases htodo with htodo | htodo <;> rw [htodo]
    exact settled_nonneg hset
  refine ⟨?_, ?_, fun y hy => ?_⟩
  · rcases htodo with htodo | htodo <;> rw [htodo]
    · exact hset
    · exact ⟨le_refl 0, trivial⟩
  · rw [owes_of_starts hst, hlock, Local.owes, Local.owes, hheld]
    omega
  · rcases htodo with htodo | htodo <;> rw [htodo] at hy
    · exact .inl hy
    · rw [List.mem_singleton] at hy
      subst hy
      exact .inr ⟨fun _ => by simp, by simp⟩

theorem leavesTxlock_of_not_starts (hst : m.starts = false) (hth : s.threaded = true)
    (hset : settled .txlock s.me.todo) (hm : m.owes .txlock ≤ 0) (h : micro m s = .go t) :
    LeavesTxlock m s t := by
  have hhold : m ≠ .hold := by rintro rfl; exact absurd hm (by decide)
  have hloop : m ≠ .emitB := by rintro rfl; exact absurd hm (by decide)
  obtain ⟨hbal, k, htodo, hk, hks, hkp⟩ := micro_moves hth hst (fun he => absurd he hhold) h
  refine ⟨htodo ▸ settled_append (hk .txlock) hset, (hbal .txlock (fun hne => absurd rfl hne)).le,
    fun y hy => ?_⟩
  rw [htodo] at hy
  refine (List.mem_append.mp hy).symm.imp id fun hy => ⟨?_, ?_⟩
  · rintro v rfl
    exact hkp hloop .txf v hy
  · rintro rfl
    exact absurd (hks _ hy) (by simp [Micro.starts])

/-- One part of an agent that is locked out leaves it so, and the put side of `TXF` alone. -/
theorem micro_keeps_lockedOut (hs : s.lockedOut) (hl : s.me.todo = m :: l)
    (h : micro m (s.setTodo l) = .go t) : t.lockedOut ∧ t.txfPutSide = s.txfPutSide := by
  have hm : m.sparesTxf := hs.spares m (hl ▸ List.mem_cons_self)
  have hth : (s.setTodo l).threaded = true := hs.threaded
  have hset : settled .txlock (s.setTodo l).me.todo := settled_tail (hl ▸ hs.settled)
  have hch := micro_change h
  obtain ⟨hset', hshare, hspares⟩ : LeavesTxlock m (s.setTodo l) t := by
    cases hst : m.starts with
    | true => exact leavesTxlock_of_starts hst hth hset h
    | false => exact leavesTxlock_of_not_starts hst hth hset (hs.owes_le hl) h
  refine ⟨⟨?_, hset', ?_, fun y hy => ?_⟩, hch.txfPutSide hth hm⟩
  · unfold State.threaded at *
    rwa [hch.build]
  · have howes : s.me.owes .txlock = m.owes .txlock + (s.setTodo l).me.owes .txlock :=
      owes_cons hl .txlock
    have hlock : (s.setTodo l).txlock = s.txlock := rfl
    have hbefore := hs.share
    omega
  · rcases hspares y hy with hy | hy
    · exact hs.spares y (hl ▸ List.mem_cons_of_mem m hy)
    · exact hy

/-- A turn of an agent that is locked out puts nothing on `TXF` and leaves the other agents alone. -/
theorem run_of_lockedOut {n : Nat} (hs : s.lockedOut) (h : run n s = .next t) :
    t.txfPutSide = s.txfPutSide ∧ t.parked = s.parked :=
  (run_keeps (P := fun v => v.lockedOut ∧ v.txfPutSide = s.txfPutSide ∧ v.parked = s.parked)
    (fun _ _ _ _ ⟨hv, hside, hpk⟩ hl hm =>
      have ⟨hv', hside'⟩ := micro_keeps_lockedOut hv hl hm
      ⟨hv', hside'.trans hside, (micro_change hm).parked.trans hpk⟩)
    n s t ⟨hs, rfl, rfl⟩ h).2

/-! ### Requests -/

theorem Begun.txf (h : Begun i s u) : u.txf = s.txf := h.pipe .txf

/-- No part that an operation begins with puts on `TXF` by itself, unless a PIPE_PUT_B on it was asked for. -/
theorem Begun.sparesTxf (h : Begun i s u) (hi : ∀ v, i ≠ .pipePutB .txf v) :
    ∀ m ∈ u.me.todo, m.sparesTxf := by
  intro m hm
  refine ⟨?_, ?_⟩
  · rintro v rfl
    cases h with
    | parts l w _ _ _ hp _ => exact hi v (hp .txf v hm)
    | launched | accepted => simp at hm
  · rintro rfl
    exact absurd (h.balanced.2 _ hm) (by simp [Micro.starts])

/-- A request of an agent that is locked out puts nothing on `TXF` and leaves the other agents alone. -/
theorem request_of_holder (hs : s.threadedPipesWf) (hl : s.me.todo = [])
    (hy : ∃ y ∈ s.parked, 0 < y.2.owes .txlock) (hinit : i ≠ .pipeInit .txf)
    (hput : ∀ v, i ≠ .pipePutB .txf v) (h : Atomic i s t ∨ ∃ u, Begun i s u ∧ run s.turn u = .next t) :
    t.txfPutSide = s.txfPutSide ∧ t.parked = s.parked := by
  rcases h with ha | ⟨u, hb, hr⟩
  · obtain ⟨hth, _⟩ := hs
    exact ⟨ha.txfPutSide hth hinit, ha.carried.1⟩
  · have hpk : u.parked = s.parked := hb.carried.1
    have hout : u.lockedOut :=
      lockedOut_of_holder (hb.keeps_threadedPipesWf hl hs).1 (hpk ▸ hy) (hb.sparesTxf hput)
    obtain ⟨hside, hpk'⟩ := run_of_lockedOut hout hr
    exact ⟨hside.trans (txfPutSide_congr hb.txf), hpk'.trans hpk⟩

/-- Settles O24: the holder's unit of `TXLOCK` locks out whoever else steps, and an agent that is locked out reaches no
put of a frame. -/
theorem sendersDoNotInterleave : Obligations.SendersDoNotInterleave := by
  unfold Obligations.SendersDoNotInterleave
  intro s u t e b turn q hs hq he hu hy hspares h
  have hwf : u.threadedPipesWf := hu ▸ switchTo_keeps_threadedPipesWf (s := s.take q turn) hs b
  have hside : u.txfPutSide = s.txfPutSide := txfPutSide_congr (by simp [hu])
  obtain ⟨hside', hpk⟩ : t.txfPutSide = u.txfPutSide ∧ t.parked = u.parked := by
    rcases he with rfl | ⟨f, bytes, rfl, hinit, hput⟩
    · have hrun : run turn u = .next t := by
        simpa only [step, hq, event, ← hu] using h
      exact run_of_lockedOut (lockedOut_of_holder hwf hy hspares) hrun
    · have hrun : runBytes f bytes u = .next t := by
        simpa only [step, hq, event, ← hu] using h
      obtain ⟨_, hl, i, hi, hcase⟩ := runBytes_next hrun
      refine request_of_holder (i := i) hwf hl hy ?_ (fun v => ?_) hcase
      · rintro rfl
        exact hi.elim hinit (by simp)
      · rintro rfl
        exact hi.elim (hput v) (by simp)
  have heq := Prod.mk.inj (hside'.trans hside)
  exact ⟨heq.1, heq.2, hpk ▸ hy⟩

end Sys2Proof.Machine
end

section
/-! The encodings (R90, R91, R98, R100, R104): what each form of operands, each command row and each descriptor decodes
to, and what bytes that decode must be. -/

namespace Sys2Proof.Machine

variable {i : Instr} {l : List Byte} {d : Descriptor}

/-! ### Operand ports (R104; log 7) -/

@[simp] theorem decodePipe_encodePipe (p : PipeId) : decodePipe (encodePipe p) = .ok p := by
  cases p <;> rfl

@[simp] theorem decodeSem_encodeSem (x : Sem) : decodeSem (encodeSem x) = .ok x := by
  cases x with
  | space p | items p | lock p => cases p <;> rfl
  | txlock => rfl

theorem decodeWithPipe_encodePipe (mk : PipeId → Instr) (p : PipeId) :
    decodeWithPipe mk [encodePipe p] = .ok (mk p) := by
  simp [decodeWithPipe, Except.map]

theorem decodeWithPipeByte_encodePipe (mk : PipeId → Byte → Instr) (p : PipeId) (b : Byte) :
    decodeWithPipeByte mk [encodePipe p, b] = .ok (mk p b) := by
  simp [decodeWithPipeByte, Except.map]

theorem decodeWithSem_encodeSem (mk : Sem → Instr) (x : Sem) :
    decodeWithSem mk [encodeSem x] = .ok (mk x) := by
  simp [decodeWithSem, Except.map]

theorem decodeWithAddr_addrBytes (mk : Addr → Instr) (a : Addr) :
    decodeWithAddr mk (addrBytes a) = .ok (mk a) := by
  simp [decodeWithAddr, addrBytes, addr_bytes]

theorem decodeWithAddr8_addrBytes (mk : Addr → Byte → Instr) (a : Addr) (v : Byte) :
    decodeWithAddr8 mk (addrBytes a ++ [v]) = .ok (mk a v) := by
  simp [decodeWithAddr8, addrBytes, addr_bytes]

theorem decodeWithAddr16_addrBytes (mk : Addr → BitVec 16 → Instr) (a : Addr) (v : BitVec 16) :
    decodeWithAddr16 mk (addrBytes a ++ [byteOf v 0, byteOf v 1]) = .ok (mk a v) := by
  simp [decodeWithAddr16, addrBytes, addr_bytes, le16_bytes]

theorem decodeWithAddr32_addrBytes (mk : Addr → BitVec 32 → Instr) (a : Addr) (v : BitVec 32) :
    decodeWithAddr32 mk (addrBytes a ++ [byteOf v 0, byteOf v 1, byteOf v 2, byteOf v 3])
      = .ok (mk a v) := by
  simp [decodeWithAddr32, addrBytes, addr_bytes, le32_bytes]

/-! ### Descriptors (R100) -/

@[simp] theorem decodeDescriptor_encodeDescriptor (d : Descriptor) :
    decodeDescriptor (encodeDescriptor d) = some d := by
  simp [decodeDescriptor, encodeDescriptor, addrBytes, phraseBytes, addr_bytes]

theorem decodeWithDescriptor_encodeDescriptor (mk : Descriptor → Instr) (d : Descriptor) :
    decodeWithDescriptor mk (encodeDescriptor d) = .ok (mk d) := by
  simp [decodeWithDescriptor]

theorem encodeDescriptor_length (d : Descriptor) : (encodeDescriptor d).length = 12 := rfl

/-- Twelve bytes are the encoding of the descriptor they decode to: none of their bits is dropped. -/
theorem encodeDescriptor_of_decode (hl : l.length = 12) (h : decodeDescriptor l = some d) :
    encodeDescriptor d = l := by
  match l, hl with
  | [opc, a2, a1, a0, d0, d1, d2, d3, d4, d5, d6, d7], _ =>
    obtain ⟨h2, h1, h0⟩ := byteOf_addrOf a2 a1 a0
    cases h
    simp [encodeDescriptor, addrBytes, phraseBytes, h2, h1, h0]

theorem decodeFccob_program (a : Addr) (q : Phrase) :
    decodeFccob (encodeDescriptor ⟨Config.opcProgramPhrase, a, q⟩) = .ok (.fcmdPgm8 a q) := by
  simp [decodeFccob, encodeDescriptor_length]

theorem decodeFccob_erase (a : Addr) (q : Phrase) :
    decodeFccob (encodeDescriptor ⟨Config.opcEraseSector, a, q⟩) = .ok (.fcmdErsscr a q) := by
  simp [decodeFccob, encodeDescriptor_length, Config.opcEraseSector, Config.opcProgramPhrase]

/-- What decodes as a descriptor is the encoding of one with one of the two opcodes (R100, R106). -/
theorem encode_of_decodeFccob (h : decodeFccob l = .ok i) : encode i = (.fccob, l) := by
  unfold decodeFccob at h
  split at h
  case isFalse => cases h
  case isTrue hl =>
    split at h
    case h_2 => cases h
    case h_1 d hd =>
      have hdl := encodeDescriptor_of_decode hl hd
      split at h
      case isTrue hop =>
        cases h
        rw [← hdl, encode, ← hop]
      case isFalse =>
        split at h
        case isFalse => cases h
        case isTrue hop =>
          cases h
          rw [← hdl, encode, ← hop]

/-! ### Command frames (R91, R98) -/

/-- The rows of R98: a command's code and its instruction. -/
inductive CommandRow : Byte → (Bool → Byte → Byte → Byte → Byte → Instr) → Prop
  | startup : CommandRow 0x04#8 .cmdStartup
  | pgmbyte : CommandRow 0x07#8 .cmdPgmbyte
  | rdbyte : CommandRow 0x08#8 .cmdRdbyte
  | version : CommandRow 0x09#8 .cmdVersion
  | protocol : CommandRow 0x0A#8 .cmdProtocol
  | number : CommandRow 0x0B#8 .cmdNumber
  | time : CommandRow 0x0C#8 .cmdTime
  | mode : CommandRow 0x0D#8 .cmdMode

section
variable {code : Byte} {mk : Bool → Byte → Byte → Byte → Byte → Instr}

/-- The codes of the table leave bit 7 to the flag (R95). -/
theorem CommandRow.flag_clear (h : CommandRow code mk) : code.getLsbD 7 = false := by
  cases h <;> rfl

theorem CommandRow.codeOf_code (h : CommandRow code mk) : codeOf code = code := by
  cases h <;> rfl

theorem CommandRow.encode_eq (h : CommandRow code mk) (ack : Bool) (p1 p2 p3 k : Byte) :
    encode (mk ack p1 p2 p3 k) = encodeFrame code ack p1 p2 p3 k := by
  cases h <;> rfl

/-- A frame with a row's code decodes to that row's instruction. -/
theorem CommandRow.decodeFrame_eq {c : Byte} (h : CommandRow code mk) (hc : codeOf c = code)
    (p1 p2 p3 k : Byte) : decodeFrame [c, p1, p2, p3, k] = .ok (mk (ackOf c) p1 p2 p3 k) := by
  simp only [decodeFrame, hc]
  cases h <;> rfl

theorem CommandRow.decode_encode (h : CommandRow code mk) (ack : Bool) (p1 p2 p3 k : Byte) :
    decode (encode (mk ack p1 p2 p3 k)).1 (encode (mk ack p1 p2 p3 k)).2
      = .ok (mk ack p1 p2 p3 k) := by
  have hcode : codeOf (commandByte ack code) = code :=
    (codeOf_commandByte ack code).trans h.codeOf_code
  have hdec := h.decodeFrame_eq hcode p1 p2 p3 k
  rw [ackOf_commandByte ack h.flag_clear] at hdec
  rw [h.encode_eq]
  exact hdec

end

/-- What decodes as a frame has five bytes, and its code chooses the row (R91, R98). -/
theorem decodeFrame_ok (h : decodeFrame l = .ok i) :
    ∃ c p1 p2 p3 k mk, l = [c, p1, p2, p3, k] ∧ CommandRow (codeOf c) mk
      ∧ i = mk (ackOf c) p1 p2 p3 k := by
  unfold decodeFrame at h
  split at h
  case h_2 => cases h
  case h_1 c p1 p2 p3 k =>
    have row {code mk} (hrow : CommandRow code mk) (hc : (codeOf c).toNat = code.toNat) :
        CommandRow (codeOf c) mk := BitVec.eq_of_toNat_eq hc ▸ hrow
    refine ⟨c, p1, p2, p3, k, ?_⟩
    split at h
    case h_1 hc => cases h; exact ⟨_, rfl, row .startup hc, rfl⟩
    case h_2 hc => cases h; exact ⟨_, rfl, row .pgmbyte hc, rfl⟩
    case h_3 hc => cases h; exact ⟨_, rfl, row .rdbyte hc, rfl⟩
    case h_4 hc => cases h; exact ⟨_, rfl, row .version hc, rfl⟩
    case h_5 hc => cases h; exact ⟨_, rfl, row .protocol hc, rfl⟩
    case h_6 hc => cases h; exact ⟨_, rfl, row .number hc, rfl⟩
    case h_7 hc => cases h; exact ⟨_, rfl, row .time hc, rfl⟩
    case h_8 hc => cases h; exact ⟨_, rfl, row .mode hc, rfl⟩
    case h_9 => cases h

/-- A frame that decodes is put together again from its flag, its code and its operands (R95). -/
theorem encode_of_decodeFrame (h : decodeFrame l = .ok i) : encode i = (.frame, l) := by
  obtain ⟨c, p1, p2, p3, k, mk, rfl, row, rfl⟩ := decodeFrame_ok h
  rw [row.encode_eq, encodeFrame, commandByte_of]

/-! ### The two directions -/

/-- Settles O1, row by row of the table: a form of operands for each operation, the code for a command, the opcode
for a descriptor. -/
theorem decodeInvertsEncode : Obligations.DecodeInvertsEncode := by
  unfold Obligations.DecodeInvertsEncode
  intro i
  cases i with
  | pipeInit p | pipeGet p | pipeGetB p => exact decodeWithPipe_encodePipe _ p
  | pipePut p b | pipePutB p b => exact decodeWithPipeByte_encodePipe _ p b
  | semWait x | semSignal x => exact decodeWithSem_encodeSem _ x
  | codecInit | frStep | frGet | nvInit | nvErase | seqWait | seqExec => rfl
  | frPut | frPutB | dispatch | nvAlloc => rfl
  | nvRead8 a | nvRead16 a | nvRead32 a => exact decodeWithAddr_addrBytes _ a
  | nvWrite8 a v => exact decodeWithAddr8_addrBytes _ a v
  | nvWrite16 a v => exact decodeWithAddr16_addrBytes _ a v
  | nvWrite32 a v => exact decodeWithAddr32_addrBytes _ a v
  | seqLaunch d => exact decodeWithDescriptor_encodeDescriptor _ d
  | cmdStartup => exact CommandRow.startup.decode_encode ..
  | cmdPgmbyte => exact CommandRow.pgmbyte.decode_encode ..
  | cmdRdbyte => exact CommandRow.rdbyte.decode_encode ..
  | cmdVersion => exact CommandRow.version.decode_encode ..
  | cmdProtocol => exact CommandRow.protocol.decode_encode ..
  | cmdNumber => exact CommandRow.number.decode_encode ..
  | cmdTime => exact CommandRow.time.decode_encode ..
  | cmdMode => exact CommandRow.mode.decode_encode ..
  | fcmdPgm8 a q => exact decodeFccob_program a q
  | fcmdErsscr a q => exact decodeFccob_erase a q

/-- Settles O2: neither a frame nor a descriptor has a bit that its instruction does not keep. -/
theorem encodeInvertsDecode : Obligations.EncodeInvertsDecode := by
  unfold Obligations.EncodeInvertsDecode
  intro f bytes i hf h
  cases f with
  | op => exact absurd rfl hf
  | frame => exact encode_of_decodeFrame h
  | fccob => exact encode_of_decodeFccob h

/-- Settles O3: the decoder evaluates on each of the five words. -/
theorem specWordsDecode : Obligations.SpecWordsDecode := by
  unfold Obligations.SpecWordsDecode
  exact ⟨rfl, rfl, rfl, rfl, rfl⟩

end Sys2Proof.Machine
end

section
/-! What a request's bytes do (R90, R101, R103 to R105), and the failures of its operands: NV_ALLOC's size, an unknown
command, a reserved parameter. -/

namespace Sys2Proof.Machine

variable {s : State} {f : Format} {bytes : List Byte}

/-! ### A request -/

theorem step_request {who : Agent} {turn : Nat} {q : List Event}
    (hq : s.queue = .request who f bytes turn :: q) :
    step s = runBytes f bytes ((s.take q turn).switchTo who) := by
  simp only [step, hq, event]

theorem runBytes_ok {i : Instr} (h : decode f bytes = .ok i) (s : State) :
    runBytes f bytes s = exec i s := by
  simp only [runBytes, h]

/-- A frame whose code has no row is dispatched all the same (R101, R213). -/
theorem runBytes_unknownCode {g : Frame} {k : Byte} (h : decode f bytes = .error (.unknownCode g k))
    (s : State) : runBytes f bytes s = frameRun g k s := by
  simp only [runBytes, h, execUnknownFrame]

/-- Settles O5: the step takes the request off the queue and runs what its bytes decode to. -/
theorem stepRunsDecodedInstruction : Obligations.StepRunsDecodedInstruction := by
  unfold Obligations.StepRunsDecodedInstruction
  intro s who f bytes turn q i hq hd
  exact (step_request hq).trans (runBytes_ok hd _)

/-! ### Reserved operation selects -/

/-- An `OPSEL` that no row of R104 has is reserved. -/
theorem decodeOp_reserved {sel : Byte} (ports : List Byte)
    (h : sel.toNat ∉ [0x00, 0x01, 0x02, 0x03, 0x04, 0x05, 0x06, 0x08, 0x09, 0x0A, 0x0B, 0x0C, 0x10,
      0x11, 0x12, 0x13, 0x14, 0x15, 0x16, 0x17, 0x18, 0x1A, 0x1B, 0x1C, 0x1E]) :
    decodeOp (sel :: ports) = .error (.reservedOpsel sel) := by
  dsimp only [decodeOp]
  split
  case h_26 => rfl
  all_goals
    rename_i hsel
    exact absurd (by rw [hsel]; decide) h

/-- Settles O4: the decoder's refusal is the step's. -/
theorem reservedOpselRefused : Obligations.ReservedOpselRefused := by
  unfold Obligations.ReservedOpselRefused
  intro sel ports s who turn q hsel hq
  have hd : decode .op (sel :: ports) = .error (.reservedOpsel sel) := decodeOp_reserved ports hsel
  rw [step_request hq]
  simp only [runBytes, hd]

/-! ### NV_ALLOC without a result -/

theorem allocate_wrongSize {size : Byte} (h : ¬ (size = 1#8 ∨ size = 2#8 ∨ size = 4#8)) (s : State) :
    allocate size s = .error (.parameterInvalid (.size size)) :=
  if_neg h

/-- Where no aligned run is free there is nothing to allocate. -/
theorem allocate_exhausted {size : Byte} (h : size = 1#8 ∨ size = 2#8 ∨ size = 4#8)
    (hrun : ∀ r, r % size.toNat = 0 → ∃ k, k < size.toNat ∧ s.alloc[r + k]? ≠ some false) :
    allocate size s = .error (.allocationExhausted size) := by
  simp only [allocate, if_pos h, findFree_none hrun]

/-- An allocation that fails is reported, and changes nothing (R161, R240). -/
theorem exec_nvAlloc_error {size : Byte} {e : ErrorKind} (hr : s.ready = true)
    (h : allocate size s = .error e) : exec (.nvAlloc size) s = .next (s.respond (.fail e)) := by
  simp only [exec, execNvAlloc, issue_ready hr, State.ready.mayAct hr, need_true, h, raise]

/-- Settles O37: the allocator fails for each of the two reasons, and a failure is only reported. -/
theorem nvAllocFailsWithoutARun : Obligations.NvAllocFailsWithoutARun := by
  unfold Obligations.NvAllocFailsWithoutARun
  intro size s hr
  exact ⟨fun hsize => exec_nvAlloc_error hr (allocate_wrongSize hsize s),
    fun hsize hrun => exec_nvAlloc_error hr (allocate_exhausted hsize hrun)⟩

/-! ### Unknown commands -/

theorem exec_dispatch (c p1 p2 p3 : Byte) (hr : s.ready = true) (hm : s.maySend = true) :
    exec (.dispatch c p1 p2 p3) s = begin [.handle ⟨c, p1, p2, p3⟩] s := by
  simp only [exec, execDispatch, issue_ready hr, hm, need_true]

/-- A frame with its right checksum is dispatched (R91, R201). -/
theorem frameRun_valid (g : Frame) (hr : s.ready = true) (hm : s.maySend = true) :
    frameRun g (checksum g.command g.p1 g.p2 g.p3) s = begin [.handle g] s := by
  simp only [frameRun, issue_ready hr, hm, need_true, if_true]

/-- A code that is none of R98's eight. -/
def unlistedCode (c : Byte) : Prop :=
  (codeOf c).toNat ∉ [0x04, 0x07, 0x08, 0x09, 0x0A, 0x0B, 0x0C, 0x0D]

theorem decodeFrame_unlistedCode {c : Byte} (h : unlistedCode c) (p1 p2 p3 k : Byte) :
    decodeFrame [c, p1, p2, p3, k] = .error (.unknownCode ⟨c, p1, p2, p3⟩ k) := by
  dsimp only [decodeFrame]
  split
  case h_9 => rfl
  all_goals
    rename_i hc
    exact absurd (by rw [hc]; decide) h

theorem handler_unlistedCode {g : Frame} (h : unlistedCode g.command) (s : State) :
    handler g s = hUnknown g s := by
  unfold handler
  split
  case h_9 => rfl
  all_goals
    rename_i hc
    exact absurd (by rw [hc]; decide) h

/-- Settles O48: the request's bytes and DISPATCH both begin with the frame's handler, which is `hUnknown`. -/
theorem unknownCommandIsAFailure : Obligations.UnknownCommandIsAFailure := by
  unfold Obligations.UnknownCommandIsAFailure
  intro c p1 p2 p3 s hcode hr hc hn
  have hd : decode .frame [c, p1, p2, p3, checksum c p1 p2 p3]
      = .error (.unknownCode ⟨c, p1, p2, p3⟩ (checksum c p1 p2 p3)) :=
    decodeFrame_unlistedCode hcode ..
  obtain ⟨t, hrun, hdone, hstore, hregs⟩ := plain_answer (f := ⟨c, p1, p2, p3⟩)
    (handler_unlistedCode (g := ⟨c, p1, p2, p3⟩) hcode s.fresh) hc hn
  refine ⟨t, (exec_dispatch c p1 p2 p3 hr hc.1).trans hrun, ?_, hdone, hstore, hregs⟩
  rw [runBytes_unknownCode hd]
  exact (frameRun_valid ⟨c, p1, p2, p3⟩ hr hc.1).trans hrun

/-! ### Reserved parameters (R102) -/

section
variable {g : Frame}

theorem hPgmbyte_reserved (h : 8 < g.p1.toNat) (s : State) :
    hPgmbyte g s = badParam .offset g s := by
  rw [hPgmbyte, if_neg (by omega), if_neg (by omega)]

theorem hRdbyte_reserved (h : 7 < g.p1.toNat) (s : State) : hRdbyte g s = badParam .offset g s :=
  if_pos h

theorem hTime_reserved (h : 23 < g.p1.toNat ∨ 59 < g.p2.toNat ∨ 59 < g.p3.toNat) (s : State) :
    hTime g s = badParam .time g s :=
  if_pos h

theorem hProtocol_reserved_selector (h1 : g.p1 ≠ 1#8) (h2 : g.p1 ≠ 2#8) (s : State) :
    hProtocol g s = badParam .selector g s := by
  rw [hProtocol, if_neg h1, if_neg h2]

theorem hProtocol_reserved_value (h2 : g.p1 = 2#8) (hv : 1 < g.p2.toNat) (s : State) :
    hProtocol g s = badParam .value g s := by
  rw [hProtocol, if_neg (by rw [h2]; decide), if_pos h2, if_pos hv]

theorem getSet16_reserved (a : Addr) (h1 : g.p1 ≠ 1#8) (h2 : g.p1 ≠ 2#8) (s : State) :
    getSet16 a g s = badParam .selector g s := by
  rw [getSet16, if_neg h1, if_neg h2]

/-- Once both handles are set, a handler that would answer the same for any handles answers so (R263). -/
theorem withHandles_const {k : Addr → Addr → HandlerOut} {r : HandlerOut} (hn : s.nvNumber ≠ none)
    (hm : s.nvMode ≠ none) (hk : ∀ a b, k a b = r) : withHandles k s = r := by
  obtain ⟨a, ha⟩ := Option.ne_none_iff_exists'.mp hn
  obtain ⟨b, hb⟩ := Option.ne_none_iff_exists'.mp hm
  rw [withHandles_some ha hb, hk]

theorem hNumber_reserved (h1 : g.p1 ≠ 1#8) (h2 : g.p1 ≠ 2#8) (hn : s.nvNumber ≠ none)
    (hm : s.nvMode ≠ none) : hNumber g s = badParam .selector g s :=
  withHandles_const hn hm fun a _ => getSet16_reserved a h1 h2 s

theorem hMode_reserved (h1 : g.p1 ≠ 1#8) (h2 : g.p1 ≠ 2#8) (hn : s.nvNumber ≠ none)
    (hm : s.nvMode ≠ none) : hMode g s = badParam .selector g s :=
  withHandles_const hn hm fun _ b => getSet16_reserved b h1 h2 s

end

/-- A row's frame, as an instruction, is a run of that frame. -/
theorem CommandRow.exec_eq {code : Byte} {mk : Bool → Byte → Byte → Byte → Byte → Instr}
    (h : CommandRow code mk) (ack : Bool) (p1 p2 p3 k : Byte) (s : State) :
    exec (mk ack p1 p2 p3 k) s = frameRun ⟨commandByte ack code, p1, p2, p3⟩ k s := by
  cases h <;> rfl

/-- Settles O57: every reserved parameter is turned down by its handler's check, which leaves the state alone. -/
theorem reservedParametersFail : Obligations.ReservedParametersFail := by
  unfold Obligations.ReservedParametersFail
  intro code e ack p1 p2 p3 i s hi hr hc hn
  have key : ∃ mk, CommandRow code mk ∧ isCommand code mk ack p1 p2 p3 i
      ∧ handler ⟨commandByte ack code, p1, p2, p3⟩ s.fresh
        = badParam e ⟨commandByte ack code, p1, p2, p3⟩ s.fresh := by
    rcases hi with ⟨rfl, hi, hp, rfl⟩ | ⟨rfl, hi, hp, rfl⟩ | ⟨rfl, hi, hp, rfl⟩
      | ⟨rfl, hi, h1, h2, hnum, hmode, rfl⟩ | ⟨rfl, hi, h1, h2, hnum, hmode, rfl⟩
      | ⟨rfl, hi, h1, h2, rfl⟩ | ⟨rfl, hi, h2, hv, rfl⟩
    · exact ⟨_, .pgmbyte, hi, (handler_pgmbyte ..).trans (hPgmbyte_reserved hp _)⟩
    · exact ⟨_, .rdbyte, hi, (handler_rdbyte ..).trans (hRdbyte_reserved hp _)⟩
    · exact ⟨_, .time, hi, (handler_time ..).trans (hTime_reserved hp _)⟩
    · exact ⟨_, .number, hi, (handler_number ..).trans (hNumber_reserved h1 h2 hnum hmode)⟩
    · exact ⟨_, .mode, hi, (handler_mode ..).trans (hMode_reserved h1 h2 hnum hmode)⟩
    · exact ⟨_, .protocol, hi, (handler_protocol ..).trans (hProtocol_reserved_selector h1 h2 _)⟩
    · exact ⟨_, .protocol, hi, (handler_protocol ..).trans (hProtocol_reserved_value h2 hv _)⟩
  obtain ⟨mk, hrow, hcmd, hh⟩ := key
  rw [isCommand_begin hcmd hr hc.1 fun k => hrow.exec_eq ack p1 p2 p3 k s]
  exact plain_answer hh hc hn

end Sys2Proof.Machine
end

section
/-! The Byte Pipe's operations where they may be performed and none of their parts waits: each replaces one pipe and
answers (R120 to R125). -/

namespace Sys2Proof.Machine

variable {s u : State} {p : PipeId} {b : Byte}

/-! ### One pipe replaced -/

/-- An operation asked for in `s` that, from `u`, where at most notes differ, has replaced one pipe and answered: it has
returned, and nothing else of `u` is changed. -/
theorem setPipe_respond_leaves (q : Pipe) (r : Response) (hme : u.me = s.me)
    (hl : s.me.todo = []) :
    returned r ((u.setPipe p q).respond r) ∧ ((u.setPipe p q).respond r).pipe p = q
      ∧ onlyPipe p u ((u.setPipe p q).respond r) ∧ sameCarried s ((u.setPipe p q).respond r) :=
  ⟨⟨by simpa [hme] using hl, by simp⟩, by simp, onlyPipe_set p q r u, by simp [sameCarried, hme]⟩

/-- Settles O17: the store of the byte replaces the pipe. -/
theorem pipePutStoresTheByte : Obligations.PipePutStoresTheByte := by
  unfold Obligations.PipePutStoresTheByte
  intro p b s hc hm hroom
  exact ⟨_, (exec_pipePut hc hm).trans (if_neg hroom),
    setPipe_respond_leaves _ _ rfl (canAsk_todo hc)⟩

/-- Settles O18: the removal of the oldest byte, which is the one at `start`, replaces the pipe. -/
theorem pipeGetRemovesTheOldestByte : Obligations.PipeGetRemovesTheOldestByte := by
  unfold Obligations.PipeGetRemovesTheOldestByte
  intro p b s hc hm hne hb
  have hrun := (exec_pipeGet hc hm).trans (if_neg hne)
  rw [oldest_eq hb] at hrun
  exact ⟨_, hrun, setPipe_respond_leaves _ _ rfl (canAsk_todo hc)⟩

/-! ### PIPE_INIT -/

/-- PIPE_INIT where it may be asked for (R120). -/
theorem exec_pipeInit (hr : s.ready = true) :
    exec (.pipeInit p) s
      = if pipeHasWaiters p s then .refused .pipeHasWaiters
        else .next (((s.setUsers p ⟨none, none⟩).setPipe p ((s.pipe p).init s)).respond .done) := by
  simp only [exec, execPipeInit, issue_ready hr, State.ready.mayAct hr, need_true, pipeInit]
  split
  · rfl
  · cases p <;> rfl

/-- Settles O16: where nobody is blocked, the initialised pipe replaces the pipe and the note of its users is empty. -/
theorem pipeInitEmptiesThePipe : Obligations.PipeInitEmptiesThePipe := by
  unfold Obligations.PipeInitEmptiesThePipe
  intro p s hr
  refine ⟨fun hw => ?_, fun hw => (exec_pipeInit hr).trans (if_pos hw)⟩
  obtain ⟨hret, hpipe, honly, hcarried⟩ := setPipe_respond_leaves (p := p)
    (u := s.setUsers p ⟨none, none⟩) ((s.pipe p).init s) .done (by simp) (ready_todo hr)
  refine ⟨_, (exec_pipeInit hr).trans (if_neg (by simp [hw])), hret, ?_⟩
  rw [hpipe]
  exact ⟨rfl, rfl, rfl, rfl, rfl, rfl, rfl, by simp, honly, hcarried⟩

/-! ### The blocking forms where none of their parts waits -/

/-- Where an operation has replaced a pipe, answered and has nothing left to do, nothing remains of its parts. -/
theorem at_nil_respond (q : Pipe) (r r' : Response) (hl : s.me.todo = []) :
    (((s.setTodo []).respond r).at p q []).respond r' = (s.setPipe p q).respond r' := by
  rw [setTodo_self hl, ← setTodo_self (s := (s.setPipe p q).respond r') (by simpa using hl)]
  cases p <;> rfl

/-- PIPE_PUT_B's parts, run from their beginning in one turn (R124). -/
theorem begin_putB (hl : s.me.todo = []) (hi : (s.pipe p).inited = true)
    (hlock : s.lockFree p = true) (hspace : 0 < (s.pipe p).space) (hn : 6 ≤ s.turn) :
    begin (putBParts p b s ++ [.ret .done]) s
      = .next ((s.setPipe p ((s.pipe p).putB s.build.capacity b)).respond .done) := by
  obtain ⟨k, hk, hst⟩ := putB_begin (b := b) (l := [.ret .done]) s hi hlock hspace
  have hret := hst.trans (Steps.one (m := .ret .done) (l := []) rfl rfl)
  rw [← at_nil_respond _ .pending _ hl]
  exact (hret.to rfl).run (by omega) rfl

/-- PIPE_GET_B's parts, run from their beginning in one turn (R125). -/
theorem begin_getB (hl : s.me.todo = []) (hi : (s.pipe p).inited = true)
    (hlock : s.lockFree p = true) (hitems : 0 < (s.pipe p).items) (hn : 6 ≤ s.turn) :
    begin (getBParts p (.pipeTake p) s) s
      = .next ((s.setPipe p ((s.pipe p).getB s.build.capacity)).respond
          (.byte (s.pipe p).oldest)) := by
  obtain ⟨k, hk, hst⟩ := takeB_begin (l := []) s hi hlock hitems
  rw [List.append_nil] at hst
  rw [← at_nil_respond _ (.byte (s.pipe p).oldest) _ hl]
  exact (hst.to (by cases p <;> rfl)).run (Nat.le_trans hk (Nat.le_of_succ_le hn)) rfl

/-- PIPE_PUT_B where it may be asked for and none of its parts waits. -/
theorem exec_pipePutB_runs (hr : s.ready = true) (hm : s.mayPutB p = true)
    (hlock : s.lockFree p = true) (hspace : 0 < (s.pipe p).space) (hn : 6 ≤ s.turn) :
    exec (.pipePutB p b) s
      = .next (((s.notePut p (putsUnderLock p s)).setPipe p
          ((s.pipe p).putB s.build.capacity b)).respond .done) := by
  obtain ⟨_, hi, _⟩ := mayPutB_iff hm
  have hrun := begin_putB (s := s.notePut p (putsUnderLock p s)) (p := p) (b := b)
    (by simpa using ready_todo hr) (by simpa using hi)
    ((lockFree_congr (by simp) (by simp)).trans hlock) (by simpa using hspace) (by simpa using hn)
  rw [putBParts_congr (State.notePut_locked ..)] at hrun
  simpa only [State.notePut_pipe, State.notePut_build] using (exec_pipePutB b hr hm).trans hrun

/-- PIPE_GET_B where it may be asked for and none of its parts waits. -/
theorem exec_pipeGetB_runs (hr : s.ready = true) (hm : s.mayGetB p = true)
    (hlock : s.lockFree p = true) (hitems : 0 < (s.pipe p).items) (hn : 6 ≤ s.turn) :
    exec (.pipeGetB p) s
      = .next (((s.noteGet p).setPipe p ((s.pipe p).getB s.build.capacity)).respond
          (.byte (s.pipe p).oldest)) := by
  obtain ⟨_, hi, _⟩ := mayGetB_iff hm
  have hrun := begin_getB (s := s.noteGet p) (p := p) (by simpa using ready_todo hr)
    (by simpa using hi) ((lockFree_congr (by simp) (by simp)).trans hlock) (by simpa using hitems)
    (by simpa using hn)
  rw [getBParts_congr (State.noteGet_locked ..)] at hrun
  simpa only [State.noteGet_pipe, State.noteGet_build] using (exec_pipeGetB hr hm).trans hrun

/-- Settles O21: its parts take the lock and give it back, and otherwise leave `putB`. -/
theorem pipePutBStoresTheByte : Obligations.PipePutBStoresTheByte := by
  unfold Obligations.PipePutBStoresTheByte
  intro p b s hr hm hlock hspace hn
  exact ⟨_, exec_pipePutB_runs hr hm hlock hspace hn,
    setPipe_respond_leaves _ _ (State.notePut_me ..) (ready_todo hr)⟩

/-- Settles O22: its parts take the lock and give it back, and otherwise leave `getB`. -/
theorem pipeGetBRemovesTheOldestByte : Obligations.PipeGetBRemovesTheOldestByte := by
  unfold Obligations.PipeGetBRemovesTheOldestByte
  intro p b s hr hm hlock hitems hb hn
  have hrun := exec_pipeGetB_runs hr hm hlock hitems hn
  rw [oldest_eq hb] at hrun
  exact ⟨_, hrun, setPipe_respond_leaves _ _ (State.noteGet_me ..) (ready_todo hr)⟩

end Sys2Proof.Machine
end

section
/-! FR_STEP in either regime: one byte from `RXF`, one step of R141's table. -/

namespace Sys2Proof.Machine

variable {s u : State} {b : Byte}

/-! ### What FR_STEP is, where it may be performed -/

/-- In the polled regime the agent that may get from `RXF` is the codec's user (R129, R253). -/
theorem mayStep_of_mayGetNow (hm : s.mayGetNow .rxf = true) : s.mayStep = true := by
  obtain ⟨hp, _, hg⟩ := mayGetNow_iff hm
  unfold State.mayGet at hg
  unfold State.mayStep
  rw [if_pos hp] at hg ⊢
  exact hg

/-- FR_STEP of the polled regime, which is atomic (R141). -/
theorem exec_frStep_polled (hr : s.ready = true) (hm : s.mayGetNow .rxf = true)
    (hc : s.codecRests) :
    exec .frStep s
      = if s.rxf.count = 0 then .next (s.respond .noFrame)
        else .next (codecTakeByte s.rxf.oldest (s.setPipe .rxf (s.rxf.drop s.build.capacity))) := by
  obtain ⟨hp, hi, _⟩ := mayGetNow_iff hm
  have hi : s.rxf.inited = true := hi
  simp only [exec, execFrStep, issue_ready hr, State.ready.mayAct hr, hi, mayStep_of_mayGetNow hm,
    need_true, threaded_of_polled hp, Bool.false_eq_true, if_false, frStep_eq hm hc]
  split <;> rfl

/-- FR_STEP of the threaded regime begins with PIPE_GET_B, its agent noted as the codec's user (R141). -/
theorem exec_frStep_threaded (hr : s.ready = true) (hm : s.mayStepB = true) :
    exec .frStep s = begin (frStepParts s) s.noteStep := by
  obtain ⟨ht, hi, hs⟩ := mayStepB_iff hm
  simp only [exec, execFrStep, issue_ready hr, State.ready.mayAct hr, hi, hs, ht, need_true, if_true]

/-- FR_STEP's parts in the threaded regime, run from their beginning in one turn. -/
theorem begin_frStep (hl : s.me.todo = []) (hi : s.rxf.inited = true)
    (hlock : s.lockFree .rxf = true) (hitems : 0 < s.rxf.items) (hn : 6 ≤ s.turn) :
    begin (frStepParts s) s
      = .next (codecTakeByte s.rxf.oldest (s.setPipe .rxf (s.rxf.getB s.build.capacity))) := by
  obtain ⟨k, hk, hst⟩ := stepB_begin (l := []) s hi hlock hitems
  rw [List.append_nil, setTodo_self hl] at hst
  have hend : (codecTakeByte s.rxf.oldest s).at .rxf (s.rxf.getB s.build.capacity) []
      = codecTakeByte s.rxf.oldest (s.setPipe .rxf (s.rxf.getB s.build.capacity)) :=
    setTodo_self (s := codecTakeByte s.rxf.oldest (s.setPipe .rxf (s.rxf.getB s.build.capacity))) hl
  exact (hst.to hend).run (Nat.le_trans hk (Nat.le_of_succ_le hn)) hl

/-- FR_STEP of the threaded regime where none of its parts waits. -/
theorem exec_frStep_runs (hr : s.ready = true) (hm : s.mayStepB = true)
    (hlock : s.lockFree .rxf = true) (hitems : 0 < s.rxf.items) (hn : 6 ≤ s.turn) :
    exec .frStep s
      = .next (codecTakeByte s.rxf.oldest
          (s.noteStep.setPipe .rxf (s.rxf.getB s.build.capacity))) := by
  obtain ⟨_, hi, _⟩ := mayStepB_iff hm
  have hrun := begin_frStep (s := s.noteStep) (by simpa using ready_todo hr) (by simpa using hi)
    ((lockFree_congr (by simp) (by simp)).trans hlock) (by simpa using hitems) (by simpa using hn)
  have hparts : frStepParts s.noteStep = frStepParts s :=
    getBParts_congr (State.noteStep_locked s) .rxf .codecTake
  rw [hparts] at hrun
  simpa only [State.noteStep_rxf, State.noteStep_build] using
    (exec_frStep_threaded hr hm).trans hrun

/-! ### What it leaves -/

/-- The codec's step with `RXF` replaced, asked for in `s` and made from `u`, where at most notes differ: it is that of
R141's table, and nothing else of `u` is changed. -/
theorem codecTakeByte_leaves (q : Pipe) (b : Byte) (hme : u.me = s.me) (hfr : u.fr = s.fr)
    (hl : s.me.todo = []) (hc : s.codecRests) :
    let t := codecTakeByte b (u.setPipe .rxf q)
    t.me.todo = [] ∧ Codec.takes b s.fr t.fr t.me.resp ∧ t.rxf = q ∧ onlyCodecAnd .rxf u t
      ∧ sameCarried s t := by
  refine ⟨?todo, ?takes, rfl, onlyCodec_set q _ _ u, ?carried⟩
  case todo => simpa [codecTakeByte, hme] using hl
  case takes => simpa [codecTakeByte, hfr] using takes_takeByte b hc
  case carried => simp [codecTakeByte, sameCarried, hme]

/-- Settles O27: in either regime the byte FR_STEP takes is the one at `start`, and the codec's table does the rest. -/
theorem frStepTakesOneByte : Obligations.FrStepTakesOneByte := by
  unfold Obligations.FrStepTakesOneByte
  intro s hr hc
  have hl := ready_todo hr
  refine ⟨fun hm => ⟨fun hz => ?empty, fun b hne hb => ?polled⟩,
    fun hm => ⟨fun hz => ?blocked, fun b hlock hitems hb hn => ?threaded⟩⟩
  case empty => exact (exec_frStep_polled hr hm hc).trans (if_pos hz)
  case polled =>
    have hrun := (exec_frStep_polled hr hm hc).trans (if_neg hne)
    rw [oldest_eq hb] at hrun
    exact ⟨_, hrun, codecTakeByte_leaves _ b rfl rfl hl hc⟩
  case blocked =>
    obtain ⟨r, hparts⟩ := getBParts_head .rxf .codecTake s
    rw [exec_frStep_threaded hr hm, frStepParts, hparts]
    exact begin_semWait_blocked _ (by simpa [semValue] using hz)
  case threaded =>
    have hrun := exec_frStep_runs hr hm hlock hitems hn
    rw [oldest_eq hb] at hrun
    exact ⟨_, hrun, codecTakeByte_leaves _ b (State.noteStep_me s) (State.noteStep_fr s) hl hc⟩

end Sys2Proof.Machine
end

section
/-! SEM_WAIT and SEM_SIGNAL as requests: the pair on `TXLOCK`, and what is outside the pairs (R126, R127; log 15). -/

namespace Sys2Proof.Machine

variable {s : State} {x : Sem}

/-- SEM_WAIT on `TXLOCK` above 0 takes one, and its agent owes the SEM_SIGNAL (R126, R146). -/
theorem exec_semWait_txlock_runs (hc : s.canAsk = true) (ht : s.threaded = true)
    (hm : s.maySend = true) (hpos : 0 < s.txlock) (hn : 2 ≤ s.turn) :
    exec (.semWait .txlock) s
      = .next (((setSem .txlock (s.txlock - 1) s).setHeld true).respond .done) := by
  have hr : s.ready = true := by simp [State.ready, hc, mayAct_of_maySend hm]
  rw [exec_semWait_txlock hr ht hm]
  have htake : Steps 1 ((s.setTodo [.semWait .txlock, .hold]).respond .pending)
      (((s.setTxlock (s.txlock - 1)).setTodo [.hold]).respond .pending) :=
    semWait_steps (x := .txlock) (by exact hpos) rfl
  have hhold : Steps 1 (((s.setTxlock (s.txlock - 1)).setTodo [.hold]).respond .pending)
      ((((setSem .txlock (s.txlock - 1) s).setHeld true).respond .done).setTodo []) :=
    Steps.one (m := .hold) (l := []) rfl rfl
  rw [setTodo_self (by exact canAsk_todo hc)] at hhold
  exact (htake.trans hhold).run hn (canAsk_todo hc)

/-- SEM_SIGNAL on `TXLOCK` by the agent that holds it gives one back (R127, R146). -/
theorem exec_semSignal_txlock (hc : s.canAsk = true) (ht : s.threaded = true)
    (hh : s.me.held = true) (hw : s.who ≠ .sequencer) :
    exec (.semSignal .txlock) s
      = .next (((setSem .txlock (s.txlock + 1) s).setHeld false).respond .done) := by
  simp [exec, execSemSignal, issue_canAsk hc, State.semExists, semValue, ht, hh, hw]

/-- Both primitives are refused on a pipe's semaphore (U13). -/
theorem exec_sem_of_pipe (hc : s.canAsk = true) (ht : s.threaded = true)
    (hx : x ≠ .txlock) (he : s.semExists x = true) :
    exec (.semWait x) s = .refused .outsideThePairs
      ∧ exec (.semSignal x) s = .refused .outsideThePairs := by
  simp [exec, execSemWait, execSemSignal, issue_canAsk hc, ht, he, hx, need]

/-- SEM_SIGNAL is refused where no SEM_WAIT of its caller comes before it (U13). -/
theorem exec_semSignal_not_held (hc : s.canAsk = true) (ht : s.threaded = true)
    (hh : s.me.held = false) : exec (.semSignal .txlock) s = .refused .outsideThePairs := by
  simp [exec, execSemSignal, issue_canAsk hc, State.semExists, ht, hh, need]

/-- `TXLOCK`, the note of who holds it and the response are written, and nothing else is. -/
theorem setTxlock_leaves (n : Nat) (h : Bool) (hl : s.me.todo = []) :
    let t := ((setSem .txlock n s).setHeld h).respond .done
    returned .done t ∧ t.txlock = n ∧ (∀ x, x ≠ .txlock → semValue x t = semValue x s)
      ∧ t.me.held = h ∧ t.me.txe = s.me.txe ∧ onlySemaphores s t :=
  ⟨⟨hl, rfl⟩, rfl, fun _ hx => (semValue_me ..).trans (semValue_setSem_ne hx n s), rfl, rfl,
    onlySem .txlock n h .done s⟩

/-- Settles O25: the pair on `TXLOCK` moves its count by one each way; all else is outside the pairs. -/
theorem semaphoresCountUnits : Obligations.SemaphoresCountUnits := by
  unfold Obligations.SemaphoresCountUnits
  intro s hc ht
  have hl := canAsk_todo hc
  refine ⟨fun hm hpos hn => ?wait, fun hh hw => ?signal, exec_semSignal_not_held hc ht,
    fun x hx he => exec_sem_of_pipe hc ht hx he⟩
  case wait =>
    obtain ⟨hret, hlock, hrest⟩ := setTxlock_leaves (s.txlock - 1) true hl
    exact ⟨_, exec_semWait_txlock_runs hc ht hm hpos hn, hret, by omega, hrest⟩
  case signal =>
    exact ⟨_, exec_semSignal_txlock hc ht hh hw, setTxlock_leaves (s.txlock + 1) false hl⟩

end Sys2Proof.Machine
end

section
/-! Which agent the rules give an operation to (R129, R187, R250, R253, R268, R274, R280; logs 15, 18): every operation
has one role, and it answers only an agent that has the role. -/

namespace Sys2Proof.Machine

variable {s t : State} {i : Instr} {p : PipeId}

/-! ### Roles -/

/-- What an agent must be to ask for an operation. -/
inductive Role
  /-- The flash sequencer (R187). -/
  | sequencer
  /-- The one producer of a pipe, polled regime (R129, R268). -/
  | producer (p : PipeId)
  /-- The one consumer of a pipe, polled regime (R129, R268). -/
  | consumer (p : PipeId)
  /-- An agent of the threaded regime that may owe a SEM_SIGNAL (R127, R274). -/
  | signaller
  /-- An agent that may send frames (R280). -/
  | sender
  /-- A task or thread (R129, R253). -/
  | actor

/-- The role each operation asks for. -/
def roleOf : Instr → Role
  | .seqExec => .sequencer
  | .pipePut p _ => .producer p
  | .pipeGet p => .consumer p
  | .semSignal _ => .signaller
  | .semWait _ | .frPut _ _ _ _ | .frPutB _ _ _ _ | .dispatch _ _ _ _ | .cmdStartup _ _ _ _ _
  | .cmdPgmbyte _ _ _ _ _ | .cmdRdbyte _ _ _ _ _ | .cmdVersion _ _ _ _ _ | .cmdProtocol _ _ _ _ _
  | .cmdNumber _ _ _ _ _ | .cmdTime _ _ _ _ _ | .cmdMode _ _ _ _ _ => .sender
  | .pipeInit _ | .pipePutB _ _ | .pipeGetB _ | .codecInit | .frStep | .frGet | .nvInit | .nvAlloc _
  | .nvRead8 _ | .nvRead16 _ | .nvRead32 _ | .nvWrite8 _ _ | .nvWrite16 _ _ | .nvWrite32 _ _
  | .nvErase | .seqLaunch _ | .seqWait | .fcmdPgm8 _ _ | .fcmdErsscr _ _ => .actor

/-- The running agent has the role. -/
def State.hasRole (s : State) : Role → Prop
  | .sequencer => s.who = .sequencer
  | .producer p => s.polled = true ∧ s.who = putter p
  | .consumer p => s.polled = true ∧ s.who = getter p
  | .signaller => s.threaded = true ∧ s.who ≠ .sequencer
  | .sender => s.maySend = true
  | .actor => s.mayAct = true

/-! ### An operation answers only an agent that has its role -/

theorem mayAct_of_issue {k : State → Host.Outcome State Fault Refusal}
    (h : issue (fun s => need s.mayAct .roleForbids (k s)) s = .next t) : s.mayAct = true := by
  obtain ⟨_, _, h⟩ := issue_next h
  exact (need_next h).1

theorem maySend_of_issue {k : State → Host.Outcome State Fault Refusal}
    (h : issue (fun s => need s.maySend .roleForbids (k s)) s = .next t) : s.maySend = true := by
  obtain ⟨_, _, h⟩ := issue_next h
  exact (need_next h).1

/-- In the polled regime a put is its one producer's (R129). -/
theorem mayPut_polled {l : Bool} (hp : s.polled = true) (h : s.mayPut p l = true) :
    s.who = putter p := by
  unfold State.mayPut at h
  rw [if_pos hp] at h
  exact of_decide_eq_true h

/-- In the polled regime a get is its one consumer's (R129). -/
theorem mayGet_polled (hp : s.polled = true) (h : s.mayGet p = true) : s.who = getter p := by
  unfold State.mayGet at h
  rw [if_pos hp] at h
  exact of_decide_eq_true h

theorem hasRole_of_pipePut {b : Byte} (h : exec (.pipePut p b) s = .next t) :
    s.hasRole (.producer p) := by
  simp only [exec, execPipePut] at h
  obtain ⟨_, _, h⟩ := issue_next h
  obtain ⟨_, hu, _⟩ := map_ok (settle_next h)
  obtain ⟨hp, _, hm, _⟩ := pipePut_ok hu
  exact ⟨hp, mayPut_polled hp hm⟩

theorem hasRole_of_pipeGet (h : exec (.pipeGet p) s = .next t) : s.hasRole (.consumer p) := by
  simp only [exec, execPipeGet] at h
  obtain ⟨_, _, h⟩ := issue_next h
  obtain ⟨_, hu, _⟩ := map_ok (settle_next h)
  obtain ⟨hp, _, hm, _⟩ := pipeGet_ok hu
  exact ⟨hp, mayGet_polled hp hm⟩

theorem hasRole_of_semSignal {x : Sem} (h : exec (.semSignal x) s = .next t) :
    s.hasRole .signaller := by
  simp only [exec, execSemSignal] at h
  obtain ⟨_, _, h⟩ := issue_next h
  obtain ⟨ht, h⟩ := need_next h
  obtain ⟨_, h⟩ := need_next h
  obtain ⟨_, h⟩ := need_next h
  exact ⟨ht, of_decide_eq_true (need_next h).1⟩

theorem maySend_of_semWait {x : Sem} (h : exec (.semWait x) s = .next t) : s.maySend = true := by
  simp only [exec, execSemWait] at h
  obtain ⟨_, _, h⟩ := issue_next h
  obtain ⟨_, h⟩ := need_next h
  obtain ⟨_, h⟩ := need_next h
  obtain ⟨_, h⟩ := need_next h
  exact (need_next h).1

/-- Each operation tests its agent's role on the way to its meaning. -/
theorem exec_hasRole (h : exec i s = .next t) : s.hasRole (roleOf i) := by
  cases i with
  | pipePut => exact hasRole_of_pipePut h
  | pipeGet => exact hasRole_of_pipeGet h
  | semSignal => exact hasRole_of_semSignal h
  | semWait => exact maySend_of_semWait h
  | seqExec =>
    simp only [exec, execSeqExec] at h
    obtain ⟨_, _, h⟩ := issue_next h
    exact of_decide_eq_true (p := s.who = .sequencer) (need_next h).1
  | frPut | frPutB | pipePutB | pipeGetB =>
    simp only [exec, execFrPut, execFrPutB, execPipePutB, execPipeGetB] at h
    obtain ⟨_, _, h⟩ := issue_next h
    obtain ⟨_, h⟩ := need_next h
    exact (need_next h).1
  | dispatch =>
    simp only [exec, execDispatch] at h
    exact maySend_of_issue h
  | cmdStartup | cmdPgmbyte | cmdRdbyte | cmdVersion | cmdProtocol | cmdNumber | cmdTime | cmdMode =>
    simp only [exec, execCmdStartup, execCmdPgmbyte, execCmdRdbyte, execCmdVersion, execCmdProtocol,
      execCmdNumber, execCmdTime, execCmdMode, frameRun] at h
    exact maySend_of_issue h
  | pipeInit | codecInit | frStep | frGet | nvInit | nvAlloc | seqLaunch | seqWait =>
    simp only [exec, execPipeInit, execCodecInit, execFrStep, execFrGet, execNvInit, execNvAlloc,
      execSeqLaunch, execSeqWait] at h
    exact mayAct_of_issue h
  | nvRead8 | nvRead16 | nvRead32 =>
    simp only [exec, execNvRead8, execNvRead16, execNvRead32, storeRead] at h
    exact mayAct_of_issue h
  | nvWrite8 | nvWrite16 | nvWrite32 | nvErase =>
    simp only [exec, execNvWrite8, execNvWrite16, execNvWrite32, execNvErase] at h
    exact mayAct_of_issue h
  | fcmdPgm8 | fcmdErsscr =>
    simp only [exec, execFcmdPgm8, execFcmdErsscr, giveDescriptor] at h
    exact mayAct_of_issue h

/-! ### Which agents have a role -/

/-- Only the sequencer has the sequencer's role, and it has no other (R187, R250). -/
theorem State.hasRole.sequencer_iff {r : Role} (h : s.hasRole r) :
    s.who = .sequencer ↔ r = .sequencer := by
  refine ⟨fun hw => ?_, fun hr => by subst hr; exact h⟩
  cases r with
  | sequencer => rfl
  | producer p | consumer p =>
    have hagent := h.2
    rw [hw] at hagent
    cases p <;> cases hagent
  | signaller => exact absurd hw h.2
  | sender => simp [State.hasRole, State.maySend, hw] at h
  | actor => simp [State.hasRole, State.mayAct, hw] at h

/-- An interrupt handler puts, gets or signals (R274). -/
theorem State.hasRole.of_handler {r : Role} (h : s.hasRole r)
    (hw : s.who = .rxHandler ∨ s.who = .txHandler) :
    (∃ p, r = .producer p) ∨ (∃ p, r = .consumer p) ∨ r = .signaller := by
  cases r with
  | producer p => exact .inl ⟨p, rfl⟩
  | consumer p => exact .inr (.inl ⟨p, rfl⟩)
  | signaller => exact .inr (.inr rfl)
  | sequencer => rcases hw with hw | hw <;> cases hw.symm.trans h
  | sender => rcases hw with hw | hw <;> simp [State.hasRole, State.maySend, hw] at h
  | actor => rcases hw with hw | hw <;> simp [State.hasRole, State.mayAct, hw] at h

/-- The receive and the transmit thread send no frame (R280). -/
theorem State.hasRole.ne_sender {r : Role} (h : s.hasRole r)
    (hw : s.who = .rxThread ∨ s.who = .txThread) : r ≠ .sender := by
  rintro rfl
  rcases hw with hw | hw <;> simp [State.hasRole, State.maySend, hw] at h

/-- No thread of a polled build has a role (R253). -/
theorem State.hasRole.not_thread {r : Role} (h : s.hasRole r) (hp : s.polled = true) (n : Nat) :
    s.who ≠ .thread n ∧ s.who ≠ .rxThread ∧ s.who ≠ .txThread := by
  have hth := threaded_of_polled hp
  cases r with
  | sequencer =>
    have hw : s.who = .sequencer := h
    simp [hw]
  | producer p | consumer p =>
    rw [h.2]
    cases p <;> simp [putter, getter]
  | signaller => exact absurd h.1 (by simp [hth])
  | sender | actor =>
    refine ⟨?_, ?_, ?_⟩
    all_goals
      intro hw
      simp [State.hasRole, State.maySend, State.mayAct, hw, hth] at h

/-! ### Which operations have a role -/

theorem roleOf_sequencer_iff : roleOf i = .sequencer ↔ i = .seqExec := by
  cases i <;> simp [roleOf]

theorem pipePut_of_roleOf (h : roleOf i = .producer p) : ∃ b, i = .pipePut p b := by
  cases i <;> simp_all [roleOf]

theorem pipeGet_of_roleOf (h : roleOf i = .consumer p) : i = .pipeGet p := by
  cases i <;> simp_all [roleOf]

theorem semSignal_of_roleOf (h : roleOf i = .signaller) : ∃ x, i = .semSignal x := by
  cases i <;> simp_all [roleOf]

/-- Whoever dispatches may come to send the reply (R201; log 18). -/
theorem roleOf_of_dispatches (h : dispatches i = true) : roleOf i = .sender := by
  cases i <;> simp_all [roleOf, dispatches]

/-- Settles O15: an operation that answers has found its role in the agent that asked. -/
theorem agentsKeepTheirRoles : Obligations.AgentsKeepTheirRoles := by
  unfold Obligations.AgentsKeepTheirRoles
  intro i s t h
  have hrole := exec_hasRole h
  refine ⟨hrole.sequencer_iff.trans roleOf_sequencer_iff, ?put, ?get, fun hw => ?handler,
    fun hw => ?thread, fun n hp => hrole.not_thread hp n⟩
  case put =>
    rintro p b rfl
    exact hrole
  case get =>
    rintro p rfl
    exact hrole
  case handler =>
    rcases hrole.of_handler hw with ⟨p, hr⟩ | ⟨p, hr⟩ | hr
    · exact .inl ⟨p, pipePut_of_roleOf hr⟩
    · exact .inr (.inl ⟨p, pipeGet_of_roleOf hr⟩)
    · exact .inr (.inr (semSignal_of_roleOf hr))
  case thread =>
    have hne := hrole.ne_sender hw
    refine ⟨?_, fun c p1 p2 p3 => ⟨?_, ?_⟩, fun x => ?_⟩
    · exact Bool.eq_false_iff.mpr fun hd => hne (roleOf_of_dispatches hd)
    all_goals
      rintro rfl
      exact hne rfl

end Sys2Proof.Machine
end

section
/-! The codec's resynchronisation: a stream behind a codec that awaits a checksum, byte after byte (R144 (b)). -/

namespace Sys2Proof.Machine

variable {c : Codec} {b : Byte} {l w : List Byte} {n : Nat}

/-- The four bytes that a codec awaiting a checksum tests the next byte against (R141). -/
def Codec.window (c : Codec) : List Byte := [c.command, c.p1, c.p2, c.p3]

/-- The frame that four bytes of a stream make. -/
def frameAt (w : List Byte) (n : Nat) : Frame :=
  ⟨w.getD n 0#8, w.getD (n + 1) 0#8, w.getD (n + 2) 0#8, w.getD (n + 3) 0#8⟩

/-- A byte that fails the test moves the window on by one (R141, R231). -/
def Codec.shift (b : Byte) (c : Codec) : Codec := ⟨c.p1, c.p2, c.p3, b, b, .awaitChecksum⟩

/-! ### Positions of a stream -/

theorem passes_succ : passes (b :: w) (n + 1) ↔ passes w n := Iff.rfl

theorem frameAt_succ : frameAt (b :: w) (n + 1) = frameAt w n := rfl

theorem passes_window_zero :
    passes (c.window ++ b :: l) 0 ↔ b = c.command ^^^ c.p1 ^^^ c.p2 ^^^ c.p3 := by
  simp [passes, Codec.window]

theorem frameAt_window_zero : frameAt (c.window ++ l) 0 = ⟨c.command, c.p1, c.p2, c.p3⟩ := rfl

/-- The stream from the next byte on is that of the shifted window. -/
theorem window_append_cons : c.window ++ b :: l = c.command :: ((c.shift b).window ++ l) := rfl

/-! ### One byte -/

/-- The byte at which the first window passes completes that frame. -/
theorem feed_of_passes (hc : c.state = .awaitChecksum) (hp : passes (c.window ++ b :: l) 0) :
    c.feed (b :: l) = ({ c with checksum := b, state := .awaitCommand },
      some (frameAt (c.window ++ b :: l) 0), l) := by
  rw [Codec.feed, takeByte_checksum b hc, if_pos (passes_window_zero.mp hp), frameAt_window_zero]

/-- Where the first window does not pass, the codec goes on with the next one. -/
theorem feed_of_not_passes (hc : c.state = .awaitChecksum) (hp : ¬ passes (c.window ++ b :: l) 0) :
    c.feed (b :: l) = (c.shift b).feed l := by
  rw [Codec.feed, takeByte_checksum b hc, if_neg (mt passes_window_zero.mpr hp)]
  rfl

/-! ### The whole stream -/

/-- The first window that passes is emitted, and no byte after its checksum is taken. -/
theorem feed_first_passing : ∀ {n : Nat} {l : List Byte} {c : Codec}, c.state = .awaitChecksum →
    n < l.length → (∀ k, k < n → ¬ passes (c.window ++ l) k) → passes (c.window ++ l) n →
    (c.feed l).1.state = .awaitCommand
      ∧ (c.feed l).2 = (some (frameAt (c.window ++ l) n), l.drop (n + 1))
  | _, [], _, _, hn, _, _ => absurd hn (Nat.not_lt_zero _)
  | 0, b :: l, c, hc, _, _, hp => by
    rw [feed_of_passes hc hp]
    exact ⟨rfl, rfl⟩
  | n + 1, b :: l, c, hc, hn, hfail, hp => by
    rw [feed_of_not_passes hc (hfail 0 n.succ_pos), window_append_cons, frameAt_succ]
    exact feed_first_passing (c := c.shift b) rfl (Nat.lt_of_succ_lt_succ hn)
      (fun k hk => mt passes_succ.mpr (hfail (k + 1) (Nat.succ_lt_succ hk))) (passes_succ.mp hp)

/-- Where no window passes, every byte is taken and the last four remain. -/
theorem feed_none_passing : ∀ {l : List Byte} {c : Codec}, c.state = .awaitChecksum →
    (∀ k, k < l.length → ¬ passes (c.window ++ l) k) →
    (c.feed l).1.state = .awaitChecksum ∧ (c.feed l).2 = (none, [])
      ∧ (c.feed l).1.window = (c.window ++ l).drop l.length
  | [], _, hc, _ => ⟨hc, rfl, rfl⟩
  | b :: l, c, hc, hfail => by
    rw [feed_of_not_passes hc (hfail 0 l.length.succ_pos), window_append_cons]
    exact feed_none_passing (c := c.shift b) rfl
      (fun k hk => mt passes_succ.mpr (hfail (k + 1) (Nat.succ_lt_succ hk)))

/-- Settles O31, by induction on the position of the first window that passes, and on the stream where none does. -/
theorem resyncEmitsTheFirstPassingWindow : Obligations.ResyncEmitsTheFirstPassingWindow := by
  unfold Obligations.ResyncEmitsTheFirstPassingWindow
  rintro c l w hc rfl
  refine ⟨fun n hn hfail hp => ?_, fun hfail => feed_none_passing hc hfail⟩
  obtain ⟨hstate, hout⟩ := feed_first_passing hc hn hfail hp
  exact ⟨hstate, congrArg Prod.snd hout, congrArg Prod.fst hout⟩

end Sys2Proof.Machine
end

section
/-! FR_PUT and FR_PUT_B as requests: the frame's bytes in `TXF`, or those that fit (R145, R146). -/

namespace Sys2Proof.Machine

variable {s t u v : State} {k : Nat}

/-! ### From parts to the operation -/

/-- An operation whose parts lead, in one turn, to a state with nothing left to do ends there. -/
theorem begin_of_steps {l : List Micro} (hst : Steps k ((s.setTodo l).respond .pending) v)
    (hk : k ≤ s.turn) (hv : v = t.setTodo []) (ht : t.me.todo = []) : begin l s = .next t := by
  rw [setTodo_self ht] at hv
  exact (hst.to hv).run hk ht

/-- What the running agent has left to do and its response play no part in the note of who puts on `TXF`. -/
theorem notePut_begun (b : Bool) (l : List Micro) (r : Response) (s : State) :
    ((s.setTodo l).respond r).notePut .txf b = ((s.notePut .txf b).setTodo l).respond r := by
  have hnote : (((s.setTodo l).respond r).notePut .txf b).txUsers = (s.notePut .txf b).txUsers :=
    notePut_congr (by exact rfl) (by exact rfl) (by exact rfl) b
  rw [notePut_eq, hnote]
  conv_rhs => rw [notePut_eq]
  rfl

/-- In the polled regime whoever may put on `TXF` is the protocol task, which may send frames (R129, R280). -/
theorem maySend_of_canEmit (hp : s.polled = true) (hc : s.canEmit k) : s.maySend = true := by
  obtain ⟨_, _, _, hput, _⟩ := hc
  unfold State.mayPut at hput
  rw [if_pos hp] at hput
  unfold State.maySend
  rw [of_decide_eq_true hput]
  rfl

/-- Of an emission that has ended, nothing remains of what its agent had been given to do. -/
theorem emission_end (q : Pipe) (l : List Micro) (r r' : Response) (u : State) :
    ((((((u.setTodo l).respond r').setPipe .txf q).setTxe none).setTodo []).respond r)
      = (((u.setPipe .txf q).setTxe none).respond r).setTodo [] := rfl

/-- An emission that has ended, asked for in `s` and made from `u`, where at most notes differ: it has returned, and
nothing but `TXF` of `u` is changed. -/
theorem emission_leaves (q : Pipe) (r : Response) (hme : u.me = s.me) (hl : s.me.todo = []) :
    let t := ((u.setPipe .txf q).setTxe none).respond r
    returned r t ∧ t.txf = q ∧ onlyPipe .txf u t ∧ t.me.txe = none ∧ t.me.held = s.me.held :=
  ⟨⟨by simpa [hme] using hl, rfl⟩, rfl, onlyPipe_emit q none u.me.todo u.me.resp u.me.todo r u, rfl,
    by simp [hme]⟩

/-! ### FR_PUT -/

theorem exec_frPut (c p1 p2 p3 : Byte) (hr : s.ready = true) (hp : s.polled = true)
    (hc : s.canEmit k) :
    exec (.frPut c p1 p2 p3) s = begin (emission ⟨c, p1, p2, p3⟩ s) s := by
  simp [exec, execFrPut, issue_ready hr, hp, maySend_of_canEmit hp hc, hc.1]

/-- FR_PUT with room for the whole frame (R145). -/
theorem exec_frPut_emits (f : Frame) (hr : s.ready = true) (hp : s.polled = true)
    (hn : 7 ≤ s.turn) (hc : s.canEmit 5) :
    ∃ q, s.txf.grewBy s.build.capacity false (frameBytes f) q
      ∧ exec (.frPut f.command f.p1 f.p2 f.p3) s
        = .next (((s.setPipe .txf q).setTxe none).respond (.flag true)) := by
  obtain ⟨q, hg, hst⟩ := emission_polled (s := (s.setTodo (emission f s)).respond .pending) (l := [])
    hp hc (List.append_nil _).symm
  exact ⟨q, hg, (exec_frPut _ _ _ _ hr hp hc).trans
    (begin_of_steps hst hn (emission_end ..) (by simpa using ready_todo hr))⟩

/-- FR_PUT on a pipe that fills up (R145, R232). -/
theorem exec_frPut_stops (f : Frame) (hr : s.ready = true) (hp : s.polled = true)
    (hn : 7 ≤ s.turn) (hc : s.canEmit k) (hk : k < 5) (hf : s.txf.count + k = s.build.capacity) :
    ∃ q, s.txf.grewBy s.build.capacity false ((frameBytes f).take k) q
      ∧ exec (.frPut f.command f.p1 f.p2 f.p3) s
        = .next (((s.setPipe .txf q).setTxe none).respond (.fail .capacityFull)) := by
  obtain ⟨q, hg, hst⟩ := emission_stops (s := (s.setTodo (emission f s)).respond .pending) (l := [])
    hp hc hk hf (List.append_nil _).symm
  exact ⟨q, hg, (exec_frPut _ _ _ _ hr hp hc).trans
    (begin_of_steps hst (by omega) (emission_end ..) (by simpa using ready_todo hr))⟩

/-- Settles O33: either way the emission replaces `TXF`, by one grown by the frame's bytes or by those that fit. -/
theorem frPutEmitsTheFrame : Obligations.FrPutEmitsTheFrame := by
  unfold Obligations.FrPutEmitsTheFrame
  intro f s hr hp hn
  refine ⟨fun hc => ?whole, fun k hc hk hf => ?part⟩
  case whole =>
    obtain ⟨q, hg, hrun⟩ := exec_frPut_emits f hr hp hn hc
    obtain ⟨hret, hq, hrest⟩ := emission_leaves (u := s) q (.flag true) rfl (ready_todo hr)
    exact ⟨_, hrun, hret, hq ▸ hg, hrest⟩
  case part =>
    obtain ⟨q, hg, hrun⟩ := exec_frPut_stops f hr hp hn hc hk hf
    obtain ⟨hret, hq, hrest⟩ := emission_leaves (u := s) q (.fail .capacityFull) rfl (ready_todo hr)
    exact ⟨_, hrun, hret, hq ▸ hg, hrest⟩

/-! ### FR_PUT_B -/

/-- FR_PUT_B where none of its parts waits (R146). -/
theorem exec_frPutB_emits (f : Frame) (hr : s.ready = true) (ht : s.threaded = true)
    (hm : s.maySend = true) (hc : s.canEmit 5) (hn : 41 ≤ s.turn) :
    ∃ q, s.txf.grewBy s.build.capacity true (frameBytes f) q
      ∧ exec (.frPutB f.command f.p1 f.p2 f.p3) s
        = .next ((((s.notePut .txf true).setPipe .txf q).setTxe none).respond .done) := by
  obtain ⟨q, k, hk, hg, hst⟩ := emission_threaded
    (s := (s.setTodo (emission f s)).respond .pending) (l := []) ht hc (List.append_nil _).symm
  rw [notePut_begun] at hst
  exact ⟨q, hg, (exec_frPutB _ _ _ _ hr ht hm hc.1).trans
    (begin_of_steps hst (Nat.le_trans hk hn) (emission_end ..) (by simpa using ready_todo hr))⟩

/-- Settles O34: from the noted state the emission replaces `TXF` by one grown by the frame's bytes. -/
theorem frPutBEmitsTheFrame : Obligations.FrPutBEmitsTheFrame := by
  unfold Obligations.FrPutBEmitsTheFrame
  intro f s hr ht hm hc hn
  obtain ⟨q, hg, hrun⟩ := exec_frPutB_emits f hr ht hm hc (by omega)
  obtain ⟨hret, hq, hrest⟩ := emission_leaves q .done (State.notePut_me ..) (ready_todo hr)
  exact ⟨_, hrun, hret, hq ▸ hg, hrest⟩

end Sys2Proof.Machine
end

section
/-! CODEC_INIT and FR_GET: the codec awaits a command, and takes the bytes of `RXF` until a frame completes
(R140, R143). -/

namespace Sys2Proof.Machine

variable {s u : State}

/-! ### CODEC_INIT -/

/-- CODEC_INIT where it may be asked for (R140). -/
theorem exec_codecInit (hr : s.ready = true) :
    exec .codecInit s = .next ((codecInit s).respond .done) := by
  simp only [exec, execCodecInit, issue_ready hr, State.ready.mayAct hr, need_true]

/-- Settles O26: the codec's register is all that CODEC_INIT writes. -/
theorem codecInitAwaitsACommand : Obligations.CodecInitAwaitsACommand := by
  unfold Obligations.CodecInitAwaitsACommand
  intro s hr
  exact ⟨_, exec_codecInit hr, ⟨ready_todo hr, rfl⟩, rfl, ⟨rfl, rfl, rfl, fun p => by cases p <;> rfl⟩,
    fun _ => rfl, ⟨rfl, rfl, rfl, rfl⟩, ⟨⟨rfl, rfl⟩, rfl, rfl⟩, ⟨rfl, rfl, rfl, rfl, rfl⟩,
    ⟨rfl, rfl⟩, ⟨rfl, rfl⟩⟩

/-! ### What FR_GET leaves -/

/-- Giving the codec what `RXF` holds: its registers, the frame that completes, the bytes not taken (R143). -/
def State.rxFeed (s : State) : Codec × Option Frame × List Byte :=
  s.fr.feed (s.rxf.stored s.build.capacity)

/-- `s` with the codec fed from `RXF`, of which `q` is left; the running agent has `l` left to do and the response
`r`. -/
def State.fed (q : Pipe) (l : List Micro) (r : Response) (s : State) : State :=
  (((s.setPipe .rxf q).setFr s.rxFeed.1).setTodo l).respond r

/-- What the agent had been given to do at first plays no part in what is left. -/
theorem fed_begun (q : Pipe) (l m : List Micro) (r r' : Response) (s : State) :
    ((s.setTodo m).respond r').fed q l r = s.fed q l r := by
  have hfeed : ((s.setTodo m).respond r').rxFeed = s.rxFeed := rfl
  unfold State.fed
  rw [hfeed]
  generalize s.rxFeed = x
  rfl

/-- An agent that goes on with what it had left to do. -/
theorem fed_standing (q : Pipe) (r : Response) (s : State) :
    ((s.setPipe .rxf q).setFr s.rxFeed.1).respond r = s.fed q s.me.todo r := rfl

/-- FR_GET, asked for in `s` and made from `u`, where at most notes differ, feeds the codec of `s` and changes nothing
else of `u`. -/
theorem fed_leaves (q : Pipe) (l : List Micro) (r : Response) (hme : u.me = s.me)
    (hfeed : u.rxFeed = s.rxFeed) :
    (u.fed q l r).fr = s.rxFeed.1 ∧ (u.fed q l r).rxf = q ∧ onlyCodecAnd .rxf u (u.fed q l r)
      ∧ sameCarried s (u.fed q l r) :=
  ⟨hfeed ▸ rfl, rfl, onlyCodec_set q _ r (u.setTodo l), by simp [State.fed, sameCarried, hme]⟩

/-! ### FR_GET, polled -/

/-- FR_GET's parts in the polled regime, where its agent may get from `RXF` (R143). -/
theorem exec_frGet_polled (hr : s.ready = true) (hm : s.mayGetNow .rxf = true) :
    exec .frGet s = begin [.frGetPass] s := by
  obtain ⟨hp, hi, _⟩ := mayGetNow_iff hm
  have hi : s.rxf.inited = true := hi
  simp [exec, execFrGet, issue_ready hr, State.ready.mayAct hr, hi, mayStep_of_mayGetNow hm,
    frGetParts, threaded_of_polled hp, State.noteStep, hp]

/-- FR_GET's loop in the polled regime, run to its end (R143). -/
theorem exec_frGet_feeds (hr : s.ready = true) (hm : s.mayGetNow .rxf = true)
    (hc : s.codecRests) (hw : s.rxf.wf s.build.capacity) (hn : s.rxf.count < s.turn) :
    ∃ q, s.rxf.shrankTo s.build.capacity false s.rxFeed.2.2 q
      ∧ exec .frGet s = .next (s.fed q [] (frameResponse s.rxFeed.2.1)) := by
  obtain ⟨k, q, hk, hq, hst⟩ := frGetPass_steps s.rxf.count
    ((s.setTodo [.frGetPass]).respond .pending) rfl hm hc hw [] rfl
  have hend := hst.to (fed_begun q [] [.frGetPass] (frameResponse s.rxFeed.2.1) .pending s)
  exact ⟨q, hq, (exec_frGet_polled hr hm).trans (hend.run (Nat.le_trans hk hn) rfl)⟩

/-- Settles O28: what FR_GET's loop leaves is the codec fed with the stored bytes, and the bytes not taken. -/
theorem frGetFeedsTheCodec : Obligations.FrGetFeedsTheCodec := by
  unfold Obligations.FrGetFeedsTheCodec
  intro s hr hm hc hw hn
  obtain ⟨q, hq, hrun⟩ := exec_frGet_feeds hr hm hc hw hn
  obtain ⟨hfr, hrxf, honly⟩ := fed_leaves (s := s) q [] (frameResponse s.rxFeed.2.1) rfl rfl
  exact ⟨_, hrun, hfr, ⟨rfl, rfl⟩, hrxf ▸ hq, honly⟩

/-! ### FR_GET, threaded -/

/-- FR_GET's parts in the threaded regime, its agent noted as the codec's user (R143). -/
theorem exec_frGet_threaded (hr : s.ready = true) (hm : s.mayStepB = true) :
    exec .frGet s = begin (frStepParts s ++ [.frGetAgain]) s.noteStep := by
  obtain ⟨ht, hi, hs⟩ := mayStepB_iff hm
  simp [exec, execFrGet, issue_ready hr, State.ready.mayAct hr, hi, hs, frGetParts, ht]

/-- FR_STEP's parts begin with a SEM_WAIT on the items of `RXF` (R125, R141). -/
theorem frStepParts_head (l : List Micro) (s : State) :
    ∃ m, frStepParts s ++ l = .semWait (.items .rxf) :: m := by
  obtain ⟨m, hm⟩ := getBParts_head .rxf .codecTake s
  exact ⟨m ++ l, congrArg (· ++ l) hm⟩

/-- How FR_GET's loop ends in the threaded regime: it has returned the frame that completed, or it stands at FR_STEP
with no item left (R143). -/
def frGetEnd (q : Pipe) (l : List Micro) (r : Response) (s : State) : Prop :=
  (∃ f, s.rxFeed.2.1 = some f ∧ l = [] ∧ r = .frame f)
    ∨ (s.rxFeed.2.1 = none ∧ q.items = 0 ∧ l = frStepParts s ++ [.frGetAgain])

/-- FR_GET's loop in the threaded regime, run to its end (R143). -/
theorem begin_frGet_threaded (hi : s.rxf.inited = true) (hc : s.codecRests)
    (hw : s.rxf.wf s.build.capacity) (hitems : s.rxf.items = s.rxf.count)
    (hlock : s.lockFree .rxf = true) (hn : 6 * s.rxf.count + 1 ≤ s.turn) :
    ∃ q l r, s.rxf.shrankTo s.build.capacity true s.rxFeed.2.2 q
      ∧ begin (frStepParts s ++ [.frGetAgain]) s = .next (s.fed q l r) ∧ frGetEnd q l r s := by
  obtain ⟨k, q, t, hk, hq, hst, hend⟩ := frGetB_steps s.rxf.count
    ((s.setTodo (frStepParts s ++ [.frGetAgain])).respond .pending) rfl hi hc hw hitems hlock [] rfl
  obtain ⟨f, hf, ht⟩ | ⟨hf, hz, r, ht⟩ := hend
  · have hend := (hst.to ht).to (fed_begun q [] _ (.frame f) .pending s)
    exact ⟨q, [], .frame f, hq, hend.run (Nat.le_trans hk hn) rfl, .inl ⟨f, hf, rfl, rfl⟩⟩
  · have hend := ((hst.to ht).to (fed_standing q r _)).to (fed_begun q _ _ r .pending s)
    obtain ⟨m, hm⟩ := frStepParts_head [.frGetAgain] s
    exact ⟨q, _, r, hq, run_of_steps_to_wait hend (Nat.le_trans hk hn) hm (micro_semWait_zero hz),
      .inr ⟨hf, hz, rfl⟩⟩

/-- Noting the codec's user plays no part in what FR_GET does. -/
theorem rxFeed_noteStep (s : State) : s.noteStep.rxFeed = s.rxFeed := by
  simp [State.rxFeed]

theorem frStepParts_noteStep (s : State) : frStepParts s.noteStep = frStepParts s :=
  getBParts_congr (State.noteStep_locked s) .rxf .codecTake

/-- FR_GET of the threaded regime, run to its end. -/
theorem exec_frGet_threaded_feeds (hr : s.ready = true) (hm : s.mayStepB = true)
    (hc : s.codecRests) (hw : s.rxf.wf s.build.capacity) (hitems : s.rxf.items = s.rxf.count)
    (hlock : s.lockFree .rxf = true) (hn : 6 * s.rxf.count + 1 ≤ s.turn) :
    ∃ q l r, s.rxf.shrankTo s.build.capacity true s.rxFeed.2.2 q
      ∧ exec .frGet s = .next (s.noteStep.fed q l r) ∧ frGetEnd q l r s := by
  obtain ⟨_, hi, _⟩ := mayStepB_iff hm
  have hrun := begin_frGet_threaded (s := s.noteStep) (by simpa using hi)
    (by simpa [State.codecRests] using hc) (by simpa using hw) (by simpa using hitems)
    ((lockFree_congr (by simp) (by simp)).trans hlock) (by simpa using hn)
  rw [frStepParts_noteStep, ← exec_frGet_threaded hr hm] at hrun
  simpa only [State.noteStep_rxf, State.noteStep_build, frGetEnd, rxFeed_noteStep,
    frStepParts_noteStep] using hrun

/-- Settles O29: the loop ends with the first frame, or at a SEM_WAIT on `items` with every byte taken. -/
theorem frGetThreadedFeedsTheCodec : Obligations.FrGetThreadedFeedsTheCodec := by
  unfold Obligations.FrGetThreadedFeedsTheCodec
  intro s hr hm hc hw hitems hlock hn
  obtain ⟨q, l, r, hq, hrun, hend⟩ := exec_frGet_threaded_feeds hr hm hc hw hitems hlock (by omega)
  obtain ⟨hfr, hrxf, honly, hcarried⟩ := fed_leaves q l r (State.noteStep_me s) (rxFeed_noteStep s)
  refine ⟨_, hrun, hfr, hrxf ▸ hq, honly, hcarried, ?result⟩
  obtain ⟨f, hf, rfl, rfl⟩ | ⟨hf, hz, rfl⟩ := hend
  · have hsome : (s.fr.feed (s.rxf.stored s.build.capacity)).2.1 = some f := hf
    rw [hsome]
    exact ⟨rfl, rfl⟩
  · have hnone : (s.fr.feed (s.rxf.stored s.build.capacity)).2.1 = none := hf
    obtain ⟨m, hm⟩ := frStepParts_head [.frGetAgain] s
    rw [hnone, hm]
    exact ⟨List.cons_ne_nil _ _, run_wait rfl (micro_semWait_zero hz)⟩

end Sys2Proof.Machine
end

section
/-! Traces of the codec's operations in the polled regime: FR_STEP once for each byte, and a frame emitted, looped back
and got (R144 (a), R148). -/

namespace Sys2Proof.Machine

variable {s : State} {p : PipeId} {C : Nat}

/-! ### Traces -/

/-- A run of operations whose first one answers. -/
theorem trace_cons_of_next {i : Instr} {l : List Instr} {r : List Response} {t u : State}
    (h : exec i (s.switchTo (issuer i)) = .next u) (hl : trace l u = some (r, t)) :
    trace (i :: l) s = some (u.me.resp :: r, t) := by
  simp only [trace, h, hl, Option.map_some]

/-- A run of operations, then another, where both answer. -/
theorem trace_append_of_some {l m : List Instr} {r x : List Response} {t u : State}
    (hl : trace l s = some (r, u)) (hm : trace m u = some (x, t)) :
    trace (l ++ m) s = some (r ++ x, t) := by
  simp only [trace_append, hl, hm, Option.bind_some, Option.map_some]

theorem switchTo_putter_mayPutNow (hp : s.polled = true) (hi : (s.pipe p).inited = true) :
    (s.switchTo (putter p)).mayPutNow p = true := by
  have hp' : (s.switchTo (putter p)).polled = true := by simpa [State.polled] using hp
  simp [State.mayPutNow, State.mayPut, hp', hi]

theorem switchTo_getter_mayGetNow (hp : s.polled = true) (hi : (s.pipe p).inited = true) :
    (s.switchTo (getter p)).mayGetNow p = true := by
  have hp' : (s.switchTo (getter p)).polled = true := by simpa [State.polled] using hp
  simp [State.mayGetNow, State.mayGet, hp', hi]

theorem switchTo_task_ready (h : s.allReturned) : (s.switchTo .task).ready = true := by
  simp [State.ready, returned_canAsk (switchTo_returned h .task), State.mayAct]

/-- In the polled regime a pipe has one consumer (R129). -/
theorem who_of_mayGetNow (hm : s.mayGetNow p = true) : s.who = getter p := by
  obtain ⟨hp, _, hg⟩ := mayGetNow_iff hm
  unfold State.mayGet at hg
  rw [if_pos hp] at hg
  exact of_decide_eq_true hg

/-- A run of operations begins with the change to the agent that drives the first one. -/
theorem trace_switchTo_issuer (i : Instr) (l : List Instr) (s : State) :
    trace (i :: l) (s.switchTo (issuer i)) = trace (i :: l) s := by
  rw [trace, State.switchTo_self _ (State.switchTo_who s _).symm]
  rfl

/-! ### FR_STEP once for each byte -/

/-- What FR_STEP returns for each of these bytes in turn (R141). -/
def Codec.answers : Codec → List Byte → List Response
  | _, [] => []
  | c, b :: l => frameResponse (c.takeByte b).2 :: (c.takeByte b).1.answers l

/-- The codec after these bytes. -/
def Codec.takeAll : Codec → List Byte → Codec
  | c, [] => c
  | c, b :: l => (c.takeByte b).1.takeAll l

/-- As many FR_STEPs as there are bytes give the codec those bytes, one after another, and leave the others in `RXF`. -/
theorem trace_frSteps : ∀ {l rest : List Byte} {s : State}, s.build.capacity = C →
    s.ready = true → s.mayGetNow .rxf = true → s.codecRests → s.rxf.wf C →
    s.rxf.stored C = l ++ rest →
    ∃ t, trace (List.replicate l.length .frStep) s = some (s.fr.answers l, t)
      ∧ t.fr = s.fr.takeAll l ∧ t.rxf.stored C = rest
  | [], _, s, _, _, _, _, _, hs => ⟨s, rfl, rfl, hs⟩
  | b :: l, rest, s, hC, hr, hm, hc, hw, hs => by
    obtain ⟨u, hu, hresp, hfr, hs', hr', hm', hc', hw', hC'⟩ := frStep_one hC hr hm hc hw hs
    obtain ⟨t, ht, htfr, hts⟩ := trace_frSteps hC' hr' hm' hc' hw' hs'
    have hstep : exec .frStep (s.switchTo (issuer .frStep)) = .next u := by
      rwa [State.switchTo_self s (a := issuer .frStep) (who_of_mayGetNow hm).symm]
    rw [hfr] at ht htfr
    refine ⟨t, ?_, htfr, hts⟩
    rw [Codec.answers, ← hresp]
    exact trace_cons_of_next hstep ht

/-- A frame's bytes complete it at the fifth one, and leave the codec where it was (R144 (a)). -/
theorem answers_frameBytes {c : Codec} (h : c.state = .awaitCommand) (f : Frame) :
    c.answers (frameBytes f) = [.noFrame, .noFrame, .noFrame, .noFrame, .frame f]
      ∧ (c.takeAll (frameBytes f)).state = .awaitCommand := by
  simp [frameBytes_def, Codec.answers, Codec.takeAll, Codec.takeByte, h, Codec.validateStep, checksum,
    frameResponse]

/-- Settles O30: five FR_STEPs take the frame's five bytes. -/
theorem fiveStepsEmitTheFrame : Obligations.FiveStepsEmitTheFrame := by
  unfold Obligations.FiveStepsEmitTheFrame
  intro f rest s hr hp hi hstate hw hs
  have hm : (s.switchTo .task).mayGetNow .rxf = true := switchTo_getter_mayGetNow (p := .rxf) hp hi
  obtain ⟨t, ht, hfr, hrest⟩ := trace_frSteps (s := s.switchTo .task) (C := s.build.capacity)
    (by simp) (switchTo_task_ready hr) hm (by simp [State.codecRests, hstate]) (by simpa using hw)
    (by simpa using hs)
  rw [State.switchTo_fr] at ht hfr
  obtain ⟨hanswers, hawait⟩ := answers_frameBytes hstate f
  rw [hanswers] at ht
  exact ⟨t, (trace_switchTo_issuer .frStep _ s).symm.trans ht, hfr ▸ hawait, hrest⟩

/-! ### What a pipe holds -/

/-- An initialised pipe in order, with these bytes stored, oldest first (R22). -/
structure Pipe.Holds (C : Nat) (l : List Byte) (q : Pipe) : Prop where
  inited : q.inited = true
  wf : q.wf C
  stored : q.stored C = l

namespace Pipe.Holds

variable {q q' : Pipe} {b : Byte} {l m : List Byte} {th : Bool}

theorem count (h : q.Holds C l) : q.count = l.length := by
  rw [← h.stored, Pipe.stored_length]

theorem store (h : q.Holds C l) (hl : l.length < C) : (q.store C b).Holds C (l ++ [b]) :=
  have hc : q.count < C := h.count ▸ hl
  ⟨h.inited, Pipe.wf_store h.wf hc b, by rw [Pipe.stored_store h.wf hc, h.stored]⟩

theorem drop (h : q.Holds C (b :: l)) : q.oldest = b ∧ (q.drop C).Holds C l := by
  have hpos : 0 < q.count := h.count ▸ l.length.succ_pos
  have ⟨⟨_, hstart, _⟩, _⟩ := h.wf
  obtain ⟨hb, hl⟩ := List.cons.inj (h.stored.symm.trans (Pipe.stored_drop hpos hstart))
  exact ⟨hb.symm, h.inited, Pipe.wf_drop h.wf hpos, hl.symm⟩

theorem of_grewBy (h : q.Holds C l) (hg : q.grewBy C th m q') : q'.Holds C (l ++ m) := by
  obtain ⟨hstored, hwf, _, _, hi, _⟩ := hg
  exact ⟨hi.trans h.inited, hwf, by rw [hstored, h.stored]⟩

theorem of_shrankTo (h : q.Holds C l) (hs : q.shrankTo C th m q') : q'.Holds C m := by
  obtain ⟨hstored, hwf, _, _, _, hi, _⟩ := hs
  exact ⟨hi.trans h.inited, hwf, hstored⟩

end Pipe.Holds

/-! ### A polled build between two operations -/

/-- A polled build between two operations: every agent has returned, and the pipes hold these bytes; with its
parameters, its codec and the length of its turns. -/
structure Between (b : Build) (c : Codec) (n : Nat) (rx tx : List Byte) (s : State) : Prop where
  build : s.build = b
  fr : s.fr = c
  turn : s.turn = n
  returned : s.allReturned
  polled : s.polled = true
  rxf : s.rxf.Holds b.capacity rx
  txf : s.txf.Holds b.capacity tx

namespace Between

variable {b : Build} {c c' : Codec} {n : Nat} {rx tx rx' tx' : List Byte} {t : State} {x : Byte}

/-- An operation that has returned, with what it leaves in the codec and the pipes. -/
theorem next (h : Between b c n rx tx s) {a : Agent} (ha : sameAgents (s.switchTo a) t)
    (hl : t.me.todo = []) (hfr : t.fr = c') (hrx : t.rxf.Holds b.capacity rx')
    (htx : t.txf.Holds b.capacity tx') : Between b c' n rx' tx' t := by
  obtain ⟨hbuild, _, hparked, _, hturn⟩ := ha
  obtain ⟨hok, _, hothers⟩ := switchTo_returned h.returned a
  rw [State.switchTo_build] at hbuild
  refine ⟨hbuild.trans h.build, hfr, by rw [hturn, State.switchTo_turn, h.turn],
    ⟨by rwa [hbuild, ← State.switchTo_build s a], hl, by rwa [hparked]⟩, ?_, hrx, htx⟩
  have hp := h.polled
  unfold State.polled at hp ⊢
  rwa [hbuild]

/-- PIPE_GET by the transmit handler takes the oldest byte (R122). -/
theorem pipeGet (h : Between b c n rx (x :: tx) s) :
    ∃ t, exec (.pipeGet .txf) (s.switchTo .txHandler) = .next t ∧ t.me.resp = .byte x
      ∧ Between b c n rx tx t := by
  have hr := switchTo_returned h.returned .txHandler
  have hne : (s.switchTo .txHandler).txf.count ≠ 0 := by simp [h.txf.count]
  have hrun := (exec_pipeGet (p := .txf) (returned_canAsk hr)
    (switchTo_getter_mayGetNow (p := .txf) h.polled h.txf.inited)).trans (if_neg hne)
  obtain ⟨hx, hdrop⟩ := h.txf.drop
  refine ⟨_, hrun, by simpa using hx, h.next ⟨rfl, rfl, rfl, rfl, rfl⟩ hr.2.1 ?_ ?_ ?_⟩
  · simpa using h.fr
  · simpa using h.rxf
  · simpa [h.build] using hdrop

/-- PIPE_PUT by the receive handler, where there is room, stores the byte (R121). -/
theorem pipePut (h : Between b c n rx tx s) (x : Byte) (hroom : rx.length < b.capacity) :
    ∃ t, exec (.pipePut .rxf x) (s.switchTo .rxHandler) = .next t ∧ t.me.resp = .flag true
      ∧ Between b c n (rx ++ [x]) tx t := by
  have hr := switchTo_returned h.returned .rxHandler
  have hne : (s.switchTo .rxHandler).rxf.count ≠ (s.switchTo .rxHandler).build.capacity := by
    rw [State.switchTo_rxf, h.rxf.count, State.switchTo_build, h.build]
    exact hroom.ne
  have hrun := (exec_pipePut (p := .rxf) (b := x) (returned_canAsk hr)
    (switchTo_putter_mayPutNow (p := .rxf) h.polled h.rxf.inited)).trans (if_neg hne)
  refine ⟨_, hrun, rfl, h.next ⟨rfl, rfl, rfl, rfl, rfl⟩ hr.2.1 ?_ ?_ ?_⟩
  · simpa using h.fr
  · simpa [h.build] using h.rxf.store hroom
  · simpa using h.txf

/-- FR_PUT by the protocol task, where there is room, puts the frame's bytes (R145). -/
theorem frPut (h : Between b c n rx tx s) (f : Frame) (hroom : tx.length + 5 ≤ b.capacity)
    (hn : 7 ≤ n) :
    ∃ t, exec (.frPut f.command f.p1 f.p2 f.p3) (s.switchTo .task) = .next t
      ∧ t.me.resp = .flag true ∧ Between b c n rx (tx ++ frameBytes f) t := by
  have hr := switchTo_returned h.returned .task
  have hp : (s.switchTo .task).polled = true := by simpa [State.polled] using h.polled
  have hc : (s.switchTo .task).canEmit 5 := by
    refine ⟨by simpa using h.txf.inited, by simpa [h.build] using h.txf.wf,
      by simpa [h.build, h.txf.count] using hroom, by simp [State.mayPut, hp, putter], fun ht => ?_⟩
    exact absurd hp (not_polled_of_threaded ht)
  obtain ⟨q, hg, hrun⟩ := exec_frPut_emits f (switchTo_task_ready h.returned) hp
    (by simpa [h.turn] using hn) hc
  rw [State.switchTo_txf, State.switchTo_build, h.build] at hg
  refine ⟨_, hrun, rfl, h.next ⟨rfl, rfl, rfl, rfl, rfl⟩ hr.2.1 ?_ ?_ (h.txf.of_grewBy hg)⟩
  · simpa using h.fr
  · simpa using h.rxf

/-- FR_GET by the protocol task returns the frame whose bytes `RXF` holds (R143, R144 (a)). -/
theorem frGet {f : Frame} (h : Between b c n (frameBytes f) tx s) (hc : c.state = .awaitCommand)
    (hn : 5 < n) :
    ∃ t c', exec .frGet (s.switchTo .task) = .next t ∧ t.me.resp = .frame f
      ∧ c'.state = .awaitCommand ∧ Between b c' n [] tx t := by
  have hfeed : (s.switchTo .task).rxFeed = c.feed (frameBytes f) := by
    simp [State.rxFeed, h.fr, h.build, h.rxf.stored]
  obtain ⟨hstate, hout⟩ := feed_frame_all hc f
  obtain ⟨q, hq, hrun⟩ := exec_frGet_feeds (switchTo_task_ready h.returned)
    (switchTo_getter_mayGetNow (p := .rxf) h.polled h.rxf.inited)
    (by simp [State.codecRests, h.fr, hc]) (by simpa [h.build] using h.rxf.wf)
    (by simpa [h.turn, h.rxf.count, frameBytes_def] using hn)
  rw [hfeed, hout, State.switchTo_rxf, State.switchTo_build, h.build] at hq
  rw [hfeed, hout] at hrun
  refine ⟨_, _, hrun, rfl, hstate,
    h.next ⟨rfl, rfl, rfl, rfl, rfl⟩ rfl (congrArg Prod.fst hfeed) (h.rxf.of_shrankTo hq) ?_⟩
  simpa [State.fed] using h.txf

/-- The two handlers pass bytes from `TXF` to `RXF` (R130). -/
theorem relay : ∀ {l rx : List Byte} {s : State}, Between b c n rx (l ++ tx) s →
    rx.length + l.length ≤ b.capacity →
    ∃ t, trace (l.flatMap (fun x => [.pipeGet .txf, .pipePut .rxf x])) s
        = some (l.flatMap (fun x => [.byte x, .flag true]), t)
      ∧ Between b c n (rx ++ l) tx t
  | [], rx, s, h, _ => ⟨s, rfl, by simpa using h⟩
  | x :: l, rx, s, h, hroom => by
    rw [List.length_cons] at hroom
    obtain ⟨u, hget, hbyte, hu⟩ := h.pipeGet
    obtain ⟨v, hput, hflag, hv⟩ := hu.pipePut x (by omega)
    obtain ⟨t, ht, hbetween⟩ := relay hv (by simp; omega)
    refine ⟨t, ?_, by simpa using hbetween⟩
    have hrun := trace_cons_of_next (i := .pipeGet .txf) hget
      (trace_cons_of_next (i := .pipePut .rxf x) hput ht)
    rwa [hbyte, hflag] at hrun

end Between

/-- Settles O32: FR_PUT's bytes pass through both pipes, and complete the frame again. -/
theorem loopedBackFrameIsReturned : Obligations.LoopedBackFrameIsReturned := by
  unfold Obligations.LoopedBackFrameIsReturned
  intro f s hr hp hC hn hstate hpipes
  have hholds : ∀ p, (s.pipe p).Holds s.build.capacity [] := fun p => by
    obtain ⟨hi, hw, hz⟩ := hpipes p
    exact ⟨hi, hw, List.eq_nil_of_length_eq_zero (Pipe.stored_length.trans hz)⟩
  have h : Between s.build s.fr s.turn [] [] s :=
    ⟨rfl, rfl, rfl, hr, hp, hholds .rxf, hholds .txf⟩
  obtain ⟨u, hput, hflag, hu⟩ := h.frPut f (by simpa using hC) hn
  obtain ⟨v, hrelay, hv⟩ := Between.relay (tx := []) (by simpa using hu) (by simpa [frameBytes] using hC)
  obtain ⟨t, c', hget, hframe, hawait, ht⟩ := hv.frGet hstate (by omega)
  have hfirst := trace_cons_of_next (i := .frPut f.command f.p1 f.p2 f.p3) (l := []) hput rfl
  have hlast := trace_cons_of_next (i := .frGet) (l := []) hget rfl
  rw [hflag] at hfirst
  rw [hframe] at hlast
  exact ⟨t, trace_append_of_some (trace_append_of_some hfirst hrelay) hlast, ht.fr ▸ hawait,
    ht.rxf.count, ht.txf.count⟩

end Sys2Proof.Machine
end

section
/-! The Non-Volatile Store as requests: the allocation map, the check of an access's operands, reads, and the write
path's runs (R160 to R175). -/

namespace Sys2Proof.Machine

variable {s : State}

/-! ### The allocation map -/

/-- An operation that has written the allocation map and answered. -/
theorem setAlloc_respond_leaves (m : List Bool) (r : Response) (hl : s.me.todo = []) :
    returned r ((s.setAlloc m).respond r) ∧ onlyMap s ((s.setAlloc m).respond r) := by
  have hpipes : samePipes s ((s.setAlloc m).respond r) :=
    ⟨rfl, rfl, rfl, fun p => by cases p <;> rfl⟩
  exact ⟨⟨hl, rfl⟩, hpipes, rfl, fun _ => rfl, ⟨rfl, rfl, rfl⟩, ⟨⟨rfl, rfl⟩, rfl, rfl⟩,
    ⟨rfl, rfl, rfl, rfl, rfl⟩, ⟨rfl, rfl⟩, rfl, rfl⟩

/-- NV_INIT where it may be asked for (R160). -/
theorem exec_nvInit (hr : s.ready = true) :
    exec .nvInit s = .next ((s.setAlloc (emptyMap s.build.regionLen)).respond .done) := by
  simp only [exec, execNvInit, issue_ready hr, State.ready.mayAct hr, need_true]

/-- Settles O35: the new map is `emptyMap`, and nothing else is written. -/
theorem nvInitFreesTheMap : Obligations.NvInitFreesTheMap := by
  unfold Obligations.NvInitFreesTheMap
  intro s hr
  obtain ⟨hret, honly⟩ := setAlloc_respond_leaves (emptyMap s.build.regionLen) .done (ready_todo hr)
  exact ⟨_, exec_nvInit hr, hret, rfl, honly⟩

/-- Marking a run that lies in the map sets its entries and no other. -/
theorem getElem?_markUsed {m : List Bool} {n p : Nat} (hin : p + n ≤ m.length) (i : Nat) :
    (markUsed m n p)[i]? = if p ≤ i ∧ i < p + n then some true else m[i]? := by
  unfold markUsed
  rw [List.getElem?_mapIdx]
  split
  case isTrue h => simp [List.getElem?_eq_getElem (show i < m.length by omega), h.1, h.2]
  case isFalse h =>
    have hout : (decide (p ≤ i) && decide (i < p + n)) = false := by
      rwa [← Bool.decide_and, decide_eq_false_iff_not]
    simp [hout]

/-- A free run lies in the map: beyond it nothing is free (R161). -/
theorem freeRun_le_length {m : List Bool} {n p : Nat} (hn : 0 < n)
    (hfree : ∀ k, k < n → m[p + k]? = some false) : p + n ≤ m.length := by
  obtain ⟨hlast, _⟩ := List.getElem?_eq_some_iff.mp (hfree (n - 1) (by omega))
  omega

/-- The allocator takes the run it finds (R161). -/
theorem exec_nvAlloc_ok {size : Byte} {p : Nat} (hr : s.ready = true)
    (hsize : size = 1#8 ∨ size = 2#8 ∨ size = 4#8) (hp : findFree s.alloc size.toNat = some p) :
    exec (.nvAlloc size) s = .next ((s.setAlloc (markUsed s.alloc size.toNat p)).respond
      (.addr (s.build.flashStart + BitVec.ofNat 24 p))) := by
  simp only [exec, execNvAlloc, issue_ready hr, State.ready.mayAct hr, need_true, allocate,
    if_pos hsize, hp]

/-- Settles O36: the lowest aligned free run is the one `findFree` finds, and its entries are the ones marked. -/
theorem nvAllocTakesTheLowestFreeRun : Obligations.NvAllocTakesTheLowestFreeRun := by
  unfold Obligations.NvAllocTakesTheLowestFreeRun
  intro size p s hr hsize haligned hfree hlowest
  have hpos : 0 < size.toNat := by obtain rfl | rfl | rfl := hsize <;> decide
  obtain ⟨hret, honly⟩ := setAlloc_respond_leaves (markUsed s.alloc size.toNat p)
    (.addr (s.build.flashStart + BitVec.ofNat 24 p)) (ready_todo hr)
  exact ⟨_, exec_nvAlloc_ok hr hsize (findFree_some hpos haligned hfree hlowest), hret,
    getElem?_markUsed (freeRun_le_length hpos hfree), honly⟩

/-! ### The check of an access's operands (R166) -/

section check

variable {a : Addr} {n : Nat}

theorem storeCheck_outside
    (h : a.toNat < s.regionBase ∨ s.regionBase + s.build.regionLen < a.toNat + n) :
    storeCheck a n s = .bad .address :=
  if_pos h

theorem storeCheck_misaligned (hlo : s.regionBase ≤ a.toNat)
    (hhi : a.toNat + n ≤ s.regionBase + s.build.regionLen) (h : a.toNat % n ≠ 0) :
    storeCheck a n s = .bad .alignment := by
  unfold storeCheck
  rw [if_neg (by omega), if_pos h]

theorem storeCheck_busy (hin : s.inRegion a.toNat n) (hfree : s.storeFree = false) :
    storeCheck a n s = .refused := by
  obtain ⟨hlo, hhi, haligned⟩ := hin
  unfold storeCheck
  rw [if_neg (by omega), if_neg (by simpa using haligned), if_pos hfree]

end check

/-! ### Reads and writes -/

section access

variable {i : Instr} {a : Addr} {n : Nat} {v : BitVec 32}

theorem exec_nvRead8 (a : Addr) (hr : s.ready = true) :
    exec (.nvRead8 a) s = storeRead a 1 ((s.flashByte a.toNat).setWidth 32) s := by
  simp only [exec, execNvRead8, issue_ready hr]

theorem exec_nvRead16 (a : Addr) (hr : s.ready = true) :
    exec (.nvRead16 a) s = storeRead a 2 ((s.flash16 a.toNat).setWidth 32) s := by
  simp only [exec, execNvRead16, issue_ready hr]

theorem exec_nvRead32 (a : Addr) (hr : s.ready = true) :
    exec (.nvRead32 a) s = storeRead a 4 (s.flash32 a.toNat) s := by
  simp only [exec, execNvRead32, issue_ready hr]

/-- A read that passes its check only answers (R163 to R166). -/
theorem storeRead_pass (hr : s.ready = true) (hin : s.inRegion a.toNat n)
    (hfree : s.storeFree = true) : storeRead a n v s = .next (s.respond (.value v)) := by
  simp only [storeRead, State.ready.mayAct hr, need_true, storeCheck_pass hin hfree]

/-- The instruction reads or writes `n` bytes of the store at `a` (R163 to R165, R168 to R170). -/
def accesses (i : Instr) (a : Addr) (n : Nat) : Prop :=
  (i = .nvRead8 a ∧ n = 1) ∨ (i = .nvRead16 a ∧ n = 2) ∨ (i = .nvRead32 a ∧ n = 4)
    ∨ ∃ l, storeTarget i = some (a, l) ∧ n = l.length

/-- Every access is a read or the run of a store job, and each of them begins with the check of its operands. -/
theorem exec_access (h : accesses i a n) (hr : s.ready = true) :
    (∃ v, exec i s = storeRead a n v s) ∨ ∃ j, j.target = some (a, n) ∧ exec i s = storeRun j s := by
  obtain ⟨rfl, rfl⟩ | ⟨rfl, rfl⟩ | ⟨rfl, rfl⟩ | ⟨l, hl, rfl⟩ := h
  · exact .inl ⟨_, exec_nvRead8 a hr⟩
  · exact .inl ⟨_, exec_nvRead16 a hr⟩
  · exact .inl ⟨_, exec_nvRead32 a hr⟩
  · obtain ⟨j, htarget, _, hrun, _⟩ := storeJob_of hl
    exact .inr ⟨j, htarget, hrun s hr⟩

/-- An access whose operands fail the check is reported, and changes nothing (R166, R241). -/
theorem exec_access_bad {p : Param} (h : accesses i a n) (hr : s.ready = true)
    (hc : storeCheck a n s = .bad p) :
    exec i s = .next (s.respond (.fail (.parameterInvalid p))) := by
  obtain ⟨v, hrun⟩ | ⟨j, htarget, hrun⟩ := exec_access h hr
  · simp only [hrun, storeRead, State.ready.mayAct hr, need_true, hc, raise]
  · simp only [hrun, storeRun, storeStart, State.ready.mayAct hr, need_true, htarget, hc, raise]

/-- An access to a store that is not free is refused (R166). -/
theorem exec_access_refused (h : accesses i a n) (hr : s.ready = true)
    (hc : storeCheck a n s = .refused) : exec i s = .refused .storeBusy := by
  obtain ⟨v, hrun⟩ | ⟨j, htarget, hrun⟩ := exec_access h hr
  · simp only [hrun, storeRead, State.ready.mayAct hr, need_true, hc]
  · simp only [hrun, storeRun, storeStart, State.ready.mayAct hr, need_true, htarget, hc]

end access

/-- Settles O38: each width's read passes its check and answers what it has read. -/
theorem nvReadsReturnFlash : Obligations.NvReadsReturnFlash := by
  unfold Obligations.NvReadsReturnFlash
  intro a s hr hfree
  exact ⟨fun hin => (exec_nvRead8 a hr).trans (storeRead_pass hr hin hfree),
    fun hin => (exec_nvRead16 a hr).trans (storeRead_pass hr hin hfree),
    fun hin => (exec_nvRead32 a hr).trans (storeRead_pass hr hin hfree)⟩

theorem exec_nvErase (hr : s.ready = true) : exec .nvErase s = storeRun .erase s := by
  simp only [exec, execNvErase, issue_ready hr]

theorem storeStart_erase_busy (hfree : s.storeFree = false) :
    storeStart .erase s = .refused .storeBusy := by
  simp only [storeStart, StoreJob.target, if_pos hfree]

/-- Settles O39: the outcome of the check is the outcome of the access; NV_ERASE has no operand to check. -/
theorem storeOperandsAreChecked : Obligations.StoreOperandsAreChecked := by
  unfold Obligations.StoreOperandsAreChecked
  intro s hr
  refine ⟨fun i a n (h : accesses i a n) => ⟨?outside, ?misaligned, ?busy⟩, fun hfree => ?erase⟩
  case outside => exact fun hout => exec_access_bad h hr (storeCheck_outside hout)
  case misaligned =>
    exact fun hlo hhi hmod => exec_access_bad h hr (storeCheck_misaligned hlo hhi hmod)
  case busy => exact fun hin hfree => exec_access_refused h hr (storeCheck_busy hin hfree)
  case erase =>
    simp only [exec_nvErase hr, storeRun, State.ready.mayAct hr, need_true,
      storeStart_erase_busy hfree]

/-! ### The write path from the request on -/

section path

variable {i : Instr} {j : StoreJob} {a : Addr} {l : List Byte} {m : List Host.Cell} {c : Descriptor}
  {q : Sequencer} {w : WritePath} {o : SeqOutcome} {d d₀ : List SeqOutcome} {k n : Nat} {r : Response}

/-- A job that the store accepts begins its parts. -/
theorem storeRun_accepted (hr : s.ready = true) (h : storeStart j s = .accepted (accept j s)) :
    storeRun j s = begin [.store] (accept j s) := by
  simp only [storeRun, State.ready.mayAct hr, need_true, h]

/-- A well-placed write where the store may begin one, and what its Merge gives (R167 to R170). -/
theorem exec_storeWrite (hi : storeTarget i = some (a, l)) (hs : s.storeReady)
    (hin : s.inRegion a.toNat l.length) :
    ∃ j, j ≠ .erase ∧ exec i s = begin [.store] (accept j s)
      ∧ mergeJob j (s.respond .pending) = (s.respond .pending).image a.toNat l := by
  obtain ⟨hr, _, hfree⟩ := hs
  obtain ⟨j, htarget, hj, hrun, hmerge⟩ := storeJob_of hi
  exact ⟨j, hj, (hrun s hr).trans (storeRun_accepted hr (storeStart_write htarget hin hfree)),
    hmerge _ (ready_ok hr) hin⟩

/-- NV_ERASE where the store may begin one (R173). -/
theorem exec_nvErase_accepted (hs : s.storeReady) :
    exec .nvErase s = begin [.store] (accept .erase s) := by
  obtain ⟨hr, _, hfree⟩ := hs
  exact (exec_nvErase hr).trans (storeRun_accepted hr (storeStart_erase hfree))

/-- The working registers of the write path once it has accepted a job (R171, rows from `Idle`). -/
def WritePath.accepting (j : StoreJob) (w : WritePath) : WritePath :=
  { w with state := (if j = .erase then .eraseLaunch else .merge), job := j }

theorem accept_eq (j : StoreJob) (s : State) : accept j s = s.setWs (s.ws.accepting j) := rfl

@[simp] theorem accepting_job (j : StoreJob) (w : WritePath) : (w.accepting j).job = j := rfl

theorem accepting_state_write (hj : j ≠ .erase) : (w.accepting j).state = .merge := if_neg hj

theorem accepting_state_erase : (w.accepting .erase).state = .eraseLaunch := rfl

/-- The write path's rows from an accepted job to their end, within the turn. -/
theorem begin_store (hd : s.draws = d₀)
    (hst : Steps k ((s.respond .pending).wp s.flash s.cmd s.seq (s.ws.accepting j) d₀ s.freeIx
        [.store]) (((s.respond .pending).wp m c q w d n []).respond r)) (hk : k ≤ s.turn) :
    begin [.store] (accept j s) = .next ((s.wp m c q w d n []).respond r) := by
  subst hd
  rw [accept_eq]
  exact hst.run hk rfl

/-- What a store operation that has ended leaves of the registers. -/
theorem wp_respond_leaves {x y b : Bool} (hidle : w.state = .idle) (hb : w.result = b) :
    let t := (s.wp m c ⟨true, x, y, none⟩ w d n []).respond r
    storeEnded x y b t ∧ onlyFlash s t ∧ t.draws = d ∧ t.freeIx = n :=
  ⟨⟨rfl, hidle, hb⟩, onlyFlash_wp .., rfl, rfl⟩

/-- A write or an erase whose erase command meets a violation goes no further, and its flash is the one it began with
(R175, second row). -/
theorem exec_erase_fails (hi : i = .nvErase ∨ ∃ a l, storeTarget i = some (a, l)
      ∧ s.inRegion a.toNat l.length)
    (hs : s.storeReady) (hdraws : s.draws = o :: d) (ho : o ≠ .ok) (hturn : 8 ≤ s.turn) :
    ∃ w : WritePath, w.state = .idle ∧ w.result = false ∧ exec i s
      = .next ((s.wp s.flash (eraseDesc s s.freeIx) ⟨true, o.setsAccerr, o.setsFpviol, none⟩ w d
          (s.freeIx + 1) []).respond (.fail (.flashSequencer .erase o.setsAccerr o.setsFpviol))) := by
  have ⟨hr, _, hfree⟩ := hs
  have hok := ready_ok hr
  have ⟨hidle, _⟩ := storeFree_iff hfree
  obtain rfl | ⟨a, l, htarget, hin⟩ := hi
  · obtain ⟨w, hst, hw, hresult⟩ :=
      erase_erase_fails (s := s.respond .pending) (c := s.cmd) (w := s.ws.accepting .erase) (d := d)
        (n := s.freeIx) (l := []) ho hok hidle accepting_state_erase
    exact ⟨w, hw, hresult,
      (exec_nvErase_accepted hs).trans (begin_store hdraws hst (by omega))⟩
  · obtain ⟨j, hj, hexec, _⟩ := exec_storeWrite htarget hs hin
    obtain ⟨w, hst, hw, hresult⟩ :=
      write_erase_fails (s := s.respond .pending) (c := s.cmd) (w := s.ws.accepting j) (d := d)
        (n := s.freeIx) (l := []) ho hok hidle (accepting_state_write hj) rfl hj
    exact ⟨w, hw, hresult, hexec.trans (begin_store hdraws hst (by omega))⟩

end path

/-- Settles O40: `write_ok` runs to the last phrase, when the erased sector holds the whole merged image. -/
theorem storeWriteReplacesItsBytes : Obligations.StoreWriteReplacesItsBytes := by
  unfold Obligations.StoreWriteReplacesItsBytes
  intro i a l d s hi hs hin hdraws hturn
  obtain ⟨j, hj, hexec, hmerge⟩ := exec_storeWrite hi hs hin
  have ⟨hr, hflash, hfree⟩ := hs
  have hok := ready_ok hr
  have ⟨hidle, _⟩ := storeFree_iff hfree
  obtain ⟨m, c, w, hst, hw, hresult, hprogress⟩ :=
    write_ok (s := s.respond .pending) (c := s.cmd) (w := s.ws.accepting j) (d := d) (n := s.freeIx)
      (l := []) hok hflash hidle (accepting_state_write hj) hmerge hj
  have hrun := hexec.trans (begin_store hdraws hst (by rw [State.respond_build]; omega))
  exact ⟨_, hrun, ⟨rfl, rfl⟩, wrote_of_progress hok le_rfl hprogress rfl rfl,
    wp_respond_leaves hw hresult⟩

/-- Settles O41: the erase is the only command, and it leaves the sector as an empty write would at phrase 0. -/
theorem nvEraseErasesTheSector : Obligations.NvEraseErasesTheSector := by
  unfold Obligations.NvEraseErasesTheSector
  intro d s hs hdraws hturn
  have hexec := exec_nvErase_accepted hs
  have ⟨hr, hflash, hfree⟩ := hs
  have ⟨hidle, _⟩ := storeFree_iff hfree
  obtain ⟨w, hst, hw, hresult⟩ :=
    erase_ok (s := s.respond .pending) (c := s.cmd) (w := s.ws.accepting .erase) (d := d)
      (n := s.freeIx) (l := []) (ready_ok hr) hidle accepting_state_erase (accepting_job ..)
  have hrun := hexec.trans (begin_store hdraws hst (by omega))
  exact ⟨_, hrun, ⟨rfl, rfl⟩, erased_wrote hflash rfl rfl, rfl, rfl,
    wp_respond_leaves hw hresult⟩

/-- Settles O42: the last command issued is the erase, and flash is the one the operation began with. -/
theorem failedEraseChangesNoByte : Obligations.FailedEraseChangesNoByte := by
  unfold Obligations.FailedEraseChangesNoByte
  intro i o d s hi hs hdraws ho hturn
  obtain ⟨w, hw, hresult, hrun⟩ := exec_erase_fails hi hs hdraws ho hturn
  exact ⟨_, hrun, ⟨rfl, rfl⟩, sameFlash_of rfl rfl, rfl, rfl, wp_respond_leaves hw hresult⟩

/-- Settles O43: `write_program_fails` stops at phrase `k`, when the erased sector holds the image below it. -/
theorem failedProgramLosesTheTail : Obligations.FailedProgramLosesTheTail := by
  unfold Obligations.FailedProgramLosesTheTail
  intro i a l k o d s hi hs hin hk hdraws ho hturn
  obtain ⟨j, hj, hexec, hmerge⟩ := exec_storeWrite hi hs hin
  have ⟨hr, hflash, hfree⟩ := hs
  have hok := ready_ok hr
  have ⟨hidle, _⟩ := storeFree_iff hfree
  obtain ⟨m, w, hst, hw, hresult, hprogress⟩ :=
    write_program_fails (s := s.respond .pending) (c := s.cmd) (w := s.ws.accepting j) (d := d)
      (n := s.freeIx) (l := []) ho hok hflash hidle (accepting_state_write hj) hmerge hj hk
  have hrun := hexec.trans (begin_store hdraws hst (by omega))
  exact ⟨_, hrun, ⟨rfl, rfl⟩, wrote_of_progress hok hk.le hprogress rfl rfl, rfl, progAddr hok hk,
    wp_respond_leaves hw hresult⟩

end Sys2Proof.Machine
end

section
/-! The flash command sequencer as requests: SEQ_LAUNCH, SEQ_WAIT, SEQ_EXEC, and the two flash commands, which are
launched, executed and waited for in one request (R180 to R189). -/

namespace Sys2Proof.Machine

variable {s u : State} {i : Instr} {m : List Host.Cell} {c d : Descriptor} {o : SeqOutcome}
  {l : List SeqOutcome} {e : Refusal}

/-! ### SEQ_LAUNCH -/

theorem exec_seqLaunch (d : Descriptor) (hr : s.ready = true) :
    exec (.seqLaunch d) s = launchFromOutside d (fun t => .next (t.respond .done)) s := by
  simp only [exec, execSeqLaunch, issue_ready hr, State.ready.mayAct hr, need_true]

section outside

variable {k : State → Host.Outcome State Fault Refusal}

/-- A launch from outside is refused while a command is in flight (R182, R189). -/
theorem launchFromOutside_inFlight (hc : s.seq.complete = false) :
    launchFromOutside d k s = .refused .sequencerBusy := by
  simp [launchFromOutside, need, hc]

/-- A launch from outside is refused while a store operation is under way (R271). -/
theorem launchFromOutside_storeBusy (hc : s.seq.complete = true) (hw : s.ws.state ≠ .idle) :
    launchFromOutside d k s = .refused .storeBusy := by
  simp [launchFromOutside, need, hc, hw]

theorem launchFromOutside_free (hc : s.seq.complete = true) (hw : s.ws.state = .idle) :
    launchFromOutside d k s = k (launch d s) := by
  simp [launchFromOutside, need, hc, hw]

end outside

/-- Settles O44: the launch is refused for each of the two reasons, and else writes the sequencer's registers alone. -/
theorem seqLaunchStartsTheCommand : Obligations.SeqLaunchStartsTheCommand := by
  unfold Obligations.SeqLaunchStartsTheCommand
  intro d s hr
  rw [exec_seqLaunch d hr]
  refine ⟨launchFromOutside_inFlight, launchFromOutside_storeBusy, fun hc hw => ?launched⟩
  case launched =>
    exact ⟨_, launchFromOutside_free hc hw, ⟨ready_todo hr, rfl⟩, rfl, rfl, rfl, rfl, rfl, rfl, rfl,
      ⟨rfl, rfl, rfl, fun p => by cases p <;> rfl⟩, rfl, fun _ => rfl, ⟨⟨rfl, rfl⟩, rfl, rfl⟩,
      ⟨rfl, rfl, rfl, rfl, rfl⟩, ⟨rfl, rfl⟩, ⟨rfl, rfl⟩⟩

/-! ### SEQ_WAIT -/

/-- A flag is reported iff one of the two is set (R183). -/
theorem not_violation (q : Sequencer) :
    (!q.violation) = decide (q.accerr = false ∧ q.fpviol = false) := by
  simp [Sequencer.violation]

/-- Settles O45: the one part of SEQ_WAIT goes on at once, and only answers. -/
theorem seqWaitReportsTheStatus : Obligations.SeqWaitReportsTheStatus := by
  unfold Obligations.SeqWaitReportsTheStatus
  intro s hr hc hturn
  have hrun := (seqWait_go (s := (s.setTodo [.seqWait]).respond .pending) rfl hc).run hturn rfl
  refine ⟨_, (exec_seqWait hr).trans hrun, ⟨rfl, ?flag⟩, onlyMe_begun [] _ s, rfl, rfl⟩
  case flag => exact congrArg Response.flag (not_violation s.seq)

/-! ### The sequencer's turn, taken for an operation of one part -/

/-- The state in which an operation of one part tries it. -/
def State.trying (s : State) : State := (s.setTodo []).respond .pending

/-- What remains when the command in flight has ended with outcome `o` and left flash `m`: the descriptor registers
hold `c`, the answers still to come are `l`, and the running agent has nothing left to do. -/
def State.answered (m : List Host.Cell) (c : Descriptor) (o : SeqOutcome) (l : List SeqOutcome)
    (s : State) : State :=
  s.wp m c ⟨true, o.setsAccerr, o.setsFpviol, none⟩ s.ws l s.freeIx []

/-- An operation of one part is refused where the part is. -/
theorem begin_one_refused {p : Micro} (hturn : 1 ≤ s.turn) (h : micro p s.trying = .refuse e) :
    begin [p] s = .refused e := by
  rw [begin, ← Nat.sub_add_cancel hturn]
  exact run_refuse rfl h

/-- An ended command leaves the status of its outcome, and nothing but flash, the sequencer's registers, the coming
answers and the response is changed. -/
theorem answered_respond_leaves (m c o l r) (s : State) :
    let t := (s.answered m c o l).respond r
    statusAfter o t.seq ∧ t.cmd = c ∧ t.ws = s.ws ∧ onlyFlash s t ∧ t.draws = l
      ∧ t.freeIx = s.freeIx :=
  ⟨status_after o, rfl, rfl, onlyFlash_wp .., rfl, rfl⟩

section turn

variable (hc : s.seq.complete = false) (hi : s.seq.inflight = some d)
include hc hi

/-- A command that has a meaning changes flash by its outcome (R185 to R187). -/
theorem turn_answered (hd : s.draws = o :: l) (hm : malformed d s = false)
    (he : o = .ok → d.opcode = Config.opcProgramPhrase → s.erasedAt d.addr.toNat) :
    sequencerTurn s.trying
      = some (.ok ((s.answered (cmdFlash d o s) s.cmd o l).respond .pending)) :=
  sequencerTurn_eq (s := s.trying) hc hi hd hm he

/-- A descriptor without a meaning draws the access violation and changes no byte (log 14). -/
theorem turn_malformed (hd : s.draws = o :: l) (hm : malformed d s = true) :
    sequencerTurn s.trying = some (.ok ((s.answered s.flash s.cmd .accerr l).respond .pending)) :=
  sequencerTurn_bad (s := s.trying) hc hi hd hm

/-- A program answered `ok` on a phrase that is not erased has no meaning (R186; U8). -/
theorem turn_unerased (hd : s.draws = .ok :: l) (hm : malformed d s = false)
    (hp : d.opcode = Config.opcProgramPhrase) (he : ¬ s.erasedAt d.addr.toNat) :
    sequencerTurn s.trying = some (.error .phraseNotErased) :=
  sequencerTurn_unerased (s := s.trying) hc hi hd hm hp he

end turn

/-! ### SEQ_EXEC -/

theorem exec_seqExec (hask : s.canAsk = true) (hwho : s.who = .sequencer) :
    exec .seqExec s = begin [.seqExec] s := by
  simp only [exec, execSeqExec, issue_canAsk hask, hwho, decide_true, need_true]

section

variable (hask : s.canAsk = true) (hwho : s.who = .sequencer) (hturn : 1 ≤ s.turn)
include hask hwho hturn

/-- SEQ_EXEC is the sequencer's turn (R187). -/
theorem exec_seqExec_of_turn (h : sequencerTurn s.trying = some (.ok u)) (hu : u.me.todo = []) :
    exec .seqExec s = .next (u.respond .done) := by
  have hpart : micro .seqExec s.trying = .go (u.respond .done) := by
    simp only [micro, seqExecPart, h]
  exact (exec_seqExec hask hwho).trans ((Steps.one rfl hpart).run hturn hu)

/-- SEQ_EXEC is refused where the sequencer's turn has no meaning. -/
theorem exec_seqExec_refused (h : sequencerTurn s.trying = some (.error e)) :
    exec .seqExec s = .refused e := by
  have hpart : micro .seqExec s.trying = .refuse e := by simp only [micro, seqExecPart, h]
  exact (exec_seqExec hask hwho).trans (begin_one_refused hturn hpart)

end

/-- Settles O46: the sequencer's turn is all there is to SEQ_EXEC. -/
theorem seqExecCompletesTheCommand : Obligations.SeqExecCompletesTheCommand := by
  unfold Obligations.SeqExecCompletesTheCommand
  intro d o l s hask hwho hflash hc hi hdraws hm hturn
  refine ⟨fun he => ?completed, fun ho hp he => ?refused⟩
  case completed =>
    have hrun := exec_seqExec_of_turn hask hwho hturn (turn_answered hc hi hdraws hm he) rfl
    exact ⟨_, hrun, ⟨rfl, rfl⟩, after_wrote hflash rfl rfl hm, answered_respond_leaves ..⟩
  case refused =>
    subst ho
    exact exec_seqExec_refused hask hwho hturn (turn_unerased hc hi hdraws hm hp he)

/-! ### The two flash commands -/

/-- Each flash command gives the sequencer the descriptor with its opcode (R105, R185, R186). -/
theorem exec_flashCommand
    (h : (d.opcode = Config.opcProgramPhrase ∧ i = .fcmdPgm8 d.addr d.data)
      ∨ (d.opcode = Config.opcEraseSector ∧ i = .fcmdErsscr d.addr d.data)) :
    exec i s = giveDescriptor d s := by
  obtain ⟨hop, rfl⟩ | ⟨hop, rfl⟩ := h
  · simp only [exec, execFcmdPgm8, ← hop]
  · simp only [exec, execFcmdErsscr, ← hop]

/-- While a command is in flight, the wait takes the sequencer's turn and is tried again (R183, R187). -/
theorem micro_seqWait_of_turn (hc : s.seq.complete = false) (h : sequencerTurn s = some (.ok u)) :
    micro .seqWait s = .go (u.push [.seqWait]) := by
  simp only [micro, seqWaitPart, awaitSequencer, hc, h, Bool.false_eq_true, if_false]

theorem micro_seqWait_refused (hc : s.seq.complete = false)
    (h : sequencerTurn s = some (.error e)) : micro .seqWait s = .refuse e := by
  simp only [micro, seqWaitPart, awaitSequencer, hc, h, Bool.false_eq_true, if_false]

section

variable (hr : s.ready = true) (hfree : s.storeFree = true) (hturn : 2 ≤ s.turn)
include hr hfree hturn

/-- A launched command is waited for: the first part of the wait is the sequencer's turn, the second reports whether it
met a violation (R180, R183, R187; log 13). -/
theorem giveDescriptor_of_turn (h : sequencerTurn (launch d s).trying
      = some (.ok (((launch d s).answered m d o l).respond .pending))) :
    giveDescriptor d s = .next ((s.answered m d o l).respond (.flag (decide (o = .ok)))) := by
  have hpart : micro .seqWait (launch d s).trying
      = .go ((((launch d s).answered m d o l).respond .pending).push [.seqWait]) :=
    micro_seqWait_of_turn rfl h
  have hwait : Steps 1 ((((launch d s).answered m d o l).respond .pending).push [.seqWait])
      ((s.answered m d o l).respond (.flag (decide (o = .ok)))) := by
    refine (seqWait_go (l := []) rfl rfl).to ?_
    cases o <;> rfl
  rw [giveDescriptor_eq hr hfree]
  exact ((Steps.one (s := ((launch d s).setTodo [.seqWait]).respond .pending) rfl hpart).trans
    hwait).run hturn rfl

/-- A descriptor given to the sequencer is refused where the sequencer's turn has no meaning. -/
theorem giveDescriptor_refused (h : sequencerTurn (launch d s).trying = some (.error e)) :
    giveDescriptor d s = .refused e := by
  have hturn' : 1 ≤ (launch d s).turn := Nat.le_of_succ_le hturn
  exact (giveDescriptor_eq hr hfree).trans
    (begin_one_refused hturn' (micro_seqWait_refused rfl h))

end

/-- Settles O47: the launch puts the descriptor in flight, and the sequencer's turn on it is taken within the wait. -/
theorem flashCommandsRunToCompletion : Obligations.FlashCommandsRunToCompletion := by
  unfold Obligations.FlashCommandsRunToCompletion
  intro d i o l s hgiven hr hfree hflash hdraws hturn
  rw [exec_flashCommand hgiven]
  refine ⟨fun hm he => ?completed, fun hm ho hp he => ?refused, fun hm => ?malformed⟩
  case completed =>
    have hrun := giveDescriptor_of_turn hr hfree hturn
      (turn_answered (s := launch d s) rfl rfl hdraws hm he)
    exact ⟨_, hrun, ⟨rfl, rfl⟩, after_wrote hflash rfl rfl hm, answered_respond_leaves ..⟩
  case refused =>
    subst ho
    exact giveDescriptor_refused hr hfree hturn
      (turn_unerased (s := launch d s) rfl rfl hdraws hm hp he)
  case malformed =>
    have hrun := giveDescriptor_of_turn hr hfree hturn
      (turn_malformed (s := launch d s) rfl rfl hdraws hm)
    exact ⟨_, hrun, ⟨rfl, rfl⟩, sameFlash_of rfl rfl, answered_respond_leaves ..⟩

end Sys2Proof.Machine
end

section
/-! The dispatcher's commands whose handlers answer at once: CMD_VERSION, CMD_PROTOCOL, CMD_RDBYTE, CMD_TIME, and the
get of CMD_NUMBER and CMD_MODE; and the frames that are not dispatched (R200 to R212). -/

namespace Sys2Proof.Machine

variable {s : State} {code : Byte} {mk : Bool → Byte → Byte → Byte → Byte → Instr} {ack : Bool}
  {p1 p2 p3 : Byte} {i : Instr}

/-! ### A command's request -/

/-- A row's frame with its checksum, and the dispatch of it, begin with the frame's handler (R91, R201). -/
theorem CommandRow.exec_command (h : CommandRow code mk) (hi : isCommand code mk ack p1 p2 p3 i)
    (hr : s.ready = true) (hm : s.maySend = true) :
    exec i s = begin [.handle ⟨commandByte ack code, p1, p2, p3⟩] s :=
  isCommand_begin hi hr hm fun k => h.exec_eq ack p1 p2 p3 k s

/-- A frame with a wrong checksum is not dispatched (R203; log 12). -/
theorem frameRun_invalid (g : Frame) {k : Byte} (hr : s.ready = true) (hm : s.maySend = true)
    (hk : k ≠ checksum g.command g.p1 g.p2 g.p3) : frameRun g k s = .next (s.respond .noFrame) := by
  simp only [frameRun, issue_ready hr, hm, need_true, if_neg hk]

/-- Settles O59: every row is a run of its frame, which compares the checksum before it begins anything. -/
theorem wrongChecksumChangesNothing : Obligations.WrongChecksumChangesNothing := by
  unfold Obligations.WrongChecksumChangesNothing
  intro code mk ack p1 p2 p3 k s hrow hr hm hk
  have hrow : CommandRow code mk := by
    rcases hrow with ⟨rfl, rfl⟩ | ⟨rfl, rfl⟩ | ⟨rfl, rfl⟩ | ⟨rfl, rfl⟩ | ⟨rfl, rfl⟩ | ⟨rfl, rfl⟩
      | ⟨rfl, rfl⟩ | ⟨rfl, rfl⟩ <;> constructor
  exact (hrow.exec_eq ack p1 p2 p3 k s).trans (frameRun_invalid _ hr hm hk)

/-! ### Handlers that answer at once -/

/-- Settles O49: the handler of CMD_VERSION looks at no parameter. -/
theorem cmdVersionReportsTheVersion : Obligations.CmdVersionReportsTheVersion := by
  unfold Obligations.CmdVersionReportsTheVersion
  intro ack p1 p2 p3 i s hi hr hc hn
  rw [CommandRow.version.exec_command hi hr hc.1]
  exact plain_answer (handler_version ..) hc hn

/-- The registers that a handler may write, replaced: `PROTO_MODE` and the clock. -/
def State.setRegs (m : BitVec 1) (r : Rtc) (s : State) : State :=
  { s with protoMode := m, rtc := r }

theorem setRegs_canReply {c : Byte} (m : BitVec 1) (r : Rtc) (hc : s.canReply c) :
    (s.fresh.setRegs m r).canReply c :=
  canReply_congr (s := s) (t := s.fresh.setRegs m r) rfl rfl rfl rfl rfl hc

/-- A handler that writes at most these registers leaves the rest of the frame condition to the reply. -/
theorem setRegs_dispatched {c : Byte} {ok : Bool} {er : Option ErrorKind} {r1 r2 r3 : Byte}
    {m : BitVec 1} {r : Rtc} {u q e}
    (hq : replyLeft c ⟨ok, r1, r2, r3, er⟩ (s.fresh.setRegs m r) u q e) :
    dispatched c ok er r1 r2 r3 s ((s.fresh.setRegs m r).tx u q e [] (.dispatched ok er false)) :=
  dispatched_of (s := s) (t := s.fresh.setRegs m r) rfl rfl rfl rfl rfl rfl rfl rfl rfl ⟨rfl, rfl⟩
    ⟨rfl, rfl, rfl, rfl, rfl⟩ rfl hq

theorem setRegs_tx_storeUntouched (m : BitVec 1) (r : Rtc) (u q e l x) (s : State) :
    storeUntouched s ((s.fresh.setRegs m r).tx u q e l x) :=
  ⟨sameFlash_of (by rfl) (by rfl), ⟨rfl, rfl, rfl⟩, rfl⟩

/-- A handler that answers at once and writes at most these registers. -/
theorem setRegs_answer {f : Frame} {ok : Bool} {er : Option ErrorKind} {r1 r2 r3 : Byte}
    {m : BitVec 1} {r : Rtc}
    (hh : handler f s.fresh = .answer ⟨ok, r1, r2, r3, er⟩ (s.fresh.setRegs m r))
    (hc : s.canReply f.command) (hn : 64 ≤ s.turn) :
    ∃ t, begin [.handle f] s = .next t ∧ dispatched f.command ok er r1 r2 r3 s t
      ∧ t.protoMode = m ∧ t.rtc = r ∧ t.freeIx = s.freeIx ∧ storeUntouched s t := by
  obtain ⟨u, q, e, hrun, hq⟩ := answer_run hh rfl (setRegs_canReply m r hc) hn
  exact ⟨_, hrun, setRegs_dispatched hq, rfl, rfl, rfl, setRegs_tx_storeUntouched ..⟩

theorem hProtocol_get {f : Frame} (h1 : f.p1 = 1#8) (s : State) :
    hProtocol f s = .answer ⟨true, 1#8, s.protoMode.setWidth 8, 0#8, none⟩ s :=
  if_pos h1

theorem hProtocol_set {f : Frame} (h2 : f.p1 = 2#8) (hv : f.p2.toNat ≤ 1) (s : State) :
    hProtocol f s = .answer ⟨true, 2#8, f.p2, f.p3, none⟩ (s.setProto (f.p2.setWidth 1)) := by
  rw [hProtocol, if_neg (by rw [h2]; decide), if_pos h2, if_neg (by omega)]

/-- Settles O50: the get answers from `PROTO_MODE`; the set writes the value's low bit, which is the whole value. -/
theorem cmdProtocolGetsAndSetsTheMode : Obligations.CmdProtocolGetsAndSetsTheMode := by
  unfold Obligations.CmdProtocolGetsAndSetsTheMode
  intro ack p1 p2 p3 i s hi hr hc hn
  rw [CommandRow.protocol.exec_command hi hr hc.1]
  refine ⟨fun h1 => ?get, fun h2 hv => ?set⟩
  case get => exact plain_answer ((handler_protocol ..).trans (hProtocol_get h1 _)) hc hn
  case set =>
    obtain ⟨t, hrun, hdone, hproto, hrest⟩ := setRegs_answer (m := p2.setWidth 1) (r := s.rtc)
      ((handler_protocol ..).trans (hProtocol_set h2 hv s.fresh)) hc hn
    have hbit : (p2.setWidth 1).toNat = p2.toNat := by
      rw [BitVec.toNat_setWidth]
      exact Nat.mod_eq_of_lt (Nat.lt_succ_of_le hv)
    exact ⟨t, hrun, hdone, hproto ▸ hbit, hrest⟩

theorem hTime_set {f : Frame} (hh : f.p1.toNat ≤ 23) (hm : f.p2.toNat ≤ 59) (hs : f.p3.toNat ≤ 59)
    (s : State) :
    hTime f s = .answer ⟨true, f.p1, f.p2, f.p3, none⟩ (s.setRtc ⟨f.p1, f.p2, f.p3⟩) :=
  if_neg (by omega)

/-- Settles O54: a time of day passes the handler's check. -/
theorem cmdTimeSetsTheClock : Obligations.CmdTimeSetsTheClock := by
  unfold Obligations.CmdTimeSetsTheClock
  intro ack p1 p2 p3 i s hi hr hc hn hhours hminutes hseconds
  rw [CommandRow.time.exec_command hi hr hc.1]
  obtain ⟨t, hrun, hdone, hproto, hrtc, hrest⟩ := setRegs_answer (m := s.protoMode) (r := ⟨p1, p2, p3⟩)
    ((handler_time ..).trans (hTime_set hhours hminutes hseconds s.fresh)) hc hn
  exact ⟨t, hrun, hdone, hrtc, hproto, hrest⟩

/-! ### Handlers that read the store -/

/-- CMD_RDBYTE reads inside the data region (R207). -/
theorem hRdbyte_read {f : Frame} (hok : s.build.ok = true) (hp : f.p1.toNat ≤ 7)
    (hfree : s.storeFree = true) :
    hRdbyte f s = .answer ⟨true, f.p1, f.p2, s.flashByte (s.regionBase + f.p1.toNat), none⟩ s := by
  simp only [hRdbyte, if_neg (Nat.not_lt.mpr hp), handlerRead,
    storeCheck_pass (region_in hok hp) hfree, region_addr hok hp]

/-- Settles O51: the byte read is the one at the offset from the region's base. -/
theorem cmdRdbyteReportsTheByte : Obligations.CmdRdbyteReportsTheByte := by
  unfold Obligations.CmdRdbyteReportsTheByte
  intro ack p1 p2 p3 i s hi hr hc hn hp hfree
  rw [CommandRow.rdbyte.exec_command hi hr hc.1]
  have hok := ready_ok hr
  exact plain_answer ((handler_rdbyte ..).trans (hRdbyte_read (s := s.fresh) hok hp hfree)) hc hn

/-- The rows of CMD_NUMBER and CMD_MODE, each with the handle of its variable, where those are `n` and `m` (R210,
R212). -/
inductive VariableRow (n m : Addr) :
    Byte → (Bool → Byte → Byte → Byte → Byte → Instr) → Addr → Prop
  | number : VariableRow n m 0x0B#8 .cmdNumber n
  | mode : VariableRow n m 0x0D#8 .cmdMode m

section variable_row

variable {n m a : Addr}

theorem VariableRow.command (h : VariableRow n m code mk a) : CommandRow code mk := by
  cases h <;> constructor

/-- Both commands get and set a 16-bit variable, once start-up has allocated it (R204, R263). -/
theorem VariableRow.handler_eq (h : VariableRow n m code mk a) (hn : s.nvNumber = some n)
    (hm : s.nvMode = some m) :
    handler ⟨commandByte ack code, p1, p2, p3⟩ s
      = getSet16 a ⟨commandByte ack code, p1, p2, p3⟩ s := by
  cases h
  case number => exact (handler_number ..).trans (withHandles_some hn hm)
  case mode => exact (handler_mode ..).trans (withHandles_some hn hm)

end variable_row

/-- Without both handles there is no handler to run (R263, R267). -/
theorem withHandles_unset (k : Addr → Addr → HandlerOut)
    (h : s.nvNumber = none ∨ s.nvMode = none) : withHandles k s = .refused .handleUnset := by
  unfold withHandles
  split
  next hn hm => simp [hn, hm] at h
  all_goals rfl

theorem handlePart_refused {f : Frame} {r : Refusal} (h : handler f s = .refused r) :
    handlePart f s = .refuse r := by
  simp only [handlePart, h]

/-- Settles O52: the variable's two bytes are read as one half-word and reported apart; without handles the refusal
comes before any parameter is looked at. -/
theorem cmdNumberAndModeReportTheirVariable : Obligations.CmdNumberAndModeReportTheirVariable := by
  unfold Obligations.CmdNumberAndModeReportTheirVariable
  intro code ack p1 p2 p3 i s hi hr
  refine ⟨fun hm hturn hunset => ?unset, fun n m a hc hturn hn hm ha hp hin hfree => ?get⟩
  case unset =>
    obtain ⟨rfl, hi⟩ | ⟨rfl, hi⟩ := hi
    · rw [CommandRow.number.exec_command hi hr hm]
      exact begin_one_refused hturn
        (handlePart_refused ((handler_number ..).trans (withHandles_unset _ hunset)))
    · rw [CommandRow.mode.exec_command hi hr hm]
      exact begin_one_refused hturn
        (handlePart_refused ((handler_mode ..).trans (withHandles_unset _ hunset)))
  case get =>
    have ⟨mk, hrow, hcmd⟩ : ∃ mk, VariableRow n m code mk a ∧ isCommand code mk ack p1 p2 p3 i := by
      obtain ⟨rfl, hi⟩ | ⟨rfl, hi⟩ := hi
      · exact ⟨_, ha ▸ .number, hi⟩
      · exact ⟨_, ha ▸ .mode, hi⟩
    rw [hrow.command.exec_command hcmd hr hc.1]
    exact plain_answer ((hrow.handler_eq (s := s.fresh) hn hm).trans (getSet_get hp hin hfree)) hc
      hturn

end Sys2Proof.Machine
end

section
/-! The dispatcher's commands that write or erase the store: CMD_PGMBYTE and the set of CMD_NUMBER and CMD_MODE (R203,
R206, R210, R212, R235). -/

namespace Sys2Proof.Machine

variable {s : State} {code : Byte} {mk : Bool → Byte → Byte → Byte → Byte → Instr} {ack : Bool}
  {p1 p2 p3 : Byte} {i : Instr} {f : Frame} {j : StoreJob} {a : Addr} {l : List Byte}
  {o : SeqOutcome} {d : List SeqOutcome}

/-- The frame's handler has the store write `l` at `a`, by the job `j`, which the store accepts and whose Merge puts the
bytes into the image of the data region (R167, R201). -/
structure HandlerWrites (f : Frame) (j : StoreJob) (a : Addr) (l : List Byte) (s : State) : Prop where
  storing : handler f s.fresh = .storing (accept j s.fresh)
  notErase : j ≠ .erase
  merge : mergeJob j (s.respond .pending) = (s.respond .pending).image a.toNat l

/-- CMD_PGMBYTE with an offset up to 7 (R206). -/
theorem pgmbyte_writes (hs : s.storeReady) (h7 : p1.toNat ≤ 7) :
    HandlerWrites ⟨commandByte ack 0x07#8, p1, p2, p3⟩
      (.write8 (s.build.flashStart + p1.setWidth 24) p3) (s.build.flashStart + p1.setWidth 24) [p3]
      s where
  storing := pgm_write h7 hs
  notErase := nofun
  merge := merge8_ok (s := s.respond .pending) p3 (ready_ok hs.1) (region_in (ready_ok hs.1) h7)

/-- Selector 2 of CMD_NUMBER and CMD_MODE (R210, R212). -/
theorem VariableRow.writes {n m : Addr} (h : VariableRow n m code mk a) (hn : s.nvNumber = some n)
    (hm : s.nvMode = some m) (hs : s.storeReady) (hp : p1 = 2#8) (hin : s.inRegion a.toNat 2) :
    HandlerWrites ⟨commandByte ack code, p1, p2, p3⟩ (.write16 a (le16 p2 p3)) a [p2, p3] s where
  storing := (h.handler_eq (s := s.fresh) hn hm).trans (getSet_set hp hin hs.2.2)
  notErase := nofun
  merge := by
    have hmerge := merge16_ok (s := s.respond .pending) (le16 p2 p3) (ready_ok hs.1) hin
    rwa [(byteOf_le16 p2 p3).1, (byteOf_le16 p2 p3).2] at hmerge

/-- Settles O53: the two parameter bytes are written as one half-word. -/
theorem cmdNumberAndModeSetTheirVariable : Obligations.CmdNumberAndModeSetTheirVariable := by
  unfold Obligations.CmdNumberAndModeSetTheirVariable
  intro code ack p1 p2 p3 n m a i d s hi hn hm hs hc hp hin hdraws hturn
  have ⟨mk, hrow, hcmd⟩ : ∃ mk, VariableRow n m code mk a ∧ isCommand code mk ack p1 p2 p3 i := by
    obtain ⟨rfl, hi, rfl⟩ | ⟨rfl, hi, rfl⟩ := hi
    · exact ⟨_, .number, hi⟩
    · exact ⟨_, .mode, hi⟩
  have ⟨hstoring, hj, hmerge⟩ : HandlerWrites ⟨commandByte ack code, p1, p2, p3⟩ _ a [p2, p3] s :=
    hrow.writes hn hm hs hp hin
  subst hp
  rw [hrow.command.exec_command hcmd hs.1 hc.1]
  exact command_write hs hc hstoring hj hmerge hdraws hturn

/-- Settles O55: offsets up to 7 are written as one byte, and offset 8 asks for the sector's erase. -/
theorem cmdPgmbyteWritesOrErases : Obligations.CmdPgmbyteWritesOrErases := by
  unfold Obligations.CmdPgmbyteWritesOrErases
  intro ack p1 p2 p3 i d s hi hs hc hturn
  rw [CommandRow.pgmbyte.exec_command hi hs.1 hc.1]
  refine ⟨fun h7 hdraws => ?write, fun h8 hdraws => ?erase⟩
  case write =>
    obtain ⟨hstoring, hj, hmerge⟩ := pgmbyte_writes (ack := ack) (p2 := p2) (p3 := p3) hs h7
    rw [← region_addr (ready_ok hs.1) h7]
    exact command_write hs hc hstoring hj hmerge hdraws hturn
  case erase => exact command_erase hs hc (pgm_erase h8 hs) hdraws (by omega)

/-- A command whose store write meets a violation in the program of phrase `k` (R175, R203, R235). -/
theorem command_program_fails {k : Nat} (hs : s.storeReady) (hc : s.canReply f.command)
    (hw : HandlerWrites f j a l s) (hk : k < s.build.regionLen / 8)
    (hd : s.draws = List.replicate (k + 1) .ok ++ o :: d) (ho : o ≠ .ok)
    (hn : 64 + s.build.regionLen ≤ s.turn) :
    ∃ t, begin [.handle f] s = .next t
      ∧ dispatched f.command false (some (.flashSequencer (.program k) o.setsAccerr o.setsFpviol))
        f.p1 f.p2 f.p3 s t
      ∧ storeWrote k a.toNat l s t ∧ storeEnded o.setsAccerr o.setsFpviol false t ∧ t.draws = d
      ∧ t.protoMode = s.protoMode ∧ t.rtc = s.rtc ∧ t.freeIx = s.freeIx + 1 := by
  have ⟨hr, hflash, hfree⟩ := hs
  have ⟨hstoring, hj, hmerge⟩ := hw
  have hok := ready_ok hr
  have ⟨hidle, _⟩ := storeFree_iff hfree
  obtain ⟨m, w, hst, hwidle, hresult, hprogress⟩ :=
    write_program_fails (s := s.respond .pending) (c := s.cmd) (w := s.ws.accepting j) (d := d)
      (n := s.freeIx) (l := [.afterStore f]) ho hok hflash hidle (accepting_state_write hj) hmerge hj hk
  have haccept : (accept j s.fresh).setTodo [.store, .afterStore f]
      = (s.respond .pending).wp s.flash s.cmd s.seq (s.ws.accepting j)
        (List.replicate (k + 1) .ok ++ o :: d) s.freeIx [.store, .afterStore f] := by
    rw [accept_eq, ← hd]
    rfl
  obtain ⟨v, q, e, _, hrun, rfl, hq⟩ := storing_run hstoring
    (u := (s.wp m (progDesc s ((s.respond .pending).image a.toNat l) k)
      ⟨true, o.setsAccerr, o.setsFpviol, none⟩ w d (s.freeIx + 1) [.afterStore f]).respond .pending)
    (r := .fail (.flashSequencer (.program k) o.setsAccerr o.setsFpviol))
    (by rw [haccept]; exact hst.to rfl) (canReply_congr (s := s) rfl rfl rfl rfl rfl hc) (by omega)
  exact ⟨_, hrun, wrote_dispatch (r1 := f.p1) (r2 := f.p2) (r3 := f.p3) hq,
    wrote_of_progress hok hk.le hprogress rfl rfl, ⟨rfl, hwidle, hresult⟩, rfl, rfl, rfl, rfl⟩

/-- Settles O58: each of the commands has its job accepted; a violation in the erase is `command_fails`, one in the
program of a phrase, which only a write comes to, `command_program_fails`. -/
theorem failedStoreWriteIsReported : Obligations.FailedStoreWriteIsReported := by
  unfold Obligations.FailedStoreWriteIsReported
  intro code ack p1 p2 p3 a l i o d s hi hs hc ho hturn
  have ⟨mk, hrow, hcmd, j, hstoring, hwrites⟩ : ∃ mk, CommandRow code mk
      ∧ isCommand code mk ack p1 p2 p3 i
      ∧ ∃ j, handler ⟨commandByte ack code, p1, p2, p3⟩ s.fresh = .storing (accept j s.fresh)
        ∧ (l ≠ [] → ∃ x : Addr, x.toNat = a
            ∧ HandlerWrites ⟨commandByte ack code, p1, p2, p3⟩ j x l s) := by
    obtain ⟨rfl, hi, h7, rfl, rfl⟩ | ⟨rfl, hi, h8, rfl⟩ | ⟨n, m, hn, hm, hp, rfl, hin, hi⟩ := hi
    · have hw := pgmbyte_writes (ack := ack) (p2 := p2) (p3 := p3) hs h7
      exact ⟨_, .pgmbyte, hi, _, hw.storing, fun _ => ⟨_, region_addr (ready_ok hs.1) h7, hw⟩⟩
    · exact ⟨_, .pgmbyte, hi, _, pgm_erase h8 hs, fun hl => absurd rfl hl⟩
    · have ⟨x, mk, hrow, hcmd, hx⟩ : ∃ x mk, VariableRow n m code mk x
          ∧ isCommand code mk ack p1 p2 p3 i ∧ x.toNat = a := by
        obtain ⟨rfl, hi, rfl⟩ | ⟨rfl, hi, rfl⟩ := hi
        · exact ⟨_, _, .number, hi, rfl⟩
        · exact ⟨_, _, .mode, hi, rfl⟩
      subst hx
      have hw := hrow.writes (ack := ack) (p2 := p2) (p3 := p3) hn hm hs hp hin
      exact ⟨_, hrow.command, hcmd, _, hw.storing, fun _ => ⟨_, rfl, hw⟩⟩
  rw [hrow.exec_command hcmd hs.1 hc.1]
  refine ⟨fun hdraws => ?erase, fun k hl hk hdraws => ?program⟩
  case erase => exact command_fails hs hc hstoring hdraws ho (by omega)
  case program =>
    obtain ⟨x, rfl, hw⟩ := hwrites hl
    exact command_program_fails hs hc hw hk hdraws ho hturn

end Sys2Proof.Machine
end

section
/-! Frames put into `TXF` one after another: the open handler's and the reply, and a reply for which there is no room
(R201, R205, R241). -/

namespace Sys2Proof.Machine

variable {s : State} {f : Frame} {a : Answer} {l m : List Frame} {c : Byte} {k n : Nat}
  {code : Byte} {ack : Bool} {u u' : Users} {q q' : Pipe} {e e' : Option Emission}

/-! ### What a list of emissions leaves -/

/-- What emissions one after another leave of `TXF`, of the note of who uses it, and of the agent's emission. -/
def sentLeft (l : List Frame) (s : State) (u : Users) (q : Pipe) (e : Option Emission) : Prop :=
  (l = [] → u = s.txUsers ∧ q = s.txf ∧ e = s.me.txe)
    ∧ (l ≠ [] → u = (s.notePut .txf true).txUsers ∧ e = none
      ∧ s.txf.grewBy s.build.capacity s.threaded (l.flatMap frameBytes) q)

/-- The frames of a reply: one if it is asked for (R201). -/
def replies (c : Byte) (a : Answer) : List Frame := if ackOf c then [replyFrame c a] else []

/-- A reply leaves what the emission of its frames leaves. -/
theorem sentLeft_replies (h : replyLeft c a s u q e) : sentLeft (replies c a) s u q e := by
  unfold replyLeft at h
  unfold replies
  cases hack : ackOf c <;> rw [hack] at h
  case false =>
    obtain ⟨hq, hu, he⟩ := h
    exact ⟨fun _ => ⟨hu, hq, he⟩, fun h => absurd rfl h⟩
  case true =>
    obtain ⟨hg, hu, he⟩ := h
    exact ⟨fun h => absurd h (List.cons_ne_nil _ _), fun _ => ⟨hu, he, by simpa using hg⟩⟩

/-- Once an agent has emitted, it emits again under the same note. -/
theorem notePut_tx_again {x : List Micro} {r : Response} (h : s.mayPut .txf true = true) :
    ((s.tx (s.notePut .txf true).txUsers q e x r).notePut .txf true).txUsers
      = (s.notePut .txf true).txUsers := by
  have hnote := notePut_congr (s := s.notePut .txf true)
    (t := s.tx (s.notePut .txf true).txUsers q e x r) (by simp) (by simp) rfl true
  exact hnote.trans (notePut_again h).2

/-- Emissions one after another leave what their frames together leave. -/
theorem sentLeft_append {x : List Micro} {r : Response} (hm : l ≠ [] → s.mayPut .txf true = true)
    (hl : sentLeft l s u q e) (hm' : sentLeft m (s.tx u q e x r) u' q' e') :
    sentLeft (l ++ m) s u' q' e' := by
  obtain ⟨hnone, hsome⟩ := hl
  obtain ⟨hnone', hsome'⟩ := hm'
  by_cases hl : l = []
  · obtain ⟨rfl, rfl, rfl⟩ := hnone hl
    subst hl
    refine ⟨hnone', fun h => ?_⟩
    obtain ⟨hu, he, hg⟩ := hsome' h
    have hnote : ((s.tx s.txUsers s.txf s.me.txe x r).notePut .txf true).txUsers
        = (s.notePut .txf true).txUsers := notePut_congr (s := s)
          (t := s.tx s.txUsers s.txf s.me.txe x r) rfl rfl rfl true
    exact ⟨hu.trans hnote, he, hg⟩
  · obtain ⟨rfl, rfl, hg⟩ := hsome hl
    refine ⟨fun h => absurd (List.append_eq_nil_iff.mp h).1 hl, fun _ => ?_⟩
    by_cases hm0 : m = []
    · obtain ⟨rfl, rfl, rfl⟩ := hnone' hm0
      subst hm0
      exact ⟨rfl, rfl, by simpa using hg⟩
    · obtain ⟨hu', he', hg'⟩ := hsome' hm0
      refine ⟨hu'.trans (notePut_tx_again (hm hl)), he', ?_⟩
      rw [List.flatMap_append]
      exact grewBy_trans hg hg'

/-- Where there was room for them, `TXF` has grown by the frames; in the polled regime nothing is noted. -/
theorem sentLeft_polled (hp : s.polled = true) (hw : s.txf.wf s.build.capacity)
    (h : sentLeft l s u q e) :
    u = s.txUsers ∧ s.txf.grewBy s.build.capacity false (l.flatMap frameBytes) q := by
  obtain ⟨hnone, hsome⟩ := h
  by_cases hl : l = []
  · obtain ⟨rfl, rfl, -⟩ := hnone hl
    subst hl
    exact ⟨rfl, grewBy_refl hw⟩
  · obtain ⟨rfl, -, hg⟩ := hsome hl
    rw [notePut_polled _ _ hp]
    rw [threaded_of_polled hp] at hg
    exact ⟨rfl, hg⟩

/-! ### The open handler's frames -/

theorem tx_tx (u u' q q' e e' x x' r r') (s : State) :
    (s.tx u q e x r).tx u' q' e' x' r' = s.tx u' q' e' x' r' := rfl

/-- The open handler's part leaves its frames and the reply to be sent (R205). -/
theorem handle_sending_step (hh : handler f s.fresh = .sending l a s.fresh.useFree) :
    Steps 1 ((s.setTodo [.handle f]).respond .pending)
      (s.useFree.tx s.txUsers s.txf s.me.txe
        ((l.map fun g => emission g s).flatten ++ [.reply f.command a]) .pending) := by
  refine handle_first ?_
  have htodo : s.fresh.useFree.me.todo = [] := rfl
  simp only [handlePart, hh, State.push, htodo, List.append_nil]
  rfl

/-- DISPATCH up to the reply, where the handler has frames of its own to send and there is room for them (R205). -/
theorem sending_steps (hh : handler f s.fresh = .sending l a s.fresh.useFree)
    (hc : l ≠ [] → s.canEmit (5 * l.length + n)) :
    ∃ u q e r k, k ≤ 1 + 41 * l.length
      ∧ Steps k ((s.setTodo [.handle f]).respond .pending)
          (s.useFree.tx u q e [.reply f.command a] r)
      ∧ sentLeft l s u q e ∧ (l ≠ [] → (s.useFree.tx u q e [.reply f.command a] r).canEmit n) := by
  have hfirst := handle_sending_step hh
  generalize hparts : (l.map fun g => emission g s).flatten ++ [.reply f.command a] = x at hfirst
  have hcl : l ≠ [] →
      (s.useFree.tx s.txUsers s.txf s.me.txe x .pending).canEmit (5 * l.length + n) := fun hl =>
    canEmit_congr (s := s) rfl rfl rfl rfl rfl (hc hl)
  have hnote : ((s.useFree.tx s.txUsers s.txf s.me.txe x .pending).notePut .txf true).txUsers
      = (s.notePut .txf true).txUsers :=
    notePut_congr (s := s) (t := s.useFree.tx s.txUsers s.txf s.me.txe x .pending) rfl rfl rfl true
  obtain ⟨u, q, e, r, k, hk, hst, hnone, hsome⟩ :=
    send_all l [.reply f.command a] (s.useFree.tx s.txUsers s.txf s.me.txe x .pending) n hcl
      hparts.symm nofun
  rw [tx_tx] at hst hsome
  refine ⟨u, q, e, r, 1 + k, by omega, hfirst.trans hst, ⟨hnone, fun hl => ?_⟩, fun hl => ?_⟩
  · obtain ⟨hu, he, hg, -⟩ := hsome hl
    exact ⟨hu.trans hnote, he, hg⟩
  · obtain ⟨-, -, -, hroom⟩ := hsome hl
    exact hroom

/-- DISPATCH with the open handler, where there is room for its frames and for the reply (R201, R205). -/
theorem sending_run (hh : handler f s.fresh = .sending l a s.fresh.useFree)
    (hm : s.maySend = true) (hl : m = l ++ replies f.command a)
    (hc : m ≠ [] → s.canEmit (5 * m.length)) (hn : 64 * (m.length + 1) ≤ s.turn) :
    ∃ u q e, begin [.handle f] s
        = .next (s.useFree.tx u q e [] (.dispatched a.success a.err false))
      ∧ sentLeft m s u q e := by
  subst hl
  rw [List.length_append] at hn
  have hcl : l ≠ [] → s.canEmit (5 * l.length + 5 * (replies f.command a).length) := fun hl => by
    rw [← Nat.mul_add, ← List.length_append]
    exact hc (List.append_ne_nil_of_left_ne_nil hl _)
  obtain ⟨u, q, e, r, k, hk, hst, hsent, hroom⟩ := sending_steps hh hcl
  have hreply : (s.useFree.tx u q e [.reply f.command a] r).canReply f.command := by
    refine ⟨hm, fun ha => ?_⟩
    have hone : replies f.command a = [replyFrame f.command a] := if_pos ha
    rw [hone] at hc hroom
    by_cases hl : l = []
    · obtain ⟨rfl, rfl, rfl⟩ := hsent.1 hl
      subst hl
      exact canEmit_congr (s := s) rfl rfl rfl rfl rfl (hc (List.cons_ne_nil _ _))
    · exact hroom hl
  obtain ⟨u', q', e', k', hk', hst', hleft⟩ := reply_steps hreply rfl
  refine ⟨u', q', e', ((hst.trans hst').to rfl).run (by omega) rfl, ?_⟩
  have hput (hl : l ≠ []) : s.mayPut .txf true = true := by
    obtain ⟨_, _, _, hput, _⟩ := hcl hl
    exact hput
  have hleft' : replyLeft f.command a (s.tx u q e [.reply f.command a] r) u' q' e' :=
    replyLeft_congr (t := s.useFree.tx u q e [.reply f.command a] r) rfl rfl rfl rfl rfl hleft
  exact sentLeft_append hput hsent (sentLeft_replies hleft')

theorem replies_commandByte (h : code.getLsbD 7 = false) (hc : codeOf code = code) :
    replies (commandByte ack code) a
      = if ack then [⟨commandByte a.success code, a.r1, a.r2, a.r3⟩] else [] := by
  rw [replies, replyFrame, ackOf_commandByte ack h, codeOf_commandByte, hc]

/-- What a command with the open handler leaves alone: everything but `TXF`, its note and what the agent carries. -/
theorem useFree_tx_leaves (u : Users) (q : Pipe) (e : Option Emission) (r : Response) (s : State) :
    let t := s.useFree.tx u q e [] r
    dispatchFrame s t ∧ storeUntouched s t ∧ t.protoMode = s.protoMode ∧ t.rtc = s.rtc
      ∧ t.freeIx = s.freeIx + 1 :=
  ⟨⟨rfl, rfl, rfl, rfl, rfl, ⟨rfl, rfl⟩, ⟨rfl, rfl, rfl, rfl, rfl⟩, rfl⟩,
    ⟨sameFlash_of (by rfl) (by rfl), ⟨rfl, rfl, rfl⟩, rfl⟩, rfl, rfl, rfl⟩

/-- Settles O56: the handler's frames and the reply are one list of emissions. -/
theorem cmdStartupRunsTheOpenHandler : Obligations.CmdStartupRunsTheOpenHandler := by
  unfold Obligations.CmdStartupRunsTheOpenHandler
  intro ack p1 p2 p3 i l s hi hr hm hl hc hn
  rw [CommandRow.startup.exec_command hi hr hm]
  rw [← replies_commandByte CommandRow.startup.flag_clear CommandRow.startup.codeOf_code
    (a := ⟨_, _, _, _, none⟩)] at hl
  obtain ⟨u, q, e, hrun, hnone, hsome⟩ := sending_run (handler_startup ..) hm hl hc hn
  refine ⟨_, hrun, ⟨rfl, rfl⟩, fun h => ?_, fun h => ?_, useFree_tx_leaves ..⟩
  · obtain ⟨hu, hq, -⟩ := hnone h
    exact ⟨hq, hu⟩
  · obtain ⟨hu, -, hg⟩ := hsome h
    exact ⟨hg, hu⟩

/-! ### A reply for which there is no room (R201, R241) -/

/-- DISPATCH reports the capacity error on top of its handler's result (R241). -/
theorem replied_lost_steps {x : List Micro} {er : ErrorKind} (hl : s.me.todo = .replied a :: x)
    (hr : s.me.resp = .fail er) :
    Steps 1 s ((s.setTodo x).respond (.dispatched a.success a.err true)) := by
  refine Steps.one hl ?_
  have hr' : (s.setTodo x).me.resp = .fail er := hr
  simp only [micro, repliedPart, hr']

/-- In the polled regime the bytes of the reply that fit stay, and the reply is lost (R145, R201, R232). -/
theorem reply_stops {x : List Micro} (ha : ackOf c = true) (hp : s.polled = true) (hk : k < 5)
    (hc : s.canEmit k) (hf : s.txf.count + k = s.build.capacity)
    (hl : s.me.todo = .reply c a :: x) :
    ∃ q, s.txf.grewBy s.build.capacity false ((frameBytes (replyFrame c a)).take k) q
      ∧ Steps (k + 4) s (s.tx s.txUsers q none x (.dispatched a.success a.err true)) := by
  have hreply : Steps 1 s (s.setTodo (emission (replyFrame c a) s ++ .replied a :: x)) := by
    refine Steps.one hl ?_
    have hparts : emission (replyFrame c a) (s.setTodo x) = emission (replyFrame c a) s :=
      emission_congr rfl _
    rw [replyFrame] at hparts
    simp only [micro, replyPart, ha, if_true, hparts, State.push, List.append_assoc]
    rfl
  obtain ⟨q, hg, hst⟩ := emission_stops
    (s := s.setTodo (emission (replyFrame c a) s ++ .replied a :: x)) hp hc hk hf
    (l := .replied a :: x) (f := replyFrame c a) rfl
  refine ⟨q, hg, ?_⟩
  have hdone := (hreply.trans hst).trans (replied_lost_steps (a := a) (x := x) rfl rfl)
  rw [show 1 + (k + 2) + 1 = k + 4 by omega] at hdone
  refine hdone.to ?_
  simp only [State.tx, State.setPipe, State.setTxe, State.setTodo, State.respond]

/-- DISPATCH with a handler that answers at once, where its reply does not fit (R201, R241). -/
theorem answer_stops {m : BitVec 1} {r : Rtc}
    (hh : handler f s.fresh = .answer a (s.fresh.setRegs m r)) (ha : ackOf f.command = true)
    (hp : s.polled = true) (hk : k < 5) (hc : s.canEmit k)
    (hf : s.txf.count + k = s.build.capacity) (hn : 64 ≤ s.turn) :
    ∃ q, s.txf.grewBy s.build.capacity false ((frameBytes (replyFrame f.command a)).take k) q
      ∧ begin [.handle f] s
        = .next ((s.setRegs m r).tx s.txUsers q none [] (.dispatched a.success a.err true)) := by
  have hfirst : Steps 1 ((s.setTodo [.handle f]).respond .pending)
      ((s.setRegs m r).tx s.txUsers s.txf s.me.txe [.reply f.command a] .pending) := by
    refine handle_first ?_
    simp only [handlePart, hh]
    rfl
  have hc' : ((s.setRegs m r).tx s.txUsers s.txf s.me.txe [.reply f.command a] .pending).canEmit k :=
    canEmit_congr (s := s) rfl rfl rfl rfl rfl hc
  obtain ⟨q, hg, hst⟩ := reply_stops
    (s := (s.setRegs m r).tx s.txUsers s.txf s.me.txe [.reply f.command a] .pending)
    ha hp hk hc' hf rfl
  exact ⟨q, hg, ((hfirst.trans hst).to rfl).run (by omega) rfl⟩

/-- DISPATCH with the open handler, where its frames fit and its reply does not (R201, R205, R241; log 10). -/
theorem sending_stops (hh : handler f s.fresh = .sending l a s.fresh.useFree)
    (ha : ackOf f.command = true) (hp : s.polled = true) (hk : k < 5)
    (hc : s.canEmit (5 * l.length + k)) (hf : s.txf.count + 5 * l.length + k = s.build.capacity)
    (hn : 64 * (l.length + 1) ≤ s.turn) :
    ∃ q, s.txf.grewBy s.build.capacity false
        (l.flatMap frameBytes ++ (frameBytes (replyFrame f.command a)).take k) q
      ∧ begin [.handle f] s
        = .next (s.useFree.tx s.txUsers q none [] (.dispatched a.success a.err true)) := by
  obtain ⟨u, q, e, r, j, hj, hst, hsent, hroom⟩ := sending_steps hh fun _ => hc
  obtain ⟨hinit, hwf, _, hput, _⟩ := hc
  obtain ⟨rfl, hg⟩ := sentLeft_polled hp hwf hsent
  have hcount : q.count = s.txf.count + 5 * l.length := by
    rw [grewBy_count hg]
    simp [frameBytes_def, Nat.mul_comm]
  have hfull : q.count + k = s.build.capacity := by omega
  have hc' : (s.useFree.tx s.txUsers q e [.reply f.command a] r).canEmit k := by
    obtain ⟨_, hwfq, _, _, hinitq, _⟩ := hg
    have hput' : (s.useFree.tx s.txUsers q e [.reply f.command a] r).mayPut .txf true = true :=
      (mayPut_congr (s := s) (p := .txf) rfl rfl rfl true).trans hput
    exact ⟨hinitq.trans hinit, hwfq, hfull.le, hput',
      fun hth => absurd hp (not_polled_of_threaded (s := s) hth)⟩
  obtain ⟨q', hg', hst'⟩ := reply_stops
    (s := s.useFree.tx s.txUsers q e [.reply f.command a] r) ha hp hk hc' hfull rfl
  exact ⟨q', grewBy_trans hg hg', ((hst.trans hst').to rfl).run (by omega) rfl⟩

/-- A handler that answers at once has written at most `PROTO_MODE` and the clock. -/
theorem handler_answer_state {u : State} (h : handler f s = .answer a u) :
    ∃ m r, u = s.setRegs m r := by
  have hcase := handler_case f s
  rw [h] at hcase
  cases hcase
  case answer => exact ⟨s.protoMode, s.rtc, rfl⟩
  case proto m => exact ⟨m, s.rtc, rfl⟩
  case rtc r => exact ⟨s.protoMode, r, rfl⟩

/-- A handler that sends frames has used one free value. -/
theorem handler_sending_state {u : State} (h : handler f s = .sending l a u) : u = s.useFree := by
  have hcase := handler_case f s
  rw [h] at hcase
  cases hcase
  rfl

/-- What a command whose handler answers at once leaves alone. -/
theorem setRegs_tx_leaves (m : BitVec 1) (r : Rtc) (u : Users) (q : Pipe) (e : Option Emission)
    (x : Response) (s : State) :
    let t := (s.setRegs m r).tx u q e [] x
    dispatchFrame s t ∧ t.txUsers = u ∧ storeUntouched s t ∧ t.protoMode = m ∧ t.rtc = r
      ∧ t.freeIx = s.freeIx :=
  ⟨⟨rfl, rfl, rfl, rfl, rfl, ⟨rfl, rfl⟩, ⟨rfl, rfl, rfl, rfl, rfl⟩, rfl⟩, rfl,
    setRegs_tx_storeUntouched .., rfl, rfl, rfl⟩

/-- Settles O60: after whatever the handler has sent, the reply's emission stops at the byte that does not fit; for an
unknown code the handler is one that answers at once. -/
theorem replyThatDoesNotFitIsReported : Obligations.ReplyThatDoesNotFitIsReported := by
  unfold Obligations.ReplyThatDoesNotFitIsReported
  intro f k s hr hp hk ha
  have hexec {n : Nat} (hc : s.canEmit n) :
      exec (.dispatch f.command f.p1 f.p2 f.p3) s = begin [.handle f] s :=
    exec_dispatch _ _ _ _ hr (maySend_of_canEmit hp hc)
  refine ⟨fun l a u hc hf hn hh => ?sending, fun hc hf hn => ?answering⟩
  case sending =>
    obtain rfl := handler_sending_state hh
    obtain ⟨q, hg, hrun⟩ := sending_stops hh ha hp hk hc hf hn
    obtain ⟨hframe, hstore, hrest⟩ :=
      useFree_tx_leaves s.txUsers q none (.dispatched a.success a.err true) s
    exact ⟨_, (hexec hc).trans hrun, ⟨rfl, rfl⟩, hg, rfl, hframe, rfl, hstore, hrest⟩
  case answering =>
    rw [hexec hc]
    refine ⟨fun a u hh => ?_, fun hcode => ?_⟩
    · obtain ⟨m, r, rfl⟩ := handler_answer_state hh
      obtain ⟨q, hg, hrun⟩ := answer_stops hh ha hp hk hc hf hn
      exact ⟨_, hrun, ⟨rfl, rfl⟩, hg, rfl, setRegs_tx_leaves ..⟩
    · obtain ⟨q, hg, hrun⟩ := answer_stops (m := s.protoMode) (r := s.rtc)
        (handler_unlistedCode hcode s.fresh) ha hp hk hc hf hn
      exact ⟨_, hrun, ⟨rfl, rfl⟩, hg, rfl, setRegs_tx_leaves ..⟩

end Sys2Proof.Machine
end

section
/-! START_UP from the machine after reset, and its two allocations performed one by one (R204, R263, R266). -/

namespace Sys2Proof.Machine

variable {s : State} {rx tx : Pipe} {u : Users} {c : Codec} {m : List Bool} {n d : Option Addr}
  {l : List Micro} {r : Response} {p : Nat}

/-! ### The parts of START_UP -/

/-- The state with what START_UP writes replaced: the pipes and the notes of their users, the codec, the allocation map,
the handles, and what its agent has left to do and has been answered. -/
def State.starting (s : State) (rx tx : Pipe) (u : Users) (c : Codec) (m : List Bool)
    (n d : Option Addr) (l : List Micro) (r : Response) : State :=
  { s with
    rxf := rx, txf := tx, rxUsers := u, txUsers := ⟨none, none⟩, fr := c, alloc := m, nvNumber := n,
    nvMode := d, me := { s.me with todo := l, resp := r } }

theorem pipeInit_alone (q : PipeId) (h : s.parked = []) :
    pipeInit q s = .ok ((s.setPipe q ((s.pipe q).init s)).setUsers q ⟨none, none⟩) := by
  simp [pipeInit, pipeHasWaiters, h]

theorem starting_rxf (h : s.parked = []) :
    Steps 1 (s.starting rx tx u c m n d (.startPipe .rxf :: l) r)
      (s.starting (rx.init s) tx ⟨none, none⟩ c m n d l r) := by
  refine Steps.one (m := .startPipe .rxf) rfl ?_
  simp only [micro]
  rw [pipeInit_alone .rxf (by exact h)]
  rfl

theorem starting_txf (h : s.parked = []) :
    Steps 1 (s.starting rx tx u c m n d (.startPipe .txf :: l) r)
      (s.starting rx (tx.init s) u c m n d l r) := by
  refine Steps.one (m := .startPipe .txf) rfl ?_
  simp only [micro]
  rw [pipeInit_alone .txf (by exact h)]
  rfl

theorem starting_codec :
    Steps 1 (s.starting rx tx u c m n d (.startCodec :: l) r)
      (s.starting rx tx u { c with state := .awaitCommand } m n d l r) :=
  Steps.one (m := .startCodec) rfl rfl

theorem starting_map :
    Steps 1 (s.starting rx tx u c m n d (.startMap :: l) r)
      (s.starting rx tx u c (emptyMap s.build.regionLen) n d l r) :=
  Steps.one (m := .startMap) rfl rfl

/-- An allocation of step 4 takes the run the allocator finds (R161, R204). -/
theorem startAlloc_takes {keep : Addr → State → State} (h : findFree s.alloc 2 = some p) :
    startAlloc none keep s
      = .go ((keep (s.build.flashStart + BitVec.ofNat 24 p)
          (s.setAlloc (markUsed s.alloc 2 p))).respond
            (.addr (s.build.flashStart + BitVec.ofNat 24 p))) := by
  have hsize : (2#8).toNat = 2 := rfl
  simp [startAlloc, allocate, hsize, h]

theorem starting_number (h : findFree m 2 = some p) :
    Steps 1 (s.starting rx tx u c m none d (.startNumber :: l) r)
      (s.starting rx tx u c (markUsed m 2 p) (some (s.build.flashStart + BitVec.ofNat 24 p)) d l
        (.addr (s.build.flashStart + BitVec.ofNat 24 p))) := by
  refine Steps.one (m := .startNumber) rfl ((startAlloc_takes (p := p) ?_).trans rfl)
  exact h

theorem starting_mode (h : findFree m 2 = some p) :
    Steps 1 (s.starting rx tx u c m n none (.startMode :: l) r)
      (s.starting rx tx u c (markUsed m 2 p) n (some (s.build.flashStart + BitVec.ofNat 24 p)) l
        (.addr (s.build.flashStart + BitVec.ofNat 24 p))) := by
  refine Steps.one (m := .startMode) rfl ((startAlloc_takes (p := p) ?_).trans rfl)
  exact h

/-! ### The map with the two variables -/

theorem getElem?_emptyMap (k i : Nat) : (emptyMap k)[i]? = if i < k then some false else none :=
  all_free k i

theorem findFree_number {k : Nat} (hk : 4 ≤ k) : findFree (emptyMap k) 2 = some 0 := by
  refine findFree_some (by decide) rfl (fun i hi => ?_) (fun i hi => absurd hi (Nat.not_lt_zero i))
  rw [getElem?_emptyMap, if_pos (by omega)]

/-- The map once the device number's variable is allocated. -/
def numberMap (k : Nat) : List Bool := markUsed (emptyMap k) 2 0

theorem getElem?_numberMap {k : Nat} (hk : 4 ≤ k) (i : Nat) :
    (numberMap k)[i]? = if i < 2 then some true else if i < k then some false else none := by
  rw [numberMap, getElem?_markUsed (by simp [emptyMap]; omega), getElem?_emptyMap]
  exact if_congr (by omega) rfl rfl

theorem findFree_mode {k : Nat} (hk : 4 ≤ k) : findFree (numberMap k) 2 = some 2 := by
  refine findFree_some (by decide) rfl (fun i hi => ?_) (fun i hi heven => ⟨0, by decide, ?_⟩)
  · rw [getElem?_numberMap hk, if_neg (by omega), if_pos (by omega)]
  · rw [getElem?_numberMap hk, if_pos (by omega)]
    decide

/-- The map once both variables are allocated. -/
def handlesMap (k : Nat) : List Bool := markUsed (numberMap k) 2 2

theorem getElem?_handlesMap {k : Nat} (hk : 4 ≤ k) (i : Nat) :
    (handlesMap k)[i]? = if i < 4 then some true else if i < k then some false else none := by
  have hlen : (numberMap k).length = k := by simp [numberMap, markUsed, emptyMap]
  rw [handlesMap, getElem?_markUsed (by omega), getElem?_numberMap hk]
  by_cases h4 : i < 4
  · rw [if_pos h4]
    split
    next => rfl
    next => exact if_pos (by omega)
  · rw [if_neg h4, if_neg (by omega), if_neg (by omega)]

theorem regionLen_ge (h : s.build.ok = true) : 4 ≤ s.build.regionLen := by
  obtain ⟨_, _, _, _, hmod, hpos, _⟩ := build_facts h
  omega

/-- In the empty map the device number's variable goes to the region's base. -/
theorem starting_firstNumber (hok : s.build.ok = true) :
    Steps 1 (s.starting rx tx u c (emptyMap s.build.regionLen) none d (.startNumber :: l) r)
      (s.starting rx tx u c (numberMap s.build.regionLen) (some s.build.flashStart) d l
        (.addr s.build.flashStart)) := by
  have h := starting_number (s := s) (rx := rx) (tx := tx) (u := u) (c := c) (d := d) (l := l) (r := r)
    (findFree_number (regionLen_ge hok))
  have hbase : s.build.flashStart + BitVec.ofNat 24 0 = s.build.flashStart := BitVec.add_zero _
  rwa [hbase] at h

/-! ### START_UP -/

/-- What START_UP leaves before its loop, of a state whose handles are unset and whose other agents have nothing under
way (R263). -/
def State.started (s : State) (rx tx : Pipe) (c : Codec) (l : List Micro) : State :=
  s.starting (rx.init s) (tx.init s) ⟨none, none⟩ { c with state := .awaitCommand }
    (handlesMap s.build.regionLen) (some s.build.flashStart) (some (s.build.flashStart + 2#24)) l
    (.addr (s.build.flashStart + 2#24))

theorem startUp_steps (hok : s.build.ok = true) (h : s.parked = []) :
    Steps 6 (s.starting rx tx u c m none none startUpParts r) (s.started rx tx c [.loop]) := by
  exact (starting_rxf h).trans ((starting_txf h).trans (starting_codec.trans (starting_map.trans
    ((starting_firstNumber hok).trans (starting_mode (findFree_mode (regionLen_ge hok)))))))

/-- A pipe that PIPE_INIT finds as reset left it has R266's values. -/
theorem init_reset (s : State) :
    let q := (Pipe.reset s.build.capacity).init s
    q.startIx = 0 ∧ q.endIx = 0 ∧ q.count = 0 ∧ q.space = s.build.capacity ∧ q.items = 0 ∧ q.lock = 1
      ∧ q.inited = true := by
  simp [Pipe.init, Pipe.reset]

/-- What a request finds of the state it has begun in. -/
theorem begun_starting (hs : s = s.starting rx tx u c m n d [] r) (l : List Micro) :
    (s.setTodo l).respond .pending = s.starting rx tx u c m n d l .pending :=
  congrArg (fun t => (t.setTodo l).respond .pending) hs

/-- START_UP up to its loop, which waits on an empty `RXF`, at its beginning or inside FR_GET (R143, R263). -/
theorem startUp_run (hok : s.build.ok = true) (hp : s.parked = []) (hturn : 6 ≤ s.turn)
    (hs : s = s.starting rx tx u c m none none [] r) (hrx : (rx.init s).items = 0) :
    ∃ u l r, begin startUpParts s
      = .next (s.starting (rx.init s) (tx.init s) u { c with state := .awaitCommand }
          (handlesMap s.build.regionLen) (some s.build.flashStart)
          (some (s.build.flashStart + 2#24)) l r) := by
  have hbegin : begin startUpParts s = run (s.turn - 6) (s.started rx tx c [.loop]) := by
    rw [begin, begun_starting hs, ← startUp_steps hok hp, Nat.sub_add_cancel hturn]
  obtain ⟨u, l, r, hloop⟩ := loop_end (s.started rx tx c [.loop]) rfl rfl hrx rfl
  obtain h | h := hloop (s.turn - 6)
  · exact ⟨_, _, _, hbegin.trans h⟩
  · exact ⟨u, l, r, hbegin.trans h⟩

/-- START_UP where the handles are unset (R41, R263). -/
theorem step_startUp {turn : Nat} {q : List Event} (hq : s.queue = .startUp turn :: q)
    (hwho : s.who = .task) (hask : s.canAsk = true) (hn : s.nvNumber = none)
    (hm : s.nvMode = none) : step s = begin startUpParts (s.take q turn) := by
  have hself : (s.take q turn).switchTo .task = s.take q turn := State.switchTo_self _ hwho.symm
  simp only [step, hq, event, hself]
  rw [issue_canAsk (by exact hask)]
  simp [hn, hm]

/-! ### The two allocations one by one -/

section single

variable {turn : Nat} {q : List Event} (hok : s.build.ok = true) (hturn : 1 ≤ turn)
  (hq : s.queue = .startHandle turn :: q) (hwho : s.who = .task)

include hok hq hwho in
/-- An allocation of step 4, alone (R204; log 23). -/
theorem step_startHandle (hs : s = s.starting rx tx u c m n d [] r) :
    step s = run turn ((s.take q turn).starting rx tx u c m n d (startHandleParts s) .pending) := by
  have hself : (s.take q turn).switchTo .task = s.take q turn := State.switchTo_self _ hwho.symm
  have htodo : s.me.todo = [] := congrArg (fun t => t.me.todo) hs
  have hask : s.canAsk = true := by simp [State.canAsk, hok, htodo]
  have hs' : s.take q turn = (s.take q turn).starting rx tx u c m n d [] r :=
    congrArg (State.take q turn) hs
  simp only [step, hq, event, hself]
  rw [issue_canAsk (by exact hask), begin, begun_starting hs']
  rfl

include hok hturn hq hwho in
/-- The first of the two is the device number's. -/
theorem step_startNumber
    (hs : s = s.starting rx tx u c (emptyMap s.build.regionLen) none none [] r) :
    step s = .next ((s.take q turn).starting rx tx u c (numberMap s.build.regionLen)
      (some s.build.flashStart) none [] (.addr s.build.flashStart)) := by
  have hn : s.nvNumber = none := congrArg State.nvNumber hs
  have hparts : startHandleParts s = [.startNumber] := by simp [startHandleParts, hn]
  rw [step_startHandle hok hq hwho hs, hparts]
  exact (starting_firstNumber (s := s.take q turn) hok).run hturn rfl

include hok hturn hq hwho in
/-- The second is the device mode's. -/
theorem step_startMode {a : Addr}
    (hs : s = s.starting rx tx u c (numberMap s.build.regionLen) (some a) none [] r) :
    step s = .next ((s.take q turn).starting rx tx u c (handlesMap s.build.regionLen) (some a)
      (some (s.build.flashStart + 2#24)) [] (.addr (s.build.flashStart + 2#24))) := by
  have hn : s.nvNumber = some a := congrArg State.nvNumber hs
  have hparts : startHandleParts s = [.startMode] := by simp [startHandleParts, hn]
  rw [step_startHandle hok hq hwho hs, hparts]
  exact (starting_mode (s := s.take q turn) (findFree_mode (regionLen_ge hok))).run hturn rfl

end single

/-- Both allocations, each as an event of its own, leave what step 4 of START_UP leaves. -/
theorem step_startHandles {turn : Nat} {q : List Event} (hok : s.build.ok = true) (hturn : 1 ≤ turn)
    (hq : s.queue = .startHandle turn :: .startHandle turn :: q) (hwho : s.who = .task)
    (hs : s = s.starting rx tx u c (emptyMap s.build.regionLen) none none [] r) :
    ∃ v, step s = .next v ∧ v.me.resp = .addr s.build.flashStart
      ∧ step v = .next ((s.take q turn).starting rx tx u c (handlesMap s.build.regionLen)
          (some s.build.flashStart) (some (s.build.flashStart + 2#24)) []
          (.addr (s.build.flashStart + 2#24))) := by
  refine ⟨_, step_startNumber hok hturn hq hwho hs, rfl, ?_⟩
  exact step_startMode (q := q) (s := (s.take (.startHandle turn :: q) turn).starting rx tx u c
    (numberMap s.build.regionLen) (some s.build.flashStart) none [] (.addr s.build.flashStart))
    hok hturn rfl hwho rfl

/-- Settles O7: START_UP's six parts before its loop, and the two of them that allocate, each as an event of its own. -/
theorem startUpLeavesTheListedState : Obligations.StartUpLeavesTheListedState := by
  unfold Obligations.StartUpLeavesTheListedState
  intro b flash turn q d hok hturn s
  have hask : s.canAsk = true := by simp [State.canAsk, s, State.afterReset, Local.idle, hok]
  have hpipe := init_reset (s.take q turn)
  have ⟨_, _, _, _, hitems, _, _⟩ := hpipe
  obtain ⟨u, l, r, hrun⟩ := startUp_run (s := s.take q turn) hok rfl hturn rfl hitems
  refine ⟨_, (step_startUp rfl rfl hask rfl rfl).trans hrun, fun p => ?pipes, rfl, rfl,
    getElem?_handlesMap (regionLen_ge (s := s) hok), rfl, rfl, rfl, rfl, rfl,
    sameFlash_of (by rfl) (by rfl), ?single⟩
  case pipes => cases p <;> exact hpipe
  case single =>
    rintro s' rfl
    obtain ⟨v, hnumber, hresp, hmode⟩ := step_startHandles (s := { s with
      queue := .startHandle turn :: .startHandle turn :: q }) (rx := s.rxf) (tx := s.txf)
      (u := s.rxUsers) (c := s.fr) (r := .pending) hok (by omega) rfl rfl rfl
    exact ⟨v, _, hnumber, hresp, hmode, ⟨rfl, rfl⟩, rfl, rfl, rfl,
      ⟨rfl, rfl, rfl, fun p => by cases p <;> rfl⟩, rfl, sameFlash_of (by rfl) (by rfl),
      ⟨rfl, rfl, rfl⟩, rfl, rfl, rfl⟩

end Sys2Proof.Machine
end
